-- ==== Sys2Proof/Word.lean ====
section
/-! DEFINITION. The word types of the block (spec R9, R58, R111): an intensity byte, a command word, a
counter that wraps modulo `2^32`, and a line level. Everything else the spec calls a natural number is a
`Nat`. -/

namespace Sys2Proof

/-- An 8-bit unsigned value (R9), the atomic unit of the shared buffer (R81). -/
abbrev Byte := BitVec 8

/-- The 16-bit command word `CMD16` (R111): op in `[15:8]`, slot in `[7:0]`. -/
abbrev Cmd16 := BitVec 16

/-- A `UInt32` counter with wrap-around (R9, R271). -/
abbrev Counter := BitVec 32

/-- A line level: `true` is the active (high) level 1 (R113). -/
abbrev Level := Bool

end Sys2Proof
end

