-- ==== Sys2Proof/Syntax.lean ====
section
/-! DEFINITION. The syntax: protocol variants (R3), pulse symbols (R116), documents (R121), operand records
(R120), command words with their records (R110, R111), and `Instr`, one constructor for each row of
spec/opcode_table.json (R112). -/

namespace Sys2Proof

/-- The fifteen protocol variants, in the order of R3. -/
inductive Variant where
  | disabled | dmx | renard | genericSerial | gece | relay | servoPca9685
  | ws2811Pulse | ws2811Serial | ucs1903Pulse | ucs1903Serial | tm1814Pulse | tm1814Serial
  | ws2801Spi | apa102Spi
  deriving DecidableEq, Repr

/-- The two kinds of encoding engine (R39, R251). -/
inductive EngineKind where
  | pulse | serial
  deriving DecidableEq, Repr

/-- The pulse symbols of R116. -/
inductive Symbol where
  | bit0 | bit1 | idle | gap
  deriving DecidableEq, Repr

/-- A value of a ParamObject (R121). The spec names naturals, Bools, strings and lists; a list is a chain of
`cons` closed by `nil`. -/
inductive Value where
  | nat (n : Nat)
  | bool (b : Bool)
  | str (s : String)
  | nil
  | cons (head tail : Value)
  deriving DecidableEq, Repr

/-- A finite map from key to value (R121), as an association list with distinct keys. -/
abbrev ParamObject := List (String × Value)

/-- One channel entry of a configuration document (R121). R299 tests for an absent type, so it is optional. -/
structure Entry where
  typeCode : Option Nat
  params : List (Nat × ParamObject)
  deriving DecidableEq, Repr

/-- The configuration document (R121); `channels` is keyed by slot index. -/
structure ConfigDoc where
  version : Nat
  channels : List (Nat × Entry)
  deriving DecidableEq, Repr

/-- The operand names of R120. -/
inductive Field where
  | doc | v | params | offset | length | b | G | s | g | S | H0 | H1 | n | a
  deriving DecidableEq, Repr

/-- A typed operand value (R120). A Byte operand is a number below 256. -/
inductive Operand where
  | num (n : Nat)
  | flag (b : Bool)
  | nums (xs : List Nat)
  | variant (v : Variant)
  | doc (d : ConfigDoc)
  | params (p : ParamObject)
  deriving DecidableEq, Repr

/-- The operand record of a command (R120). -/
abbrev Record := List (Field × Operand)

/-- One encoded command: its word and its operand record (R110, R111). -/
structure Command where
  word : Cmd16
  record : Record
  deriving DecidableEq, Repr

/-- The operations of the block, one constructor for each row of R112. `slot` is the index of the slot
field; the other arguments are the fields of the operand record. A pulse symbol travels as its code, so that
a code that is no symbol can be refused (R152). -/
inductive Instr where
  | mgrBegin
  | mgrSetConfig (doc : ConfigDoc)
  | mgrGetConfig
  | mgrGetStatus
  | mgrRender
  | mgrPause
  | mgrResume
  | mgrReload
  | mgrApplyConfig (doc : ConfigDoc)
  | mgrResolveEntry (slot : Nat) (doc : ConfigDoc)
  | mgrUpdatePartition
  | mgrNotifyCapacity
  | drvConstruct (slot : Nat) (v : Variant)
  | drvStop (slot : Nat)
  | drvBegin (slot : Nat)
  | drvSetConfig (slot : Nat) (params : ParamObject)
  | drvGetConfig (slot : Nat)
  | drvRender (slot : Nat)
  | drvGetStatus (slot : Nat)
  | drvPause (slot : Nat)
  | drvResume (slot : Nat)
  | drvSetBuffer (slot : Nat) (offset : Nat) (length : Nat)
  | drvMoreData (slot : Nat)
  | drvNextByte (slot : Nat)
  | drvNeeded (slot : Nat)
  | xlatSplit (b : Byte) (G : Nat)
  | xlatLookupPulse (slot : Nat) (code : Nat)
  | xlatLookupSerial (slot : Nat) (g : Nat)
  | xlatBuildSerial (G : Nat) (S : Nat) (H0 : Nat) (H1 : Nat)
  | xlatEncodePulse (slot : Nat) (b : Byte)
  | xlatEncodeSerial (slot : Nat) (b : Byte)
  | peBegin (slot : Nat)
  | peStartFrame (slot : Nat)
  | peNextItem (slot : Nat)
  | peFill (slot : Nat)
  | peIsr (slot : Nat)
  | peIdle (slot : Nat)
  | seBegin (slot : Nat)
  | seStartFrame (slot : Nat)
  | seNextItem (slot : Nat)
  | seFill (slot : Nat)
  | seIsr (slot : Nat)
  | seIdle (slot : Nat)
  | puStart (slot : Nat)
  | puEmit (slot : Nat)
  | suStart (slot : Nat)
  | suShift (slot : Nat)
  | timerTick (n : Nat)
  | irqEntry (slot : Nat)
  | hostBufWrite (a : Nat) (v : Byte)
  deriving DecidableEq, Repr

end Sys2Proof
end

