-- ==== Sys2Proof/WellFormed.lean ====
section
/-! DEFINITION. Well-formed instructions: the slot fits its 8-bit field (R111), a tick is at least 1 (R120,
R184), and the documents are finite maps, that is, no key stands twice (R121). -/

namespace Sys2Proof

/-- No key stands twice. -/
def distinctKeys {κ α : Type} [DecidableEq κ] : List (κ × α) → Bool
  | [] => true
  | (k, _) :: rest => !(rest.any fun p => decide (p.1 = k)) && distinctKeys rest

/-- The maps of an entry are finite maps (R121). -/
def Entry.wellFormed (e : Entry) : Bool :=
  distinctKeys e.params && e.params.all fun p => distinctKeys p.2

/-- The maps of a document are finite maps (R121). -/
def ConfigDoc.wellFormed (d : ConfigDoc) : Bool :=
  distinctKeys d.channels && d.channels.all fun p => p.2.wellFormed

/-- The slot field of an instruction; `none` for the operations R112 marks "no slot". -/
def Instr.slot? : Instr → Option Nat
  | .mgrBegin => none
  | .mgrSetConfig _ => none
  | .mgrGetConfig => none
  | .mgrGetStatus => none
  | .mgrRender => none
  | .mgrPause => none
  | .mgrResume => none
  | .mgrReload => none
  | .mgrApplyConfig _ => none
  | .mgrResolveEntry i _ => some i
  | .mgrUpdatePartition => none
  | .mgrNotifyCapacity => none
  | .drvConstruct i _ => some i
  | .drvStop i => some i
  | .drvBegin i => some i
  | .drvSetConfig i _ => some i
  | .drvGetConfig i => some i
  | .drvRender i => some i
  | .drvGetStatus i => some i
  | .drvPause i => some i
  | .drvResume i => some i
  | .drvSetBuffer i _ _ => some i
  | .drvMoreData i => some i
  | .drvNextByte i => some i
  | .drvNeeded i => some i
  | .xlatSplit _ _ => none
  | .xlatLookupPulse i _ => some i
  | .xlatLookupSerial i _ => some i
  | .xlatBuildSerial _ _ _ _ => none
  | .xlatEncodePulse i _ => some i
  | .xlatEncodeSerial i _ => some i
  | .peBegin i => some i
  | .peStartFrame i => some i
  | .peNextItem i => some i
  | .peFill i => some i
  | .peIsr i => some i
  | .peIdle i => some i
  | .seBegin i => some i
  | .seStartFrame i => some i
  | .seNextItem i => some i
  | .seFill i => some i
  | .seIsr i => some i
  | .seIdle i => some i
  | .puStart i => some i
  | .puEmit i => some i
  | .suStart i => some i
  | .suShift i => some i
  | .timerTick _ => none
  | .irqEntry i => some i
  | .hostBufWrite _ _ => none

/-- The operand record holds values of the types R120 gives: a tick of at least 1, documents that are
finite maps. -/
def Instr.operandsOk : Instr → Bool
  | .mgrSetConfig doc => doc.wellFormed
  | .mgrApplyConfig doc => doc.wellFormed
  | .mgrResolveEntry _ doc => doc.wellFormed
  | .drvSetConfig _ params => distinctKeys params
  | .timerTick n => decide (1 ≤ n)
  | .mgrBegin => true
  | .mgrGetConfig => true
  | .mgrGetStatus => true
  | .mgrRender => true
  | .mgrPause => true
  | .mgrResume => true
  | .mgrReload => true
  | .mgrUpdatePartition => true
  | .mgrNotifyCapacity => true
  | .drvConstruct _ _ => true
  | .drvStop _ => true
  | .drvBegin _ => true
  | .drvGetConfig _ => true
  | .drvRender _ => true
  | .drvGetStatus _ => true
  | .drvPause _ => true
  | .drvResume _ => true
  | .drvSetBuffer _ _ _ => true
  | .drvMoreData _ => true
  | .drvNextByte _ => true
  | .drvNeeded _ => true
  | .xlatSplit _ _ => true
  | .xlatLookupPulse _ _ => true
  | .xlatLookupSerial _ _ => true
  | .xlatBuildSerial _ _ _ _ => true
  | .xlatEncodePulse _ _ => true
  | .xlatEncodeSerial _ _ => true
  | .peBegin _ => true
  | .peStartFrame _ => true
  | .peNextItem _ => true
  | .peFill _ => true
  | .peIsr _ => true
  | .peIdle _ => true
  | .seBegin _ => true
  | .seStartFrame _ => true
  | .seNextItem _ => true
  | .seFill _ => true
  | .seIsr _ => true
  | .seIdle _ => true
  | .puStart _ => true
  | .puEmit _ => true
  | .suStart _ => true
  | .suShift _ => true
  | .irqEntry _ => true
  | .hostBufWrite _ _ => true

/-- The slot index fits the 8-bit slot field of the command word (R111). -/
def Instr.slotFits (i : Instr) : Bool :=
  match i.slot? with
  | none => true
  | some k => decide (k < 256)

/-- An instruction that a command word and an operand record can carry. -/
def Instr.wellFormed (i : Instr) : Bool := i.slotFits && i.operandsOk

end Sys2Proof
end

