-- ==== Sys2Proof/Decode.lean ====
section
/-! DEFINITION. The decoder, total on every command word and operand record (R111, R112, R120, R124, R125),
then the encoder, the assembler's names (R127), and the words of spec/opcode_table.json as the host numbers
them. The checks of R338 that need the machine's state (a slot at or above `NumSlots`, an engine kind,
NotBegun) and the types of documents and ticks are the machine's; the decoder says all that the word and the
record say alone. -/

namespace Sys2Proof

/-- The op field `[15:8]` of a command word (R111). -/
def opOf (w : Cmd16) : Nat := (w.extractLsb' 8 8).toNat

/-- The slot field `[7:0]` of a command word (R111). -/
def slotOf (w : Cmd16) : Nat := (w.extractLsb' 0 8).toNat

/-- What a command word and its record decode to (R125). -/
inductive Decoded where
  /-- One row of R112, with its operands. -/
  | instr (i : Instr)
  /-- An op value that R112 does not list (R124). -/
  | unassigned
  /-- A nonzero slot field on a "no slot" operation (R124). -/
  | badSlot
  /-- The record lacks a field the row needs, or holds one of the wrong type (R120). The op and the slot are
  kept, because R338 tests the slot and the engine kind before the record. -/
  | illFormed (op slot : Nat)
  deriving DecidableEq, Repr

/-- The value of a field, `none` when the record lacks it (R120). -/
def Record.get (r : Record) (f : Field) : Option Operand :=
  match r with
  | [] => none
  | (k, o) :: rest => if k = f then some o else Record.get rest f

/-- A field of type Nat (R120). -/
def Record.getNat (r : Record) (f : Field) : Option Nat :=
  match Record.get r f with
  | some (.num n) => some n
  | _ => none

/-- A field of type Byte: a number below 256 (R9, R120). -/
def Record.getByte (r : Record) (f : Field) : Option Byte :=
  match Record.get r f with
  | some (.num n) => if n < 256 then some (BitVec.ofNat 8 n) else none
  | _ => none

/-- A field of type Variant (R120). -/
def Record.getVariant (r : Record) (f : Field) : Option Variant :=
  match Record.get r f with
  | some (.variant v) => some v
  | _ => none

/-- A field of type ConfigDoc (R120). -/
def Record.getDoc (r : Record) (f : Field) : Option ConfigDoc :=
  match Record.get r f with
  | some (.doc d) => some d
  | _ => none

/-- A field of type ParamObject (R120). -/
def Record.getParams (r : Record) (f : Field) : Option ParamObject :=
  match Record.get r f with
  | some (.params p) => some p
  | _ => none

/-- A "no slot" operation demands a zero slot field (R124). -/
def noSlot (slot : Nat) (d : Decoded) : Decoded := if slot = 0 then d else .badSlot

/-- An operation whose record has been read (R120). -/
def fromRecord (op slot : Nat) (i : Option Instr) : Decoded :=
  match i with
  | some i => .instr i
  | none => .illFormed op slot

/-- The rows of R112, by op. -/
def decodeRow (op slot : Nat) (r : Record) : Decoded :=
  match op with
  | 0x01 => noSlot slot (.instr .mgrBegin)
  | 0x02 => noSlot slot (fromRecord op slot ((Record.getDoc r .doc).map .mgrSetConfig))
  | 0x03 => noSlot slot (.instr .mgrGetConfig)
  | 0x04 => noSlot slot (.instr .mgrGetStatus)
  | 0x05 => noSlot slot (.instr .mgrRender)
  | 0x06 => noSlot slot (.instr .mgrPause)
  | 0x07 => noSlot slot (.instr .mgrResume)
  | 0x08 => noSlot slot (.instr .mgrReload)
  | 0x09 => noSlot slot (fromRecord op slot ((Record.getDoc r .doc).map .mgrApplyConfig))
  | 0x0A => fromRecord op slot ((Record.getDoc r .doc).map (.mgrResolveEntry slot))
  | 0x0B => noSlot slot (.instr .mgrUpdatePartition)
  | 0x0C => noSlot slot (.instr .mgrNotifyCapacity)
  | 0x10 => fromRecord op slot ((Record.getVariant r .v).map (.drvConstruct slot))
  | 0x11 => .instr (.drvStop slot)
  | 0x12 => .instr (.drvBegin slot)
  | 0x13 => fromRecord op slot ((Record.getParams r .params).map (.drvSetConfig slot))
  | 0x14 => .instr (.drvGetConfig slot)
  | 0x15 => .instr (.drvRender slot)
  | 0x16 => .instr (.drvGetStatus slot)
  | 0x17 => .instr (.drvPause slot)
  | 0x18 => .instr (.drvResume slot)
  | 0x19 => fromRecord op slot ((Record.getNat r .offset).bind fun offset => (Record.getNat r .length).bind fun length => some (.drvSetBuffer slot offset length))
  | 0x1A => .instr (.drvMoreData slot)
  | 0x1B => .instr (.drvNextByte slot)
  | 0x1C => .instr (.drvNeeded slot)
  | 0x20 => noSlot slot (fromRecord op slot ((Record.getByte r .b).bind fun b => (Record.getNat r .G).bind fun gw => some (.xlatSplit b gw)))
  | 0x21 => fromRecord op slot ((Record.getNat r .s).map (.xlatLookupPulse slot))
  | 0x22 => fromRecord op slot ((Record.getNat r .g).map (.xlatLookupSerial slot))
  | 0x23 => noSlot slot (fromRecord op slot ((Record.getNat r .G).bind fun gw => (Record.getNat r .S).bind fun sw => (Record.getNat r .H0).bind fun h0 => (Record.getNat r .H1).bind fun h1 => some (.xlatBuildSerial gw sw h0 h1)))
  | 0x24 => fromRecord op slot ((Record.getByte r .b).map (.xlatEncodePulse slot))
  | 0x25 => fromRecord op slot ((Record.getByte r .b).map (.xlatEncodeSerial slot))
  | 0x30 => .instr (.peBegin slot)
  | 0x31 => .instr (.peStartFrame slot)
  | 0x32 => .instr (.peNextItem slot)
  | 0x33 => .instr (.peFill slot)
  | 0x34 => .instr (.peIsr slot)
  | 0x35 => .instr (.peIdle slot)
  | 0x40 => .instr (.seBegin slot)
  | 0x41 => .instr (.seStartFrame slot)
  | 0x42 => .instr (.seNextItem slot)
  | 0x43 => .instr (.seFill slot)
  | 0x44 => .instr (.seIsr slot)
  | 0x45 => .instr (.seIdle slot)
  | 0x50 => .instr (.puStart slot)
  | 0x51 => .instr (.puEmit slot)
  | 0x52 => .instr (.suStart slot)
  | 0x53 => .instr (.suShift slot)
  | 0x54 => noSlot slot (fromRecord op slot ((Record.getNat r .n).map .timerTick))
  | 0x55 => .instr (.irqEntry slot)
  | 0x60 => noSlot slot (fromRecord op slot ((Record.getNat r .a).bind fun a => (Record.getByte r .v).bind fun v => some (.hostBufWrite a v)))
  | _ => .unassigned

/-- Decode a command (R125). -/
def decode (c : Command) : Decoded := decodeRow (opOf c.word) (slotOf c.word) c.record

/-- The engine kind an op needs on its slot (R124, R337 code 3): the slot operations of PE_, SE_, PU_, SU_
and XLAT_. -/
def engineNeed (op : Nat) : Option EngineKind :=
  match op with
  | 0x21 => some .pulse
  | 0x24 => some .pulse
  | 0x30 => some .pulse
  | 0x31 => some .pulse
  | 0x32 => some .pulse
  | 0x33 => some .pulse
  | 0x34 => some .pulse
  | 0x35 => some .pulse
  | 0x50 => some .pulse
  | 0x51 => some .pulse
  | 0x22 => some .serial
  | 0x25 => some .serial
  | 0x40 => some .serial
  | 0x41 => some .serial
  | 0x42 => some .serial
  | 0x43 => some .serial
  | 0x44 => some .serial
  | 0x45 => some .serial
  | 0x52 => some .serial
  | 0x53 => some .serial
  | _ => none

/-- The op of each instruction (R112). -/
def Instr.opcode : Instr → Nat
  | .mgrBegin => 0x01
  | .mgrSetConfig _ => 0x02
  | .mgrGetConfig => 0x03
  | .mgrGetStatus => 0x04
  | .mgrRender => 0x05
  | .mgrPause => 0x06
  | .mgrResume => 0x07
  | .mgrReload => 0x08
  | .mgrApplyConfig _ => 0x09
  | .mgrResolveEntry _ _ => 0x0A
  | .mgrUpdatePartition => 0x0B
  | .mgrNotifyCapacity => 0x0C
  | .drvConstruct _ _ => 0x10
  | .drvStop _ => 0x11
  | .drvBegin _ => 0x12
  | .drvSetConfig _ _ => 0x13
  | .drvGetConfig _ => 0x14
  | .drvRender _ => 0x15
  | .drvGetStatus _ => 0x16
  | .drvPause _ => 0x17
  | .drvResume _ => 0x18
  | .drvSetBuffer _ _ _ => 0x19
  | .drvMoreData _ => 0x1A
  | .drvNextByte _ => 0x1B
  | .drvNeeded _ => 0x1C
  | .xlatSplit _ _ => 0x20
  | .xlatLookupPulse _ _ => 0x21
  | .xlatLookupSerial _ _ => 0x22
  | .xlatBuildSerial _ _ _ _ => 0x23
  | .xlatEncodePulse _ _ => 0x24
  | .xlatEncodeSerial _ _ => 0x25
  | .peBegin _ => 0x30
  | .peStartFrame _ => 0x31
  | .peNextItem _ => 0x32
  | .peFill _ => 0x33
  | .peIsr _ => 0x34
  | .peIdle _ => 0x35
  | .seBegin _ => 0x40
  | .seStartFrame _ => 0x41
  | .seNextItem _ => 0x42
  | .seFill _ => 0x43
  | .seIsr _ => 0x44
  | .seIdle _ => 0x45
  | .puStart _ => 0x50
  | .puEmit _ => 0x51
  | .suStart _ => 0x52
  | .suShift _ => 0x53
  | .timerTick _ => 0x54
  | .irqEntry _ => 0x55
  | .hostBufWrite _ _ => 0x60

/-- The operand record of each instruction (R120). -/
def Instr.record : Instr → Record
  | .mgrBegin => []
  | .mgrSetConfig doc => [(.doc, .doc doc)]
  | .mgrGetConfig => []
  | .mgrGetStatus => []
  | .mgrRender => []
  | .mgrPause => []
  | .mgrResume => []
  | .mgrReload => []
  | .mgrApplyConfig doc => [(.doc, .doc doc)]
  | .mgrResolveEntry _ doc => [(.doc, .doc doc)]
  | .mgrUpdatePartition => []
  | .mgrNotifyCapacity => []
  | .drvConstruct _ v => [(.v, .variant v)]
  | .drvStop _ => []
  | .drvBegin _ => []
  | .drvSetConfig _ params => [(.params, .params params)]
  | .drvGetConfig _ => []
  | .drvRender _ => []
  | .drvGetStatus _ => []
  | .drvPause _ => []
  | .drvResume _ => []
  | .drvSetBuffer _ offset length => [(.offset, .num offset), (.length, .num length)]
  | .drvMoreData _ => []
  | .drvNextByte _ => []
  | .drvNeeded _ => []
  | .xlatSplit b gw => [(.b, .num b.toNat), (.G, .num gw)]
  | .xlatLookupPulse _ code => [(.s, .num code)]
  | .xlatLookupSerial _ g => [(.g, .num g)]
  | .xlatBuildSerial gw sw h0 h1 => [(.G, .num gw), (.S, .num sw), (.H0, .num h0), (.H1, .num h1)]
  | .xlatEncodePulse _ b => [(.b, .num b.toNat)]
  | .xlatEncodeSerial _ b => [(.b, .num b.toNat)]
  | .peBegin _ => []
  | .peStartFrame _ => []
  | .peNextItem _ => []
  | .peFill _ => []
  | .peIsr _ => []
  | .peIdle _ => []
  | .seBegin _ => []
  | .seStartFrame _ => []
  | .seNextItem _ => []
  | .seFill _ => []
  | .seIsr _ => []
  | .seIdle _ => []
  | .puStart _ => []
  | .puEmit _ => []
  | .suStart _ => []
  | .suShift _ => []
  | .timerTick n => [(.n, .num n)]
  | .irqEntry _ => []
  | .hostBufWrite a v => [(.a, .num a), (.v, .num v.toNat)]

/-- The command word of an instruction: op in `[15:8]`, slot in `[7:0]`, 0 where there is no slot (R111). -/
def Instr.word (i : Instr) : Cmd16 := BitVec.ofNat 8 i.opcode ++ BitVec.ofNat 8 (i.slot?.getD 0)

/-- Encode an instruction: one word and its operand record (R111, R120). -/
def encode (i : Instr) : Command := { word := i.word, record := i.record }

/-- The mnemonic of each instruction, as R112 spells it. -/
def Instr.mnemonic : Instr → String
  | .mgrBegin => "MGR_BEGIN"
  | .mgrSetConfig _ => "MGR_SET_CONFIG"
  | .mgrGetConfig => "MGR_GET_CONFIG"
  | .mgrGetStatus => "MGR_GET_STATUS"
  | .mgrRender => "MGR_RENDER"
  | .mgrPause => "MGR_PAUSE"
  | .mgrResume => "MGR_RESUME"
  | .mgrReload => "MGR_RELOAD"
  | .mgrApplyConfig _ => "MGR_APPLY_CONFIG"
  | .mgrResolveEntry _ _ => "MGR_RESOLVE_ENTRY"
  | .mgrUpdatePartition => "MGR_UPDATE_PARTITION"
  | .mgrNotifyCapacity => "MGR_NOTIFY_CAPACITY"
  | .drvConstruct _ _ => "DRV_CONSTRUCT"
  | .drvStop _ => "DRV_STOP"
  | .drvBegin _ => "DRV_BEGIN"
  | .drvSetConfig _ _ => "DRV_SET_CONFIG"
  | .drvGetConfig _ => "DRV_GET_CONFIG"
  | .drvRender _ => "DRV_RENDER"
  | .drvGetStatus _ => "DRV_GET_STATUS"
  | .drvPause _ => "DRV_PAUSE"
  | .drvResume _ => "DRV_RESUME"
  | .drvSetBuffer _ _ _ => "DRV_SET_BUFFER"
  | .drvMoreData _ => "DRV_MORE_DATA"
  | .drvNextByte _ => "DRV_NEXT_BYTE"
  | .drvNeeded _ => "DRV_NEEDED"
  | .xlatSplit _ _ => "XLAT_SPLIT"
  | .xlatLookupPulse _ _ => "XLAT_LOOKUP_PULSE"
  | .xlatLookupSerial _ _ => "XLAT_LOOKUP_SERIAL"
  | .xlatBuildSerial _ _ _ _ => "XLAT_BUILD_SERIAL"
  | .xlatEncodePulse _ _ => "XLAT_ENCODE_PULSE"
  | .xlatEncodeSerial _ _ => "XLAT_ENCODE_SERIAL"
  | .peBegin _ => "PE_BEGIN"
  | .peStartFrame _ => "PE_START_FRAME"
  | .peNextItem _ => "PE_NEXT_ITEM"
  | .peFill _ => "PE_FILL"
  | .peIsr _ => "PE_ISR"
  | .peIdle _ => "PE_IDLE"
  | .seBegin _ => "SE_BEGIN"
  | .seStartFrame _ => "SE_START_FRAME"
  | .seNextItem _ => "SE_NEXT_ITEM"
  | .seFill _ => "SE_FILL"
  | .seIsr _ => "SE_ISR"
  | .seIdle _ => "SE_IDLE"
  | .puStart _ => "PU_START"
  | .puEmit _ => "PU_EMIT"
  | .suStart _ => "SU_START"
  | .suShift _ => "SU_SHIFT"
  | .timerTick _ => "TIMER_TICK"
  | .irqEntry _ => "IRQ_ENTRY"
  | .hostBufWrite _ _ => "HOST_BUF_WRITE"

/-- The empty document of version 0: a document operand of zeros. -/
def zeroDoc : ConfigDoc := { version := 0, channels := [] }

/-- The operand record whose every field is zero or empty: what the host's numbering means by operand words
of zeros, since the operand records of R120 have no bits of their own. -/
def zeroRecord (op : Nat) : Record :=
  match op with
  | 0x02 => [(.doc, .doc zeroDoc)]
  | 0x09 => [(.doc, .doc zeroDoc)]
  | 0x0A => [(.doc, .doc zeroDoc)]
  | 0x10 => [(.v, .variant .disabled)]
  | 0x13 => [(.params, .params [])]
  | 0x19 => [(.offset, .num 0), (.length, .num 0)]
  | 0x20 => [(.b, .num 0), (.G, .num 0)]
  | 0x21 => [(.s, .num 0)]
  | 0x22 => [(.g, .num 0)]
  | 0x23 => [(.G, .num 0), (.S, .num 0), (.H0, .num 0), (.H1, .num 0)]
  | 0x24 => [(.b, .num 0)]
  | 0x25 => [(.b, .num 0)]
  | 0x54 => [(.n, .num 0)]
  | 0x60 => [(.a, .num 0), (.v, .num 0)]
  | _ => []

/-- The command whose word is the low `nbits` bits of `w` and whose operand record is all zeros. -/
def tableCommand (nbits w : Nat) : Command :=
  let word : Cmd16 := BitVec.ofNat 16 (w % 2 ^ nbits)
  { word := word, record := zeroRecord (opOf word) }

/-- The instruction the decoder reads from the table's word `w` of `nbits` bits, its operand record all zeros. -/
def decodeTableWord (nbits w : Nat) : Option Instr :=
  match decode (tableCommand nbits w) with
  | .instr i => some i
  | .unassigned => none
  | .badSlot => none
  | .illFormed _ _ => none

end Sys2Proof
end

