-- ==== Sys2Proof/Config.lean ====
section
/-! DEFINITION. What an implementation fixes (R7, R31, R36, R113, R190, R220), as one record of plain data
that no operation writes, and the free values of a run (R8), which have no body. The parameters whose type in
R7 is a function are tables here (notes/assumptions/2). -/

namespace Sys2Proof

/-- A value for each of the fifteen variants. -/
structure PerVariant (α : Type) where
  disabled : α
  dmx : α
  renard : α
  genericSerial : α
  gece : α
  relay : α
  servoPca9685 : α
  ws2811Pulse : α
  ws2811Serial : α
  ucs1903Pulse : α
  ucs1903Serial : α
  tm1814Pulse : α
  tm1814Serial : α
  ws2801Spi : α
  apa102Spi : α
  deriving DecidableEq, Repr

/-- The value at a variant. -/
def PerVariant.at {α : Type} (t : PerVariant α) : Variant → α
  | .disabled => t.disabled
  | .dmx => t.dmx
  | .renard => t.renard
  | .genericSerial => t.genericSerial
  | .gece => t.gece
  | .relay => t.relay
  | .servoPca9685 => t.servoPca9685
  | .ws2811Pulse => t.ws2811Pulse
  | .ws2811Serial => t.ws2811Serial
  | .ucs1903Pulse => t.ucs1903Pulse
  | .ucs1903Serial => t.ucs1903Serial
  | .tm1814Pulse => t.tm1814Pulse
  | .tm1814Serial => t.tm1814Serial
  | .ws2801Spi => t.ws2801Spi
  | .apa102Spi => t.apa102Spi

/-- The same value at every variant. -/
def PerVariant.const {α : Type} (a : α) : PerVariant α :=
  ⟨a, a, a, a, a, a, a, a, a, a, a, a, a, a, a⟩

/-- A pulse descriptor (R113): two phases, each a level in 0..1 and a duration in ticks. The levels are
naturals because PE_BEGIN tests them (R192). -/
structure PulseDescriptor where
  level0 : Nat
  dur0 : Nat
  level1 : Nat
  dur1 : Nat
  deriving DecidableEq, Repr

/-- A pulse translation table: a descriptor for each symbol (R116, R150). -/
structure PulseTable where
  bit0 : PulseDescriptor
  bit1 : PulseDescriptor
  idle : PulseDescriptor
  gap : PulseDescriptor
  deriving DecidableEq, Repr

/-- The protocol constants of a pulse variant (R190). -/
structure PulseConstants where
  ptable : PulseTable
  preIdle : Nat
  postIdle : Nat
  gapFlag : Bool
  W : Nat
  deriving DecidableEq, Repr

/-- The protocol constants of a serial variant (R220). -/
structure SerialConstants where
  G : Nat
  S : Nat
  H0 : Nat
  H1 : Nat
  bitPeriodNs : Nat
  FP : List Byte
  FS : List Byte
  PP : List Byte
  PS : List Byte
  deriving DecidableEq, Repr

/-- The options of an encoder variant's driver (R36). -/
structure EncoderCfg where
  pixelCount : Nat
  channelsPerPixel : Nat
  colorOrder : List Nat
  gamma : List Byte
  groupSize : Nat
  invert : Bool
  deriving DecidableEq, Repr

/-- A driver's configuration (R36): empty for Disabled, the options of an encoder variant, or the object an
out-of-scope variant stores (R278). -/
inductive DriverConfig where
  | empty
  | encoder (c : EncoderCfg)
  | stored (p : ParamObject)
  deriving DecidableEq, Repr

/-- The peripheral of a slot (R31). -/
inductive Periph where
  | pulseUnit (u : Nat)
  | serialUnit (u : Nat)
  | spiCapable
  | relayCapable
  | none
  deriving DecidableEq, Repr

/-- The board's description of one slot (R31). -/
structure SlotDesc where
  index : Nat
  gpio : Nat
  periph : Periph
  deriving DecidableEq, Repr

/-- A function of a variant and a configuration, as a table: the listed pairs, and for every other
configuration one value for its variant (notes/assumptions/2). -/
structure CfgTable where
  listed : List ((Variant × DriverConfig) × Nat)
  otherwise : PerVariant Nat
  deriving DecidableEq, Repr

/-- The implementation parameters of R7. -/
structure Board where
  numSlots : Nat
  slotTable : List SlotDesc
  totalBufferSize : Nat
  ringCapacity : Nat
  ringLowThreshold : Nat
  fifoCapacity : Nat
  fifoLowThreshold : Nat
  durationMax : Nat
  timeBits : Nat
  configFormatVersion : Nat
  protocolCode : PerVariant Nat
  /-- The pairs `(slot, variant)` for which `Legal` is true. -/
  legal : List (Nat × Variant)
  ws2811Pulse : PulseConstants
  ucs1903Pulse : PulseConstants
  tm1814Pulse : PulseConstants
  ws2811Serial : SerialConstants
  ucs1903Serial : SerialConstants
  tm1814Serial : SerialConstants
  minFrameDuration : CfgTable
  neededOther : CfgTable
  /-- `DefaultCfg` of the encoder variants; R255 and R278 fix it for the others. -/
  defaultCfg : PerVariant EncoderCfg
  opaqueKeys : PerVariant (List String)
  assumeTimelyIsr : Bool
  deriving DecidableEq, Repr

namespace Config

/-- The draw `PeriphInitOk(slot)` of R8 when the run's inputs name none: draw number `k`, slot `i`. -/
opaque freePeriphInit (k i : Nat) : Bool

/-- The draw `PersistLoad()` of R8 when the run's inputs name none: draw number `k`; `none` is a load failure. -/
opaque freePersistLoad (k : Nat) : Option ConfigDoc

/-- The identity gamma map of spec 95, set B. -/
def identityGamma : List Byte := (List.range 256).map (BitVec.ofNat 8)

/-- The encoder configuration of spec 95, set B. -/
def exampleCfg : EncoderCfg :=
  { pixelCount := 0, channelsPerPixel := 1, colorOrder := [0], gamma := identityGamma,
    groupSize := 1, invert := false }

/-- The pulse constants of spec 95, set W. -/
def exampleW : PulseConstants :=
  { ptable := { bit0 := ⟨1, 8, 0, 17⟩, bit1 := ⟨1, 17, 0, 8⟩, idle := ⟨0, 25, 0, 25⟩, gap := ⟨0, 1, 0, 1⟩ },
    preIdle := 0, postIdle := 2, gapFlag := false, W := 8 }

/-- The pulse constants of spec 95, set U. -/
def exampleU : PulseConstants :=
  { ptable := { bit0 := ⟨1, 6, 0, 19⟩, bit1 := ⟨1, 19, 0, 6⟩, idle := ⟨0, 25, 0, 25⟩, gap := ⟨0, 1, 0, 1⟩ },
    preIdle := 0, postIdle := 1, gapFlag := false, W := 8 }

/-- The serial constants of spec 95, set S. -/
def exampleS : SerialConstants :=
  { G := 2, S := 4, H0 := 1, H1 := 3, bitPeriodNs := 1250, FP := [], FS := [], PP := [], PS := [] }

/-- The codes of spec 95, set B, which leaves the codes above 3 to the reader. -/
def exampleCodes : PerVariant Nat :=
  { disabled := 0, ws2811Pulse := 1, ws2811Serial := 2, ucs1903Pulse := 3, ucs1903Serial := 4, tm1814Pulse := 5,
    tm1814Serial := 6, dmx := 7, renard := 8, genericSerial := 9, gece := 10, relay := 11, servoPca9685 := 12,
    ws2801Spi := 13, apa102Spi := 14 }

/-- DESIGN CHOICE (notes/assumptions/1): the board `State.reset` carries. The spec leaves every parameter OPEN;
these are the example values of spec 95 (sets B, W, U, S) with its encoding vectors' two slots, slot 0 pulse and
slot 1 serial. -/
def exampleBoard : Board :=
  { numSlots := 2
    slotTable := [⟨0, 2, .pulseUnit 0⟩, ⟨1, 1, .serialUnit 0⟩]
    totalBufferSize := 8
    ringCapacity := 8, ringLowThreshold := 2
    fifoCapacity := 4, fifoLowThreshold := 1
    durationMax := 32767
    timeBits := 32
    configFormatVersion := 1
    protocolCode := exampleCodes
    legal := [(0, .disabled), (0, .ws2811Pulse), (0, .ucs1903Pulse), (0, .tm1814Pulse),
              (1, .disabled), (1, .ws2811Serial), (1, .ucs1903Serial), (1, .tm1814Serial)]
    ws2811Pulse := exampleW, ucs1903Pulse := exampleU, tm1814Pulse := exampleW
    ws2811Serial := exampleS, ucs1903Serial := exampleS, tm1814Serial := exampleS
    minFrameDuration := { listed := [], otherwise := .const 300 }
    neededOther := { listed := [], otherwise := .const 0 }
    defaultCfg := .const exampleCfg
    opaqueKeys := .const []
    assumeTimelyIsr := true }

end Config

end Sys2Proof
end

