-- ==== Sys2Proof/Machine/State.lean ====
section
/-! DEFINITION. The state of the block as plain data (R30 to R50, R57), the reasons a step can end without a next
state, and the state at power-on (R370). A spec fault (R330) and a spec refusal (R337) are recorded in the
state and the machine goes on; `Fault` and `Refusal` here are the model's own stops. -/

namespace Sys2Proof.Machine

/-- The transmission state of an engine (R40). -/
inductive TState where
  | idle | filling | draining | frameComplete
  deriving DecidableEq, Repr

/-- The part of a pulse frame being generated (R42). -/
inductive Phase where
  | preIdle | data | gap | postIdle | done
  deriving DecidableEq, Repr

/-- The part of a serial frame being generated (R43). -/
inductive SPhase where
  | framePrefix | pixelPrefix | pixelData | pixelSuffix | frameSuffix | done
  deriving DecidableEq, Repr

/-- The sequencer fields of a pulse engine, the cursor apart (R42). -/
structure PulseSeq where
  phase : Phase
  idleIdx : Nat
  curByte : Option Byte
  bitIdx : Nat
  deriving DecidableEq, Repr

/-- The parameters PE_BEGIN latches (R45). -/
structure PulseLatch where
  ptable : PulseTable
  preIdle : Nat
  postIdle : Nat
  gapFlag : Bool
  W : Nat
  deriving DecidableEq, Repr

/-- The sequencer fields of a serial engine, the cursor apart (R43). -/
structure SerialSeq where
  sphase : SPhase
  seqIdx : Nat
  curByte : Option Byte
  groupIdx : Nat
  deriving DecidableEq, Repr

/-- The parameters SE_BEGIN latches (R46). -/
structure SerialLatch where
  G : Nat
  S : Nat
  D : Nat
  stable : List Byte
  FP : List Byte
  FS : List Byte
  PP : List Byte
  PS : List Byte
  C : Nat
  deriving DecidableEq, Repr

/-- What the two kinds of engine do not share (R42, R43, R45, R46). The latched parameters are `none` while they
are unset: the spec says so of a fresh engine. -/
inductive EngineCore where
  | pulse (seq : PulseSeq) (latch : Option PulseLatch)
  | serial (seq : SerialSeq) (latch : Option SerialLatch)
  deriving DecidableEq, Repr

/-- An encoding engine (R39). Its kind is its core's. -/
structure Engine where
  unit : Nat
  tstate : TState
  cursor : Nat
  frameStart : Option Nat
  enLow : Bool
  enEnd : Bool
  core : EngineCore
  deriving DecidableEq, Repr

/-- The lifecycle status of a driver (R35). -/
inductive DrvStatus where
  | constructed | ready | failed
  deriving DecidableEq, Repr

/-- A driver (R38). -/
structure DriverState where
  variant : Variant
  status : DrvStatus
  cfg : DriverConfig
  needed : Nat
  offset : Nat
  length : Nat
  paused : Bool
  frameCount : Counter
  droppedCount : Counter
  hwErrorCount : Counter
  hwInitFailed : Bool
  eng : Option Engine
  deriving DecidableEq, Repr

/-- The driver of every slot at power-on: what DRV_CONSTRUCT gives for Disabled (R38, R370). -/
def DriverState.powerOn : DriverState :=
  { variant := .disabled, status := .constructed, cfg := .empty, needed := 0, offset := 0, length := 0,
    paused := false, frameCount := 0, droppedCount := 0, hwErrorCount := 0, hwInitFailed := false, eng := none }

/-- A pulse unit with its observation trace (R47, R50). -/
structure PulseUnit where
  ring : List PulseDescriptor
  busy : Bool
  pendLow : Bool
  pendEnd : Bool
  invert : Bool
  line : Level
  trace : List (Level × Nat)
  deriving DecidableEq, Repr

/-- A serial unit with its observation trace (R48, R50). -/
structure SerialUnit where
  fifo : List Byte
  busy : Bool
  pendLow : Bool
  pendEnd : Bool
  baud : Nat
  D : Nat
  invert : Bool
  line : Level
  trace : List Level
  deriving DecidableEq, Repr

/-- A pulse unit at power-on whose line is at `l` (R370). -/
def PulseUnit.powerOn (l : Level) : PulseUnit :=
  { ring := [], busy := false, pendLow := false, pendEnd := false, invert := false, line := l, trace := [] }

/-- A serial unit at power-on whose line is at `l` (R370). -/
def SerialUnit.powerOn (l : Level) : SerialUnit :=
  { fifo := [], busy := false, pendLow := false, pendEnd := false, baud := 0, D := 0, invert := false, line := l,
    trace := [] }

/-- The operation an OwnershipViolation names (R331). -/
inductive OwnerOp where
  | peBegin | seBegin | drvBegin | drvSetConfig | drvSetBuffer
  deriving DecidableEq, Repr

/-- A recorded fault with its information (R331). -/
inductive FaultRecord where
  | underrun (slot : Nat)
  | ownershipViolation (slot : Nat) (op : OwnerOp)
  | destroyWhileDraining (slot : Nat)
  | bufferWriteDuringFrame (slot a : Nat)
  | bufferOutOfBounds (a : Nat)
  deriving DecidableEq, Repr

/-- The details of a ConfigError (R299, R333). -/
inductive ConfigProblem where
  | versionMismatch | missingEntry | malformedEntry | unknownType | illegalForSlot | badParams
  deriving DecidableEq, Repr

/-- What a diagnostic reports (R333). -/
inductive DiagDetail where
  | configError (p : ConfigProblem)
  | capacityShortfall (need grant : Nat)
  | hwInitError
  deriving DecidableEq, Repr

/-- A diagnostic record (R333). -/
structure Diagnostic where
  slot : Nat
  detail : DiagDetail
  deriving DecidableEq, Repr

/-- The reasons of the refusal mark (R337). -/
inductive RefusalReason where
  | unassignedOp | badSlot | wrongEngineKind | illFormedOperand | notBegun | illFormedParameter
  | illFormedProtocolConstants | illFormedSerialTiming | illegalVariant | illFormedConfig
  | illFormedGroupWidth | notASymbol | groupOutOfRange
  deriving DecidableEq, Repr

/-- One entry of the status document (R122). -/
structure SlotStatus where
  typeCode : Nat
  status : DrvStatus
  frameCount : Counter
  droppedCount : Counter
  hwErrorCount : Counter
  hwInitFailed : Bool
  diagnostics : List Diagnostic
  deriving DecidableEq, Repr

/-- The value an operation returned to its issuer. -/
inductive Reply where
  | flag (b : Bool)
  | byte (b : Byte)
  | nat (n : Nat)
  | groups (gs : List Nat)
  | descriptor (p : PulseDescriptor)
  | descriptors (ps : List PulseDescriptor)
  | pulseItem (p : Option PulseDescriptor)
  | serialItem (x : Option Byte)
  | bytes (xs : List Byte)
  | serialTable (stable : List Byte) (D : Nat)
  | params (p : ParamObject)
  | config (d : ConfigDoc)
  | slotStatus (st : SlotStatus)
  | statusDoc (sts : List SlotStatus)
  | binding (v : Variant) (p : ParamObject)
  deriving DecidableEq, Repr

/-- One step the environment asks of the block (R13): a command, or the main loop's next render sub-step,
which has no command word (R294). -/
inductive Move where
  | command (c : Command)
  | renderSubstep
  deriving DecidableEq, Repr

/-- The state of the block. The three association lists keyed by `Nat` (slots, units, buffer) list only what
differs from what an unlisted key reads as: the power-on driver, the power-on unit with its line low, and the
byte 0 (notes/assumptions/3, 5, 6). -/
structure State where
  /-- R7, R31: the parameters. No operation writes them (R30). -/
  board : Board
  /-- R32 -/
  begun : Bool
  /-- R32: the driver of each slot, read with `State.slot`. -/
  slots : List (Nat × DriverState)
  /-- R32, R33 -/
  pending : Option ConfigDoc
  /-- R32, R34 -/
  userPaused : Bool
  /-- R32, R34 -/
  reloadPaused : Bool
  /-- R32 -/
  totalUsed : Nat
  /-- R32, R80: the SharedFrameBuffer, read with `State.byte`. -/
  buf : List Host.Cell
  /-- R32, R333 -/
  diag : List Diagnostic
  /-- R32, R57, R330: the sticky fault set, without repeats. -/
  faults : List FaultRecord
  /-- R32, R57, R337 -/
  refused : Option RefusalReason
  /-- R32, R301 -/
  capacity : Option (Nat × List Nat)
  /-- R32, R294 -/
  renderPos : Option Nat
  /-- R32, R290 -/
  persisted : Option ConfigDoc
  /-- R47, R50: the pulse units by unit id, read with `State.pu`. -/
  pulseUnits : List (Nat × PulseUnit)
  /-- R48, R50: the serial units by unit id, read with `State.su`. -/
  serialUnits : List (Nat × SerialUnit)
  /-- R49 -/
  now : Nat
  /-- The model's own: the steps the environment takes next, first to last (R13, R52). -/
  schedule : List Move
  /-- The model's own: what the last value-returning operation returned (R354). -/
  reply : Option Reply
  /-- The model's own: the environment's coming answers to `PeriphInitOk` (R8). -/
  initAnswers : List Bool
  /-- The model's own: the environment's coming answers to `PersistLoad` (R8). -/
  loadAnswers : List (Option ConfigDoc)
  /-- The model's own: how many free draws have been taken. -/
  drawCount : Nat
  deriving DecidableEq, Repr

/-- The model's own faults. -/
inductive Fault where
  /-- Raised by a table lookup (gamma, colour order, serial table) that finds no entry. The spec's tables are
  total (R37, R153, R154), so no run reaches it. Safe: the model stops. -/
  | missingTableEntry
  /-- Raised by a NEXT_ITEM whose loop has not returned within its bound (R194, R226). No state reaches it. Safe:
  the model stops. -/
  | loopBound
  deriving DecidableEq, Repr

/-- The model's own refusals. -/
inductive Refusal where
  /-- Raised by exec for an instruction without a meaning. Safe: the model stops. -/
  | notModelled (mnemonic : String)
  /-- Raised when a step is asked for whose guard ("Enabled when", R12) is false: the spec says no such step
  exists. Safe: the model stops. -/
  | notEnabled (mnemonic : String)
  deriving DecidableEq, Repr

/-- The draws of power-on (R8, R370): the time base (modulo `2^TimeBits`, R49), the buffer's contents from address
0 on (0 past the end of the list), and the units whose line is high. -/
structure PowerOnDraws where
  now : Nat
  buf : List Byte
  pulseHigh : List Nat
  serialHigh : List Nat
  deriving DecidableEq, Repr

/-- The cells of a buffer of `size` bytes with the drawn contents (R82), those that read 0 left out. -/
def drawnCells (size : Nat) (xs : List Byte) : List Host.Cell :=
  (List.range size).filterMap fun a => if xs.getD a 0 = 0 then none else some (a, xs.getD a 0)

/-- The ids of a list, each once, rising. -/
def risingIds (us : List Nat) : List Nat :=
  (List.range (us.foldr max 0 + 1)).filter fun u => decide (u ∈ us)

/-- The state at power-on (R370) of a block with the given parameters and draws. -/
def State.powerOn (board : Board) (d : PowerOnDraws) : State :=
  { board := board
    begun := false
    slots := []
    pending := none
    userPaused := false
    reloadPaused := false
    totalUsed := 0
    buf := drawnCells board.totalBufferSize d.buf
    diag := []
    faults := []
    refused := none
    capacity := none
    renderPos := none
    persisted := none
    pulseUnits := (risingIds d.pulseHigh).map fun u => (u, PulseUnit.powerOn true)
    serialUnits := (risingIds d.serialHigh).map fun u => (u, SerialUnit.powerOn true)
    now := d.now % 2 ^ board.timeBits
    schedule := []
    reply := none
    initAnswers := []
    loadAnswers := []
    drawCount := 0 }

/-- The state at power-on with the example board and every draw at 0 or low: DESIGN CHOICE, notes/assumptions/1,
5, 6 and 7. -/
def State.reset : State :=
  State.powerOn Config.exampleBoard { now := 0, buf := [], pulseHigh := [], serialHigh := [] }

end Sys2Proof.Machine
end

