-- ==== Sys2Proof/Machine/Ops.lean ====
section
/-! DEFINITION. The shared operations: the three tables read and written by key, the fault and refusal
primitives of R11 (taking an exception, R330 and R337), diagnostics (R333), the draws of R8, the buffer
primitives (R84, R94), and the record updates every family uses. -/

namespace Sys2Proof.Machine

/-! ## Tables by key

A list of key and value pairs, keys rising, no value equal to the default `d` that an unlisted key reads as. -/

/-- Read a table at a key. -/
def tableGet {α : Type} (d : α) (m : List (Nat × α)) (k : Nat) : α :=
  match m with
  | [] => d
  | (j, v) :: rest => if k = j then v else tableGet d rest k

/-- Remove a key. -/
def tableErase {α : Type} (m : List (Nat × α)) (k : Nat) : List (Nat × α) :=
  match m with
  | [] => []
  | (j, v) :: rest => if k = j then tableErase rest k else (j, v) :: tableErase rest k

/-- Insert or replace a key, in its place. -/
def tableInsert {α : Type} (m : List (Nat × α)) (k : Nat) (v : α) : List (Nat × α) :=
  match m with
  | [] => [(k, v)]
  | (j, w) :: rest =>
    if k < j then (k, v) :: (j, w) :: rest
    else if k = j then (k, v) :: rest
    else (j, w) :: tableInsert rest k v

/-- Write a table at a key: writing the default removes the entry. -/
def tablePut {α : Type} [DecidableEq α] (d : α) (m : List (Nat × α)) (k : Nat) (v : α) : List (Nat × α) :=
  if v = d then tableErase m k else tableInsert m k v

/-- Every key is above `k`. -/
def keysAbove {α : Type} (k : Nat) : List (Nat × α) → Bool
  | [] => true
  | (j, _) :: rest => decide (k < j) && keysAbove k rest

/-- The canonical form of a table: keys strictly rising, no entry equal to the default. -/
def tableWf {α : Type} [DecidableEq α] (d : α) : List (Nat × α) → Bool
  | [] => true
  | (j, v) :: rest => keysAbove j rest && !(decide (v = d)) && tableWf d rest

/-! ## Finite maps -/

/-- Look a key up in a finite map (R121); where a key stands twice, the first counts (notes/assumptions/32). -/
def mapGet {κ α : Type} [DecidableEq κ] (m : List (κ × α)) (k : κ) : Option α :=
  match m with
  | [] => none
  | (j, v) :: rest => if j = k then some v else mapGet rest k

/-- Remove a key from a finite map. -/
def mapErase {κ α : Type} [DecidableEq κ] (m : List (κ × α)) (k : κ) : List (κ × α) :=
  m.filter fun e => decide (e.1 ≠ k)

/-- Two lists are the same finite map: they give every key the same value (R121). -/
def sameMap {κ α : Type} [DecidableEq κ] [DecidableEq α] (m n : List (κ × α)) : Bool :=
  (m ++ n).all fun e => decide (mapGet m e.1 = mapGet n e.1)

/-- Two configurations are the same; the objects out-of-scope variants store are finite maps (R121, R278). -/
def sameConfig (c d : DriverConfig) : Bool :=
  match c, d with
  | .stored p, .stored q => sameMap p q
  | c, d => decide (c = d)

/-! ## The state's tables -/

/-- What a buffer byte that nothing has written reads as: DESIGN CHOICE, notes/assumptions/5. -/
def unwrittenByte : Byte := 0

/-- The driver of slot `i`, `M.slots[i]` (R32). -/
def State.slot (s : State) (i : Nat) : DriverState := tableGet DriverState.powerOn s.slots i

/-- Replace the driver of slot `i`. -/
def State.setSlot (s : State) (i : Nat) (d : DriverState) : State :=
  { s with slots := tablePut DriverState.powerOn s.slots i d }

/-- The pulse unit `PU(u)` (R47). -/
def State.pu (s : State) (u : Nat) : PulseUnit := tableGet (PulseUnit.powerOn false) s.pulseUnits u

/-- Replace the pulse unit `u`. -/
def State.setPu (s : State) (u : Nat) (p : PulseUnit) : State :=
  { s with pulseUnits := tablePut (PulseUnit.powerOn false) s.pulseUnits u p }

/-- The serial unit `SU(u)` (R48). -/
def State.su (s : State) (u : Nat) : SerialUnit := tableGet (SerialUnit.powerOn false) s.serialUnits u

/-- Replace the serial unit `u`. -/
def State.setSu (s : State) (u : Nat) (p : SerialUnit) : State :=
  { s with serialUnits := tablePut (SerialUnit.powerOn false) s.serialUnits u p }

/-- The buffer byte `M.buf[a]` (R80). -/
def State.byte (s : State) (a : Nat) : Byte := tableGet unwrittenByte s.buf a

/-- Store a buffer byte (R94). -/
def State.setByte (s : State) (a : Nat) (v : Byte) : State :=
  { s with buf := tablePut unwrittenByte s.buf a v }

/-- The canonical form of the buffer memory. -/
def Memory.wf (m : List Host.Cell) : Bool := tableWf unwrittenByte m

/-- The slot indices `0 .. NumSlots-1`, in order. -/
def State.slotIndices (s : State) : List Nat := List.range s.board.numSlots

/-- The board's peripheral of slot `i` (R31). -/
def State.periph (s : State) (i : Nat) : Periph :=
  match s.board.slotTable[i]? with
  | some d => d.periph
  | none => .none

/-! ## Steps that may end early -/

/-- Why an operation ended before its last line. -/
inductive Exc where
  /-- `raise Fault`: the writes made so far stand, the fault already among them (R330). -/
  | raised
  /-- `refuse`: every write is discarded and the mark is set (R337). -/
  | refused (r : RefusalReason)
  /-- The step's guard is false, so there is no such step (R12). -/
  | disabled (mnemonic : String)
  /-- The model's own stop. -/
  | stopped (f : Fault)
  deriving DecidableEq, Repr

/-- An operation of the block in the notation of R11: it reads and writes the state in program order and may end
early. -/
abbrev Op (α : Type) := EStateM Exc State α

/-- Read the state. -/
def getState : Op State := fun s => .ok s s

/-- Write the state. -/
def modState (f : State → State) : Op Unit := fun s => .ok () (f s)

/-- End the operation early. -/
def fail {α : Type} (e : Exc) : Op α := fun s => .error e s

/-- Add a fault to the sticky set (R330). -/
def State.addFault (s : State) (f : FaultRecord) : State :=
  if f ∈ s.faults then s else { s with faults := s.faults ++ [f] }

/-- `raise Fault(kind, info)` (R11, R330): record the fault and end the step; the earlier writes stand. This is
the block's one way of taking an exception; nothing is saved and nothing is returned from (R336, R344). -/
def raise {α : Type} (f : FaultRecord) : Op α := fun s => .error .raised (s.addFault f)

/-- `refuse(reason)` (R11, R337). -/
def refuse {α : Type} (r : RefusalReason) : Op α := fail (.refused r)

/-- Refuse when the condition holds. -/
def refuseIf (c : Bool) (r : RefusalReason) : Op Unit := if c then refuse r else pure ()

/-- Raise when the condition holds. -/
def raiseIf (c : Bool) (f : FaultRecord) : Op Unit := if c then raise f else pure ()

/-- The guard "Enabled when" of R12. -/
def guardStep (c : Bool) (mnemonic : String) : Op Unit := if c then pure () else fail (.disabled mnemonic)

/-- The outcome of one step: the writes of a finished or a faulted operation stand (R330), a refused one leaves
the state it began in but for the mark (R337). -/
def runStep (s : State) (x : Op Unit) : Host.Outcome State Fault Refusal :=
  match x s with
  | .ok _ t => .next t
  | .error .raised t => .next t
  | .error (.refused r) _ => .next { s with refused := some r }
  | .error (.disabled m) _ => .refused (.notEnabled m)
  | .error (.stopped f) _ => .fault f

/-- Hand a value to the issuer of the command. -/
def answer (r : Reply) : Op Unit := modState fun s => { s with reply := some r }

/-- `diag(kind, info)` (R11, R333): append to the log and go on. -/
def logDiag (i : Nat) (d : DiagDetail) : Op Unit :=
  modState fun s => { s with diag := s.diag ++ [{ slot := i, detail := d }] }

/-! ## Draws (R8) -/

/-- `draw PeriphInitOk(i)`: the environment's next answer, or a free value when it has named none. -/
def drawPeriphInit (i : Nat) : Op Bool := fun s =>
  match s.initAnswers with
  | b :: rest => .ok b { s with initAnswers := rest }
  | [] => .ok (Config.freePeriphInit s.drawCount i) { s with drawCount := s.drawCount + 1 }

/-- `draw PersistLoad()`: the environment's next answer, or a free value when it has named none. -/
def drawPersistLoad : Op (Option ConfigDoc) := fun s =>
  match s.loadAnswers with
  | r :: rest => .ok r { s with loadAnswers := rest }
  | [] => .ok (Config.freePersistLoad s.drawCount) { s with drawCount := s.drawCount + 1 }

/-! ## Record updates -/

/-- Update the driver of slot `i`. -/
def modSlot (i : Nat) (f : DriverState → DriverState) : Op Unit :=
  modState fun s => s.setSlot i (f (s.slot i))

/-- Update the engine of a driver, if it has one. -/
def DriverState.mapEng (d : DriverState) (f : Engine → Engine) : DriverState := { d with eng := d.eng.map f }

/-- Update the engine of slot `i`, if it has one. -/
def modEngine (i : Nat) (f : Engine → Engine) : Op Unit := modSlot i fun d => d.mapEng f

/-- Update pulse unit `u`. -/
def modPu (u : Nat) (f : PulseUnit → PulseUnit) : Op Unit := modState fun s => s.setPu u (f (s.pu u))

/-- Update serial unit `u`. -/
def modSu (u : Nat) (f : SerialUnit → SerialUnit) : Op Unit := modState fun s => s.setSu u (f (s.su u))

/-- The kind of an engine (R39). -/
def Engine.kind (e : Engine) : EngineKind :=
  match e.core with
  | .pulse _ _ => .pulse
  | .serial _ _ => .serial

/-- The engine of slot `i`; without one the step does not exist. -/
def engineOf (i : Nat) (mnemonic : String) : Op Engine := fun s =>
  match (s.slot i).eng with
  | some e => .ok e s
  | none => .error (.disabled mnemonic) s

/-- The pulse engine of slot `i` with its sequencer and latched parameters; refused without one (R124). -/
def pulseEngineOf (i : Nat) : Op (Engine × PulseSeq × Option PulseLatch) := fun s =>
  match (s.slot i).eng with
  | some e =>
    match e.core with
    | .pulse q l => .ok (e, q, l) s
    | .serial _ _ => .error (.refused .wrongEngineKind) s
  | none => .error (.refused .wrongEngineKind) s

/-- The serial engine of slot `i` with its sequencer and latched parameters; refused without one (R124). -/
def serialEngineOf (i : Nat) : Op (Engine × SerialSeq × Option SerialLatch) := fun s =>
  match (s.slot i).eng with
  | some e =>
    match e.core with
    | .serial q l => .ok (e, q, l) s
    | .pulse _ _ => .error (.refused .wrongEngineKind) s
  | none => .error (.refused .wrongEngineKind) s

/-- The latched parameters, which a step that reads them needs set (R45, R46, R152, R153). -/
def latched {α : Type} (l : Option α) (mnemonic : String) : Op α :=
  match l with
  | some p => pure p
  | none => fail (.disabled mnemonic)

/-- Replace the sequencer of a pulse engine. -/
def Engine.withPulseSeq (e : Engine) (q : PulseSeq) : Engine :=
  match e.core with
  | .pulse _ l => { e with core := .pulse q l }
  | .serial _ _ => e

/-- Replace the sequencer of a serial engine. -/
def Engine.withSerialSeq (e : Engine) (q : SerialSeq) : Engine :=
  match e.core with
  | .serial _ l => { e with core := .serial q l }
  | .pulse _ _ => e

/-- Replace the latched parameters of a pulse engine. -/
def Engine.withPulseLatch (e : Engine) (l : PulseLatch) : Engine :=
  match e.core with
  | .pulse q _ => { e with core := .pulse q (some l) }
  | .serial _ _ => e

/-- Replace the latched parameters of a serial engine. -/
def Engine.withSerialLatch (e : Engine) (l : SerialLatch) : Engine :=
  match e.core with
  | .serial q _ => { e with core := .serial q (some l) }
  | .pulse _ _ => e

/-- Run an operation for each index of a list, in order. -/
def forEach (f : Nat → Op Unit) : List Nat → Op Unit
  | [] => pure ()
  | i :: rest => do
    f i
    forEach f rest

/-! ## The buffer (R84) and the time base (R11, R184, R185) -/

/-- `BufRead(a)` (R84). -/
def bufRead (a : Nat) : Op Byte := fun s =>
  if s.board.totalBufferSize ≤ a then .error .raised (s.addFault (.bufferOutOfBounds a))
  else .ok (s.byte a) s

/-- `2^TimeBits`, the modulus of the time base (R49). -/
def State.timeModulus (s : State) : Nat := 2 ^ s.board.timeBits

/-- `elapsed(t) = (now - t) mod 2^TimeBits` (R11, R185), the subtraction exact modulo `2^TimeBits`. -/
def State.elapsed (s : State) (t : Nat) : Nat :=
  (s.now + (s.timeModulus - t % s.timeModulus)) % s.timeModulus

/-- A table entry that the spec's totality rules guarantee. -/
def entryOf {α : Type} (xs : List α) (k : Nat) : Op α :=
  match xs[k]? with
  | some x => pure x
  | none => fail (.stopped .missingTableEntry)

end Sys2Proof.Machine
end

