-- ==== Sys2Proof/Machine/Flags.lean ====
section
/-! DEFINITION. The status flags (R53) and what is computed from them: transmitting engines (R40), interrupt
requests and the hold (R176), the frame timer (R266), physical levels (R173), the UInt32 counters (R271), and
the numeric codes of faults, diagnostics and refusals (R331, R333, R337). The block has no condition codes. -/

namespace Sys2Proof.Machine

/-- The engine is Filling or Draining (R93, R258). -/
def TState.transmitting : TState → Bool
  | .idle => false
  | .filling => true
  | .draining => true
  | .frameComplete => false

/-- The driver has an engine that is Filling or Draining. -/
def DriverState.transmitting (d : DriverState) : Bool :=
  match d.eng with
  | some e => e.tstate.transmitting
  | none => false

/-- The driver has an engine that is Draining (R380). -/
def DriverState.draining (d : DriverState) : Bool :=
  match d.eng with
  | some e => decide (e.tstate = .draining)
  | none => false

/-- Some slot's engine is Filling or Draining (R298). -/
def State.anyTransmitting (s : State) : Bool := s.slotIndices.any fun i => (s.slot i).transmitting

/-- A UInt32 counter counts one more, modulo `2^32` (R271). -/
def countUp (c : Counter) : Counter := c + 1

/-- The pause invariant's right side (R34, R307). -/
def State.pauseHeld (s : State) : Bool := s.userPaused || s.reloadPaused

/-- `phys(u, l) = l XOR invert` (R173). -/
def phys (invert : Bool) (l : Level) : Level := xor l invert

/-- The logical level that a descriptor's level field stands for (R113). -/
def levelOf (n : Nat) : Level := decide (n ≠ 0)

/-- `IrqRequest(u)` (R176). -/
def irqRequest (pendLow pendEnd : Bool) (e : Engine) : Bool := (pendLow && e.enLow) || (pendEnd && e.enEnd)

/-- The interrupt request of the unit that the engine drives (R176). -/
def State.irqRequested (s : State) (e : Engine) : Bool :=
  match e.kind with
  | .pulse => irqRequest (s.pu e.unit).pendLow (s.pu e.unit).pendEnd e
  | .serial => irqRequest (s.su e.unit).pendLow (s.su e.unit).pendEnd e

/-- `Held(u) = AssumeTimelyIsr and IrqRequest(u)` (R176). -/
def State.held (s : State) (e : Engine) : Bool := s.board.assumeTimelyIsr && s.irqRequested e

/-- A table of the board at a variant and a configuration; a listed object is looked up as a finite map (R121). -/
def cfgTableAt (t : CfgTable) (v : Variant) (c : DriverConfig) : Nat :=
  match t.listed.find? (fun p => decide (p.1.1 = v) && sameConfig p.1.2 c) with
  | some p => p.2
  | none => t.otherwise.at v

/-- `MinFrameDuration(v, c)` (R7, R266). -/
def State.minFrameDuration (s : State) (v : Variant) (c : DriverConfig) : Nat :=
  cfgTableAt s.board.minFrameDuration v c

/-- `FrameDue(i)` for a driver and its engine (R266). -/
def State.frameDue (s : State) (d : DriverState) (e : Engine) : Bool :=
  match e.frameStart with
  | none => true
  | some t => decide (s.minFrameDuration d.variant d.cfg ≤ s.elapsed t)

/-- The code of a fault kind (R331). -/
def FaultRecord.code : FaultRecord → Nat
  | .underrun _ => 1
  | .ownershipViolation _ _ => 2
  | .destroyWhileDraining _ => 3
  | .bufferWriteDuringFrame _ _ => 4
  | .bufferOutOfBounds _ => 5

/-- The code of a diagnostic kind (R333). -/
def DiagDetail.code : DiagDetail → Nat
  | .configError _ => 1
  | .capacityShortfall _ _ => 2
  | .hwInitError => 3

/-- The code of a refusal reason (R337). -/
def RefusalReason.code : RefusalReason → Nat
  | .unassignedOp => 1
  | .badSlot => 2
  | .wrongEngineKind => 3
  | .illFormedOperand => 4
  | .notBegun => 5
  | .illFormedParameter => 6
  | .illFormedProtocolConstants => 7
  | .illFormedSerialTiming => 8
  | .illegalVariant => 9
  | .illFormedConfig => 10
  | .illFormedGroupWidth => 11
  | .notASymbol => 12
  | .groupOutOfRange => 13

end Sys2Proof.Machine
end

