-- ==== Sys2Proof/Machine/Operands.lean ====
section
/-! DEFINITION. The operand forms and pure value computations: bit groups (R119), symbols (R116), the optional
descriptor word (R114), serial frames (R118), variants (R3, R251), configurations (R36, R37, R267, R278), the
need of a driver (R265), and the parameters' constraints (R7, R31, R250). -/

namespace Sys2Proof.Machine

/-! ## Bit groups and symbols -/

/-- `Group(b, j, G) = b[7 - G*j : 8 - G*(j+1)]` (R119). -/
def group (b : Byte) (j G : Nat) : Nat := (b.toNat >>> (8 - G * (j + 1))) % 2 ^ G

/-- The group widths that divide 8 (R151, R154). -/
def groupWidthOk (G : Nat) : Bool := G == 1 || G == 2 || G == 4 || G == 8

/-- The groups of a byte, the most significant first (R151). -/
def groups (b : Byte) (G : Nat) : List Nat := (List.range (8 / G)).map fun j => group b j G

/-- The symbol of a code; codes 4 and above are not symbols (R116). -/
def symbolOfCode : Nat → Option Symbol
  | 0 => some .bit0
  | 1 => some .bit1
  | 2 => some .idle
  | 3 => some .gap
  | _ => none

/-- The symbol of an intensity bit (R116). -/
def symbolOfBit (x : Bool) : Symbol := if x then .bit1 else .bit0

/-- The table's entry at a symbol (R150). -/
def descriptorAt (t : PulseTable) : Symbol → PulseDescriptor
  | .bit0 => t.bit0
  | .bit1 => t.bit1
  | .idle => t.idle
  | .gap => t.gap

/-- A legal descriptor (R113, R115). -/
def descriptorOk (durationMax : Nat) (p : PulseDescriptor) : Bool :=
  decide (p.level0 ≤ 1) && decide (p.level1 ≤ 1) &&
    decide (1 ≤ p.dur0 ∧ p.dur0 ≤ durationMax) && decide (1 ≤ p.dur1 ∧ p.dur1 ≤ durationMax)

/-- The optional 32-bit word of a descriptor (R114): `dur0` in `[14:0]`, `level0` in `[15]`, `dur1` in
`[30:16]`, `level1` in `[31]`. -/
def descriptorWord (p : PulseDescriptor) : BitVec 32 :=
  BitVec.ofNat 1 p.level1 ++ (BitVec.ofNat 15 p.dur1 ++ (BitVec.ofNat 1 p.level0 ++ BitVec.ofNat 15 p.dur0))

/-- The descriptor of a 32-bit word (R114). -/
def descriptorOfWord (w : BitVec 32) : PulseDescriptor :=
  { level0 := (w.extractLsb' 15 1).toNat, dur0 := (w.extractLsb' 0 15).toNat,
    level1 := (w.extractLsb' 31 1).toNat, dur1 := (w.extractLsb' 16 15).toNat }

/-! ## Serial frames and tables -/

/-- The standard asynchronous frame of a byte with `D` data bits (R118): start bit 0, the data bits least
significant first, stop bit 1. -/
def standardFrame (x : Byte) (D : Nat) : List Level :=
  [false] ++ (List.range D).map (fun t => x.getLsbD t) ++ [true]

/-- The inverted logical frame of a serial variant (R118, R175, R232). -/
def invertedFrame (x : Byte) (D : Nat) : List Level :=
  [true] ++ (List.range D).map (fun t => !x.getLsbD t) ++ [false]

/-- `wave(p)`: the logical levels of one protocol bit, `H` bit-times active of `S` (R154). -/
def wave (S H : Nat) : List Level := List.replicate H true ++ List.replicate (S - H) false

/-- The logical line of the `G` protocol bits of `v`, the most significant first (R154, R159). -/
def waveLine (G S H0 H1 v : Nat) : List Level :=
  (List.range G).flatMap fun k => wave S (if v.testBit (G - 1 - k) then H1 else H0)

/-- One entry of the serial table: `sum_{t < D} (1 - L[1+t]) * 2^t` (R154). -/
def serialEntry (L : List Level) (D : Nat) : Byte :=
  BitVec.ofNat 8 (((List.range D).map fun t => if L[1 + t]? = some true then 0 else 2 ^ t).sum)

/-- `D = G*S - 2` (R154). -/
def dataBits (G S : Nat) : Nat := G * S - 2

/-- The timing checks of R154. -/
def serialTimingOk (G S H0 H1 : Nat) : Bool :=
  groupWidthOk G && decide (5 ≤ dataBits G S ∧ dataBits G S ≤ 8) &&
    decide (1 ≤ H0 ∧ H0 ≤ S - 1 ∧ 1 ≤ H1 ∧ H1 ≤ S - 1) && decide (H0 ≠ H1)

/-- The serial table of R154. -/
def serialTable (G S H0 H1 : Nat) : List Byte :=
  (List.range (2 ^ G)).map fun v => serialEntry (waveLine G S H0 H1 v) (dataBits G S)

/-- The bit rate of R223. -/
def baudRate (G D bitPeriodNs : Nat) : Nat := ((D + 2) * 10 ^ 9) / (G * bitPeriodNs)

/-! ## Variants -/

/-- The variants in the order of R3. -/
def allVariants : List Variant :=
  [.disabled, .dmx, .renard, .genericSerial, .gece, .relay, .servoPca9685, .ws2811Pulse, .ws2811Serial,
   .ucs1903Pulse, .ucs1903Serial, .tm1814Pulse, .tm1814Serial, .ws2801Spi, .apa102Spi]

/-- `EngineKind(v)` (R251). -/
def engineKindOf : Variant → Option EngineKind
  | .disabled => none
  | .dmx => none
  | .renard => none
  | .genericSerial => none
  | .gece => none
  | .relay => none
  | .servoPca9685 => none
  | .ws2811Pulse => some .pulse
  | .ws2811Serial => some .serial
  | .ucs1903Pulse => some .pulse
  | .ucs1903Serial => some .serial
  | .tm1814Pulse => some .pulse
  | .tm1814Serial => some .serial
  | .ws2801Spi => none
  | .apa102Spi => none

/-- The encoder variants are the pulse and the serial variants (R3). -/
def isEncoder (v : Variant) : Bool := (engineKindOf v).isSome

/-- `ProtocolConstants(v)` of a pulse variant (R190). -/
def pulseConstantsOf (b : Board) : Variant → Option PulseConstants
  | .ws2811Pulse => some b.ws2811Pulse
  | .ucs1903Pulse => some b.ucs1903Pulse
  | .tm1814Pulse => some b.tm1814Pulse
  | _ => none

/-- `ProtocolConstants(v)` of a serial variant (R220). -/
def serialConstantsOf (b : Board) : Variant → Option SerialConstants
  | .ws2811Serial => some b.ws2811Serial
  | .ucs1903Serial => some b.ucs1903Serial
  | .tm1814Serial => some b.tm1814Serial
  | _ => none

/-- The checks of PE_BEGIN on the protocol constants (R192). -/
def pulseConstantsOk (durationMax : Nat) (pc : PulseConstants) : Bool :=
  decide (pc.W = 8) && descriptorOk durationMax pc.ptable.bit0 && descriptorOk durationMax pc.ptable.bit1 &&
    descriptorOk durationMax pc.ptable.idle && descriptorOk durationMax pc.ptable.gap &&
    decide (pc.ptable.bit0 ≠ pc.ptable.bit1)

/-- The variant that has a protocol-type code (R123, R299). -/
def variantOfCode (b : Board) (code : Nat) : Option Variant :=
  allVariants.find? fun v => decide (b.protocolCode.at v = code)

/-- `Legal(i, v)` (R7, R250). -/
def legalAt (b : Board) (i : Nat) (v : Variant) : Bool := decide ((i, v) ∈ b.legal)

/-- The unit an engine of the given kind is bound to in a slot with the given peripheral (R191, R221). -/
def unitFor (k : EngineKind) (p : Periph) : Option Nat :=
  match k, p with
  | .pulse, .pulseUnit u => some u
  | .serial, .serialUnit u => some u
  | .pulse, _ => none
  | .serial, _ => none

/-! ## Configurations -/

/-- The options of an encoder variant's configuration, if that is what it holds. -/
def encoderCfg : DriverConfig → Option EncoderCfg
  | .encoder c => some c
  | .empty => none
  | .stored _ => none

/-- `colorOrder` is a permutation of `0..C-1` (R37). -/
def isPermutation (xs : List Nat) (C : Nat) : Bool :=
  decide (xs.length = C) && (List.range C).all fun j => decide (j ∈ xs)

/-- The check of R37 on an encoder configuration. -/
def legalEncoderCfg (c : EncoderCfg) : Bool :=
  decide (1 ≤ c.channelsPerPixel) && isPermutation c.colorOrder c.channelsPerPixel &&
    decide (c.gamma.length = 256) && decide (c.groupSize = 1)

/-- `LegalCfg(v, c)` of an encoder variant (R37, R267). -/
def legalCfg (c : DriverConfig) : Bool :=
  match c with
  | .encoder c => legalEncoderCfg c
  | .empty => false
  | .stored _ => false

/-- `DefaultCfg(v)`: a parameter for an encoder variant, empty for Disabled (R255), the empty object for an
out-of-scope variant (R278). -/
def defaultCfgOf (b : Board) (v : Variant) : DriverConfig :=
  match v with
  | .disabled => .empty
  | v => if isEncoder v then .encoder (b.defaultCfg.at v) else .stored []

/-- The naturals of a list value. -/
def Value.toNats : Value → Option (List Nat)
  | .nil => some []
  | .cons (.nat n) rest => (Value.toNats rest).map fun ns => n :: ns
  | .cons _ _ => none
  | .nat _ => none
  | .bool _ => none
  | .str _ => none

/-- The list value of some naturals. -/
def natsValue : List Nat → Value
  | [] => .nil
  | n :: ns => .cons (.nat n) (natsValue ns)

/-- A value that is a Nat. -/
def Value.toNat : Value → Option Nat
  | .nat n => some n
  | .bool _ => none
  | .str _ => none
  | .nil => none
  | .cons _ _ => none

/-- A value that is a Bool. -/
def Value.toBool : Value → Option Bool
  | .bool b => some b
  | .nat _ => none
  | .str _ => none
  | .nil => none
  | .cons _ _ => none

/-- A value that is a list of Byte: naturals below 256. -/
def Value.toBytes (v : Value) : Option (List Byte) :=
  match Value.toNats v with
  | some ns => if ns.all (fun n => decide (n < 256)) then some (ns.map (BitVec.ofNat 8)) else none
  | none => none

/-- One key of MergeCfg (R267); `none` is its `fail`. -/
def mergeKey (c : EncoderCfg) (k : String) (v : Value) : Option EncoderCfg :=
  if k = "pixelCount" then (Value.toNat v).map fun n => { c with pixelCount := n }
  else if k = "channelsPerPixel" then (Value.toNat v).map fun n => { c with channelsPerPixel := n }
  else if k = "groupSize" then (Value.toNat v).map fun n => { c with groupSize := n }
  else if k = "colorOrder" then (Value.toNats v).map fun ns => { c with colorOrder := ns }
  else if k = "gamma" then (Value.toBytes v).map fun bs => { c with gamma := bs }
  else if k = "invert" then (Value.toBool v).map fun b => { c with invert := b }
  else some c

/-- `MergeCfg(c, params)` (R267); `none` is its `fail`. Of a key that stands twice both values are merged in turn
(notes/assumptions/32). -/
def mergeCfg (c : EncoderCfg) : ParamObject → Option EncoderCfg
  | [] => some c
  | (k, v) :: rest =>
    match mergeKey c k v with
    | some c' => mergeCfg c' rest
    | none => none

/-- MergeCfg on a driver's configuration: it fails on one that holds no encoder options. -/
def mergeDriverCfg (c : DriverConfig) (params : ParamObject) : Option DriverConfig :=
  match encoderCfg c with
  | some e => (mergeCfg e params).map .encoder
  | none => none

/-- The ParamObject of an encoder configuration (R257). -/
def encoderParams (c : EncoderCfg) : ParamObject :=
  [("pixelCount", .nat c.pixelCount), ("channelsPerPixel", .nat c.channelsPerPixel),
   ("colorOrder", natsValue c.colorOrder), ("gamma", natsValue (c.gamma.map BitVec.toNat)),
   ("groupSize", .nat c.groupSize), ("invert", .bool c.invert)]

/-- `OpaqueMerge(v, c, params)` (R278), on the object stored: at each recognised key the value `params` gives, or
else the old one. The recognised keys stand in the order of `OpaqueKeys(v)`, so that the merged object does not depend
on the order of its arguments' keys (notes/assumptions/23). -/
def opaqueMergeObject (keys : List String) (c params : ParamObject) : ParamObject :=
  match keys with
  | [] => c
  | k :: rest =>
    let merged := opaqueMergeObject rest (mapErase c k) (mapErase params k)
    match (mapGet params k).or (mapGet c k) with
    | some v => (k, v) :: merged
    | none => merged

/-- The object an out-of-scope variant's configuration stores (R278). -/
def storedObject : DriverConfig → ParamObject
  | .stored p => p
  | .empty => []
  | .encoder _ => []

/-- `OpaqueMerge(v, c, params)` (R278). -/
def opaqueMerge (b : Board) (v : Variant) (c : DriverConfig) (params : ParamObject) : DriverConfig :=
  .stored (opaqueMergeObject (b.opaqueKeys.at v) (storedObject c) params)

/-- `Needed(v, c)` (R265). -/
def neededBytes (b : Board) (v : Variant) (c : DriverConfig) : Nat :=
  match v with
  | .disabled => 0
  | v =>
    if isEncoder v then
      match encoderCfg c with
      | some e => e.pixelCount * e.channelsPerPixel
      | none => 0
    else cfgTableAt b.neededOther v c

/-! ## The parameters' constraints -/

/-- No value stands twice. -/
def allDistinct : List Nat → Bool
  | [] => true
  | x :: rest => !(decide (x ∈ rest)) && allDistinct rest

/-- The ids of the pulse units, in slot order. -/
def pulseUnitIds (t : List SlotDesc) : List Nat :=
  t.filterMap fun d => unitFor .pulse d.periph

/-- The ids of the serial units, in slot order. -/
def serialUnitIds (t : List SlotDesc) : List Nat :=
  t.filterMap fun d => unitFor .serial d.periph

/-- What R250 asks of a slot's peripheral for a variant to be legal there. -/
def periphAdmits (v : Variant) (p : Periph) : Bool :=
  match engineKindOf v with
  | some k => (unitFor k p).isSome
  | none =>
    match v with
    | .ws2801Spi => decide (p = .spiCapable)
    | .apa102Spi => decide (p = .spiCapable)
    | .relay => decide (p = .relayCapable)
    | .servoPca9685 => decide (p = .relayCapable)
    | _ => true

/-- A well-formed `Legal` (R250). -/
def legalTableOk (s : State) : Bool :=
  s.slotIndices.all fun i =>
    legalAt s.board i .disabled &&
      allVariants.all fun v => !(legalAt s.board i v) || periphAdmits v (s.periph i)

/-- A well-formed slot table (R31). -/
def slotTableOk (b : Board) : Bool :=
  decide (b.slotTable.length = b.numSlots) &&
    decide (b.slotTable.map SlotDesc.index = List.range b.numSlots) &&
    allDistinct (pulseUnitIds b.slotTable) && allDistinct (serialUnitIds b.slotTable)

/-- The legal values of a serial variant's protocol constants (R220, with R154). -/
def serialConstantsLegal (pc : SerialConstants) : Bool :=
  serialTimingOk pc.G pc.S pc.H0 pc.H1 && decide (1 ≤ pc.bitPeriodNs)

/-- Well-formed `ProtocolConstants` (R7): legal for every pulse variant (R150, R190) and for every serial variant
(R220). -/
def protocolConstantsOk (b : Board) : Bool :=
  [b.ws2811Pulse, b.ucs1903Pulse, b.tm1814Pulse].all (pulseConstantsOk b.durationMax) &&
    [b.ws2811Serial, b.ucs1903Serial, b.tm1814Serial].all serialConstantsLegal

/-- `WellFormedParameters()` (R290): the constraints of R7, with R31, R150, R190, R220, R250 and R252
(notes/assumptions/9). -/
def State.wellFormedParameters (s : State) : Bool :=
  decide (1 ≤ s.board.numSlots ∧ s.board.numSlots ≤ 256) && slotTableOk s.board &&
    decide (1 ≤ s.board.ringCapacity ∧ s.board.ringLowThreshold < s.board.ringCapacity) &&
    decide (1 ≤ s.board.fifoCapacity ∧ s.board.fifoLowThreshold < s.board.fifoCapacity) &&
    decide (1 ≤ s.board.durationMax) && decide (1 ≤ s.board.timeBits) &&
    allDistinct (allVariants.map s.board.protocolCode.at) && legalTableOk s &&
    protocolConstantsOk s.board && allVariants.all fun v => !(isEncoder v) || legalCfg (defaultCfgOf s.board v)

end Sys2Proof.Machine
end

