-- ==== Sys2Proof/Machine/Admission.lean ====
section
/-! DEFINITION. The checks that stand before an operation's pseudocode, in the order of R338: BadSlot,
WrongEngineKind, IllFormedOperand, NotBegun; then the guard of R294 that leaves the main loop one enabled step
while a render pass is in progress. -/

namespace Sys2Proof.Machine

/-- BadSlot: the slot field is at or above `NumSlots` (R124, R337 code 2). -/
def admitSlot (i : Nat) : Op Unit := fun s =>
  if s.board.numSlots ≤ i then .error (.refused .badSlot) s else .ok () s

/-- WrongEngineKind: the slot's driver has no engine of the kind the op needs (R124, R337 code 3). -/
def admitKind (i : Nat) (k : EngineKind) : Op Unit := fun s =>
  match (s.slot i).eng with
  | some e => if e.kind = k then .ok () s else .error (.refused .wrongEngineKind) s
  | none => .error (.refused .wrongEngineKind) s

/-- IllFormedOperand: a field of the wrong type (R120, R337 code 4). -/
def admitOperands (ok : Bool) : Op Unit := refuseIf (!ok) .illFormedOperand

/-- NotBegun: a MainLoop-issued operation before MGR_BEGIN (R337 code 5). -/
def admitBegun : Op Unit := fun s => if s.begun then .ok () s else .error (.refused .notBegun) s

/-- While a render pass is in progress the main loop's one enabled step is the next render sub-step (R294). -/
def admitTurn (mnemonic : String) : Op Unit := fun s =>
  if s.renderPos = none then .ok () s else .error (.disabled mnemonic) s

/-- The "no slot" operations that carry a record (R112, R120). -/
def recordWithoutSlot (op : Nat) : Bool :=
  op == 0x02 || op == 0x09 || op == 0x20 || op == 0x23 || op == 0x54 || op == 0x60

/-- BadSlot for an operation known by its op alone. -/
def admitOpSlot (op slot : Nat) : Op Unit := if recordWithoutSlot op then pure () else admitSlot slot

/-- WrongEngineKind for an operation known by its op alone. -/
def admitOpKind (op slot : Nat) : Op Unit :=
  match engineNeed op with
  | some k => admitKind slot k
  | none => pure ()

/-- The checks of R338 for a command whose record did not decode: the slot and the engine kind come before the
record. -/
def refuseRecord (op slot : Nat) : Op Unit := do
  admitOpSlot op slot
  admitOpKind op slot
  refuse .illFormedOperand

end Sys2Proof.Machine
end

