-- ==== Sys2Proof/Machine/Translation.lean ====
section
/-! DEFINITION. The intensity translation tables (spec 40): XLAT_SPLIT, XLAT_LOOKUP_PULSE, XLAT_LOOKUP_SERIAL,
XLAT_BUILD_SERIAL, XLAT_ENCODE_PULSE and XLAT_ENCODE_SERIAL. They write no state but the reply (R157). -/

namespace Sys2Proof.Machine

/-- XLAT_SPLIT(b, G) (R151). -/
def xlatSplit (b : Byte) (G : Nat) : Op (List Nat) := do
  refuseIf (!groupWidthOk G) .illFormedGroupWidth
  pure (groups b G)

/-- XLAT_LOOKUP_PULSE(i, s) of a symbol (R152). -/
def xlatLookupPulse (i : Nat) (sym : Symbol) : Op PulseDescriptor := do
  let (_, _, l) ← pulseEngineOf i
  let l ← latched l "XLAT_LOOKUP_PULSE"
  pure (descriptorAt l.ptable sym)

/-- XLAT_LOOKUP_PULSE(i, s) of a symbol code (R116, R152). -/
def xlatLookupPulseCode (i code : Nat) : Op PulseDescriptor := do
  let (_, _, l) ← pulseEngineOf i
  let _ ← latched l "XLAT_LOOKUP_PULSE"
  match symbolOfCode code with
  | some sym => xlatLookupPulse i sym
  | none => refuse .notASymbol

/-- XLAT_LOOKUP_SERIAL(i, g) (R153). -/
def xlatLookupSerial (i g : Nat) : Op Byte := do
  let (_, _, l) ← serialEngineOf i
  let l ← latched l "XLAT_LOOKUP_SERIAL"
  refuseIf (decide (2 ^ l.G ≤ g)) .groupOutOfRange
  entryOf l.stable g

/-- XLAT_BUILD_SERIAL(G, S, H0, H1) (R154). -/
def xlatBuildSerial (G S H0 H1 : Nat) : Op (List Byte × Nat) := do
  refuseIf (!serialTimingOk G S H0 H1) .illFormedSerialTiming
  pure (serialTable G S H0 H1, dataBits G S)

/-- Look up the pulse symbol of each bit. -/
def lookupBits (i : Nat) : List Nat → Op (List PulseDescriptor)
  | [] => pure []
  | x :: rest => do
    let p ← xlatLookupPulse i (symbolOfBit (decide (x = 1)))
    let ps ← lookupBits i rest
    pure (p :: ps)

/-- Look up the serial byte of each group. -/
def lookupGroups (i : Nat) : List Nat → Op (List Byte)
  | [] => pure []
  | g :: rest => do
    let x ← xlatLookupSerial i g
    let xs ← lookupGroups i rest
    pure (x :: xs)

/-- XLAT_ENCODE_PULSE(i, b) (R155). -/
def xlatEncodePulse (i : Nat) (b : Byte) : Op (List PulseDescriptor) := do
  let (_, _, l) ← pulseEngineOf i
  let l ← latched l "XLAT_ENCODE_PULSE"
  guardStep (decide (l.W = 8)) "XLAT_ENCODE_PULSE"
  let gs ← xlatSplit b 1
  lookupBits i gs

/-- XLAT_ENCODE_SERIAL(i, b) (R156). -/
def xlatEncodeSerial (i : Nat) (b : Byte) : Op (List Byte) := do
  let (_, _, l) ← serialEngineOf i
  let l ← latched l "XLAT_ENCODE_SERIAL"
  let gs ← xlatSplit b l.G
  lookupGroups i gs

/-- The command XLAT_SPLIT. -/
def execXlatSplit (b : Byte) (G : Nat) (s : State) : Host.Outcome State Fault Refusal :=
  runStep s do
    let gs ← xlatSplit b G
    answer (.groups gs)

/-- The command XLAT_LOOKUP_PULSE. -/
def execXlatLookupPulse (slot code : Nat) (s : State) : Host.Outcome State Fault Refusal :=
  runStep s do
    admitSlot slot
    admitKind slot .pulse
    let p ← xlatLookupPulseCode slot code
    answer (.descriptor p)

/-- The command XLAT_LOOKUP_SERIAL. -/
def execXlatLookupSerial (slot g : Nat) (s : State) : Host.Outcome State Fault Refusal :=
  runStep s do
    admitSlot slot
    admitKind slot .serial
    let x ← xlatLookupSerial slot g
    answer (.byte x)

/-- The command XLAT_BUILD_SERIAL. -/
def execXlatBuildSerial (G S H0 H1 : Nat) (s : State) : Host.Outcome State Fault Refusal :=
  runStep s do
    let (t, D) ← xlatBuildSerial G S H0 H1
    answer (.serialTable t D)

/-- The command XLAT_ENCODE_PULSE. -/
def execXlatEncodePulse (slot : Nat) (b : Byte) (s : State) : Host.Outcome State Fault Refusal :=
  runStep s do
    admitSlot slot
    admitKind slot .pulse
    let ps ← xlatEncodePulse slot b
    answer (.descriptors ps)

/-- The command XLAT_ENCODE_SERIAL. -/
def execXlatEncodeSerial (slot : Nat) (b : Byte) (s : State) : Host.Outcome State Fault Refusal :=
  runStep s do
    admitSlot slot
    admitKind slot .serial
    let xs ← xlatEncodeSerial slot b
    answer (.bytes xs)

end Sys2Proof.Machine
end

