-- ==== Sys2Proof/Machine/Peripherals.lean ====
section
/-! DEFINITION. The pulse unit, the serial unit and the time base (spec 41): PU_START, PU_EMIT, SU_START, SU_SHIFT
and TIMER_TICK. -/

namespace Sys2Proof.Machine

/-- The trace entries a descriptor leaves: its two physical levels with their durations (R172). -/
def emission (invert : Bool) (p : PulseDescriptor) : List (Level × Nat) :=
  [(phys invert (levelOf p.level0), p.dur0), (phys invert (levelOf p.level1), p.dur1)]

/-- PU_START(u) (R171). -/
def puStart (u : Nat) : Op Unit :=
  modPu u fun p => if p.ring.isEmpty then { p with pendEnd := true } else { p with busy := true }

/-- PU_EMIT(u) on a unit (R172): pop the descriptor `d`, leaving `rest`. -/
def PulseUnit.emit (p : PulseUnit) (lowThreshold : Nat) (d : PulseDescriptor) (rest : List PulseDescriptor) :
    PulseUnit :=
  { p with
    ring := rest
    trace := p.trace ++ emission p.invert d
    line := if rest.isEmpty then phys p.invert false else phys p.invert (levelOf d.level1)
    pendLow := p.pendLow || decide (rest.length ≤ lowThreshold)
    busy := if rest.isEmpty then false else p.busy
    pendEnd := p.pendEnd || rest.isEmpty }

/-- PU_EMIT on slot `i` (R172), with its guard: busy, a ring that is not empty, and not held (R176). -/
def puEmit (i : Nat) : Op Unit := do
  let (e, _, _) ← pulseEngineOf i
  let s ← getState
  guardStep ((s.pu e.unit).busy && !s.held e) "PU_EMIT"
  match (s.pu e.unit).ring with
  | [] => fail (.disabled "PU_EMIT")
  | d :: rest => modPu e.unit fun p => p.emit s.board.ringLowThreshold d rest

/-- SU_START(u) (R174). -/
def suStart (u : Nat) : Op Unit :=
  modSu u fun p => if p.fifo.isEmpty then { p with pendEnd := true } else { p with busy := true }

/-- SU_SHIFT(u) on a unit (R175): pop the byte `x`, leaving `rest`. -/
def SerialUnit.shift (p : SerialUnit) (lowThreshold : Nat) (x : Byte) (rest : List Byte) : SerialUnit :=
  { p with
    fifo := rest
    trace := p.trace ++ (invertedFrame x p.D).map (phys p.invert)
    line := phys p.invert false
    pendLow := p.pendLow || decide (rest.length ≤ lowThreshold)
    busy := if rest.isEmpty then false else p.busy
    pendEnd := p.pendEnd || rest.isEmpty }

/-- SU_SHIFT on slot `i` (R175), with its guard. -/
def suShift (i : Nat) : Op Unit := do
  let (e, _, _) ← serialEngineOf i
  let s ← getState
  guardStep ((s.su e.unit).busy && !s.held e) "SU_SHIFT"
  match (s.su e.unit).fifo with
  | [] => fail (.disabled "SU_SHIFT")
  | x :: rest => modSu e.unit fun p => p.shift s.board.fifoLowThreshold x rest

/-- TIMER_TICK(n) (R184). -/
def timerTick (n : Nat) : Op Unit := modState fun s => { s with now := (s.now + n) % s.timeModulus }

/-- The command PU_START, with its guard. -/
def execPuStart (slot : Nat) (s : State) : Host.Outcome State Fault Refusal :=
  runStep s do
    admitSlot slot
    let (e, _, _) ← pulseEngineOf slot
    guardStep (!(s.pu e.unit).busy) "PU_START"
    puStart e.unit

/-- The command PU_EMIT. -/
def execPuEmit (slot : Nat) (s : State) : Host.Outcome State Fault Refusal :=
  runStep s do
    admitSlot slot
    puEmit slot

/-- The command SU_START, with its guard. -/
def execSuStart (slot : Nat) (s : State) : Host.Outcome State Fault Refusal :=
  runStep s do
    admitSlot slot
    let (e, _, _) ← serialEngineOf slot
    guardStep (!(s.su e.unit).busy) "SU_START"
    suStart e.unit

/-- The command SU_SHIFT. -/
def execSuShift (slot : Nat) (s : State) : Host.Outcome State Fault Refusal :=
  runStep s do
    admitSlot slot
    suShift slot

/-- The command TIMER_TICK. -/
def execTimerTick (n : Nat) (s : State) : Host.Outcome State Fault Refusal :=
  runStep s do
    admitOperands (decide (1 ≤ n))
    timerTick n

end Sys2Proof.Machine
end

