-- ==== Sys2Proof/Machine/Slice.lean ====
section
/-! DEFINITION. The buffer interface the engines call (R263 to R265): DRV_MORE_DATA, DRV_NEXT_BYTE, DRV_NEEDED. -/

namespace Sys2Proof.Machine

/-- DRV_MORE_DATA(i) (R263). -/
def drvMoreData (i : Nat) : Op Bool := do
  let e ← engineOf i "DRV_MORE_DATA"
  let s ← getState
  pure (decide (e.cursor < (s.slot i).length))

/-- The position in the slice that DRV_NEXT_BYTE reads (R264): the colour order within a whole pixel, buffer order
in a partial last one. -/
def sourceIndex (c : EncoderCfg) (cursor length : Nat) : Op Nat :=
  if (cursor / c.channelsPerPixel + 1) * c.channelsPerPixel ≤ length then do
    let j ← entryOf c.colorOrder (cursor % c.channelsPerPixel)
    pure (cursor / c.channelsPerPixel * c.channelsPerPixel + j)
  else pure cursor

/-- DRV_NEXT_BYTE(i) (R264). -/
def drvNextByte (i : Nat) : Op Byte := do
  let e ← engineOf i "DRV_NEXT_BYTE"
  let s ← getState
  match encoderCfg (s.slot i).cfg with
  | none => fail (.stopped .missingTableEntry)
  | some c => do
    let src ← sourceIndex c e.cursor (s.slot i).length
    let x ← bufRead ((s.slot i).offset + src)
    modEngine i fun e => { e with cursor := e.cursor + 1 }
    entryOf c.gamma x.toNat

/-- DRV_NEEDED(i) (R265). -/
def drvNeededOf (s : State) (i : Nat) : Nat := neededBytes s.board (s.slot i).variant (s.slot i).cfg

end Sys2Proof.Machine
end

