-- ==== Sys2Proof/Machine/PulseEngine.lean ====
section
/-! DEFINITION. The PixelEncodingEngine (spec 42): PE_BEGIN, PE_START_FRAME, PE_NEXT_ITEM, PE_FILL, PE_ISR and
PE_IDLE. -/

namespace Sys2Proof.Machine

/-- Replace the pulse sequencer of slot `i`. -/
def setPulseSeq (i : Nat) (q : PulseSeq) : Op Unit := modEngine i fun e => e.withPulseSeq q

/-- The parameters PE_BEGIN latches (R45, R192). -/
def pulseLatchOf (pc : PulseConstants) : PulseLatch :=
  { ptable := pc.ptable, preIdle := pc.preIdle, postIdle := pc.postIdle, gapFlag := pc.gapFlag, W := 8 }

/-- A pulse unit as PE_BEGIN configures it: inverted or not, its line at the idle level (R173, R192). -/
def PulseUnit.configured (p : PulseUnit) (invert : Bool) : PulseUnit :=
  { p with invert := invert, line := phys invert false }

/-- The `invert` option of a driver's configuration; only an encoder's has one (R36). -/
def cfgInvert (c : DriverConfig) : Bool :=
  match encoderCfg c with
  | some e => e.invert
  | none => false

/-- PE_BEGIN(i) (R192). -/
def peBegin (i : Nat) : Op Unit := do
  let (e, _, _) ← pulseEngineOf i
  let s ← getState
  raiseIf (decide (e.tstate = .draining)) (.ownershipViolation i .peBegin)
  match pulseConstantsOf s.board (s.slot i).variant with
  | none => refuse .illFormedProtocolConstants
  | some pc => do
    refuseIf (!pulseConstantsOk s.board.durationMax pc) .illFormedProtocolConstants
    modEngine i fun e => e.withPulseLatch (pulseLatchOf pc)
    modPu e.unit fun p => p.configured (cfgInvert (s.slot i).cfg)

/-- The data bit to emit next, of byte `b`, and the sequencer after it (R194). -/
def peEmitBit (i : Nat) (l : PulseLatch) (q : PulseSeq) (b : Byte) : Op PulseDescriptor := do
  let p ← xlatLookupPulse i (symbolOfBit (b.getLsbD q.bitIdx))
  if q.bitIdx = 0 then do
    let more ← drvMoreData i
    setPulseSeq i { q with curByte := none, phase := if l.gapFlag && more then .gap else q.phase }
  else setPulseSeq i { q with curByte := some b, bitIdx := q.bitIdx - 1 }
  pure p

/-- One pass of PE_NEXT_ITEM's loop (R194): `none` is "continue loop", `some r` is "return r". -/
def pePass (i : Nat) : Op (Option (Option PulseDescriptor)) := do
  let (_, q, l) ← pulseEngineOf i
  let l ← latched l "PE_NEXT_ITEM"
  match q.phase with
  | .preIdle =>
    if q.idleIdx < l.preIdle then do
      setPulseSeq i { q with idleIdx := q.idleIdx + 1 }
      let p ← xlatLookupPulse i .idle
      pure (some (some p))
    else do
      setPulseSeq i { q with phase := .data, idleIdx := 0 }
      pure none
  | .data =>
    match q.curByte with
    | some b => do
      let p ← peEmitBit i l q b
      pure (some (some p))
    | none => do
      let more ← drvMoreData i
      if more then do
        let b ← drvNextByte i
        let p ← peEmitBit i l { q with curByte := some b, bitIdx := l.W - 1 } b
        pure (some (some p))
      else do
        setPulseSeq i { q with phase := .postIdle }
        pure none
  | .gap => do
    setPulseSeq i { q with phase := .data }
    let p ← xlatLookupPulse i .gap
    pure (some (some p))
  | .postIdle =>
    if q.idleIdx < l.postIdle then do
      setPulseSeq i { q with idleIdx := q.idleIdx + 1 }
      let p ← xlatLookupPulse i .idle
      pure (some (some p))
    else do
      setPulseSeq i { q with phase := .done }
      pure (some none)
  | .done => pure (some none)

/-- PE_NEXT_ITEM's loop within `n` passes. -/
def peLoop (i : Nat) : Nat → Op (Option PulseDescriptor)
  | 0 => fail (.stopped .loopBound)
  | n + 1 => do
    let r ← pePass i
    match r with
    | some p => pure p
    | none => peLoop i n

/-- PE_NEXT_ITEM(i): the loop runs at most three times before it returns (R194). -/
def peNextItem (i : Nat) : Op (Option PulseDescriptor) := peLoop i 3

/-- PE_FILL's loop within `n` calls of PE_NEXT_ITEM (R195). -/
def peFillLoop (i : Nat) : Nat → Op Unit
  | 0 => pure ()
  | n + 1 => do
    let (e, q, _) ← pulseEngineOf i
    let s ← getState
    if (s.pu e.unit).ring.length < s.board.ringCapacity ∧ q.phase ≠ .done then do
      let r ← peNextItem i
      match r with
      | some p => modPu e.unit fun u => { u with ring := u.ring ++ [p] }
      | none => pure ()
      peFillLoop i n
    else pure ()

/-- PE_FILL(i): at most `RingCapacity` pushes and one call of PE_NEXT_ITEM more (R195). -/
def peFill (i : Nat) : Op Unit := do
  let s ← getState
  peFillLoop i (s.board.ringCapacity + 1)

/-- The sequencer at a frame's start (R193). -/
def pulseSeqStart : PulseSeq := { phase := .preIdle, idleIdx := 0, curByte := none, bitIdx := 0 }

/-- An engine at a frame's start, Filling (R193, R225); the sequencer is set apart. -/
def Engine.filling (e : Engine) (now : Nat) : Engine :=
  { e with cursor := 0, frameStart := some now, tstate := .filling }

/-- An engine whose initial fill is done, Draining with both interrupts enabled (R193, R225). -/
def Engine.draining (e : Engine) : Engine := { e with enLow := true, enEnd := true, tstate := .draining }

/-- PE_START_FRAME(i) (R193). -/
def peStartFrame (i : Nat) : Op Unit := do
  let (e, _, _) ← pulseEngineOf i
  modState fun s =>
    s.setSlot i
      { ((s.slot i).mapEng fun e => (e.filling s.now).withPulseSeq pulseSeqStart) with
        frameCount := countUp (s.slot i).frameCount }
  modPu e.unit fun p => { p with pendLow := false, pendEnd := false, ring := [] }
  peFill i
  modEngine i Engine.draining
  puStart e.unit

/-- The writes of the ISR's END branch that a complete frame and an underrun share (R196, R228). -/
def Engine.ended (e : Engine) : Engine := { e with enLow := false, enEnd := false, tstate := .frameComplete }

/-- PE_ISR(i) (R196). -/
def peIsr (i : Nat) : Op Unit := do
  let (e, q, _) ← pulseEngineOf i
  let s ← getState
  if (s.pu e.unit).pendEnd && e.enEnd then do
    modPu e.unit fun p => { p with pendEnd := false, pendLow := false }
    if q.phase = .done then modEngine i Engine.ended
    else do
      modSlot i fun d =>
        { (d.mapEng fun e => e.ended.withPulseSeq { q with phase := .done, curByte := none }) with
          hwErrorCount := countUp d.hwErrorCount }
      modPu e.unit fun p => { p with ring := [] }
      raise (.underrun i)
  else if (s.pu e.unit).pendLow && e.enLow then do
    modPu e.unit fun p => { p with pendLow := false }
    if e.tstate = .draining then peFill i else pure ()
  else pure ()

/-- PE_IDLE(i) (R197), with its guard. -/
def peIdle (i : Nat) : Op Unit := do
  let (e, _, _) ← pulseEngineOf i
  let s ← getState
  guardStep (decide (e.tstate = .frameComplete) && s.frameDue (s.slot i) e) "PE_IDLE"
  modEngine i fun e => { e with tstate := .idle }

/-- The command PE_BEGIN. -/
def execPeBegin (slot : Nat) (s : State) : Host.Outcome State Fault Refusal :=
  runStep s do
    admitSlot slot
    peBegin slot

/-- The command PE_START_FRAME, with its guard; the latched parameters are set before any frame can start
(R45). -/
def execPeStartFrame (slot : Nat) (s : State) : Host.Outcome State Fault Refusal :=
  runStep s do
    admitSlot slot
    let (e, _, _) ← pulseEngineOf slot
    guardStep (!e.tstate.transmitting) "PE_START_FRAME"
    peStartFrame slot

/-- The command PE_NEXT_ITEM, with its guard. -/
def execPeNextItem (slot : Nat) (s : State) : Host.Outcome State Fault Refusal :=
  runStep s do
    admitSlot slot
    let (e, _, _) ← pulseEngineOf slot
    guardStep e.tstate.transmitting "PE_NEXT_ITEM"
    let r ← peNextItem slot
    answer (.pulseItem r)

/-- The command PE_FILL, with its guard. -/
def execPeFill (slot : Nat) (s : State) : Host.Outcome State Fault Refusal :=
  runStep s do
    admitSlot slot
    let (e, _, _) ← pulseEngineOf slot
    guardStep e.tstate.transmitting "PE_FILL"
    peFill slot

/-- The command PE_ISR, with its guard. -/
def execPeIsr (slot : Nat) (s : State) : Host.Outcome State Fault Refusal :=
  runStep s do
    admitSlot slot
    let (e, _, _) ← pulseEngineOf slot
    guardStep (s.irqRequested e) "PE_ISR"
    peIsr slot

/-- The command PE_IDLE. -/
def execPeIdle (slot : Nat) (s : State) : Host.Outcome State Fault Refusal :=
  runStep s do
    admitSlot slot
    peIdle slot

end Sys2Proof.Machine
end

