-- ==== Sys2Proof/Machine/SerialEngine.lean ====
section
/-! DEFINITION. The SerialEncodingEngine (spec 43): SE_BEGIN, SE_START_FRAME, SE_NEXT_ITEM, SE_FILL, SE_ISR and
SE_IDLE. -/

namespace Sys2Proof.Machine

/-- Replace the serial sequencer of slot `i`. -/
def setSerialSeq (i : Nat) (q : SerialSeq) : Op Unit := modEngine i fun e => e.withSerialSeq q

/-- The parameters SE_BEGIN latches (R46, R224). -/
def serialLatchOf (pc : SerialConstants) (stable : List Byte) (D C : Nat) : SerialLatch :=
  { G := pc.G, S := pc.S, D := D, stable := stable, FP := pc.FP, FS := pc.FS, PP := pc.PP, PS := pc.PS, C := C }

/-- A serial unit as SE_BEGIN configures it (R224). -/
def SerialUnit.configured (p : SerialUnit) (baud D : Nat) (invert : Bool) : SerialUnit :=
  { p with baud := baud, D := D, invert := invert, line := phys invert false }

/-- The channels per pixel of a driver's configuration; only an encoder's has them (R36). -/
def cfgChannels (c : DriverConfig) : Nat :=
  match encoderCfg c with
  | some e => e.channelsPerPixel
  | none => 0

/-- SE_BEGIN(i) (R224). -/
def seBegin (i : Nat) : Op Unit := do
  let (e, _, _) ← serialEngineOf i
  let s ← getState
  raiseIf (decide (e.tstate = .draining)) (.ownershipViolation i .seBegin)
  match serialConstantsOf s.board (s.slot i).variant with
  | none => refuse .illFormedProtocolConstants
  | some pc => do
    let (tbl, D) ← xlatBuildSerial pc.G pc.S pc.H0 pc.H1
    refuseIf (decide (pc.bitPeriodNs < 1)) .illFormedProtocolConstants
    refuseIf (decide (baudRate pc.G D pc.bitPeriodNs < 1)) .illFormedProtocolConstants
    modEngine i fun e => e.withSerialLatch (serialLatchOf pc tbl D (cfgChannels (s.slot i).cfg))
    modSu e.unit fun p => p.configured (baudRate pc.G D pc.bitPeriodNs) D (cfgInvert (s.slot i).cfg)

/-- `load(x)` and the sequencer's other fields with it (R226). -/
def SerialSeq.load (q : SerialSeq) (x : Byte) : SerialSeq := { q with curByte := some x, groupIdx := 0 }

/-- One pass through a fixed sequence (R226): load its next byte, or move on to phase `next`. -/
def seFixed (i : Nat) (q : SerialSeq) (xs : List Byte) (next : SPhase) : Op Unit :=
  match xs[q.seqIdx]? with
  | some x => setSerialSeq i { q.load x with seqIdx := q.seqIdx + 1 }
  | none => setSerialSeq i { q with seqIdx := 0, sphase := next }

/-- One pass of SE_NEXT_ITEM's loop (R226): `none` is "continue loop", `some r` is "return r". -/
def sePass (i : Nat) : Op (Option (Option Byte)) := do
  let (_, q, l) ← serialEngineOf i
  let l ← latched l "SE_NEXT_ITEM"
  match q.curByte with
  | some b => do
    if q.groupIdx = 8 / l.G - 1 then setSerialSeq i { q with curByte := none, groupIdx := 0 }
    else setSerialSeq i { q with groupIdx := q.groupIdx + 1 }
    let x ← xlatLookupSerial i (group b q.groupIdx l.G)
    pure (some (some x))
  | none =>
    match q.sphase with
    | .framePrefix => do
      let more ← drvMoreData i
      seFixed i q l.FP (if more then .pixelPrefix else .frameSuffix)
      pure none
    | .pixelPrefix => do
      seFixed i q l.PP .pixelData
      pure none
    | .pixelData => do
      let more ← drvMoreData i
      if more then do
        let x ← drvNextByte i
        let (e, _, _) ← serialEngineOf i
        let still ← drvMoreData i
        setSerialSeq i { q.load x with sphase := if e.cursor % l.C = 0 || !still then .pixelSuffix else .pixelData }
        pure none
      else do
        setSerialSeq i { q with sphase := .pixelSuffix }
        pure none
    | .pixelSuffix => do
      let more ← drvMoreData i
      seFixed i q l.PS (if more then .pixelPrefix else .frameSuffix)
      pure none
    | .frameSuffix =>
      match l.FS[q.seqIdx]? with
      | some x => do
        setSerialSeq i { q.load x with seqIdx := q.seqIdx + 1 }
        pure none
      | none => do
        setSerialSeq i { q with seqIdx := 0, sphase := .done }
        pure (some none)
    | .done => pure (some none)

/-- SE_NEXT_ITEM's loop within `n` passes. -/
def seLoop (i : Nat) : Nat → Op (Option Byte)
  | 0 => fail (.stopped .loopBound)
  | n + 1 => do
    let r ← sePass i
    match r with
    | some x => pure x
    | none => seLoop i n

/-- SE_NEXT_ITEM(i): the longest way to an item passes PixelSuffix, PixelPrefix, PixelData and the loaded byte
(R226), one pass fewer than the bound here. -/
def seNextItem (i : Nat) : Op (Option Byte) := seLoop i 5

/-- SE_FILL's loop within `n` calls of SE_NEXT_ITEM (R227). -/
def seFillLoop (i : Nat) : Nat → Op Unit
  | 0 => pure ()
  | n + 1 => do
    let (e, q, _) ← serialEngineOf i
    let s ← getState
    if (s.su e.unit).fifo.length < s.board.fifoCapacity ∧ q.sphase ≠ .done then do
      let r ← seNextItem i
      match r with
      | some x => modSu e.unit fun u => { u with fifo := u.fifo ++ [x] }
      | none => pure ()
      seFillLoop i n
    else pure ()

/-- SE_FILL(i): at most `FifoCapacity` pushes and one call of SE_NEXT_ITEM more (R227). -/
def seFill (i : Nat) : Op Unit := do
  let s ← getState
  seFillLoop i (s.board.fifoCapacity + 1)

/-- The sequencer at a frame's start (R225). -/
def serialSeqStart : SerialSeq := { sphase := .framePrefix, seqIdx := 0, curByte := none, groupIdx := 0 }

/-- SE_START_FRAME(i) (R225). -/
def seStartFrame (i : Nat) : Op Unit := do
  let (e, _, _) ← serialEngineOf i
  modState fun s =>
    s.setSlot i
      { ((s.slot i).mapEng fun e => (e.filling s.now).withSerialSeq serialSeqStart) with
        frameCount := countUp (s.slot i).frameCount }
  modSu e.unit fun p => { p with pendLow := false, pendEnd := false, fifo := [] }
  seFill i
  modEngine i Engine.draining
  suStart e.unit

/-- SE_ISR(i) (R228). -/
def seIsr (i : Nat) : Op Unit := do
  let (e, q, _) ← serialEngineOf i
  let s ← getState
  if (s.su e.unit).pendEnd && e.enEnd then do
    modSu e.unit fun p => { p with pendEnd := false, pendLow := false }
    if q.sphase = .done then modEngine i Engine.ended
    else do
      modSlot i fun d =>
        { (d.mapEng fun e => e.ended.withSerialSeq { q with sphase := .done, curByte := none }) with
          hwErrorCount := countUp d.hwErrorCount }
      modSu e.unit fun p => { p with fifo := [] }
      raise (.underrun i)
  else if (s.su e.unit).pendLow && e.enLow then do
    modSu e.unit fun p => { p with pendLow := false }
    if e.tstate = .draining then seFill i else pure ()
  else pure ()

/-- SE_IDLE(i) (R229), with its guard. -/
def seIdle (i : Nat) : Op Unit := do
  let (e, _, _) ← serialEngineOf i
  let s ← getState
  guardStep (decide (e.tstate = .frameComplete) && s.frameDue (s.slot i) e) "SE_IDLE"
  modEngine i fun e => { e with tstate := .idle }

/-- The command SE_BEGIN. -/
def execSeBegin (slot : Nat) (s : State) : Host.Outcome State Fault Refusal :=
  runStep s do
    admitSlot slot
    seBegin slot

/-- The command SE_START_FRAME, with its guard. -/
def execSeStartFrame (slot : Nat) (s : State) : Host.Outcome State Fault Refusal :=
  runStep s do
    admitSlot slot
    let (e, _, _) ← serialEngineOf slot
    guardStep (!e.tstate.transmitting) "SE_START_FRAME"
    seStartFrame slot

/-- The command SE_NEXT_ITEM, with its guard. -/
def execSeNextItem (slot : Nat) (s : State) : Host.Outcome State Fault Refusal :=
  runStep s do
    admitSlot slot
    let (e, _, _) ← serialEngineOf slot
    guardStep e.tstate.transmitting "SE_NEXT_ITEM"
    let r ← seNextItem slot
    answer (.serialItem r)

/-- The command SE_FILL, with its guard. -/
def execSeFill (slot : Nat) (s : State) : Host.Outcome State Fault Refusal :=
  runStep s do
    admitSlot slot
    let (e, _, _) ← serialEngineOf slot
    guardStep e.tstate.transmitting "SE_FILL"
    seFill slot

/-- The command SE_ISR, with its guard. -/
def execSeIsr (slot : Nat) (s : State) : Host.Outcome State Fault Refusal :=
  runStep s do
    admitSlot slot
    let (e, _, _) ← serialEngineOf slot
    guardStep (s.irqRequested e) "SE_ISR"
    seIsr slot

/-- The command SE_IDLE. -/
def execSeIdle (slot : Nat) (s : State) : Host.Outcome State Fault Refusal :=
  runStep s do
    admitSlot slot
    seIdle slot

end Sys2Proof.Machine
end

