-- ==== Sys2Proof/Machine/Driver.lean ====
section
/-! DEFINITION. The OutputChannelDriver (spec 44): the lifecycle, configuration, render, status and pause
operations. DRV_MORE_DATA, DRV_NEXT_BYTE and DRV_NEEDED, which the engines call, stand in Machine/Slice.lean. -/

namespace Sys2Proof.Machine

/-- `FreshEngine(k, u)` (R39, R42, R43, R252). -/
def freshEngine (k : EngineKind) (u : Nat) : Engine :=
  { unit := u, tstate := .idle, cursor := 0, frameStart := none, enLow := false, enEnd := false,
    core :=
      match k with
      | .pulse => .pulse { phase := .done, idleIdx := 0, curByte := none, bitIdx := 0 } none
      | .serial => .serial { sphase := .done, seqIdx := 0, curByte := none, groupIdx := 0 } none }

/-- The engine of a new driver of variant `v` in a slot with peripheral `p`; the outer `none` marks a slot whose
peripheral has no unit for the engine, which a well-formed `Legal` excludes (R250, R252). -/
def engineFor (v : Variant) (p : Periph) : Option (Option Engine) :=
  match engineKindOf v with
  | none => some none
  | some k => (unitFor k p).map fun u => some (freshEngine k u)

/-- The driver DRV_CONSTRUCT builds (R252). -/
def newDriver (b : Board) (v : Variant) (paused : Bool) (eng : Option Engine) : DriverState :=
  { variant := v, status := .constructed, cfg := defaultCfgOf b v, needed := neededBytes b v (defaultCfgOf b v),
    offset := 0, length := 0, paused := paused, frameCount := 0, droppedCount := 0, hwErrorCount := 0,
    hwInitFailed := false, eng := eng }

/-- DRV_CONSTRUCT(i, v) (R252). -/
def drvConstruct (i : Nat) (v : Variant) : Op Unit := do
  let s ← getState
  raiseIf (s.slot i).transmitting (.destroyWhileDraining i)
  refuseIf (!legalAt s.board i v) .illegalVariant
  refuseIf (isEncoder v && !legalCfg (defaultCfgOf s.board v)) .illFormedParameter
  match engineFor v (s.periph i) with
  | none => refuse .illFormedParameter
  | some eng => modSlot i fun _ => newDriver s.board v s.pauseHeld eng

/-- A pulse unit with its queue and flags cleared (R253). -/
def PulseUnit.quiet (p : PulseUnit) : PulseUnit :=
  { p with pendLow := false, pendEnd := false, busy := false, ring := [] }

/-- A serial unit with its queue and flags cleared (R253). -/
def SerialUnit.quiet (p : SerialUnit) : SerialUnit :=
  { p with pendLow := false, pendEnd := false, busy := false, fifo := [] }

/-- Clear the unit an engine drives: its pending bits, `busy` and its queue (R253). -/
def quietUnit (e : Engine) : Op Unit :=
  match e.kind with
  | .pulse => modPu e.unit PulseUnit.quiet
  | .serial => modSu e.unit SerialUnit.quiet

/-- DRV_STOP(i) (R253). -/
def drvStop (i : Nat) : Op Unit := do
  let s ← getState
  match (s.slot i).eng with
  | none => pure ()
  | some e => do
    raiseIf e.tstate.transmitting (.destroyWhileDraining i)
    modEngine i fun e => { e with enLow := false, enEnd := false }
    quietUnit e

/-- ENGINE_BEGIN(i): PE_BEGIN for a pulse variant, SE_BEGIN for a serial one (R251). -/
def engineBegin (i : Nat) : Op Unit := do
  let s ← getState
  match engineKindOf (s.slot i).variant with
  | some .pulse => peBegin i
  | some .serial => seBegin i
  | none => pure ()

/-- START_FRAME(i): PE_START_FRAME for a pulse variant, SE_START_FRAME for a serial one (R251). -/
def startFrame (i : Nat) : Op Unit := do
  let s ← getState
  match engineKindOf (s.slot i).variant with
  | some .pulse => peStartFrame i
  | some .serial => seStartFrame i
  | none => pure ()

/-- DRV_BEGIN(i) (R254). -/
def drvBegin (i : Nat) : Op Unit := do
  let s ← getState
  raiseIf (s.slot i).draining (.ownershipViolation i .drvBegin)
  if (s.slot i).status = .failed then pure ()
  else if isEncoder (s.slot i).variant then do
    let ok ← drawPeriphInit i
    if ok then do
      engineBegin i
      modSlot i fun d => { d with hwInitFailed := false, status := .ready }
    else do
      modSlot i fun d =>
        { d with status := .failed, hwInitFailed := true, hwErrorCount := countUp d.hwErrorCount }
      logDiag i .hwInitError
  else modSlot i fun d => { d with status := .ready }

/-- DRV_SET_CONFIG(i, params) (R256). -/
def drvSetConfig (i : Nat) (params : ParamObject) : Op Unit := do
  let s ← getState
  raiseIf (s.slot i).draining (.ownershipViolation i .drvSetConfig)
  if (s.slot i).variant = .disabled then pure ()
  else if isEncoder (s.slot i).variant then
    match mergeDriverCfg (s.slot i).cfg params with
    | none => refuse .illFormedConfig
    | some c => do
      refuseIf (!legalCfg c) .illFormedConfig
      modSlot i fun d => { d with cfg := c, needed := neededBytes s.board d.variant c }
      if (s.slot i).status = .ready then engineBegin i else pure ()
  else
    modSlot i fun d =>
      { d with
        cfg := opaqueMerge s.board d.variant d.cfg params
        needed := cfgTableAt s.board.neededOther d.variant (opaqueMerge s.board d.variant d.cfg params) }

/-- DRV_GET_CONFIG on a driver (R257): empty for Disabled, OpaqueGet for an out-of-scope variant (R278). -/
def drvConfigOf (d : DriverState) : ParamObject :=
  match d.variant with
  | .disabled => []
  | v =>
    if isEncoder v then
      match encoderCfg d.cfg with
      | some c => encoderParams c
      | none => []
    else storedObject d.cfg

/-- DRV_RENDER(i) (R258). -/
def drvRender (i : Nat) : Op Unit := do
  let s ← getState
  match (s.slot i).eng with
  | none => pure ()
  | some e =>
    if (s.slot i).status ≠ .ready ∨ (s.slot i).paused = true then pure ()
    else if e.tstate.transmitting || !s.frameDue (s.slot i) e then
      modSlot i fun d => { d with droppedCount := countUp d.droppedCount }
    else startFrame i

/-- DRV_GET_STATUS(i) (R259). -/
def drvStatusOf (s : State) (i : Nat) : SlotStatus :=
  { typeCode := s.board.protocolCode.at (s.slot i).variant
    status := (s.slot i).status
    frameCount := (s.slot i).frameCount
    droppedCount := (s.slot i).droppedCount
    hwErrorCount := (s.slot i).hwErrorCount
    hwInitFailed := (s.slot i).hwInitFailed
    diagnostics := s.diag.filter fun r => decide (r.slot = i) }

/-- DRV_PAUSE(i) (R260). -/
def drvPause (i : Nat) : Op Unit := modSlot i fun d => { d with paused := true }

/-- DRV_RESUME(i) (R261). -/
def drvResume (i : Nat) : Op Unit := do
  let s ← getState
  modSlot i fun d => { d with paused := s.pauseHeld }

/-- DRV_SET_BUFFER(i, offset, length) (R262). -/
def drvSetBuffer (i offset length : Nat) : Op Unit := do
  let s ← getState
  raiseIf (s.slot i).transmitting (.ownershipViolation i .drvSetBuffer)
  refuseIf (decide (s.board.totalBufferSize < offset + length)) .illFormedOperand
  modSlot i fun d =>
    { d with offset := offset, length := length, eng := d.eng.map fun e => { e with cursor := 0 } }

/-! ## The commands -/

/-- The command DRV_CONSTRUCT. -/
def execDrvConstruct (slot : Nat) (v : Variant) (s : State) : Host.Outcome State Fault Refusal :=
  runStep s do
    admitSlot slot
    drvConstruct slot v

/-- The command DRV_STOP. -/
def execDrvStop (slot : Nat) (s : State) : Host.Outcome State Fault Refusal :=
  runStep s do
    admitSlot slot
    drvStop slot

/-- The command DRV_BEGIN. -/
def execDrvBegin (slot : Nat) (s : State) : Host.Outcome State Fault Refusal :=
  runStep s do
    admitSlot slot
    admitBegun
    admitTurn "DRV_BEGIN"
    drvBegin slot

/-- The command DRV_SET_CONFIG. -/
def execDrvSetConfig (slot : Nat) (params : ParamObject) (s : State) : Host.Outcome State Fault Refusal :=
  runStep s do
    admitSlot slot
    admitOperands (distinctKeys params)
    admitBegun
    admitTurn "DRV_SET_CONFIG"
    drvSetConfig slot params

/-- The command DRV_GET_CONFIG. -/
def execDrvGetConfig (slot : Nat) (s : State) : Host.Outcome State Fault Refusal :=
  runStep s do
    admitSlot slot
    admitBegun
    admitTurn "DRV_GET_CONFIG"
    answer (.params (drvConfigOf (s.slot slot)))

/-- The command DRV_RENDER. -/
def execDrvRender (slot : Nat) (s : State) : Host.Outcome State Fault Refusal :=
  runStep s do
    admitSlot slot
    admitBegun
    admitTurn "DRV_RENDER"
    drvRender slot

/-- The command DRV_GET_STATUS. -/
def execDrvGetStatus (slot : Nat) (s : State) : Host.Outcome State Fault Refusal :=
  runStep s do
    admitSlot slot
    admitBegun
    admitTurn "DRV_GET_STATUS"
    answer (.slotStatus (drvStatusOf s slot))

/-- The command DRV_PAUSE. -/
def execDrvPause (slot : Nat) (s : State) : Host.Outcome State Fault Refusal :=
  runStep s do
    admitSlot slot
    drvPause slot

/-- The command DRV_RESUME. -/
def execDrvResume (slot : Nat) (s : State) : Host.Outcome State Fault Refusal :=
  runStep s do
    admitSlot slot
    drvResume slot

/-- The command DRV_SET_BUFFER. -/
def execDrvSetBuffer (slot offset length : Nat) (s : State) : Host.Outcome State Fault Refusal :=
  runStep s do
    admitSlot slot
    drvSetBuffer slot offset length

/-- The command DRV_MORE_DATA, with its guard (R263). -/
def execDrvMoreData (slot : Nat) (s : State) : Host.Outcome State Fault Refusal :=
  runStep s do
    admitSlot slot
    let more ← drvMoreData slot
    answer (.flag more)

/-- The command DRV_NEXT_BYTE, with its guard (R264). -/
def execDrvNextByte (slot : Nat) (s : State) : Host.Outcome State Fault Refusal :=
  runStep s do
    admitSlot slot
    let more ← drvMoreData slot
    guardStep more "DRV_NEXT_BYTE"
    let x ← drvNextByte slot
    answer (.byte x)

/-- The command DRV_NEEDED. -/
def execDrvNeeded (slot : Nat) (s : State) : Host.Outcome State Fault Refusal :=
  runStep s do
    admitSlot slot
    answer (.nat (drvNeededOf s slot))

end Sys2Proof.Machine
end

