-- ==== Sys2Proof/Machine/Manager.lean ====
section
/-! DEFINITION. The OutputManager (spec 45): start-up, configuration, the render pass with its sub-steps, pause and
resume, the deferred reload, and the buffer partition. -/

namespace Sys2Proof.Machine

/-- `DefaultDoc()` (R302). -/
def defaultDoc (b : Board) : ConfigDoc :=
  { version := b.configFormatVersion
    channels := (List.range b.numSlots).map fun i =>
      (i, { typeCode := some (b.protocolCode.at .disabled), params := [(b.protocolCode.at .disabled, [])] }) }

/-- What MGR_RESOLVE_ENTRY finds: the binding, or the reason of the fallback (R299). -/
inductive Resolution where
  | bind (v : Variant) (p : ParamObject)
  | bad (p : ConfigProblem)
  deriving DecidableEq, Repr

/-- The configuration MGR_RESOLVE_ENTRY merges into: the slot's own when the variant stays, the default otherwise
(R299). -/
def mergeBase (s : State) (i : Nat) (v : Variant) : DriverConfig :=
  if v = (s.slot i).variant then (s.slot i).cfg else defaultCfgOf s.board v

/-- The parameters of an entry are acceptable for its variant (R299). -/
def paramsOk (s : State) (i : Nat) (v : Variant) (p : ParamObject) : Bool :=
  if isEncoder v then
    match mergeDriverCfg (mergeBase s i v) p with
    | some c => legalCfg c
    | none => false
  else true

/-- The checks of MGR_RESOLVE_ENTRY on one entry (R299). -/
def resolveEntry (s : State) (i : Nat) (en : Entry) : Resolution :=
  match en.typeCode with
  | none => .bad .malformedEntry
  | some code =>
    match mapGet en.params code with
    | none => .bad .malformedEntry
    | some p =>
      match variantOfCode s.board code with
      | none => .bad .unknownType
      | some v =>
        if !legalAt s.board i v then .bad .illegalForSlot
        else if !paramsOk s i v p then .bad .badParams
        else .bind v p

/-- The checks of MGR_RESOLVE_ENTRY in their order (R299). -/
def resolve (s : State) (i : Nat) (doc : ConfigDoc) : Resolution :=
  if doc.version ≠ s.board.configFormatVersion then .bad .versionMismatch
  else
    match mapGet doc.channels i with
    | none => .bad .missingEntry
    | some en => resolveEntry s i en

/-- MGR_RESOLVE_ENTRY(i, doc) (R299). -/
def mgrResolveEntry (i : Nat) (doc : ConfigDoc) : Op (Variant × ParamObject) := do
  let s ← getState
  match resolve s i doc with
  | .bind v p => pure (v, p)
  | .bad r => do
    logDiag i (.configError r)
    pure (.disabled, [])

/-- One slot of MGR_APPLY_CONFIG (R295). -/
def applySlot (doc : ConfigDoc) (i : Nat) : Op Unit := do
  let (v, params) ← mgrResolveEntry i doc
  let s ← getState
  if v = (s.slot i).variant then drvSetConfig i params
  else do
    drvStop i
    drvConstruct i v
    drvSetConfig i params
    drvBegin i

/-- MGR_APPLY_CONFIG(doc) (R295). -/
def mgrApplyConfig (doc : ConfigDoc) : Op Unit := do
  let s ← getState
  forEach (applySlot doc) s.slotIndices

/-- MGR_NOTIFY_CAPACITY() (R301). -/
def mgrNotifyCapacity : Op Unit :=
  modState fun s => { s with capacity := some (s.totalUsed, s.slotIndices.map fun i => (s.slot i).offset) }

/-- One slot of MGR_UPDATE_PARTITION at offset `off`; it returns the next offset (R300). -/
def partitionSlot (i off : Nat) : Op Nat := do
  let s ← getState
  let need := drvNeededOf s i
  let grant := min need (s.board.totalBufferSize - off)
  if grant < need then logDiag i (.capacityShortfall need grant) else pure ()
  drvSetBuffer i off grant
  pure (off + grant)

/-- The slots of MGR_UPDATE_PARTITION in index order (R300). -/
def partitionFrom (off : Nat) : List Nat → Op Nat
  | [] => pure off
  | i :: rest => do
    let next ← partitionSlot i off
    partitionFrom next rest

/-- MGR_UPDATE_PARTITION() (R300). -/
def mgrUpdatePartition : Op Unit := do
  let s ← getState
  let off ← partitionFrom 0 s.slotIndices
  modState fun s => { s with totalUsed := off }
  mgrNotifyCapacity

/-- The first action of MGR_BEGIN on a slot: a Ready Disabled driver (R290, R372). -/
def initSlot (i : Nat) : Op Unit := do
  drvConstruct i .disabled
  drvBegin i

/-- The document MGR_BEGIN applies: the persisted one, or the default one, which it persists (R290). The draw is not
checked for a key that stands twice, which no finite map has (R121): how such a list is read is the model's DESIGN
CHOICE, notes/assumptions/32. -/
def loadDoc : Op ConfigDoc := do
  let r ← drawPersistLoad
  let s ← getState
  match r with
  | some doc => pure doc
  | none => do
    modState fun s => { s with persisted := some (defaultDoc s.board) }
    pure (defaultDoc s.board)

/-- MGR_BEGIN() (R290). -/
def mgrBegin : Op Unit := do
  let s ← getState
  if s.begun then pure ()
  else do
    refuseIf (!s.wellFormedParameters) .illFormedParameter
    forEach initSlot s.slotIndices
    let doc ← loadDoc
    mgrApplyConfig doc
    mgrUpdatePartition
    modState fun s => { s with begun := true }

/-- MGR_GET_CONFIG() (R292). -/
def configDocOf (s : State) : ConfigDoc :=
  { version := s.board.configFormatVersion
    channels := s.slotIndices.map fun i =>
      (i, { typeCode := some (s.board.protocolCode.at (s.slot i).variant)
            params := [(s.board.protocolCode.at (s.slot i).variant, drvConfigOf (s.slot i))] }) }

/-- MGR_RELOAD() (R298). -/
def mgrReload : Op Unit := do
  modState fun s => { s with reloadPaused := true }
  let s ← getState
  forEach drvPause s.slotIndices
  if s.anyTransmitting then pure ()
  else
    match s.pending with
    | none => fail (.disabled "MGR_RELOAD")
    | some doc => do
      mgrApplyConfig doc
      mgrUpdatePartition
      modState fun s => { s with pending := none, reloadPaused := false }
      forEach drvResume s.slotIndices

/-- MGR_RENDER(), its first step (R294). -/
def mgrRender : Op Unit := do
  let s ← getState
  if s.pending ≠ none then mgrReload else pure ()
  let t ← getState
  if t.pending ≠ none ∨ t.userPaused = true then pure ()
  else modState fun s => { s with renderPos := some 0 }

/-- RENDER_SUBSTEP(), a step of the main loop without a command word (R294). -/
def renderSubstep : Op Unit := do
  let s ← getState
  match s.renderPos with
  | none => fail (.disabled "RENDER_SUBSTEP")
  | some i => do
    drvRender i
    modState fun s => { s with renderPos := if i + 1 < s.board.numSlots then some (i + 1) else none }

/-- MGR_PAUSE() (R296). -/
def mgrPause : Op Unit := do
  modState fun s => { s with userPaused := true }
  let s ← getState
  forEach drvPause s.slotIndices

/-- MGR_RESUME() (R297). -/
def mgrResume : Op Unit := do
  modState fun s => { s with userPaused := false }
  let s ← getState
  forEach drvResume s.slotIndices

/-! ## The commands -/

/-- The command MGR_BEGIN. -/
def execMgrBegin (s : State) : Host.Outcome State Fault Refusal :=
  runStep s do
    admitTurn "MGR_BEGIN"
    mgrBegin

/-- The command MGR_SET_CONFIG (R291). -/
def execMgrSetConfig (doc : ConfigDoc) (s : State) : Host.Outcome State Fault Refusal :=
  runStep s do
    admitOperands doc.wellFormed
    admitBegun
    admitTurn "MGR_SET_CONFIG"
    modState fun s => { s with pending := some doc }

/-- The command MGR_GET_CONFIG. -/
def execMgrGetConfig (s : State) : Host.Outcome State Fault Refusal :=
  runStep s do
    admitBegun
    admitTurn "MGR_GET_CONFIG"
    answer (.config (configDocOf s))

/-- The command MGR_GET_STATUS (R293). -/
def execMgrGetStatus (s : State) : Host.Outcome State Fault Refusal :=
  runStep s do
    admitBegun
    admitTurn "MGR_GET_STATUS"
    answer (.statusDoc (s.slotIndices.map (drvStatusOf s)))

/-- The command MGR_RENDER. -/
def execMgrRender (s : State) : Host.Outcome State Fault Refusal :=
  runStep s do
    admitBegun
    admitTurn "MGR_RENDER"
    mgrRender

/-- The command MGR_PAUSE. -/
def execMgrPause (s : State) : Host.Outcome State Fault Refusal :=
  runStep s do
    admitBegun
    admitTurn "MGR_PAUSE"
    mgrPause

/-- The command MGR_RESUME. -/
def execMgrResume (s : State) : Host.Outcome State Fault Refusal :=
  runStep s do
    admitBegun
    admitTurn "MGR_RESUME"
    mgrResume

/-- The command MGR_RELOAD, with its guard. -/
def execMgrReload (s : State) : Host.Outcome State Fault Refusal :=
  runStep s do
    guardStep s.pending.isSome "MGR_RELOAD"
    mgrReload

/-- The command MGR_APPLY_CONFIG, with its guard. -/
def execMgrApplyConfig (doc : ConfigDoc) (s : State) : Host.Outcome State Fault Refusal :=
  runStep s do
    admitOperands doc.wellFormed
    guardStep (!s.anyTransmitting) "MGR_APPLY_CONFIG"
    mgrApplyConfig doc

/-- The command MGR_RESOLVE_ENTRY. -/
def execMgrResolveEntry (slot : Nat) (doc : ConfigDoc) (s : State) : Host.Outcome State Fault Refusal :=
  runStep s do
    admitSlot slot
    admitOperands doc.wellFormed
    let (v, p) ← mgrResolveEntry slot doc
    answer (.binding v p)

/-- The command MGR_UPDATE_PARTITION, with its guard. -/
def execMgrUpdatePartition (s : State) : Host.Outcome State Fault Refusal :=
  runStep s do
    guardStep (!s.anyTransmitting) "MGR_UPDATE_PARTITION"
    mgrUpdatePartition

/-- The command MGR_NOTIFY_CAPACITY. -/
def execMgrNotifyCapacity (s : State) : Host.Outcome State Fault Refusal :=
  runStep s mgrNotifyCapacity

/-- The main loop's next render sub-step (R294). -/
def stepRenderSubstep (s : State) : Host.Outcome State Fault Refusal := runStep s renderSubstep

end Sys2Proof.Machine
end

