-- ==== Sys2Proof/Machine/Interrupts.lean ====
section
/-! DEFINITION. Interrupt entry (R340) and the host's buffer write (R94). -/

namespace Sys2Proof.Machine

/-- IRQ_ENTRY(i) (R340): the handler of the engine bound to the requesting unit. Nothing is saved, and the handler
returns when the step ends (R343, R344). -/
def irqEntry (i : Nat) : Op Unit := do
  let s ← getState
  match (s.slot i).eng with
  | none => fail (.disabled "IRQ_ENTRY")
  | some e => do
    guardStep (s.irqRequested e) "IRQ_ENTRY"
    match e.kind with
    | .pulse => peIsr i
    | .serial => seIsr i

/-- The command IRQ_ENTRY. -/
def execIrqEntry (slot : Nat) (s : State) : Host.Outcome State Fault Refusal :=
  runStep s do
    admitSlot slot
    irqEntry slot

/-- The address lies in the slice of a driver whose engine is Filling or Draining (R94). -/
def DriverState.ownsDuringFrame (d : DriverState) (a : Nat) : Bool :=
  d.transmitting && decide (d.offset ≤ a ∧ a < d.offset + d.length)

/-- HOST_BUF_WRITE(a, v) (R94); among several transmitting slots the lowest is reported (R332). -/
def hostBufWrite (a : Nat) (v : Byte) : Op Unit := do
  let s ← getState
  raiseIf (decide (s.board.totalBufferSize ≤ a)) (.bufferOutOfBounds a)
  match s.slotIndices.find? (fun i => (s.slot i).ownsDuringFrame a) with
  | some i => raise (.bufferWriteDuringFrame i a)
  | none => modState fun s => s.setByte a v

/-- The command HOST_BUF_WRITE. -/
def execHostBufWrite (a : Nat) (v : Byte) (s : State) : Host.Outcome State Fault Refusal :=
  runStep s (hostBufWrite a v)

end Sys2Proof.Machine
end

