-- ==== Sys2Proof/Machine/Dispatch.lean ====
section
/-! DEFINITION. The meaning of each instruction: one arm per constructor, one call of its own meaning. -/

namespace Sys2Proof.Machine

def exec (i : Instr) (s : State) : Host.Outcome State Fault Refusal :=
  match i with
  | .mgrBegin => Sys2Proof.Machine.execMgrBegin s
  | .mgrSetConfig doc => Sys2Proof.Machine.execMgrSetConfig doc s
  | .mgrGetConfig => Sys2Proof.Machine.execMgrGetConfig s
  | .mgrGetStatus => Sys2Proof.Machine.execMgrGetStatus s
  | .mgrRender => Sys2Proof.Machine.execMgrRender s
  | .mgrPause => Sys2Proof.Machine.execMgrPause s
  | .mgrResume => Sys2Proof.Machine.execMgrResume s
  | .mgrReload => Sys2Proof.Machine.execMgrReload s
  | .mgrApplyConfig doc => Sys2Proof.Machine.execMgrApplyConfig doc s
  | .mgrResolveEntry slot doc => Sys2Proof.Machine.execMgrResolveEntry slot doc s
  | .mgrUpdatePartition => Sys2Proof.Machine.execMgrUpdatePartition s
  | .mgrNotifyCapacity => Sys2Proof.Machine.execMgrNotifyCapacity s
  | .drvConstruct slot v => Sys2Proof.Machine.execDrvConstruct slot v s
  | .drvStop slot => Sys2Proof.Machine.execDrvStop slot s
  | .drvBegin slot => Sys2Proof.Machine.execDrvBegin slot s
  | .drvSetConfig slot params => Sys2Proof.Machine.execDrvSetConfig slot params s
  | .drvGetConfig slot => Sys2Proof.Machine.execDrvGetConfig slot s
  | .drvRender slot => Sys2Proof.Machine.execDrvRender slot s
  | .drvGetStatus slot => Sys2Proof.Machine.execDrvGetStatus slot s
  | .drvPause slot => Sys2Proof.Machine.execDrvPause slot s
  | .drvResume slot => Sys2Proof.Machine.execDrvResume slot s
  | .drvSetBuffer slot offset length => Sys2Proof.Machine.execDrvSetBuffer slot offset length s
  | .drvMoreData slot => Sys2Proof.Machine.execDrvMoreData slot s
  | .drvNextByte slot => Sys2Proof.Machine.execDrvNextByte slot s
  | .drvNeeded slot => Sys2Proof.Machine.execDrvNeeded slot s
  | .xlatSplit b gw => Sys2Proof.Machine.execXlatSplit b gw s
  | .xlatLookupPulse slot code => Sys2Proof.Machine.execXlatLookupPulse slot code s
  | .xlatLookupSerial slot g => Sys2Proof.Machine.execXlatLookupSerial slot g s
  | .xlatBuildSerial gw sw h0 h1 => Sys2Proof.Machine.execXlatBuildSerial gw sw h0 h1 s
  | .xlatEncodePulse slot b => Sys2Proof.Machine.execXlatEncodePulse slot b s
  | .xlatEncodeSerial slot b => Sys2Proof.Machine.execXlatEncodeSerial slot b s
  | .peBegin slot => Sys2Proof.Machine.execPeBegin slot s
  | .peStartFrame slot => Sys2Proof.Machine.execPeStartFrame slot s
  | .peNextItem slot => Sys2Proof.Machine.execPeNextItem slot s
  | .peFill slot => Sys2Proof.Machine.execPeFill slot s
  | .peIsr slot => Sys2Proof.Machine.execPeIsr slot s
  | .peIdle slot => Sys2Proof.Machine.execPeIdle slot s
  | .seBegin slot => Sys2Proof.Machine.execSeBegin slot s
  | .seStartFrame slot => Sys2Proof.Machine.execSeStartFrame slot s
  | .seNextItem slot => Sys2Proof.Machine.execSeNextItem slot s
  | .seFill slot => Sys2Proof.Machine.execSeFill slot s
  | .seIsr slot => Sys2Proof.Machine.execSeIsr slot s
  | .seIdle slot => Sys2Proof.Machine.execSeIdle slot s
  | .puStart slot => Sys2Proof.Machine.execPuStart slot s
  | .puEmit slot => Sys2Proof.Machine.execPuEmit slot s
  | .suStart slot => Sys2Proof.Machine.execSuStart slot s
  | .suShift slot => Sys2Proof.Machine.execSuShift slot s
  | .timerTick n => Sys2Proof.Machine.execTimerTick n s
  | .irqEntry slot => Sys2Proof.Machine.execIrqEntry slot s
  | .hostBufWrite a v => Sys2Proof.Machine.execHostBufWrite a v s

end Sys2Proof.Machine
end

