-- ==== Sys2Proof/Machine/Step.lean ====
section
/-! DEFINITION. The step: the first move of the schedule is taken (R13, R92). The block executes no instruction
stream and has no program counter (R52): which agent steps next is the environment's choice, and `schedule` holds
it (notes/assumptions/4). -/

namespace Sys2Proof.Machine

/-- Run one command: decode it (R125), then its operation, or the refusal R338 gives. -/
def runCommand (c : Command) (s : State) : Host.Outcome State Fault Refusal :=
  match decode c with
  | .instr i => exec i s
  | .unassigned => runStep s (refuse .unassignedOp)
  | .badSlot => runStep s (refuse .badSlot)
  | .illFormed op slot => runStep s (refuseRecord op slot)

/-- One step: the schedule's first move. With no move the block idles: it has no halt state (R336, R398). -/
def step (s : State) : Host.Outcome State Fault Refusal :=
  match s.schedule with
  | [] => .next s
  | .command c :: rest => runCommand c { s with schedule := rest }
  | .renderSubstep :: rest => stepRenderSubstep { s with schedule := rest }

/-- The state whose next step runs the instruction of the table's word `w` (its operand record all zeros). -/
def State.withFetchWord (s : State) (nbits w : Nat) : State :=
  { s with schedule := .command (tableCommand nbits w) :: s.schedule }

end Sys2Proof.Machine
end

