-- ==== Sys2Proof/Machine/Agents.lean ====
section
/-! DEFINITION. The agents of R13 and the issuer of each operation (R112), which of their steps are enabled, the
settled state of R398, and the pseudo-instructions of R128. The step itself takes whatever the schedule holds. -/

namespace Sys2Proof.Machine

/-- Who performs an operation (R12, R13, R112). -/
inductive Issuer where
  | mainLoop | isr | pulseUnit | serialUnit | timer | host | internal
  deriving DecidableEq, Repr

/-- The issuer of each operation (R112). -/
def issuer : Instr → Issuer
  | .mgrBegin => .mainLoop
  | .mgrSetConfig _ => .mainLoop
  | .mgrGetConfig => .mainLoop
  | .mgrGetStatus => .mainLoop
  | .mgrRender => .mainLoop
  | .mgrPause => .mainLoop
  | .mgrResume => .mainLoop
  | .mgrReload => .internal
  | .mgrApplyConfig _ => .internal
  | .mgrResolveEntry _ _ => .internal
  | .mgrUpdatePartition => .internal
  | .mgrNotifyCapacity => .internal
  | .drvConstruct _ _ => .internal
  | .drvStop _ => .internal
  | .drvBegin _ => .mainLoop
  | .drvSetConfig _ _ => .mainLoop
  | .drvGetConfig _ => .mainLoop
  | .drvRender _ => .mainLoop
  | .drvGetStatus _ => .mainLoop
  | .drvPause _ => .internal
  | .drvResume _ => .internal
  | .drvSetBuffer _ _ _ => .internal
  | .drvMoreData _ => .internal
  | .drvNextByte _ => .internal
  | .drvNeeded _ => .internal
  | .xlatSplit _ _ => .internal
  | .xlatLookupPulse _ _ => .internal
  | .xlatLookupSerial _ _ => .internal
  | .xlatBuildSerial _ _ _ _ => .internal
  | .xlatEncodePulse _ _ => .internal
  | .xlatEncodeSerial _ _ => .internal
  | .peBegin _ => .internal
  | .peStartFrame _ => .internal
  | .peNextItem _ => .internal
  | .peFill _ => .internal
  | .peIsr _ => .isr
  | .peIdle _ => .timer
  | .seBegin _ => .internal
  | .seStartFrame _ => .internal
  | .seNextItem _ => .internal
  | .seFill _ => .internal
  | .seIsr _ => .isr
  | .seIdle _ => .timer
  | .puStart _ => .internal
  | .puEmit _ => .pulseUnit
  | .suStart _ => .internal
  | .suShift _ => .serialUnit
  | .timerTick _ => .timer
  | .irqEntry _ => .isr
  | .hostBufWrite _ _ => .host

/-- The move that issues an instruction. -/
def moveOf (i : Instr) : Move := .command (encode i)

/-- IRQ_ENTRY is enabled on slot `i` (R340). -/
def State.irqEnabled (s : State) (i : Nat) : Bool :=
  match (s.slot i).eng with
  | some e => s.irqRequested e
  | none => false

/-- The unit of slot `i` can emit or shift: busy, its queue not empty, not held (R172, R175, R176). -/
def State.unitEnabled (s : State) (i : Nat) : Bool :=
  match (s.slot i).eng with
  | some e =>
    match e.kind with
    | .pulse => (s.pu e.unit).busy && !(s.pu e.unit).ring.isEmpty && !s.held e
    | .serial => (s.su e.unit).busy && !(s.su e.unit).fifo.isEmpty && !s.held e
  | none => false

/-- PE_IDLE or SE_IDLE is enabled on slot `i` (R197, R229). -/
def State.idleEnabled (s : State) (i : Nat) : Bool :=
  match (s.slot i).eng with
  | some e => decide (e.tstate = .frameComplete) && s.frameDue (s.slot i) e
  | none => false

/-- The unit step of slot `i`: PU_EMIT or SU_SHIFT by its engine's kind. -/
def State.unitInstr (s : State) (i : Nat) : Instr :=
  match (s.slot i).eng with
  | some e =>
    match e.kind with
    | .pulse => .puEmit i
    | .serial => .suShift i
  | none => .puEmit i

/-- The enabled interrupt and unit steps, by slot. -/
def State.hardwareMoves (s : State) : List Move :=
  s.slotIndices.flatMap fun i =>
    (if s.irqEnabled i then [moveOf (.irqEntry i)] else []) ++
      (if s.unitEnabled i then [moveOf (s.unitInstr i)] else [])

/-- The settled state: no IRQ_ENTRY, PU_EMIT or SU_SHIFT step is enabled (R398). -/
def State.settled (s : State) : Bool := s.hardwareMoves.isEmpty

/-- Put the first enabled interrupt or unit step before the schedule. -/
def State.withHardwareMove (s : State) : State :=
  match s.hardwareMoves with
  | [] => s
  | m :: _ => { s with schedule := m :: s.schedule }

/-- One order of settling among those R398 allows: the first enabled interrupt or unit step, at most `n` times. -/
def settle : Nat → State → Host.Outcome State Fault Refusal
  | 0, s => .next s
  | n + 1, s =>
    if s.settled then .next s
    else
      match step s.withHardwareMove with
      | .next t => settle n t
      | .fault f => .fault f
      | .refused r => .refused r

/-- The pseudo-instructions that expand to commands (R128). -/
inductive Pseudo where
  | writeSlice (slot k : Nat) (v : Byte)
  | configure (doc : ConfigDoc)
  | renderAt (t : Nat)
  deriving DecidableEq, Repr

/-- The expansion of a pseudo-instruction before the model runs; `none` where it is not valid (R128). -/
def Pseudo.expand (s : State) : Pseudo → Option (List Move)
  | .writeSlice slot k v =>
    if k < (s.slot slot).length then some [moveOf (.hostBufWrite ((s.slot slot).offset + k) v)] else none
  | .configure doc => some [moveOf (.mgrSetConfig doc), moveOf .mgrRender]
  | .renderAt t =>
    let n := (t + (s.timeModulus - s.now % s.timeModulus)) % s.timeModulus
    some (if 1 ≤ n then [moveOf (.timerTick n), moveOf .mgrRender] else [moveOf .mgrRender])

/-- WAIT_IDLE's condition: the slot's engine is Idle or FrameComplete (R128). -/
def State.waitDone (s : State) (i : Nat) : Bool := !(s.slot i).transmitting

/-- WAIT_IDLE by interrupt and unit steps, at most `n` of them (R128). -/
def waitIdle (i : Nat) : Nat → State → Host.Outcome State Fault Refusal
  | 0, s => .next s
  | n + 1, s =>
    if s.waitDone i || s.settled then .next s
    else
      match step s.withHardwareMove with
      | .next t => waitIdle i n t
      | .fault f => .fault f
      | .refused r => .refused r

end Sys2Proof.Machine
end

