-- ==== Sys2Proof/Machine/Assembler.lean ====
section
/-! DEFINITION. The command syntax of R127, as a printer: MNEMONIC, the slot in decimal, then each field of the
operand record as name=value. The encoding does not depend on it. -/

namespace Sys2Proof.Machine

/-- The variants' names as R3 spells them. -/
def variantName : Variant → String
  | .disabled => "Disabled"
  | .dmx => "DMX"
  | .renard => "Renard"
  | .genericSerial => "GenericSerial"
  | .gece => "GECE"
  | .relay => "Relay"
  | .servoPca9685 => "ServoPCA9685"
  | .ws2811Pulse => "WS2811-pulse"
  | .ws2811Serial => "WS2811-serial"
  | .ucs1903Pulse => "UCS1903-pulse"
  | .ucs1903Serial => "UCS1903-serial"
  | .tm1814Pulse => "TM1814-pulse"
  | .tm1814Serial => "TM1814-serial"
  | .ws2801Spi => "WS2801-SPI"
  | .apa102Spi => "APA102-SPI"

/-- The operand names of R120. -/
def fieldName : Field → String
  | .doc => "doc"
  | .v => "v"
  | .params => "params"
  | .offset => "offset"
  | .length => "length"
  | .b => "b"
  | .G => "G"
  | .s => "s"
  | .g => "g"
  | .S => "S"
  | .H0 => "H0"
  | .H1 => "H1"
  | .n => "n"
  | .a => "a"

/-- Items between two brackets, with commas between them. -/
def bracketed (l r : String) (items : List String) : String := l ++ ", ".intercalate items ++ r

/-- An opening brace. -/
def braceL : String := String.singleton (Char.ofNat 123)

/-- A closing brace. -/
def braceR : String := String.singleton (Char.ofNat 125)

/-- A quoted string. -/
def quoted (s : String) : String := "\"" ++ s ++ "\""

/-- The items of a value: one for a scalar, each for a list. -/
def valueItems : Value → List String
  | .nat n => [toString n]
  | .bool b => [toString b]
  | .str s => [quoted s]
  | .nil => []
  | .cons (.nat n) rest => toString n :: valueItems rest
  | .cons (.bool b) rest => toString b :: valueItems rest
  | .cons (.str s) rest => quoted s :: valueItems rest
  | .cons .nil rest => "[]" :: valueItems rest
  | .cons (.cons a b) rest => bracketed "[" "]" (valueItems (.cons a b)) :: valueItems rest

/-- A value. -/
def valueText (v : Value) : String :=
  match v with
  | .nil => bracketed "[" "]" []
  | .cons a b => bracketed "[" "]" (valueItems (.cons a b))
  | .nat n => toString n
  | .bool b => toString b
  | .str s => quoted s

/-- A ParamObject. -/
def paramsText (p : ParamObject) : String :=
  bracketed braceL braceR (p.map fun kv => quoted kv.1 ++ ": " ++ valueText kv.2)

/-- The name that stands for a code in a document: its variant's, or the number. -/
def codeText (b : Board) (code : Nat) : String :=
  match variantOfCode b code with
  | some v => variantName v
  | none => toString code

/-- An entry of a document. -/
def entryText (b : Board) (e : Entry) : String :=
  let type := match e.typeCode with
    | some c => ["type = " ++ codeText b c]
    | none => []
  bracketed braceL braceR
    (type ++ ["params = " ++ bracketed braceL braceR (e.params.map fun kv => codeText b kv.1 ++ " -> " ++ paramsText kv.2)])

/-- A document. -/
def docText (b : Board) (d : ConfigDoc) : String :=
  bracketed braceL braceR
    ["version = " ++ toString d.version,
     "channels = " ++ bracketed braceL braceR (d.channels.map fun kv => toString kv.1 ++ " -> " ++ entryText b kv.2)]

/-- An operand. -/
def operandText (b : Board) : Operand → String
  | .num n => toString n
  | .flag x => toString x
  | .nums xs => bracketed "[" "]" (xs.map toString)
  | .variant v => variantName v
  | .doc d => docText b d
  | .params p => paramsText p

/-- The text of an instruction (R127). -/
def assemblyText (b : Board) (i : Instr) : String :=
  let slot := match i.slot? with
    | some k => [toString k]
    | none => []
  let fields := i.record.map fun f => fieldName f.1 ++ "=" ++ operandText b f.2
  match slot ++ fields with
  | [] => i.mnemonic
  | parts => i.mnemonic ++ " " ++ ", ".intercalate parts

end Sys2Proof.Machine
end

