-- ==== Sys2Proof/Safety.lean ====
section
/-! DEFINITION. The terms the claims use: when an operation may run, the items a frame still holds in closed form
(R198, R230), the partition's laws (R303), and the invariants of a block (R47 to R49, R53, R199). -/

namespace Sys2Proof.Machine

/-! ## When an operation may run -/

/-- The main loop may issue an operation: MGR_BEGIN has run (R337) and no render pass is in progress (R294). -/
def State.mainLoopFree (s : State) : Prop := s.begun = true ∧ s.renderPos = none

/-- The slot index is one of the block's (R124). -/
def State.hasSlot (s : State) (i : Nat) : Prop := i < s.board.numSlots

/-- Slot `i` holds a pulse engine with this sequencer and these latched parameters. -/
def State.pulseEngine (s : State) (i : Nat) (e : Engine) (q : PulseSeq) (l : PulseLatch) : Prop :=
  (s.slot i).eng = some e ∧ e.core = .pulse q (some l)

/-- Slot `i` holds a serial engine with this sequencer and these latched parameters. -/
def State.serialEngine (s : State) (i : Nat) (e : Engine) (q : SerialSeq) (l : SerialLatch) : Prop :=
  (s.slot i).eng = some e ∧ e.core = .serial q (some l)

/-- The driver of slot `i` can read its slice: its configuration is legal (R37) and the slice lies in the buffer
(R84). -/
def State.sliceReadable (s : State) (i : Nat) : Prop :=
  legalCfg (s.slot i).cfg = true ∧ (s.slot i).offset + (s.slot i).length ≤ s.board.totalBufferSize

/-- The serial table has an entry for every group (R117), and the width divides 8 (R154). -/
def SerialLatch.legal (l : SerialLatch) : Prop := groupWidthOk l.G = true ∧ l.stable.length = 2 ^ l.G

/-- A serial sequencer between two items: its group index names a group of the current byte (R43), it holds a byte
only while the frame goes on, and a pixel's data begins with no fixed sequence under way. -/
def SerialSeq.legal (q : SerialSeq) (l : SerialLatch) : Prop :=
  (∀ b, q.curByte = some b → q.groupIdx < 8 / l.G) ∧ (q.sphase = .done → q.curByte = none) ∧
    (q.sphase = .pixelData → q.seqIdx = 0)

/-! ## The items of a frame, in closed form -/

/-- The position in the slice of the byte at cursor `k` (R264). -/
def sourceOf (c : EncoderCfg) (k length : Nat) : Nat :=
  if (k / c.channelsPerPixel + 1) * c.channelsPerPixel ≤ length then
    k / c.channelsPerPixel * c.channelsPerPixel + c.colorOrder.getD (k % c.channelsPerPixel) 0
  else k

/-- The value DRV_NEXT_BYTE returns at cursor `k` (R264). -/
def State.dataByte (s : State) (i k : Nat) : Byte :=
  match encoderCfg (s.slot i).cfg with
  | none => 0
  | some c => c.gamma.getD (s.byte ((s.slot i).offset + sourceOf c k (s.slot i).length)).toNat 0

/-- The values DRV_NEXT_BYTE returns from cursor `k` to the end of the slice. -/
def State.dataFrom (s : State) (i k : Nat) : List Byte :=
  (List.range' k ((s.slot i).length - k)).map (s.dataByte i)

/-- The descriptors of the bits `k`, `k-1`, …, 0 of a byte (R194). -/
def bitItems (l : PulseLatch) (b : Byte) (k : Nat) : List PulseDescriptor :=
  (List.range (k + 1)).reverse.map fun j => descriptorAt l.ptable (symbolOfBit (b.getLsbD j))

/-- The GAP item, where the protocol has one and data follows (R194). -/
def gapItems (l : PulseLatch) (rest : List Byte) : List PulseDescriptor :=
  if l.gapFlag && !rest.isEmpty then [l.ptable.gap] else []

/-- The items of the data bytes, with a GAP between consecutive ones (R198). -/
def dataItems (l : PulseLatch) : List Byte → List PulseDescriptor
  | [] => []
  | b :: rest => bitItems l b (l.W - 1) ++ gapItems l rest ++ dataItems l rest

/-- The items of a byte under way and of the bytes after it. -/
def currentItems (l : PulseLatch) (q : PulseSeq) (rest : List Byte) : List PulseDescriptor :=
  match q.curByte with
  | none => dataItems l rest
  | some b => bitItems l b q.bitIdx ++ gapItems l rest ++ dataItems l rest

/-- The items a pulse sequencer has still to give, `rest` being the bytes from its cursor on (R194). -/
def pulseItemsLeft (l : PulseLatch) (q : PulseSeq) (rest : List Byte) : List PulseDescriptor :=
  match q.phase with
  | .preIdle =>
    List.replicate (l.preIdle - q.idleIdx) l.ptable.idle ++ currentItems l q rest ++
      List.replicate l.postIdle l.ptable.idle
  | .data => currentItems l q rest ++ List.replicate (l.postIdle - q.idleIdx) l.ptable.idle
  | .gap => [l.ptable.gap] ++ currentItems l q rest ++ List.replicate (l.postIdle - q.idleIdx) l.ptable.idle
  | .postIdle => List.replicate (l.postIdle - q.idleIdx) l.ptable.idle
  | .done => []

/-- `Items(i)` of R198, as R198 writes it: per byte XLAT_ENCODE_PULSE (R155) and a GAP but after the last. -/
def pulseFrameItems (l : PulseLatch) (bs : List Byte) : List PulseDescriptor :=
  List.replicate l.preIdle l.ptable.idle ++
    ((List.range bs.length).flatMap fun k =>
      ((groups (bs.getD k 0) 1).map fun x => descriptorAt l.ptable (symbolOfBit (decide (x = 1)))) ++
        (if l.gapFlag && decide (k + 1 < bs.length) then [l.ptable.gap] else [])) ++
    List.replicate l.postIdle l.ptable.idle

/-- The table's bytes for the groups `j`, `j+1`, … of a byte (R226). -/
def groupItems (l : SerialLatch) (b : Byte) (j : Nat) : List Byte :=
  ((List.range (8 / l.G)).drop j).map fun k => l.stable.getD (group b k l.G) 0

/-- The intensity-domain bytes from PixelData on, at cursor `k` with `rest` to read (R226): a pixel ends at a
multiple of `C` or with the slice. -/
def pixelBytes (l : SerialLatch) (k : Nat) : List Byte → List Byte
  | [] => l.PS ++ l.FS
  | b :: rest =>
    b :: (if decide ((k + 1) % l.C = 0) || rest.isEmpty then
        l.PS ++ (if rest.isEmpty then l.FS else l.PP ++ pixelBytes l (k + 1) rest)
      else pixelBytes l (k + 1) rest)

/-- What follows a frame prefix or a pixel suffix (R226). -/
def nextPixel (l : SerialLatch) (k : Nat) (rest : List Byte) : List Byte :=
  if rest.isEmpty then l.FS else l.PP ++ pixelBytes l k rest

/-- The intensity-domain bytes a serial sequencer has still to load, at cursor `k` with `rest` to read (R226). -/
def serialBytesLeft (l : SerialLatch) (q : SerialSeq) (k : Nat) (rest : List Byte) : List Byte :=
  match q.sphase with
  | .framePrefix => l.FP.drop q.seqIdx ++ nextPixel l k rest
  | .pixelPrefix => l.PP.drop q.seqIdx ++ pixelBytes l k rest
  | .pixelData => pixelBytes l k rest
  | .pixelSuffix => l.PS.drop q.seqIdx ++ nextPixel l k rest
  | .frameSuffix => l.FS.drop q.seqIdx
  | .done => []

/-- The items a serial sequencer has still to give (R226). -/
def serialItemsLeft (l : SerialLatch) (q : SerialSeq) (k : Nat) (rest : List Byte) : List Byte :=
  (match q.curByte with
    | none => []
    | some b => groupItems l b q.groupIdx) ++
    (serialBytesLeft l q k rest).flatMap fun b => groupItems l b 0

/-- `T(s)` of R230: the translation of a list of intensity-domain bytes, each by XLAT_ENCODE_SERIAL (R156). -/
def translate (l : SerialLatch) (bs : List Byte) : List Byte :=
  bs.flatMap fun b => (groups b l.G).map fun g => l.stable.getD g 0

/-- The number of pixels of a slice of `L` bytes, the last possibly partial (R230). -/
def pixelCountOf (l : SerialLatch) (L : Nat) : Nat := (L + l.C - 1) / l.C

/-- `Items(i)` of R230, as R230 writes it. -/
def serialFrameItems (l : SerialLatch) (bs : List Byte) : List Byte :=
  translate l l.FP ++
    ((List.range (pixelCountOf l bs.length)).flatMap fun k =>
      translate l l.PP ++ translate l ((bs.drop (k * l.C)).take l.C) ++ translate l l.PS) ++
    translate l l.FS

/-! ## The opcode map's marks -/

/-- The operations that R112 marks "no slot". -/
def noSlotOps : List Nat :=
  [0x01, 0x02, 0x03, 0x04, 0x05, 0x06, 0x07, 0x08, 0x09, 0x0B, 0x0C, 0x20, 0x23, 0x54, 0x60]

/-- The operations that R112 marks "slot". -/
def slotOps : List Nat :=
  [0x0A, 0x10, 0x11, 0x12, 0x13, 0x14, 0x15, 0x16, 0x17, 0x18, 0x19, 0x1A, 0x1B, 0x1C, 0x21, 0x22, 0x24, 0x25,
   0x30, 0x31, 0x32, 0x33, 0x34, 0x35, 0x40, 0x41, 0x42, 0x43, 0x44, 0x45, 0x50, 0x51, 0x52, 0x53, 0x55]

/-- The slot operations that need a pulse engine (R152, R155, R171, R172, R192 to R197). -/
def pulseOps : List Nat := [0x21, 0x24, 0x30, 0x31, 0x32, 0x33, 0x34, 0x35, 0x50, 0x51]

/-- The slot operations that need a serial engine (R153, R156, R174, R175, R224 to R229). -/
def serialOps : List Nat := [0x22, 0x25, 0x40, 0x41, 0x42, 0x43, 0x44, 0x45, 0x52, 0x53]

/-- The kind of the engine of slot `i`, if it has one. -/
def State.engineKindAt (s : State) (i : Nat) : Option EngineKind := (s.slot i).eng.map Engine.kind

/-! ## Frames -/

/-- `t` differs from `s` in the driver of slot `i` and in pulse unit `u` alone. -/
def State.onlyPulse (s t : State) (i u : Nat) : Prop :=
  t = { s with slots := t.slots, pulseUnits := t.pulseUnits } ∧ (∀ j, j ≠ i → t.slot j = s.slot j) ∧
    (∀ w, w ≠ u → t.pu w = s.pu w) ∧ ∀ a, t.byte a = s.byte a

/-- `t` differs from `s` in the driver of slot `i` and in serial unit `u` alone. -/
def State.onlySerial (s t : State) (i u : Nat) : Prop :=
  t = { s with slots := t.slots, serialUnits := t.serialUnits } ∧ (∀ j, j ≠ i → t.slot j = s.slot j) ∧
    (∀ w, w ≠ u → t.su w = s.su w) ∧ ∀ a, t.byte a = s.byte a

/-- The two engines hold the same latched parameters (R45, R46). -/
def Engine.sameLatch (e e' : Engine) : Prop :=
  match e.core, e'.core with
  | .pulse _ l, .pulse _ l' => l = l'
  | .serial _ l, .serial _ l' => l = l'
  | .pulse _ _, .serial _ _ => False
  | .serial _ _, .pulse _ _ => False

/-! ## What BEGIN leaves (R192, R224) -/

/-- The state after PE_BEGIN on slot `i` with engine `e`, sequencer `q` and constants `pc` (R192). -/
def State.pulseLatched (s : State) (i : Nat) (e : Engine) (q : PulseSeq) (pc : PulseConstants) : State :=
  (s.setSlot i
    { s.slot i with
      eng := some
        { e with
          core := .pulse q (some { ptable := pc.ptable, preIdle := pc.preIdle, postIdle := pc.postIdle,
                                   gapFlag := pc.gapFlag, W := 8 }) } }).setPu e.unit
    { s.pu e.unit with invert := cfgInvert (s.slot i).cfg, line := xor false (cfgInvert (s.slot i).cfg) }

/-- The state after SE_BEGIN on slot `i` with engine `e`, sequencer `q` and constants `pc` (R223, R224). -/
def State.serialLatched (s : State) (i : Nat) (e : Engine) (q : SerialSeq) (pc : SerialConstants) : State :=
  (s.setSlot i
    { s.slot i with
      eng := some
        { e with
          core := .serial q (some { G := pc.G, S := pc.S, D := pc.G * pc.S - 2,
                                    stable := serialTable pc.G pc.S pc.H0 pc.H1, FP := pc.FP, FS := pc.FS,
                                    PP := pc.PP, PS := pc.PS, C := cfgChannels (s.slot i).cfg }) } }).setSu e.unit
    { s.su e.unit with
      baud := (pc.G * pc.S - 2 + 2) * 10 ^ 9 / (pc.G * pc.bitPeriodNs), D := pc.G * pc.S - 2,
      invert := cfgInvert (s.slot i).cfg, line := xor false (cfgInvert (s.slot i).cfg) }

/-- The checks of SE_BEGIN on the protocol constants (R154, R224). -/
def serialConstantsOk (pc : SerialConstants) : Bool :=
  serialConstantsLegal pc && decide (1 ≤ baudRate pc.G (dataBits pc.G pc.S) pc.bitPeriodNs)

/-- ENGINE_BEGIN on slot `i` refuses with reason `r`: PE_BEGIN finds ill-formed constants (R192), XLAT_BUILD_SERIAL an
ill-formed timing (R154), or SE_BEGIN ill-formed constants after it (R224). -/
def State.engineBeginRefuses (s : State) (i : Nat) (r : RefusalReason) : Prop :=
  ∃ e, (s.slot i).eng = some e ∧
    ((∃ q l pc, e.core = .pulse q l ∧ pulseConstantsOf s.board (s.slot i).variant = some pc ∧
        pulseConstantsOk s.board.durationMax pc = false ∧ r = .illFormedProtocolConstants) ∨
      ∃ q l pc, e.core = .serial q l ∧ serialConstantsOf s.board (s.slot i).variant = some pc ∧
        serialConstantsOk pc = false ∧
        r = if serialTimingOk pc.G pc.S pc.H0 pc.H1 then .illFormedProtocolConstants else .illFormedSerialTiming)

/-! ## Protocol constants and partitions -/

/-- Every serial variant's bit rate is at least 1. R220 does not ask it; SE_BEGIN does (R224). -/
def baudRatesOk (b : Board) : Bool :=
  [b.ws2811Serial, b.ucs1903Serial, b.tm1814Serial].all fun pc =>
    decide (1 ≤ baudRate pc.G (dataBits pc.G pc.S) pc.bitPeriodNs)

/-- The bytes the slots below `i` were granted. -/
def State.grantedBelow (s : State) (i : Nat) : Nat := ((List.range i).map fun j => (s.slot j).length).sum

/-- The bytes the drivers of all slots need. -/
def State.neededTotal (s : State) : Nat := (s.slotIndices.map (drvNeededOf s)).sum

/-- The slices and the capacity notification are those of a partition in slot order (R300, R301, R303). -/
structure State.Partitioned (s : State) : Prop where
  length : ∀ i, s.hasSlot i →
    (s.slot i).length = min (drvNeededOf s i) (s.board.totalBufferSize - s.grantedBelow i)
  offset : ∀ i, s.hasSlot i → (s.slot i).offset = s.grantedBelow i
  used : s.totalUsed = s.grantedBelow s.board.numSlots
  capacity : s.capacity = some (s.totalUsed, s.slotIndices.map fun i => (s.slot i).offset)

/-- The driver of slot `i` with the slice a partition grants it at offset `off` (R262, R300). -/
def State.granted (s : State) (i off : Nat) : DriverState :=
  { s.slot i with
    offset := off, length := min (drvNeededOf s i) (s.board.totalBufferSize - off),
    eng := (s.slot i).eng.map fun e => { e with cursor := 0 } }

/-- The diagnostic of a shortfall in slot `i`, if its grant falls short of its need (R300). -/
def shortfall (s : State) (i grant : Nat) : List Diagnostic :=
  if grant < drvNeededOf s i then [{ slot := i, detail := .capacityShortfall (drvNeededOf s i) grant }] else []

/-- The variant a document gives slot `i`: Disabled where the entry is bad (R299). -/
def resolvedVariant (s : State) (i : Nat) (doc : ConfigDoc) : Variant :=
  match resolve s i doc with
  | .bind v _ => v
  | .bad _ => .disabled

/-- The state after MGR_RESOLVE_ENTRY's fallback: the detail is logged and Disabled answered (R299). -/
def State.badEntry (s : State) (i : Nat) (r : ConfigProblem) : State :=
  { s with diag := s.diag ++ [{ slot := i, detail := .configError r }], reply := some (.binding .disabled []) }

/-- What MGR_APPLY_CONFIG may assume: good parameters and bit rates, engines as their variants need (R290, R295). -/
structure State.Configurable (s : State) : Prop where
  params : s.wellFormedParameters = true
  rates : baudRatesOk s.board = true
  bound : ∀ i, s.hasSlot i → (s.slot i).eng.map Engine.kind = engineKindOf (s.slot i).variant
  still : s.anyTransmitting = false

/-! ## Invariants -/

/-- Every table is in its canonical form, so that equal tables are equal data. -/
def State.canonical (s : State) : Prop :=
  Memory.wf s.buf = true ∧ tableWf DriverState.powerOn s.slots = true ∧
    tableWf (PulseUnit.powerOn false) s.pulseUnits = true ∧ tableWf (SerialUnit.powerOn false) s.serialUnits = true

/-- The queues hold no more than their capacity (R47, R48), the time base lies below its modulus (R49), the granted
total and every slice lie in the buffer (R32, R84), and the fault set holds no fault twice (R330). -/
structure State.Bounded (s : State) : Prop where
  ring : ∀ u, (s.pu u).ring.length ≤ s.board.ringCapacity
  fifo : ∀ u, (s.su u).fifo.length ≤ s.board.fifoCapacity
  now : s.now < s.timeModulus
  slice : ∀ i, (s.slot i).offset + (s.slot i).length ≤ s.board.totalBufferSize
  used : s.totalUsed ≤ s.board.totalBufferSize
  faults : s.faults.Nodup

/-- Every driver owns the engine its variant needs, bound to the unit its slot names (R191, R221, R251); an encoder's
configuration is legal (R37); a latched serial table is total (R117); the render position is a slot (R294). -/
structure State.Bound (s : State) : Prop where
  kind : ∀ i, (s.slot i).eng.map Engine.kind = engineKindOf (s.slot i).variant
  unit : ∀ i e, (s.slot i).eng = some e → unitFor e.kind (s.periph i) = some e.unit
  cfg : ∀ i, isEncoder (s.slot i).variant = true → legalCfg (s.slot i).cfg = true
  latch : ∀ i e q l, (s.slot i).eng = some e → e.core = .serial q (some l) → l.legal
  render : ∀ i, s.renderPos = some i → i < s.board.numSlots
  begun : s.begun = true → 1 ≤ s.board.numSlots

/-- R34, R307: the pause bit of every slot is the manager's. -/
def State.pauseLaw (s : State) : Prop := ∀ i, s.hasSlot i → (s.slot i).paused = s.pauseHeld

/-- A pulse unit at rest (R199). -/
def PulseUnit.atRest (p : PulseUnit) : Prop :=
  p.ring = [] ∧ p.busy = false ∧ p.pendLow = false ∧ p.pendEnd = false

/-- A serial unit at rest (R231). -/
def SerialUnit.atRest (p : SerialUnit) : Prop :=
  p.fifo = [] ∧ p.busy = false ∧ p.pendLow = false ∧ p.pendEnd = false

/-- R199 and R231 for one engine, `rest` saying that its unit is at rest and `sending` what holds of the unit while a
frame drains. -/
def Engine.inOrder (e : Engine) (rest sending : Prop) : Prop :=
  match e.tstate with
  | .idle => rest ∧ e.enLow = false ∧ e.enEnd = false
  | .frameComplete => rest ∧ e.enLow = false ∧ e.enEnd = false
  | .draining => sending ∧ e.enLow = true ∧ e.enEnd = true
  | .filling => False

/-- A draining pulse unit transmits a ring that is not empty, or has emptied it and reports END. -/
def PulseUnit.sending (p : PulseUnit) : Prop :=
  (p.busy = true ∧ p.ring ≠ [] ∧ p.pendEnd = false) ∨ (p.busy = false ∧ p.ring = [] ∧ p.pendEnd = true)

/-- A draining serial unit transmits a queue that is not empty, or has emptied it and reports END. -/
def SerialUnit.sending (p : SerialUnit) : Prop :=
  (p.busy = true ∧ p.fifo ≠ [] ∧ p.pendEnd = false) ∨ (p.busy = false ∧ p.fifo = [] ∧ p.pendEnd = true)

/-- The quiescence invariant (R199, R231), with what makes it inductive: the unit of a slot without an engine is at
rest, and a draining unit is transmitting or reports END. -/
structure State.Quiescent (s : State) : Prop where
  pulse : ∀ i u, s.hasSlot i → s.periph i = .pulseUnit u →
    match (s.slot i).eng with
    | none => (s.pu u).atRest
    | some e => e.inOrder (s.pu u).atRest (s.pu u).sending
  serial : ∀ i u, s.hasSlot i → s.periph i = .serialUnit u →
    match (s.slot i).eng with
    | none => (s.su u).atRest
    | some e => e.inOrder (s.su u).atRest (s.su u).sending

/-- Why no unit runs dry under a timely ISR (R201, R233): while a frame is not fully staged, its queue stands above
the low threshold, or LOW is pending and the queue is not empty. -/
def State.Fed (s : State) : Prop :=
  ∀ i e, s.hasSlot i → (s.slot i).eng = some e → e.tstate = .draining →
    match e.core with
    | .pulse q _ =>
      q.phase ≠ .done →
        s.board.ringLowThreshold < (s.pu e.unit).ring.length ∨
          ((s.pu e.unit).pendLow = true ∧ (s.pu e.unit).ring ≠ [])
    | .serial q _ =>
      q.sphase ≠ .done →
        s.board.fifoLowThreshold < (s.su e.unit).fifo.length ∨
          ((s.su e.unit).pendLow = true ∧ (s.su e.unit).fifo ≠ [])

/-- What one instruction of an agent, or a render sub-step, may do: the moves of R13, the internal operations (R112)
apart. -/
def agentStep (s t : State) : Prop :=
  (∃ i, issuer i ≠ .internal ∧ exec i s = .next t) ∨ stepRenderSubstep s = .next t

end Sys2Proof.Machine
end

