-- ==== Sys2Proof/Certificates/Slice0/Obligations.lean ====
section
/-! DEFINITION. The statements about the block: encodings, the step and its outcomes, each operation's effect with its
frame, the laws of the engines and the manager, and the invariants every step keeps. -/

section statements

open Sys2Proof Sys2Proof.Machine

/-! ## Encodings and the step -/

/-- R111, R112, R120, R125: every well-formed instruction is read back from its word and record, the op in `[15:8]`
and the slot in `[7:0]`. -/
def Obligations.DecodeOfEncodeIsTheInstruction : Prop :=
  ∀ i : Instr, i.wellFormed = true →
    decode (encode i) = .instr i ∧ opOf (encode i).word = i.opcode ∧ slotOf (encode i).word = i.slot?.getD 0

/-- R111, R125: an instruction is read from no other word than its own, and from no record that lacks one of its
fields. -/
def Obligations.DecodedInstructionHasOneWord : Prop :=
  ∀ (c : Command) (i : Instr), decode c = .instr i →
    c.word = (encode i).word ∧ i.slotFits = true ∧
      ∀ f o, (f, o) ∈ (encode i).record → Record.get c.record f = some o

/-- R111, R112: words written out from the table, one per family and both ends of the slot field. -/
def Obligations.WrittenOutWordsDecode : Prop :=
  decode ⟨0b0000000100000000#16, []⟩ = .instr .mgrBegin ∧
  decode ⟨0b0000010100000000#16, []⟩ = .instr .mgrRender ∧
  decode ⟨0b0001010100000001#16, []⟩ = .instr (.drvRender 1) ∧
  decode ⟨0b0001100111111111#16, [(.offset, .num 512), (.length, .num 3)]⟩ = .instr (.drvSetBuffer 255 512 3) ∧
  decode ⟨0b0010000000000000#16, [(.b, .num 180), (.G, .num 2)]⟩ = .instr (.xlatSplit 0xB4#8 2) ∧
  decode ⟨0b0011000100000000#16, []⟩ = .instr (.peStartFrame 0) ∧
  decode ⟨0b0100010000000010#16, []⟩ = .instr (.seIsr 2) ∧
  decode ⟨0b0101000100000000#16, []⟩ = .instr (.puEmit 0) ∧
  decode ⟨0b0101010000000000#16, [(.n, .num 50)]⟩ = .instr (.timerTick 50) ∧
  decode ⟨0b0101010100000001#16, []⟩ = .instr (.irqEntry 1) ∧
  decode ⟨0b0110000000000000#16, [(.a, .num 3), (.v, .num 180)]⟩ = .instr (.hostBufWrite 3 0xB4#8) ∧
  decode ⟨0b0101011000000000#16, []⟩ = .unassigned ∧
  decode ⟨0b0000010100000001#16, []⟩ = .badSlot

/-- R124: the four kinds of command words that are refused, each with its own mark and no other effect (R337). -/
def Obligations.CommandWordsRefusedAsR124Lists : Prop :=
  ∀ (c : Command) (s : State),
    (opOf c.word ∉ noSlotOps → opOf c.word ∉ slotOps →
      runCommand c s = .next { s with refused := some .unassignedOp }) ∧
    (opOf c.word ∈ slotOps → s.board.numSlots ≤ slotOf c.word →
      runCommand c s = .next { s with refused := some .badSlot }) ∧
    (opOf c.word ∈ noSlotOps → slotOf c.word ≠ 0 →
      runCommand c s = .next { s with refused := some .badSlot }) ∧
    (opOf c.word ∈ pulseOps → s.hasSlot (slotOf c.word) → s.engineKindAt (slotOf c.word) ≠ some .pulse →
      runCommand c s = .next { s with refused := some .wrongEngineKind }) ∧
    (opOf c.word ∈ serialOps → s.hasSlot (slotOf c.word) → s.engineKindAt (slotOf c.word) ≠ some .serial →
      runCommand c s = .next { s with refused := some .wrongEngineKind })

/-- R120, R337, R338: after the slot and the engine kind, the operand record is checked, and after it NotBegun. That
the operand check also refuses a document or a ParamObject with a key twice is the model's reading of R121's finite
maps, DEDUCED in notes/assumptions/15. -/
def Obligations.OperandChecksComeBeforeNotBegun : Prop :=
  (∀ (c : Command) (s : State) op slot, decode c = .illFormed op slot →
    (op ∈ slotOps → s.hasSlot slot) → (op ∈ pulseOps → s.engineKindAt slot = some .pulse) →
    (op ∈ serialOps → s.engineKindAt slot = some .serial) →
      runCommand c s = .next { s with refused := some .illFormedOperand }) ∧
  (∀ (i : Instr) (s : State), (∀ k, i.slot? = some k → s.hasSlot k) → i.operandsOk = false →
    exec i s = .next { s with refused := some .illFormedOperand }) ∧
  (∀ (i : Instr) (s : State), (∀ k, i.slot? = some k → s.hasSlot k) → i.operandsOk = true →
    issuer i = .mainLoop → i ≠ .mgrBegin → s.begun = false →
      exec i s = .next { s with refused := some .notBegun })

/-- R13, R92, R125: a step takes the schedule's first move: a command that decodes runs as its instruction on the
state without that move; the encoding of a well-formed instruction runs it; a render sub-step runs; with no move the
block idles (the schedule is the model's own: notes/assumptions/4). -/
def Obligations.StepRunsTheDecodedInstruction : Prop :=
  (∀ (s : State) c rest i, s.schedule = .command c :: rest → decode c = .instr i →
    step s = exec i { s with schedule := rest }) ∧
  (∀ (s : State) i rest, i.wellFormed = true →
    step { s with schedule := moveOf i :: rest } = exec i { s with schedule := rest }) ∧
  (∀ (s : State) rest, s.schedule = .renderSubstep :: rest →
    step s = stepRenderSubstep { s with schedule := rest }) ∧
  (∀ s : State, s.schedule = [] → step s = .next s) ∧
  (∀ (s : State) nbits w i, decodeTableWord nbits w = some i → step (s.withFetchWord nbits w) = exec i s)

/-- R114: the descriptor word's four fields stand where the table puts them, and the word gives the descriptor
back. -/
def Obligations.DescriptorWordHoldsItsFields : Prop :=
  ∀ p : PulseDescriptor, descriptorOk 32767 p = true →
    descriptorOfWord (descriptorWord p) = p ∧
      (descriptorWord p).toNat = p.dur0 + 2 ^ 15 * p.level0 + 2 ^ 16 * p.dur1 + 2 ^ 31 * p.level1

/-! ## Power-on -/

/-- R370: power-on gives every piece of state its power-on value; the buffer, the time base and the lines are draws.
The time base lies below `2^TimeBits`, and every such value with every content of the buffer is drawn by some draw. -/
def Obligations.PowerOnSetsTheSpecValues : Prop :=
  (∀ (b : Board) (d : PowerOnDraws),
    (State.powerOn b d).board = b ∧ (State.powerOn b d).begun = false ∧ (State.powerOn b d).userPaused = false ∧
    (State.powerOn b d).reloadPaused = false ∧ (State.powerOn b d).pending = none ∧
    (State.powerOn b d).refused = none ∧ (State.powerOn b d).capacity = none ∧
    (State.powerOn b d).renderPos = none ∧ (State.powerOn b d).persisted = none ∧
    (State.powerOn b d).totalUsed = 0 ∧ (State.powerOn b d).diag = [] ∧ (State.powerOn b d).faults = [] ∧
    (State.powerOn b d).now = d.now % 2 ^ b.timeBits ∧ (State.powerOn b d).now < 2 ^ b.timeBits ∧
    (∀ a, a < b.totalBufferSize → (State.powerOn b d).byte a = d.buf.getD a 0) ∧
    (∀ i, (State.powerOn b d).slot i =
      { variant := .disabled, status := .constructed, cfg := .empty, needed := 0, offset := 0, length := 0,
        paused := false, frameCount := 0, droppedCount := 0, hwErrorCount := 0, hwInitFailed := false, eng := none }) ∧
    (∀ u, (State.powerOn b d).pu u =
      { ring := [], busy := false, pendLow := false, pendEnd := false, invert := false,
        line := decide (u ∈ d.pulseHigh), trace := [] }) ∧
    (∀ u, (State.powerOn b d).su u =
      { fifo := [], busy := false, pendLow := false, pendEnd := false, baud := 0, D := 0, invert := false,
        line := decide (u ∈ d.serialHigh), trace := [] })) ∧
  (∀ (b : Board) (n : Nat) (xs : List Byte), n < 2 ^ b.timeBits → ∃ d : PowerOnDraws,
    (State.powerOn b d).now = n ∧ ∀ a, a < b.totalBufferSize → (State.powerOn b d).byte a = xs.getD a 0)

/-- Every power-on state meets every invariant stated below, whatever the board and the draws. So does the reset
state, whose parameters are well-formed; it carries the example board and draws of notes/assumptions/1, 5, 6 and 7. -/
def Obligations.ResetMeetsTheInvariants : Prop :=
  (∀ (b : Board) (d : PowerOnDraws),
    (State.powerOn b d).canonical ∧ (State.powerOn b d).Bounded ∧ (State.powerOn b d).Bound ∧
      (State.powerOn b d).pauseLaw ∧ (State.powerOn b d).Quiescent ∧ (State.powerOn b d).Fed) ∧
    State.reset.canonical ∧ State.reset.Bounded ∧ State.reset.Bound ∧ State.reset.pauseLaw ∧
    State.reset.Quiescent ∧ State.reset.Fed ∧ State.reset.wellFormedParameters = true ∧
    baudRatesOk State.reset.board = true

/-! ## The translation tables -/

/-- R151: XLAT_SPLIT cuts a byte into its groups, the most significant first (R119), and refuses a width that does not
divide 8. It writes nothing else. -/
def Obligations.SplitCutsTheMostSignificantGroupFirst : Prop :=
  ∀ (b : Byte) (G : Nat) (s : State),
    (G ∈ [1, 2, 4, 8] →
      exec (.xlatSplit b G) s =
        .next { s with
          reply := some (.groups ((List.range (8 / G)).map fun j => (b.extractLsb' (8 - G * (j + 1)) G).toNat)) }) ∧
    (G ∉ [1, 2, 4, 8] → exec (.xlatSplit b G) s = .next { s with refused := some .illFormedGroupWidth })

/-- R152, R153, R155, R156: the lookups and the encodings of a byte return the latched table's entries and write
nothing else; a code that is no symbol and a group out of range are refused; before BEGIN the step does not exist. -/
def Obligations.LookupsReturnTheLatchedEntries : Prop :=
  (∀ (s : State) i e q l, s.hasSlot i → s.pulseEngine i e q l →
    exec (.xlatLookupPulse i 0) s = .next { s with reply := some (.descriptor l.ptable.bit0) } ∧
    exec (.xlatLookupPulse i 1) s = .next { s with reply := some (.descriptor l.ptable.bit1) } ∧
    exec (.xlatLookupPulse i 2) s = .next { s with reply := some (.descriptor l.ptable.idle) } ∧
    exec (.xlatLookupPulse i 3) s = .next { s with reply := some (.descriptor l.ptable.gap) } ∧
    (∀ c, 4 ≤ c → exec (.xlatLookupPulse i c) s = .next { s with refused := some .notASymbol }) ∧
    (∀ b : Byte, l.W = 8 →
      exec (.xlatEncodePulse i b) s =
        .next { s with
          reply := some (.descriptors
            ((List.range 8).map fun j => if b.getLsbD (7 - j) then l.ptable.bit1 else l.ptable.bit0)) })) ∧
  (∀ (s : State) i e q l, s.hasSlot i → s.serialEngine i e q l → l.legal →
    (∀ g x, g < 2 ^ l.G → l.stable[g]? = some x →
      exec (.xlatLookupSerial i g) s = .next { s with reply := some (.byte x) }) ∧
    (∀ g, 2 ^ l.G ≤ g → exec (.xlatLookupSerial i g) s = .next { s with refused := some .groupOutOfRange }) ∧
    (∀ b : Byte,
      exec (.xlatEncodeSerial i b) s = .next { s with reply := some (.bytes (groupItems l b 0)) })) ∧
  (∀ (s : State) i e q, s.hasSlot i → (s.slot i).eng = some e → e.core = .pulse q none →
    (∀ c, exec (.xlatLookupPulse i c) s = .refused (.notEnabled "XLAT_LOOKUP_PULSE")) ∧
    ∀ b, exec (.xlatEncodePulse i b) s = .refused (.notEnabled "XLAT_ENCODE_PULSE")) ∧
  (∀ (s : State) i e q, s.hasSlot i → (s.slot i).eng = some e → e.core = .serial q none →
    (∀ g, exec (.xlatLookupSerial i g) s = .refused (.notEnabled "XLAT_LOOKUP_SERIAL")) ∧
    ∀ b, exec (.xlatEncodeSerial i b) s = .refused (.notEnabled "XLAT_ENCODE_SERIAL"))

/-- R154, R158: XLAT_BUILD_SERIAL returns a table of `2^G` entries and `D = G*S - 2`, refuses timings that cannot be
framed, and gives the WS2811-shaped table for `(2, 4, 1, 3)`. -/
def Obligations.BuildSerialReturnsTheTable : Prop :=
  ∀ (G S H0 H1 : Nat) (s : State),
    (G ∈ [1, 2, 4, 8] ∧ 5 ≤ G * S - 2 ∧ G * S - 2 ≤ 8 ∧ 1 ≤ H0 ∧ H0 ≤ S - 1 ∧ 1 ≤ H1 ∧ H1 ≤ S - 1 ∧ H0 ≠ H1 →
      exec (.xlatBuildSerial G S H0 H1) s =
        .next { s with reply := some (.serialTable (serialTable G S H0 H1) (G * S - 2)) } ∧
      (serialTable G S H0 H1).length = 2 ^ G) ∧
    (¬(G ∈ [1, 2, 4, 8] ∧ 5 ≤ G * S - 2 ∧ G * S - 2 ≤ 8 ∧ 1 ≤ H0 ∧ H0 ≤ S - 1 ∧ 1 ≤ H1 ∧ H1 ≤ S - 1 ∧ H0 ≠ H1) →
      exec (.xlatBuildSerial G S H0 H1) s = .next { s with refused := some .illFormedSerialTiming }) ∧
    serialTable 2 4 1 3 = [0x37#8, 0x07#8, 0x34#8, 0x04#8]

/-- R159, R118: the inverted frame of a built table's entry is the waveform of the group's bits, the most significant
first, and the inverted frame is the complement of the standard one. -/
def Obligations.BuiltEntriesSendTheProtocolWaveform : Prop :=
  (∀ (G S H0 H1 v : Nat) (x : Byte), serialTimingOk G S H0 H1 = true → (serialTable G S H0 H1)[v]? = some x →
    invertedFrame x (G * S - 2) =
      (List.range G).flatMap fun k =>
        List.replicate (if v.testBit (G - 1 - k) then H1 else H0) true ++
          List.replicate (S - if v.testBit (G - 1 - k) then H1 else H0) false) ∧
  (∀ (x : Byte) (D : Nat), invertedFrame x D = (standardFrame x D).map fun l => !l)

/-! ## The units and the time base -/

/-- R171, R174: a start on a staged queue makes the unit busy, on an empty one it raises END; a busy unit has no such
step. -/
def Obligations.UnitStartRaisesBusyOrEnd : Prop :=
  (∀ (s : State) i e q l, s.hasSlot i → (s.slot i).eng = some e → e.core = .pulse q l →
    ((s.pu e.unit).busy = false → (s.pu e.unit).ring ≠ [] →
      exec (.puStart i) s = .next (s.setPu e.unit { s.pu e.unit with busy := true })) ∧
    ((s.pu e.unit).busy = false → (s.pu e.unit).ring = [] →
      exec (.puStart i) s = .next (s.setPu e.unit { s.pu e.unit with pendEnd := true })) ∧
    ((s.pu e.unit).busy = true → exec (.puStart i) s = .refused (.notEnabled "PU_START"))) ∧
  (∀ (s : State) i e q l, s.hasSlot i → (s.slot i).eng = some e → e.core = .serial q l →
    ((s.su e.unit).busy = false → (s.su e.unit).fifo ≠ [] →
      exec (.suStart i) s = .next (s.setSu e.unit { s.su e.unit with busy := true })) ∧
    ((s.su e.unit).busy = false → (s.su e.unit).fifo = [] →
      exec (.suStart i) s = .next (s.setSu e.unit { s.su e.unit with pendEnd := true })) ∧
    ((s.su e.unit).busy = true → exec (.suStart i) s = .refused (.notEnabled "SU_START")))

/-- R172, R173, R176: PU_EMIT pops the head, appends its two physical levels to the trace, leaves the line at the
second, or idle when the ring is empty, and raises LOW and END; it exists exactly when the unit is busy, its ring not
empty and the unit not held. -/
def Obligations.EmitDrivesTheHeadDescriptor : Prop :=
  ∀ (s : State) i e q l, s.hasSlot i → (s.slot i).eng = some e → e.core = .pulse q l →
    (∀ d rest, (s.pu e.unit).busy = true → (s.pu e.unit).ring = d :: rest →
      (s.board.assumeTimelyIsr = true →
        ((s.pu e.unit).pendLow = false ∨ e.enLow = false) ∧ ((s.pu e.unit).pendEnd = false ∨ e.enEnd = false)) →
      exec (.puEmit i) s =
        .next (s.setPu e.unit
          { s.pu e.unit with
            ring := rest
            trace := (s.pu e.unit).trace ++
              [(xor (decide (d.level0 ≠ 0)) (s.pu e.unit).invert, d.dur0),
               (xor (decide (d.level1 ≠ 0)) (s.pu e.unit).invert, d.dur1)]
            line := if rest = [] then (s.pu e.unit).invert
              else xor (decide (d.level1 ≠ 0)) (s.pu e.unit).invert
            pendLow := if rest.length ≤ s.board.ringLowThreshold then true else (s.pu e.unit).pendLow
            busy := if rest = [] then false else true
            pendEnd := if rest = [] then true else (s.pu e.unit).pendEnd })) ∧
    ((s.pu e.unit).busy = false ∨ (s.pu e.unit).ring = [] ∨
      (s.board.assumeTimelyIsr = true ∧
        (((s.pu e.unit).pendLow = true ∧ e.enLow = true) ∨ ((s.pu e.unit).pendEnd = true ∧ e.enEnd = true))) →
      exec (.puEmit i) s = .refused (.notEnabled "PU_EMIT"))

/-- R175, R118, R176: SU_SHIFT pops the head and appends its inverted frame of `D + 2` bit-times, each level through
the unit's inversion; the line is idle after it; LOW and END as for the ring. -/
def Obligations.ShiftSendsTheInvertedFrame : Prop :=
  ∀ (s : State) i e q l, s.hasSlot i → (s.slot i).eng = some e → e.core = .serial q l →
    (∀ x rest, (s.su e.unit).busy = true → (s.su e.unit).fifo = x :: rest →
      (s.board.assumeTimelyIsr = true →
        ((s.su e.unit).pendLow = false ∨ e.enLow = false) ∧ ((s.su e.unit).pendEnd = false ∨ e.enEnd = false)) →
      exec (.suShift i) s =
        .next (s.setSu e.unit
          { s.su e.unit with
            fifo := rest
            trace := (s.su e.unit).trace ++
              ([true] ++ (List.range (s.su e.unit).D).map (fun t => !x.getLsbD t) ++ [false]).map
                fun l => xor l (s.su e.unit).invert
            line := (s.su e.unit).invert
            pendLow := if rest.length ≤ s.board.fifoLowThreshold then true else (s.su e.unit).pendLow
            busy := if rest = [] then false else true
            pendEnd := if rest = [] then true else (s.su e.unit).pendEnd })) ∧
    ((s.su e.unit).busy = false ∨ (s.su e.unit).fifo = [] ∨
      (s.board.assumeTimelyIsr = true ∧
        (((s.su e.unit).pendLow = true ∧ e.enLow = true) ∨ ((s.su e.unit).pendEnd = true ∧ e.enEnd = true))) →
      exec (.suShift i) s = .refused (.notEnabled "SU_SHIFT"))

/-- R184, R185: TIMER_TICK advances the time base modulo `2^TimeBits`, and the time elapsed since then is the tick,
modulo `2^TimeBits`. -/
def Obligations.TickAdvancesTheTimeBase : Prop :=
  ∀ (s : State) (n : Nat),
    (1 ≤ n → exec (.timerTick n) s = .next { s with now := (s.now + n) % 2 ^ s.board.timeBits } ∧
      ∀ t, exec (.timerTick n) s = .next t → t.elapsed s.now = n % 2 ^ s.board.timeBits) ∧
    (n = 0 → exec (.timerTick n) s = .next { s with refused := some .illFormedOperand })

/-! ## The pulse engine -/

/-- R192: PE_BEGIN latches the variant's constants and drives the idle level; while Draining it raises
OwnershipViolation before anything else; constants that R190 excludes are refused. -/
def Obligations.PulseBeginLatchesTheConstants : Prop :=
  ∀ (s : State) i e q l, s.hasSlot i → (s.slot i).eng = some e → e.core = .pulse q l →
    (∀ pc, e.tstate ≠ .draining → pulseConstantsOf s.board (s.slot i).variant = some pc →
      pulseConstantsOk s.board.durationMax pc = true → exec (.peBegin i) s = .next (s.pulseLatched i e q pc)) ∧
    (∀ pc, e.tstate ≠ .draining → pulseConstantsOf s.board (s.slot i).variant = some pc →
      pulseConstantsOk s.board.durationMax pc = false →
        exec (.peBegin i) s = .next { s with refused := some .illFormedProtocolConstants }) ∧
    (e.tstate = .draining → exec (.peBegin i) s = .next (s.addFault (.ownershipViolation i .peBegin)))

/-- R193: PE_START_FRAME resets the sequencer, stamps and counts the frame, stages the first items of the frame up to
the ring's capacity, enables both interrupts, and starts the unit; a transmitting engine has no such step. -/
def Obligations.PulseStartFrameStagesTheFirstItems : Prop :=
  (∀ (s : State) i e q l, s.hasSlot i → s.pulseEngine i e q l → e.tstate = .idle ∨ e.tstate = .frameComplete →
    s.sliceReadable i →
    ∃ t q' k,
      exec (.peStartFrame i) s = .next t ∧ s.onlyPulse t i e.unit ∧
      t.slot i =
        { s.slot i with
          frameCount := (s.slot i).frameCount + 1
          eng := some
            { e with
              tstate := .draining, cursor := k, frameStart := some s.now, enLow := true, enEnd := true,
              core := .pulse q' (some l) } } ∧
      t.pu e.unit =
        { s.pu e.unit with
          ring := (pulseItemsLeft l pulseSeqStart (s.dataFrom i 0)).take s.board.ringCapacity
          pendLow := false
          pendEnd := ((pulseItemsLeft l pulseSeqStart (s.dataFrom i 0)).take s.board.ringCapacity).isEmpty
          busy := (s.pu e.unit).busy ||
            !((pulseItemsLeft l pulseSeqStart (s.dataFrom i 0)).take s.board.ringCapacity).isEmpty } ∧
      pulseItemsLeft l q' (t.dataFrom i k) =
        (pulseItemsLeft l pulseSeqStart (s.dataFrom i 0)).drop s.board.ringCapacity ∧
      (q'.phase = .done ↔ (pulseItemsLeft l pulseSeqStart (s.dataFrom i 0)).length < s.board.ringCapacity)) ∧
  (∀ (s : State) i e q l, s.hasSlot i → (s.slot i).eng = some e → e.core = .pulse q l →
    e.tstate = .filling ∨ e.tstate = .draining →
      exec (.peStartFrame i) s = .refused (.notEnabled "PE_START_FRAME"))

/-- R194: PE_NEXT_ITEM returns the first of the items the sequencer has still to give and leaves the others; with none
left it returns nothing and the sequencer is Done. -/
def Obligations.PulseNextItemReturnsTheItemsInOrder : Prop :=
  (∀ (s : State) i e q l, s.hasSlot i → s.pulseEngine i e q l → e.tstate = .filling ∨ e.tstate = .draining →
    s.sliceReadable i →
    ∃ t q' k,
      exec (.peNextItem i) s = .next t ∧
      t = { s with slots := t.slots, reply := some (.pulseItem (pulseItemsLeft l q (s.dataFrom i e.cursor)).head?) } ∧
      (∀ j, j ≠ i → t.slot j = s.slot j) ∧ (∀ a, t.byte a = s.byte a) ∧
      t.slot i = { s.slot i with eng := some { e with cursor := k, core := .pulse q' (some l) } } ∧
      pulseItemsLeft l q' (t.dataFrom i k) = (pulseItemsLeft l q (s.dataFrom i e.cursor)).tail ∧
      (q'.phase = .done ↔ pulseItemsLeft l q (s.dataFrom i e.cursor) = [])) ∧
  (∀ (s : State) i e q l, s.hasSlot i → (s.slot i).eng = some e → e.core = .pulse q l →
    e.tstate = .idle ∨ e.tstate = .frameComplete →
      exec (.peNextItem i) s = .refused (.notEnabled "PE_NEXT_ITEM"))

/-- R195: PE_FILL moves items from the sequencer to the ring's tail until the ring is full or the frame is done. -/
def Obligations.PulseFillStagesUpToCapacity : Prop :=
  (∀ (s : State) i e q l, s.hasSlot i → s.pulseEngine i e q l → e.tstate = .filling ∨ e.tstate = .draining →
    s.sliceReadable i →
    ∃ t q' k,
      exec (.peFill i) s = .next t ∧ s.onlyPulse t i e.unit ∧
      t.slot i = { s.slot i with eng := some { e with cursor := k, core := .pulse q' (some l) } } ∧
      t.pu e.unit =
        { s.pu e.unit with
          ring := (s.pu e.unit).ring ++
            (pulseItemsLeft l q (s.dataFrom i e.cursor)).take (s.board.ringCapacity - (s.pu e.unit).ring.length) } ∧
      pulseItemsLeft l q' (t.dataFrom i k) =
        (pulseItemsLeft l q (s.dataFrom i e.cursor)).drop (s.board.ringCapacity - (s.pu e.unit).ring.length) ∧
      (q'.phase = .done ↔ q.phase = .done ∨
        (pulseItemsLeft l q (s.dataFrom i e.cursor)).length < s.board.ringCapacity - (s.pu e.unit).ring.length)) ∧
  (∀ (s : State) i e q l, s.hasSlot i → (s.slot i).eng = some e → e.core = .pulse q l →
    e.tstate = .idle ∨ e.tstate = .frameComplete → exec (.peFill i) s = .refused (.notEnabled "PE_FILL"))

/-- R196, R195, R340: the pulse handler, entered by PE_ISR or by IRQ_ENTRY, END before LOW: a complete frame ends; an
END before the frame is staged counts an error, aborts the frame and raises Underrun; on LOW it clears LOW and refills
the ring of a Draining engine as PE_FILL does, to Done if the frame ends in it. With no request neither step exists. -/
def Obligations.PulseHandlerServesEndThenLow : Prop :=
  ∀ (s : State) i e q l, s.hasSlot i → (s.slot i).eng = some e → e.core = .pulse q l →
    ((s.pu e.unit).pendEnd = true → e.enEnd = true → q.phase = .done →
      ∀ h, h = Instr.peIsr i ∨ h = Instr.irqEntry i →
      exec h s =
        .next ((s.setPu e.unit { s.pu e.unit with pendEnd := false, pendLow := false }).setSlot i
          { s.slot i with
            eng := some { e with enLow := false, enEnd := false, tstate := .frameComplete } })) ∧
    ((s.pu e.unit).pendEnd = true → e.enEnd = true → q.phase ≠ .done →
      ∀ h, h = Instr.peIsr i ∨ h = Instr.irqEntry i →
      exec h s =
        .next (((s.setPu e.unit { s.pu e.unit with pendEnd := false, pendLow := false, ring := [] }).setSlot i
          { s.slot i with
            hwErrorCount := (s.slot i).hwErrorCount + 1
            eng := some
              { e with
                enLow := false, enEnd := false, tstate := .frameComplete,
                core := .pulse { q with phase := .done, curByte := none } l } }).addFault (.underrun i))) ∧
    ((s.pu e.unit).pendEnd = false ∨ e.enEnd = false → (s.pu e.unit).pendLow = false ∨ e.enLow = false →
      exec (.peIsr i) s = .refused (.notEnabled "PE_ISR") ∧
      exec (.irqEntry i) s = .refused (.notEnabled "IRQ_ENTRY")) ∧
    ((s.pu e.unit).pendEnd = false ∨ e.enEnd = false → (s.pu e.unit).pendLow = true → e.enLow = true →
      ∀ h, h = Instr.peIsr i ∨ h = Instr.irqEntry i →
      (e.tstate ≠ .draining → exec h s = .next (s.setPu e.unit { s.pu e.unit with pendLow := false })) ∧
      (∀ l', l = some l' → e.tstate = .draining → s.sliceReadable i →
        ∃ t q' k,
          exec h s = .next t ∧ s.onlyPulse t i e.unit ∧
          t.slot i = { s.slot i with eng := some { e with cursor := k, core := .pulse q' l } } ∧
          t.pu e.unit =
            { s.pu e.unit with
              pendLow := false
              ring := (s.pu e.unit).ring ++
                (pulseItemsLeft l' q (s.dataFrom i e.cursor)).take
                  (s.board.ringCapacity - (s.pu e.unit).ring.length) } ∧
          pulseItemsLeft l' q' (t.dataFrom i k) =
            (pulseItemsLeft l' q (s.dataFrom i e.cursor)).drop
              (s.board.ringCapacity - (s.pu e.unit).ring.length) ∧
          (q'.phase = .done ↔ q.phase = .done ∨
            (pulseItemsLeft l' q (s.dataFrom i e.cursor)).length <
              s.board.ringCapacity - (s.pu e.unit).ring.length)))

/-- R197, R229, R266: the expiry step moves FrameComplete to Idle once the minimum frame duration has passed, and does
not exist before. -/
def Obligations.IdleStepFollowsTheFrameTimer : Prop :=
  ∀ (s : State) i e, s.hasSlot i → (s.slot i).eng = some e →
    (e.tstate = .frameComplete →
      (e.frameStart = none ∨
        ∃ t, e.frameStart = some t ∧ s.minFrameDuration (s.slot i).variant (s.slot i).cfg ≤ s.elapsed t) →
      exec (if e.kind = .pulse then .peIdle i else .seIdle i) s =
        .next (s.setSlot i { s.slot i with eng := some { e with tstate := .idle } })) ∧
    ((e.tstate ≠ .frameComplete ∨
        ∃ t, e.frameStart = some t ∧ s.elapsed t < s.minFrameDuration (s.slot i).variant (s.slot i).cfg) →
      exec (if e.kind = .pulse then .peIdle i else .seIdle i) s =
        .refused (.notEnabled (if e.kind = .pulse then "PE_IDLE" else "SE_IDLE")))

/-- R198: the items a pulse engine gives from a frame's start are exactly R198's, and as many. -/
def Obligations.PulseFrameContentsFollowR198 : Prop :=
  ∀ (l : PulseLatch) (bs : List Byte), l.W = 8 →
    pulseItemsLeft l pulseSeqStart bs = pulseFrameItems l bs ∧
      (pulseItemsLeft l pulseSeqStart bs).length =
        l.preIdle + 8 * bs.length + (if l.gapFlag then bs.length - 1 else 0) + l.postIdle

/-! ## The serial engine -/

/-- R223, R224: SE_BEGIN builds the table, latches the constants and the channels per pixel, sets the baud rate and
drives the idle level; Draining raises OwnershipViolation first; bad constants are refused. -/
def Obligations.SerialBeginBuildsTheTable : Prop :=
  ∀ (s : State) i e q l, s.hasSlot i → (s.slot i).eng = some e → e.core = .serial q l →
    (∀ pc, e.tstate ≠ .draining → serialConstantsOf s.board (s.slot i).variant = some pc →
      serialConstantsOk pc = true → exec (.seBegin i) s = .next (s.serialLatched i e q pc)) ∧
    (∀ pc, e.tstate ≠ .draining → serialConstantsOf s.board (s.slot i).variant = some pc →
      serialTimingOk pc.G pc.S pc.H0 pc.H1 = false →
        exec (.seBegin i) s = .next { s with refused := some .illFormedSerialTiming }) ∧
    (∀ pc, e.tstate ≠ .draining → serialConstantsOf s.board (s.slot i).variant = some pc →
      serialTimingOk pc.G pc.S pc.H0 pc.H1 = true → serialConstantsOk pc = false →
        exec (.seBegin i) s = .next { s with refused := some .illFormedProtocolConstants }) ∧
    (e.tstate = .draining → exec (.seBegin i) s = .next (s.addFault (.ownershipViolation i .seBegin)))

/-- R225: SE_START_FRAME, as PE_START_FRAME with the FIFO. -/
def Obligations.SerialStartFrameStagesTheFirstBytes : Prop :=
  (∀ (s : State) i e q l, s.hasSlot i → s.serialEngine i e q l → l.legal →
    e.tstate = .idle ∨ e.tstate = .frameComplete → s.sliceReadable i →
    ∃ t q' k,
      exec (.seStartFrame i) s = .next t ∧ s.onlySerial t i e.unit ∧
      t.slot i =
        { s.slot i with
          frameCount := (s.slot i).frameCount + 1
          eng := some
            { e with
              tstate := .draining, cursor := k, frameStart := some s.now, enLow := true, enEnd := true,
              core := .serial q' (some l) } } ∧
      t.su e.unit =
        { s.su e.unit with
          fifo := (serialItemsLeft l serialSeqStart 0 (s.dataFrom i 0)).take s.board.fifoCapacity
          pendLow := false
          pendEnd := ((serialItemsLeft l serialSeqStart 0 (s.dataFrom i 0)).take s.board.fifoCapacity).isEmpty
          busy := (s.su e.unit).busy ||
            !((serialItemsLeft l serialSeqStart 0 (s.dataFrom i 0)).take s.board.fifoCapacity).isEmpty } ∧
      serialItemsLeft l q' k (t.dataFrom i k) =
        (serialItemsLeft l serialSeqStart 0 (s.dataFrom i 0)).drop s.board.fifoCapacity ∧ q'.legal l ∧
      (q'.sphase = .done ↔ (serialItemsLeft l serialSeqStart 0 (s.dataFrom i 0)).length < s.board.fifoCapacity)) ∧
  (∀ (s : State) i e q l, s.hasSlot i → (s.slot i).eng = some e → e.core = .serial q l →
    e.tstate = .filling ∨ e.tstate = .draining →
      exec (.seStartFrame i) s = .refused (.notEnabled "SE_START_FRAME"))

/-- R226: SE_NEXT_ITEM returns the first of the bytes the sequencer has still to give and leaves the others; with none
left it returns nothing and the sequencer is Done. -/
def Obligations.SerialNextItemReturnsTheBytesInOrder : Prop :=
  (∀ (s : State) i e q l, s.hasSlot i → s.serialEngine i e q l → l.legal → q.legal l →
    e.tstate = .filling ∨ e.tstate = .draining → s.sliceReadable i →
    ∃ t q' k,
      exec (.seNextItem i) s = .next t ∧
      t = { s with
        slots := t.slots
        reply := some (.serialItem (serialItemsLeft l q e.cursor (s.dataFrom i e.cursor)).head?) } ∧
      (∀ j, j ≠ i → t.slot j = s.slot j) ∧ (∀ a, t.byte a = s.byte a) ∧
      t.slot i = { s.slot i with eng := some { e with cursor := k, core := .serial q' (some l) } } ∧
      serialItemsLeft l q' k (t.dataFrom i k) = (serialItemsLeft l q e.cursor (s.dataFrom i e.cursor)).tail ∧
      q'.legal l ∧ (q'.sphase = .done ↔ serialItemsLeft l q e.cursor (s.dataFrom i e.cursor) = [])) ∧
  (∀ (s : State) i e q l, s.hasSlot i → (s.slot i).eng = some e → e.core = .serial q l →
    e.tstate = .idle ∨ e.tstate = .frameComplete →
      exec (.seNextItem i) s = .refused (.notEnabled "SE_NEXT_ITEM"))

/-- R227: SE_FILL moves bytes from the sequencer to the FIFO's tail until it is full or the frame is done. -/
def Obligations.SerialFillStagesUpToCapacity : Prop :=
  (∀ (s : State) i e q l, s.hasSlot i → s.serialEngine i e q l → l.legal → q.legal l →
    e.tstate = .filling ∨ e.tstate = .draining → s.sliceReadable i →
    ∃ t q' k,
      exec (.seFill i) s = .next t ∧ s.onlySerial t i e.unit ∧
      t.slot i = { s.slot i with eng := some { e with cursor := k, core := .serial q' (some l) } } ∧
      t.su e.unit =
        { s.su e.unit with
          fifo := (s.su e.unit).fifo ++
            (serialItemsLeft l q e.cursor (s.dataFrom i e.cursor)).take
              (s.board.fifoCapacity - (s.su e.unit).fifo.length) } ∧
      serialItemsLeft l q' k (t.dataFrom i k) =
        (serialItemsLeft l q e.cursor (s.dataFrom i e.cursor)).drop
          (s.board.fifoCapacity - (s.su e.unit).fifo.length) ∧
      q'.legal l ∧
      (q'.sphase = .done ↔ q.sphase = .done ∨
        (serialItemsLeft l q e.cursor (s.dataFrom i e.cursor)).length <
          s.board.fifoCapacity - (s.su e.unit).fifo.length)) ∧
  (∀ (s : State) i e q l, s.hasSlot i → (s.slot i).eng = some e → e.core = .serial q l →
    e.tstate = .idle ∨ e.tstate = .frameComplete → exec (.seFill i) s = .refused (.notEnabled "SE_FILL"))

/-- R228, R340: the serial handler, entered by SE_ISR or by IRQ_ENTRY, END before LOW, Underrun as for the ring; on LOW
it clears LOW and refills the FIFO of a Draining engine as SE_FILL does, to Done if the frame ends in it. -/
def Obligations.SerialHandlerServesEndThenLow : Prop :=
  ∀ (s : State) i e q l, s.hasSlot i → (s.slot i).eng = some e → e.core = .serial q l →
    ((s.su e.unit).pendEnd = true → e.enEnd = true → q.sphase = .done →
      ∀ h, h = Instr.seIsr i ∨ h = Instr.irqEntry i →
      exec h s =
        .next ((s.setSu e.unit { s.su e.unit with pendEnd := false, pendLow := false }).setSlot i
          { s.slot i with
            eng := some { e with enLow := false, enEnd := false, tstate := .frameComplete } })) ∧
    ((s.su e.unit).pendEnd = true → e.enEnd = true → q.sphase ≠ .done →
      ∀ h, h = Instr.seIsr i ∨ h = Instr.irqEntry i →
      exec h s =
        .next (((s.setSu e.unit { s.su e.unit with pendEnd := false, pendLow := false, fifo := [] }).setSlot i
          { s.slot i with
            hwErrorCount := (s.slot i).hwErrorCount + 1
            eng := some
              { e with
                enLow := false, enEnd := false, tstate := .frameComplete,
                core := .serial { q with sphase := .done, curByte := none } l } }).addFault (.underrun i))) ∧
    ((s.su e.unit).pendEnd = false ∨ e.enEnd = false → (s.su e.unit).pendLow = false ∨ e.enLow = false →
      exec (.seIsr i) s = .refused (.notEnabled "SE_ISR") ∧
      exec (.irqEntry i) s = .refused (.notEnabled "IRQ_ENTRY")) ∧
    ((s.su e.unit).pendEnd = false ∨ e.enEnd = false → (s.su e.unit).pendLow = true → e.enLow = true →
      ∀ h, h = Instr.seIsr i ∨ h = Instr.irqEntry i →
      (e.tstate ≠ .draining → exec h s = .next (s.setSu e.unit { s.su e.unit with pendLow := false })) ∧
      (∀ l', l = some l' → l'.legal → q.legal l' → e.tstate = .draining → s.sliceReadable i →
        ∃ t q' k,
          exec h s = .next t ∧ s.onlySerial t i e.unit ∧
          t.slot i = { s.slot i with eng := some { e with cursor := k, core := .serial q' l } } ∧
          t.su e.unit =
            { s.su e.unit with
              pendLow := false
              fifo := (s.su e.unit).fifo ++
                (serialItemsLeft l' q e.cursor (s.dataFrom i e.cursor)).take
                  (s.board.fifoCapacity - (s.su e.unit).fifo.length) } ∧
          serialItemsLeft l' q' k (t.dataFrom i k) =
            (serialItemsLeft l' q e.cursor (s.dataFrom i e.cursor)).drop
              (s.board.fifoCapacity - (s.su e.unit).fifo.length) ∧
          q'.legal l' ∧
          (q'.sphase = .done ↔ q.sphase = .done ∨
            (serialItemsLeft l' q e.cursor (s.dataFrom i e.cursor)).length <
              s.board.fifoCapacity - (s.su e.unit).fifo.length)))

/-- R230: the bytes a serial engine gives from a frame's start are exactly R230's, and as many. -/
def Obligations.SerialFrameContentsFollowR230 : Prop :=
  ∀ (l : SerialLatch) (bs : List Byte), groupWidthOk l.G = true → 1 ≤ l.C →
    serialItemsLeft l serialSeqStart 0 bs = serialFrameItems l bs ∧
      (serialItemsLeft l serialSeqStart 0 bs).length =
        8 / l.G * (l.FP.length + l.FS.length + (bs.length + l.C - 1) / l.C * (l.PP.length + l.PS.length) + bs.length)

/-! ## The driver -/

/-- R252: DRV_CONSTRUCT replaces the driver by a fresh one of the variant, its engine bound to the slot's unit; a
transmitting engine raises DestroyWhileDraining first; an illegal variant or default is refused. -/
def Obligations.ConstructBuildsAFreshDriver : Prop :=
  ∀ (s : State) i v, s.hasSlot i →
    (∀ eng, (s.slot i).transmitting = false → legalAt s.board i v = true →
      (isEncoder v = true → legalCfg (defaultCfgOf s.board v) = true) →
      (engineKindOf v = none ∧ eng = none) ∨
        (∃ k u, engineKindOf v = some k ∧ unitFor k (s.periph i) = some u ∧ eng = some
          { unit := u, tstate := .idle, cursor := 0, frameStart := none, enLow := false, enEnd := false,
            core := if k = .pulse then .pulse { phase := .done, idleIdx := 0, curByte := none, bitIdx := 0 } none
              else .serial { sphase := .done, seqIdx := 0, curByte := none, groupIdx := 0 } none }) →
      exec (.drvConstruct i v) s =
        .next (s.setSlot i
          { variant := v, status := .constructed, cfg := defaultCfgOf s.board v,
            needed := neededBytes s.board v (defaultCfgOf s.board v), offset := 0, length := 0,
            paused := s.userPaused || s.reloadPaused, frameCount := 0, droppedCount := 0, hwErrorCount := 0,
            hwInitFailed := false, eng := eng })) ∧
    ((s.slot i).transmitting = true →
      exec (.drvConstruct i v) s = .next (s.addFault (.destroyWhileDraining i))) ∧
    ((s.slot i).transmitting = false → legalAt s.board i v = false →
      exec (.drvConstruct i v) s = .next { s with refused := some .illegalVariant }) ∧
    ((s.slot i).transmitting = false → legalAt s.board i v = true → isEncoder v = true →
      legalCfg (defaultCfgOf s.board v) = false →
      exec (.drvConstruct i v) s = .next { s with refused := some .illFormedParameter })

/-- R253: DRV_STOP disables the engine's interrupts and clears its unit's flags and queue; without an engine it does
nothing; a transmitting engine raises DestroyWhileDraining. -/
def Obligations.StopQuietsTheUnit : Prop :=
  ∀ (s : State) i, s.hasSlot i →
    ((s.slot i).eng = none → exec (.drvStop i) s = .next s) ∧
    ((s.slot i).transmitting = true → exec (.drvStop i) s = .next (s.addFault (.destroyWhileDraining i))) ∧
    (∀ e, (s.slot i).eng = some e → (s.slot i).transmitting = false → e.kind = .pulse →
      exec (.drvStop i) s =
        .next ((s.setSlot i { s.slot i with eng := some { e with enLow := false, enEnd := false } }).setPu e.unit
          { s.pu e.unit with pendLow := false, pendEnd := false, busy := false, ring := [] })) ∧
    (∀ e, (s.slot i).eng = some e → (s.slot i).transmitting = false → e.kind = .serial →
      exec (.drvStop i) s =
        .next ((s.setSlot i { s.slot i with eng := some { e with enLow := false, enEnd := false } }).setSu e.unit
          { s.su e.unit with pendLow := false, pendEnd := false, busy := false, fifo := [] }))

/-- R254: DRV_BEGIN draws `PeriphInitOk` for an encoder variant, whatever the draw gives: a failure is permanent,
counted and logged; a success runs BEGIN and makes the driver Ready, and where BEGIN refuses the constants the whole
step is void, its draw given back (R337). Other variants become Ready with no draw, a Failed driver stays as it is, and
a Draining engine raises OwnershipViolation. -/
def Obligations.BeginDrawsAndMakesReady : Prop :=
  ∀ (s : State) i, s.hasSlot i → s.mainLoopFree →
    ((s.slot i).draining = true → exec (.drvBegin i) s = .next (s.addFault (.ownershipViolation i .drvBegin))) ∧
    ((s.slot i).draining = false → (s.slot i).status = .failed → exec (.drvBegin i) s = .next s) ∧
    ((s.slot i).draining = false → (s.slot i).status ≠ .failed → isEncoder (s.slot i).variant = false →
      exec (.drvBegin i) s = .next (s.setSlot i { s.slot i with status := .ready })) ∧
    (∀ t, (s.slot i).draining = false → (s.slot i).status ≠ .failed → isEncoder (s.slot i).variant = true →
      drawPeriphInit i s = .ok false t →
      exec (.drvBegin i) s =
        .next { t.setSlot i
          { s.slot i with
            status := .failed, hwInitFailed := true, hwErrorCount := (s.slot i).hwErrorCount + 1 } with
          diag := s.diag ++ [{ slot := i, detail := .hwInitError }] }) ∧
    (∀ t e q l pc, (s.slot i).draining = false → (s.slot i).status ≠ .failed →
      drawPeriphInit i s = .ok true t → (s.slot i).eng = some e → e.core = .pulse q l →
      pulseConstantsOf s.board (s.slot i).variant = some pc → pulseConstantsOk s.board.durationMax pc = true →
      exec (.drvBegin i) s =
        .next ((t.pulseLatched i e q pc).setSlot i
          { (t.pulseLatched i e q pc).slot i with hwInitFailed := false, status := .ready })) ∧
    (∀ t e q l pc, (s.slot i).draining = false → (s.slot i).status ≠ .failed →
      drawPeriphInit i s = .ok true t → (s.slot i).eng = some e → e.core = .serial q l →
      serialConstantsOf s.board (s.slot i).variant = some pc → serialConstantsOk pc = true →
      exec (.drvBegin i) s =
        .next ((t.serialLatched i e q pc).setSlot i
          { (t.serialLatched i e q pc).slot i with hwInitFailed := false, status := .ready })) ∧
    (∀ t r, (s.slot i).draining = false → (s.slot i).status ≠ .failed → drawPeriphInit i s = .ok true t →
      s.engineBeginRefuses i r → exec (.drvBegin i) s = .next { s with refused := some r })

/-- R256, R255, R278: DRV_SET_CONFIG stores the merged options and the new need; a Ready encoder is latched again. The
slice does not move. Disabled ignores every key, an out-of-scope variant stores its recognised keys and needs what the
stored finite map needs, whatever the order of its keys, a bad value is refused, and a Draining engine raises
OwnershipViolation. Where the latching of a Ready driver refuses the constants, the whole step is void and nothing is
stored (R337). -/
def Obligations.SetConfigStoresTheMergedOptions : Prop :=
  ∀ (s : State) i p, s.hasSlot i → s.mainLoopFree → distinctKeys p = true →
    ((s.slot i).draining = true →
      exec (.drvSetConfig i p) s = .next (s.addFault (.ownershipViolation i .drvSetConfig))) ∧
    ((s.slot i).draining = false → (s.slot i).variant = .disabled → exec (.drvSetConfig i p) s = .next s) ∧
    ((s.slot i).draining = false → (s.slot i).variant ≠ .disabled → isEncoder (s.slot i).variant = false →
      ∃ r n, exec (.drvSetConfig i p) s = .next (s.setSlot i { s.slot i with cfg := .stored r, needed := n }) ∧
        (∀ k, mapGet r k =
          if k ∈ s.board.opaqueKeys.at (s.slot i).variant then (mapGet p k).or (mapGet (storedObject (s.slot i).cfg) k)
          else mapGet (storedObject (s.slot i).cfg) k) ∧
        ∀ q, (∀ k, mapGet q k = mapGet r k) →
          n = cfgTableAt s.board.neededOther (s.slot i).variant (.stored q)) ∧
    (∀ c, (s.slot i).draining = false → isEncoder (s.slot i).variant = true → (s.slot i).cfg = .encoder c →
      (mergeCfg c p = none ∨ ∃ c', mergeCfg c p = some c' ∧ legalEncoderCfg c' = false) →
      exec (.drvSetConfig i p) s = .next { s with refused := some .illFormedConfig }) ∧
    (∀ c c', (s.slot i).draining = false → isEncoder (s.slot i).variant = true → (s.slot i).cfg = .encoder c →
      mergeCfg c p = some c' → legalEncoderCfg c' = true → (s.slot i).status ≠ .ready →
      exec (.drvSetConfig i p) s =
        .next (s.setSlot i
          { s.slot i with cfg := .encoder c', needed := c'.pixelCount * c'.channelsPerPixel })) ∧
    (∀ c c' u e q l pc, (s.slot i).draining = false → (s.slot i).cfg = .encoder c →
      mergeCfg c p = some c' → legalEncoderCfg c' = true → (s.slot i).status = .ready →
      (s.slot i).eng = some e → e.core = .pulse q l →
      pulseConstantsOf s.board (s.slot i).variant = some pc → pulseConstantsOk s.board.durationMax pc = true →
      u = s.setSlot i { s.slot i with cfg := .encoder c', needed := c'.pixelCount * c'.channelsPerPixel } →
      exec (.drvSetConfig i p) s = .next (u.pulseLatched i e q pc)) ∧
    (∀ c c' u e q l pc, (s.slot i).draining = false → (s.slot i).cfg = .encoder c →
      mergeCfg c p = some c' → legalEncoderCfg c' = true → (s.slot i).status = .ready →
      (s.slot i).eng = some e → e.core = .serial q l →
      serialConstantsOf s.board (s.slot i).variant = some pc → serialConstantsOk pc = true →
      u = s.setSlot i { s.slot i with cfg := .encoder c', needed := c'.pixelCount * c'.channelsPerPixel } →
      exec (.drvSetConfig i p) s = .next (u.serialLatched i e q pc)) ∧
    (∀ c c' r, (s.slot i).draining = false → (s.slot i).cfg = .encoder c → mergeCfg c p = some c' →
      legalEncoderCfg c' = true → (s.slot i).status = .ready → s.engineBeginRefuses i r →
      exec (.drvSetConfig i p) s = .next { s with refused := some r })

/-- R268: after a DRV_SET_CONFIG on an encoder variant that is neither refused nor faulted, DRV_GET_CONFIG returns at
every recognised key of the parameters the value they gave, and no unrecognised key. The mark is sticky, so "not
refused" is said of the command on the state without its earlier mark, which the command itself keeps. -/
def Obligations.ConfigurationRoundTrip : Prop :=
  ∀ (s t : State) i p, s.hasSlot i → s.mainLoopFree → distinctKeys p = true →
    isEncoder (s.slot i).variant = true → (s.slot i).draining = false →
    exec (.drvSetConfig i p) { s with refused := none } = .next t → t.refused = none →
    ∃ r, exec (.drvSetConfig i p) s = .next { t with refused := s.refused } ∧
      exec (.drvGetConfig i) { t with refused := s.refused } =
        .next { t with refused := s.refused, reply := some (.params r) } ∧
      (∀ k v, mapGet p k = some v →
        k ∈ ["pixelCount", "channelsPerPixel", "colorOrder", "gamma", "groupSize", "invert"] →
        mapGet r k = some v) ∧
      ∀ k, k ∉ ["pixelCount", "channelsPerPixel", "colorOrder", "gamma", "groupSize", "invert"] →
        mapGet r k = none

/-- R257, R259, R263, R265: the driver operations that only read: their value is returned and nothing else is written,
whatever the engine does. -/
def Obligations.DriverReadsReturnTheirValue : Prop :=
  ∀ (s : State) i, s.hasSlot i →
    (s.mainLoopFree →
      exec (.drvGetStatus i) s =
        .next { s with
          reply := some (.slotStatus
            { typeCode := s.board.protocolCode.at (s.slot i).variant, status := (s.slot i).status,
              frameCount := (s.slot i).frameCount, droppedCount := (s.slot i).droppedCount,
              hwErrorCount := (s.slot i).hwErrorCount, hwInitFailed := (s.slot i).hwInitFailed,
              diagnostics := s.diag.filter fun r => decide (r.slot = i) }) }) ∧
    (s.mainLoopFree → (s.slot i).variant = .disabled →
      exec (.drvGetConfig i) s = .next { s with reply := some (.params []) }) ∧
    (∀ p, s.mainLoopFree → (s.slot i).variant ≠ .disabled → isEncoder (s.slot i).variant = false →
      (s.slot i).cfg = .stored p → exec (.drvGetConfig i) s = .next { s with reply := some (.params p) }) ∧
    (∀ c, s.mainLoopFree → isEncoder (s.slot i).variant = true → (s.slot i).cfg = .encoder c →
      exec (.drvGetConfig i) s =
        .next { s with
          reply := some (.params
            [("pixelCount", .nat c.pixelCount), ("channelsPerPixel", .nat c.channelsPerPixel),
             ("colorOrder", natsValue c.colorOrder), ("gamma", natsValue (c.gamma.map BitVec.toNat)),
             ("groupSize", .nat c.groupSize), ("invert", .bool c.invert)]) }) ∧
    ((s.slot i).variant = .disabled → exec (.drvNeeded i) s = .next { s with reply := some (.nat 0) }) ∧
    (∀ c, isEncoder (s.slot i).variant = true → (s.slot i).cfg = .encoder c →
      exec (.drvNeeded i) s = .next { s with reply := some (.nat (c.pixelCount * c.channelsPerPixel)) }) ∧
    ((s.slot i).variant ≠ .disabled → isEncoder (s.slot i).variant = false →
      exec (.drvNeeded i) s =
        .next { s with reply := some (.nat (cfgTableAt s.board.neededOther (s.slot i).variant (s.slot i).cfg)) }) ∧
    (∀ e, (s.slot i).eng = some e →
      exec (.drvMoreData i) s = .next { s with reply := some (.flag (decide (e.cursor < (s.slot i).length))) }) ∧
    ((s.slot i).eng = none → exec (.drvMoreData i) s = .refused (.notEnabled "DRV_MORE_DATA"))

/-- R264: DRV_NEXT_BYTE reads a whole pixel through the colour order and a partial last one in buffer order, maps the
byte through gamma, and advances the cursor alone; with no data left the step does not exist. -/
def Obligations.NextByteFollowsTheColourOrder : Prop :=
  ∀ (s : State) i e c, s.hasSlot i → (s.slot i).eng = some e → (s.slot i).cfg = .encoder c →
    s.sliceReadable i →
    (∀ j, e.cursor < (s.slot i).length →
      (e.cursor / c.channelsPerPixel + 1) * c.channelsPerPixel ≤ (s.slot i).length →
      c.colorOrder[e.cursor % c.channelsPerPixel]? = some j →
      ∃ x, c.gamma[(s.byte ((s.slot i).offset + (e.cursor / c.channelsPerPixel * c.channelsPerPixel + j))).toNat]? =
          some x ∧
        exec (.drvNextByte i) s =
          .next { s.setSlot i { s.slot i with eng := some { e with cursor := e.cursor + 1 } } with
            reply := some (.byte x) }) ∧
    (e.cursor < (s.slot i).length →
      (s.slot i).length < (e.cursor / c.channelsPerPixel + 1) * c.channelsPerPixel →
      ∃ x, c.gamma[(s.byte ((s.slot i).offset + e.cursor)).toNat]? = some x ∧
        exec (.drvNextByte i) s =
          .next { s.setSlot i { s.slot i with eng := some { e with cursor := e.cursor + 1 } } with
            reply := some (.byte x) }) ∧
    ((s.slot i).length ≤ e.cursor → exec (.drvNextByte i) s = .refused (.notEnabled "DRV_NEXT_BYTE"))

/-- R258: DRV_RENDER does nothing without an engine, on a driver that is not Ready, or while paused; it counts a drop
while a frame transmits or before the frame is due; else it starts a frame. -/
def Obligations.RenderStartsDropsOrReturns : Prop :=
  ∀ (s : State) i, s.hasSlot i → s.mainLoopFree →
    ((s.slot i).eng = none ∨ (s.slot i).status ≠ .ready ∨ (s.slot i).paused = true →
      exec (.drvRender i) s = .next s) ∧
    (∀ e, (s.slot i).eng = some e → (s.slot i).status = .ready → (s.slot i).paused = false →
      (e.tstate = .filling ∨ e.tstate = .draining ∨
        ∃ t, e.frameStart = some t ∧ s.elapsed t < s.minFrameDuration (s.slot i).variant (s.slot i).cfg) →
      exec (.drvRender i) s =
        .next (s.setSlot i { s.slot i with droppedCount := (s.slot i).droppedCount + 1 })) ∧
    (∀ e q l, s.pulseEngine i e q l → engineKindOf (s.slot i).variant = some .pulse → s.sliceReadable i →
      (s.slot i).status = .ready → (s.slot i).paused = false → e.tstate = .idle ∨ e.tstate = .frameComplete →
      (e.frameStart = none ∨
        ∃ t, e.frameStart = some t ∧ s.minFrameDuration (s.slot i).variant (s.slot i).cfg ≤ s.elapsed t) →
      ∃ t, exec (.drvRender i) s = .next t ∧ exec (.peStartFrame i) s = .next t ∧
        (t.slot i).frameCount = (s.slot i).frameCount + 1 ∧ (t.slot i).draining = true ∧
        (t.slot i).droppedCount = (s.slot i).droppedCount) ∧
    (∀ e q l, s.serialEngine i e q l → l.legal → engineKindOf (s.slot i).variant = some .serial →
      s.sliceReadable i → (s.slot i).status = .ready → (s.slot i).paused = false →
      e.tstate = .idle ∨ e.tstate = .frameComplete →
      (e.frameStart = none ∨
        ∃ t, e.frameStart = some t ∧ s.minFrameDuration (s.slot i).variant (s.slot i).cfg ≤ s.elapsed t) →
      ∃ t, exec (.drvRender i) s = .next t ∧ exec (.seStartFrame i) s = .next t ∧
        (t.slot i).frameCount = (s.slot i).frameCount + 1 ∧ (t.slot i).draining = true ∧
        (t.slot i).droppedCount = (s.slot i).droppedCount)

/-- R270: of two Renders with less than the minimum frame duration between them, the first starts a frame and the
second drops one, whatever the other agents have done to the engine, its unit and the rest of the block in between: an
underrun and its hardware error, a new slice, host writes. The driver's variant, options, status, pause bit, two frame
counters and frame start are as the first left them. -/
def Obligations.SecondRenderIsDropped : Prop :=
  ∀ (s t u : State) i e q l, s.hasSlot i → s.mainLoopFree → s.sliceReadable i →
    s.pulseEngine i e q l ∨ (∃ q' l', s.serialEngine i e q' l' ∧ l'.legal) →
    (s.slot i).eng.map Engine.kind = engineKindOf (s.slot i).variant →
    (s.slot i).status = .ready → (s.slot i).paused = false → e.tstate = .idle ∨ e.tstate = .frameComplete →
    s.frameDue (s.slot i) e = true → exec (.drvRender i) s = .next t →
    u.mainLoopFree → u.board = s.board →
    (u.slot i).variant = (t.slot i).variant → (u.slot i).cfg = (t.slot i).cfg →
    (u.slot i).status = (t.slot i).status → (u.slot i).paused = (t.slot i).paused →
    (u.slot i).frameCount = (t.slot i).frameCount → (u.slot i).droppedCount = (t.slot i).droppedCount →
    (∃ e', (u.slot i).eng = some e' ∧ e'.frameStart = (t.slot i).eng.bind Engine.frameStart) →
    u.elapsed s.now < s.minFrameDuration (s.slot i).variant (s.slot i).cfg →
    ∃ v, exec (.drvRender i) u = .next v ∧ (v.slot i).frameCount = (s.slot i).frameCount + 1 ∧
      (v.slot i).droppedCount = (s.slot i).droppedCount + 1

/-- R260, R261, R262: the pause bit and the slice: DRV_PAUSE sets the bit, DRV_RESUME gives it the manager's value,
DRV_SET_BUFFER sets the slice and the cursor, refuses a slice past the buffer and raises OwnershipViolation while a
frame transmits. -/
def Obligations.PauseAndSliceAreWrittenAlone : Prop :=
  ∀ (s : State) i, s.hasSlot i →
    exec (.drvPause i) s = .next (s.setSlot i { s.slot i with paused := true }) ∧
    exec (.drvResume i) s = .next (s.setSlot i { s.slot i with paused := s.userPaused || s.reloadPaused }) ∧
    (∀ o n, (s.slot i).transmitting = false → o + n ≤ s.board.totalBufferSize →
      exec (.drvSetBuffer i o n) s =
        .next (s.setSlot i
          { s.slot i with
            offset := o, length := n, eng := (s.slot i).eng.map fun e => { e with cursor := 0 } })) ∧
    (∀ o n, (s.slot i).transmitting = false → s.board.totalBufferSize < o + n →
      exec (.drvSetBuffer i o n) s = .next { s with refused := some .illFormedOperand }) ∧
    (∀ o n, (s.slot i).transmitting = true →
      exec (.drvSetBuffer i o n) s = .next (s.addFault (.ownershipViolation i .drvSetBuffer)))

/-! ## The manager -/

/-- R290, R302, R372: MGR_BEGIN from power-on. A failed load applies and persists the default document: every slot is a
Ready Disabled driver with an empty slice. A loaded document binds every slot to the variant it resolves to. Either
way the buffer is partitioned, nothing is raised or refused, every engine is Idle with no frame start, and `begun` is
set. A second call is a no-op; ill-formed parameters are refused, among them protocol constants that R150, R190 or R220
does not admit, whether a slot uses them or not. A drawn list with a key twice is no document of R121; the model's
reading of it is notes/assumptions/32. -/
def Obligations.BeginBindsEverySlot : Prop :=
  (∀ (s r : State) (answer : Option ConfigDoc), s.begun = false → s.renderPos = none →
    s.wellFormedParameters = true → baudRatesOk s.board = true →
    (∀ i, s.hasSlot i → s.slot i = DriverState.powerOn) → s.userPaused = false → s.reloadPaused = false →
    drawPersistLoad s = .ok answer r →
    ∃ t, exec .mgrBegin s = .next t ∧ t.begun = true ∧ t.board = s.board ∧ t.faults = s.faults ∧
      t.refused = s.refused ∧ t.Partitioned ∧ (∀ a, t.byte a = s.byte a) ∧
      (∀ i e, s.hasSlot i → (t.slot i).eng = some e → e.tstate = .idle ∧ e.frameStart = none) ∧
      (∀ i, s.hasSlot i → isEncoder (t.slot i).variant = false → (t.slot i).status = .ready) ∧
      (∀ i, s.hasSlot i → isEncoder (t.slot i).variant = true →
        (t.slot i).status = .ready ∨ (t.slot i).status = .failed) ∧
      (∀ doc, answer = some doc → t.persisted = s.persisted ∧
        ∀ i, s.hasSlot i → (t.slot i).variant = resolvedVariant s i doc) ∧
      (answer = none → t.persisted = some (defaultDoc s.board) ∧ t.totalUsed = 0 ∧ t.diag = s.diag ∧
        ∀ i, s.hasSlot i → t.slot i = { DriverState.powerOn with status := .ready })) ∧
  (∀ s : State, s.begun = true → s.renderPos = none → exec .mgrBegin s = .next s) ∧
  (∀ s : State, s.begun = false → s.renderPos = none →
    (s.wellFormedParameters = false ∨
      (∃ v pc, pulseConstantsOf s.board v = some pc ∧ pulseConstantsOk s.board.durationMax pc = false) ∨
      ∃ v pc, serialConstantsOf s.board v = some pc ∧
        (serialTimingOk pc.G pc.S pc.H0 pc.H1 = false ∨ pc.bitPeriodNs = 0)) →
    exec .mgrBegin s = .next { s with refused := some .illFormedParameter })

/-- R294: MGR_RENDER opens a render pass unless outputs are paused; a pending reload runs first, and one that waits or
a user pause ends the step. The sub-steps visit the slots in index order, and each is DRV_RENDER's three cases. While
a pass is open MGR_RENDER does not exist. -/
def Obligations.RenderPassVisitsSlotsInOrder : Prop :=
  (∀ s : State, s.mainLoopFree → s.pending = none →
    exec .mgrRender s = .next (if s.userPaused then s else { s with renderPos := some 0 })) ∧
  (∀ s t : State, s.mainLoopFree → s.pending ≠ none → exec .mgrReload s = .next t →
    exec .mgrRender s = .next (if t.pending ≠ none ∨ t.userPaused = true then t else { t with renderPos := some 0 })) ∧
  (∀ (s : State) i, s.begun = true → s.renderPos = some i → exec .mgrRender s = .refused (.notEnabled "MGR_RENDER")) ∧
  (∀ s : State, s.renderPos = none → stepRenderSubstep s = .refused (.notEnabled "RENDER_SUBSTEP")) ∧
  (∀ (s : State) i next, s.renderPos = some i →
    next = (if i + 1 < s.board.numSlots then some (i + 1) else none) →
    ((s.slot i).eng = none ∨ (s.slot i).status ≠ .ready ∨ (s.slot i).paused = true →
      stepRenderSubstep s = .next { s with renderPos := next }) ∧
    (∀ e, (s.slot i).eng = some e → (s.slot i).status = .ready → (s.slot i).paused = false →
      e.tstate.transmitting = true ∨ s.frameDue (s.slot i) e = false →
      stepRenderSubstep s =
        .next { s.setSlot i { s.slot i with droppedCount := (s.slot i).droppedCount + 1 } with
          renderPos := next }) ∧
    (∀ e, (s.slot i).eng = some e → (s.slot i).status = .ready → (s.slot i).paused = false →
      e.tstate.transmitting = false → s.frameDue (s.slot i) e = true → s.sliceReadable i →
      (∃ q l, s.pulseEngine i e q l ∧ engineKindOf (s.slot i).variant = some .pulse) ∨
        (∃ q l, s.serialEngine i e q l ∧ l.legal ∧ engineKindOf (s.slot i).variant = some .serial) →
      ∃ t, stepRenderSubstep s = .next t ∧ t.renderPos = next ∧ (∀ j, j ≠ i → t.slot j = s.slot j) ∧
        (∀ a, t.byte a = s.byte a) ∧ (t.slot i).frameCount = (s.slot i).frameCount + 1 ∧
        (t.slot i).draining = true))

/-- R291, R292, R293, R296, R297, R301: MGR_SET_CONFIG stages the document alone; MGR_GET_CONFIG and MGR_GET_STATUS
return their documents; MGR_PAUSE and MGR_RESUME write the user pause and every slot's pause bit;
MGR_NOTIFY_CAPACITY writes the notification. -/
def Obligations.ManagerStagesReportsAndPauses : Prop :=
  (∀ s : State, s.mainLoopFree →
    (∀ doc, doc.wellFormed = true → exec (.mgrSetConfig doc) s = .next { s with pending := some doc }) ∧
    exec .mgrGetConfig s =
      .next { s with
        reply := some (.config
          { version := s.board.configFormatVersion
            channels := (List.range s.board.numSlots).map fun i =>
              (i, { typeCode := some (s.board.protocolCode.at (s.slot i).variant)
                    params := [(s.board.protocolCode.at (s.slot i).variant, drvConfigOf (s.slot i))] }) }) } ∧
    exec .mgrGetStatus s =
      .next { s with reply := some (.statusDoc ((List.range s.board.numSlots).map (drvStatusOf s))) } ∧
    (∃ t, exec .mgrPause s = .next t ∧ t = { s with userPaused := true, slots := t.slots } ∧
      ∀ i, t.slot i = if i < s.board.numSlots then { s.slot i with paused := true } else s.slot i) ∧
    (∃ t, exec .mgrResume s = .next t ∧ t = { s with userPaused := false, slots := t.slots } ∧
      ∀ i, t.slot i = if i < s.board.numSlots then { s.slot i with paused := s.reloadPaused } else s.slot i)) ∧
  (∀ s : State,
    exec .mgrNotifyCapacity s =
      .next { s with
        capacity := some (s.totalUsed, (List.range s.board.numSlots).map fun i => (s.slot i).offset) })

/-- R298, R305: MGR_RELOAD pauses every slot; while some engine transmits it waits; else it applies the pending
document, partitions, and resumes to the user's pause, all in the one step. With nothing pending it does not exist.A
pending list with a key twice is no document of R121; the model's reading of it is notes/assumptions/32. -/
def Obligations.ReloadWaitsThenApplies : Prop :=
  (∀ (s : State), s.pending ≠ none → s.anyTransmitting = true →
    ∃ t, exec .mgrReload s = .next t ∧ t = { s with reloadPaused := true, slots := t.slots } ∧
      ∀ i, t.slot i = if i < s.board.numSlots then { s.slot i with paused := true } else s.slot i) ∧
  (∀ (s : State) doc, s.pending = some doc → s.Configurable →
    ∃ t, exec .mgrReload s = .next t ∧ t.pending = none ∧ t.reloadPaused = false ∧ t.userPaused = s.userPaused ∧
      t.board = s.board ∧ t.begun = s.begun ∧ t.renderPos = s.renderPos ∧ t.faults = s.faults ∧
      t.refused = s.refused ∧ t.now = s.now ∧ t.Partitioned ∧ (∀ a, t.byte a = s.byte a) ∧
      (∀ i, s.hasSlot i →
        (t.slot i).variant = resolvedVariant s i doc ∧ (t.slot i).paused = s.userPaused ∧
        (t.slot i).transmitting = false) ∧
      (∀ i, s.hasSlot i → resolvedVariant s i doc ≠ (s.slot i).variant →
        ∀ e, (t.slot i).eng = some e → e.tstate = .idle ∧ e.frameStart = none) ∧
      ∀ i, ¬s.hasSlot i → t.slot i = s.slot i) ∧
  (∀ s : State, s.pending = none → exec .mgrReload s = .refused (.notEnabled "MGR_RELOAD"))

/-- R299: MGR_RESOLVE_ENTRY's checks in their order: each bad entry logs its detail and answers Disabled; a good one
answers its variant and parameters and writes nothing else. -/
def Obligations.ResolveEntryChecksInOrder : Prop :=
  ∀ (s : State) i doc, s.hasSlot i → doc.wellFormed = true →
    (doc.version ≠ s.board.configFormatVersion →
      exec (.mgrResolveEntry i doc) s = .next (s.badEntry i .versionMismatch)) ∧
    (doc.version = s.board.configFormatVersion → mapGet doc.channels i = none →
      exec (.mgrResolveEntry i doc) s = .next (s.badEntry i .missingEntry)) ∧
    (∀ en, doc.version = s.board.configFormatVersion → mapGet doc.channels i = some en →
      (en.typeCode = none ∨ ∃ k, en.typeCode = some k ∧ mapGet en.params k = none) →
      exec (.mgrResolveEntry i doc) s = .next (s.badEntry i .malformedEntry)) ∧
    (∀ en k p, doc.version = s.board.configFormatVersion → mapGet doc.channels i = some en →
      en.typeCode = some k → mapGet en.params k = some p → (∀ v, s.board.protocolCode.at v ≠ k) →
      exec (.mgrResolveEntry i doc) s = .next (s.badEntry i .unknownType)) ∧
    (∀ en k p v, doc.version = s.board.configFormatVersion → mapGet doc.channels i = some en →
      en.typeCode = some k → mapGet en.params k = some p → s.board.protocolCode.at v = k →
      allDistinct (allVariants.map s.board.protocolCode.at) = true →
      (legalAt s.board i v = false →
        exec (.mgrResolveEntry i doc) s = .next (s.badEntry i .illegalForSlot)) ∧
      (legalAt s.board i v = true → isEncoder v = false →
        exec (.mgrResolveEntry i doc) s = .next { s with reply := some (.binding v p) }) ∧
      (∀ c, legalAt s.board i v = true → isEncoder v = true →
        (if v = (s.slot i).variant then (s.slot i).cfg else .encoder (s.board.defaultCfg.at v)) = .encoder c →
        (∀ c', mergeCfg c p = some c' → legalEncoderCfg c' = true →
          exec (.mgrResolveEntry i doc) s = .next { s with reply := some (.binding v p) }) ∧
        (mergeCfg c p = none ∨ (∃ c', mergeCfg c p = some c' ∧ legalEncoderCfg c' = false) →
          exec (.mgrResolveEntry i doc) s = .next (s.badEntry i .badParams))))

/-- R295, R304: MGR_APPLY_CONFIG binds every slot to the variant its entry resolves to, raises and refuses nothing, and
moves no slice of a driver it keeps: an unchanged type keeps its status, counters and frame start, a changed one is a
fresh driver, Ready or Failed. Where the type code is no variant's the status reports Disabled. While an engine
transmits it does not exist. -/
def Obligations.ApplyConfigBindsTheResolvedVariants : Prop :=
  (∀ (s : State) doc, doc.wellFormed = true → s.Configurable →
    ∃ t, exec (.mgrApplyConfig doc) s = .next t ∧
      t = { s with
        slots := t.slots, pulseUnits := t.pulseUnits, serialUnits := t.serialUnits, diag := t.diag,
        initAnswers := t.initAnswers, drawCount := t.drawCount } ∧
      (∀ a, t.byte a = s.byte a) ∧
      (∀ i, s.hasSlot i → (t.slot i).variant = resolvedVariant s i doc) ∧
      (∀ i, s.hasSlot i → resolvedVariant s i doc = (s.slot i).variant →
        (t.slot i).status = (s.slot i).status ∧ (t.slot i).frameCount = (s.slot i).frameCount ∧
        (t.slot i).droppedCount = (s.slot i).droppedCount ∧ (t.slot i).hwErrorCount = (s.slot i).hwErrorCount ∧
        (t.slot i).offset = (s.slot i).offset ∧ (t.slot i).length = (s.slot i).length ∧
        (t.slot i).paused = (s.slot i).paused ∧
        (t.slot i).eng.map Engine.frameStart = (s.slot i).eng.map Engine.frameStart) ∧
      (∀ i, s.hasSlot i → resolvedVariant s i doc ≠ (s.slot i).variant →
        ((t.slot i).status = .ready ∨ (t.slot i).status = .failed ∧ isEncoder (t.slot i).variant = true) ∧
        (t.slot i).frameCount = 0 ∧ (t.slot i).droppedCount = 0 ∧ (t.slot i).offset = 0 ∧ (t.slot i).length = 0 ∧
        (t.slot i).paused = s.pauseHeld ∧
        ∀ e, (t.slot i).eng = some e → e.tstate = .idle ∧ e.frameStart = none) ∧
      (∀ i, ¬s.hasSlot i → t.slot i = s.slot i) ∧
      (∀ i en k, s.hasSlot i → doc.version = s.board.configFormatVersion → mapGet doc.channels i = some en →
        en.typeCode = some k → (∀ v, s.board.protocolCode.at v ≠ k) → (drvStatusOf t i).typeCode =
          s.board.protocolCode.at .disabled)) ∧
  (∀ (s : State) doc, doc.wellFormed = true → s.anyTransmitting = true →
    exec (.mgrApplyConfig doc) s = .refused (.notEnabled "MGR_APPLY_CONFIG"))

/-- R300, R303: MGR_UPDATE_PARTITION grants each slot, in order, the least of its need and what is left, at the end of
the slots before it; no two slices overlap; the total is the least of all needs and the buffer; each shortfall is
logged, in slot order. It writes the slices, the cursors, the log, the total and the notification, and does not exist
while an engine transmits. -/
def Obligations.PartitionGrantsInSlotOrder : Prop :=
  (∀ s : State, s.anyTransmitting = false →
    ∃ t, exec .mgrUpdatePartition s = .next t ∧ t.Partitioned ∧
      t = { s with slots := t.slots, totalUsed := t.totalUsed, diag := t.diag, capacity := t.capacity } ∧
      (∀ i, t.slot i = if i < s.board.numSlots then s.granted i (t.grantedBelow i) else s.slot i) ∧
      t.diag = s.diag ++ (List.range s.board.numSlots).flatMap (fun i => shortfall s i (t.slot i).length) ∧
      (∀ i j, s.hasSlot i → s.hasSlot j → i < j → (t.slot i).offset + (t.slot i).length ≤ (t.slot j).offset) ∧
      t.totalUsed = min s.neededTotal s.board.totalBufferSize) ∧
  (∀ s : State, s.anyTransmitting = true →
    exec .mgrUpdatePartition s = .refused (.notEnabled "MGR_UPDATE_PARTITION"))

/-! ## The host -/

/-- R94, R332: HOST_BUF_WRITE stores one byte; outside the buffer it raises BufferOutOfBounds, and in the slice of a
transmitting engine BufferWriteDuringFrame, naming the lowest such slot; a raised step stores nothing. -/
def Obligations.HostWriteStoresOneByte : Prop :=
  ∀ (s : State) (a : Nat) (v : Byte),
    (s.board.totalBufferSize ≤ a → exec (.hostBufWrite a v) s = .next (s.addFault (.bufferOutOfBounds a))) ∧
    (∀ i, a < s.board.totalBufferSize → s.hasSlot i → (s.slot i).transmitting = true →
      (s.slot i).offset ≤ a → a < (s.slot i).offset + (s.slot i).length →
      (∀ j, j < i → (s.slot j).transmitting = false ∨ a < (s.slot j).offset ∨
        (s.slot j).offset + (s.slot j).length ≤ a) →
      exec (.hostBufWrite a v) s = .next (s.addFault (.bufferWriteDuringFrame i a))) ∧
    (a < s.board.totalBufferSize →
      (∀ j, s.hasSlot j → (s.slot j).transmitting = false ∨ a < (s.slot j).offset ∨
        (s.slot j).offset + (s.slot j).length ≤ a) →
      ∃ t, exec (.hostBufWrite a v) s = .next t ∧ t = { s with buf := t.buf } ∧
        ∀ b, t.byte b = if b = a then v else s.byte b)

/-! ## What every step keeps -/

/-- Every step keeps the four tables in canonical form, so equal states are equal data. -/
def Obligations.StepKeepsTheTablesCanonical : Prop :=
  ∀ s t : State, s.canonical → step s = .next t → t.canonical

/-- R47, R48, R49, R32, R84, R330: every step keeps the queues within their capacities, the time base below its modulus,
the slices and the granted total in the buffer, and the fault set without repeats. -/
def Obligations.StepKeepsTheBounds : Prop :=
  ∀ s t : State, s.Bounded → step s = .next t → t.Bounded

/-- R251, R191, R221, R37, R117, R294: every step keeps each driver's engine the one its variant and slot need, its
configuration legal, and its latched table total. -/
def Obligations.StepKeepsTheEngineBinding : Prop :=
  ∀ s t : State, s.Bound → step s = .next t → t.Bound

/-- R37, R117, R150, R194, R226: no step of a bound state ends in one of the model's own faults: every table the spec
calls total has its entry, and every NEXT_ITEM returns within its passes. -/
def Obligations.NoStepEndsInAModelFault : Prop :=
  ∀ (s : State) (f : Fault), s.Bound → step s ≠ .fault f

/-- R34, R307: every instruction but the sub-step DRV_PAUSE, and every render sub-step, keeps each slot's pause bit equal
to the manager's. -/
def Obligations.PauseBitFollowsTheManager : Prop :=
  ∀ s t : State, s.pauseLaw →
    (∀ i, (∀ k, i ≠ .drvPause k) → exec i s = .next t → t.pauseLaw) ∧
    (stepRenderSubstep s = .next t → t.pauseLaw)

/-- R199, R231: with distinct units per slot (R31), every agent's step that leaves no fault keeps the quiescence
invariant: an Idle or FrameComplete engine has its interrupts disabled and its unit at rest, a Draining one has both
enabled, and Filling is never seen between steps. -/
def Obligations.AgentStepsKeepQuiescence : Prop :=
  ∀ s t : State, slotTableOk s.board = true → s.Bound → s.Quiescent → agentStep s t → t.faults = [] → t.Quiescent

/-- R201, R233: with a timely ISR and low thresholds of at least 1, no agent's step raises an Underrun, and the staged
queues stay fed. -/
def Obligations.TimelyIsrNeverUnderruns : Prop :=
  ∀ s t : State, s.board.assumeTimelyIsr = true → 1 ≤ s.board.ringLowThreshold →
    s.board.ringLowThreshold < s.board.ringCapacity → 1 ≤ s.board.fifoLowThreshold →
    s.board.fifoLowThreshold < s.board.fifoCapacity → slotTableOk s.board = true →
    s.Bound → s.Quiescent → s.Fed → agentStep s t →
    (∀ i, .underrun i ∈ t.faults → .underrun i ∈ s.faults) ∧ (t.faults = [] → t.Fed)

/-- R337, R57: a step that changes the refusal mark changes nothing else but the schedule it was taken from, and the
mark never goes away. -/
def Obligations.RefusalChangesOnlyTheMark : Prop :=
  ∀ s t : State, step s = .next t →
    (t.refused ≠ s.refused → t = { s with schedule := t.schedule, refused := t.refused }) ∧
    (s.refused ≠ none → t.refused ≠ none)

/-- R30, R50, R53, R330, R332, R333: a step adds at most one fault to the sticky set and removes none; no step writes
the board, clears `begun`, shortens the diagnostic log, or rewrites what a trace already holds. -/
def Obligations.RecordsOnlyGrow : Prop :=
  ∀ s t : State, step s = .next t →
    (t.faults = s.faults ∨ ∃ f, f ∉ s.faults ∧ t.faults = s.faults ++ [f]) ∧
    t.board = s.board ∧ (s.begun = true → t.begun = true) ∧ s.diag <+: t.diag ∧
      (∀ u, (s.pu u).trace <+: (t.pu u).trace) ∧ (∀ u, (s.su u).trace <+: (t.su u).trace)

/-- R49, R80, R94, R172, R175: only HOST_BUF_WRITE writes the buffer, only TIMER_TICK the time base, only PU_EMIT and
SU_SHIFT the traces. -/
def Obligations.OnlyTheirOwnersWrite : Prop :=
  (∀ (i : Instr) (s t : State), exec i s = .next t →
    ((∀ a v, i ≠ .hostBufWrite a v) → t.buf = s.buf) ∧
    ((∀ n, i ≠ .timerTick n) → t.now = s.now) ∧
    ((∀ k, i ≠ .puEmit k) → ∀ u, (t.pu u).trace = (s.pu u).trace) ∧
    ((∀ k, i ≠ .suShift k) → ∀ u, (t.su u).trace = (s.su u).trace)) ∧
  (∀ s t : State, stepRenderSubstep s = .next t →
    t.buf = s.buf ∧ t.now = s.now ∧ (∀ u, (t.pu u).trace = (s.pu u).trace) ∧
      ∀ u, (t.su u).trace = (s.su u).trace)

/-- R380, R381, R382, R389: while an engine of one of the block's slots is Draining, no step of any agent changes its
latched table, its unit or its frame start, its driver's variant, status, configuration and slice, or a byte of that
slice. -/
def Obligations.DrainingFramesAreProtected : Prop :=
  ∀ (s t : State) i e, s.hasSlot i → (s.slot i).eng = some e → e.tstate = .draining → step s = .next t →
    ∃ e', (t.slot i).eng = some e' ∧ e'.sameLatch e ∧ e'.unit = e.unit ∧ e'.frameStart = e.frameStart ∧
      (t.slot i).variant = (s.slot i).variant ∧ (t.slot i).status = (s.slot i).status ∧
      (t.slot i).cfg = (s.slot i).cfg ∧ (t.slot i).offset = (s.slot i).offset ∧
      (t.slot i).length = (s.slot i).length ∧
      ∀ a, (s.slot i).offset ≤ a → a < (s.slot i).offset + (s.slot i).length → t.byte a = s.byte a

/-- R269: a Failed driver leaves that state only when DRV_CONSTRUCT builds a new one, which among the main loop's
operations only MGR_BEGIN and a reload do. -/
def Obligations.FailureIsPermanent : Prop :=
  ∀ (i : Instr) (s t : State) k, (s.slot k).status = .failed → exec i s = .next t →
    (∀ v, i ≠ .drvConstruct k v) → i ≠ .mgrBegin → i ≠ .mgrReload → (∀ doc, i ≠ .mgrApplyConfig doc) →
    (i = .mgrRender → s.pending = none) → (t.slot k).status = .failed ∧ (t.slot k).variant = (s.slot k).variant

end statements
end

