-- ==== Sys2Proof/Laws/Tables.lean ====
section
/-! SUPPORT. The laws of the tables by key (Machine/Ops.lean): a read after a write, the canonical form that every
write keeps, and that two canonical tables with equal reads are equal data. -/

namespace Sys2Proof.Machine

variable {α : Type}

@[simp] theorem tableGet_nil (d : α) (k : Nat) : tableGet d [] k = d := rfl

theorem tableGet_erase_same (d : α) (m : List (Nat × α)) (k : Nat) : tableGet d (tableErase m k) k = d := by
  induction m with
  | nil => rfl
  | cons p rest ih =>
    obtain ⟨j, v⟩ := p
    by_cases h : k = j
    · simp [tableErase, h]; rw [← h]; exact ih
    · simp [tableErase, tableGet, h, ih]

theorem tableGet_erase_other (d : α) (m : List (Nat × α)) {k j : Nat} (hne : j ≠ k) :
    tableGet d (tableErase m k) j = tableGet d m j := by
  induction m with
  | nil => rfl
  | cons p rest ih =>
    obtain ⟨l, v⟩ := p
    by_cases h : k = l
    · have : j ≠ l := by omega
      simp only [tableErase, tableGet, if_pos h, if_neg this, ih]
    · simp [tableErase, tableGet, h, ih]

theorem tableGet_insert_same (d : α) (m : List (Nat × α)) (k : Nat) (v : α) :
    tableGet d (tableInsert m k v) k = v := by
  induction m with
  | nil => simp [tableInsert, tableGet]
  | cons p rest ih =>
    obtain ⟨j, w⟩ := p
    simp only [tableInsert]
    split
    · simp [tableGet]
    · split
      · simp [tableGet]
      · rename_i h1 h2
        simp [tableGet, h2, ih]

theorem tableGet_insert_other (d : α) (m : List (Nat × α)) {k j : Nat} (v : α) (hne : j ≠ k) :
    tableGet d (tableInsert m k v) j = tableGet d m j := by
  induction m with
  | nil => simp [tableInsert, tableGet, hne]
  | cons p rest ih =>
    obtain ⟨l, w⟩ := p
    simp only [tableInsert]
    split
    · simp [tableGet, hne]
    · split
      · rename_i h1 h2
        have : j ≠ l := by omega
        simp [tableGet, hne, this]
      · simp [tableGet, ih]

/-- A read of the key just written gives the value written. -/
theorem tableGet_put_same [DecidableEq α] (d : α) (m : List (Nat × α)) (k : Nat) (v : α) :
    tableGet d (tablePut d m k v) k = v := by
  unfold tablePut
  split
  · rename_i h; rw [h]; exact tableGet_erase_same d m k
  · exact tableGet_insert_same d m k v

/-- A write leaves every other key alone. -/
theorem tableGet_put_other [DecidableEq α] (d : α) (m : List (Nat × α)) {k j : Nat} (v : α) (hne : j ≠ k) :
    tableGet d (tablePut d m k v) j = tableGet d m j := by
  unfold tablePut
  split
  · exact tableGet_erase_other d m hne
  · exact tableGet_insert_other d m v hne

/-- A read after a write, at any key. -/
theorem tableGet_put [DecidableEq α] (d : α) (m : List (Nat × α)) (k j : Nat) (v : α) :
    tableGet d (tablePut d m k v) j = if j = k then v else tableGet d m j := by
  split
  · rename_i h; rw [h]; exact tableGet_put_same d m k v
  · rename_i h; exact tableGet_put_other d m v h

theorem tableErase_insert (m : List (Nat × α)) (k : Nat) (v : α) :
    tableErase (tableInsert m k v) k = tableErase m k := by
  induction m with
  | nil => simp [tableInsert, tableErase]
  | cons p rest ih =>
    obtain ⟨j, w⟩ := p
    simp only [tableInsert]
    split
    · simp [tableErase]
    · split
      · rename_i h; simp [tableErase, h]
      · rename_i h1 h2; simp [tableErase, h2, ih]

theorem tableErase_erase (m : List (Nat × α)) (k : Nat) : tableErase (tableErase m k) k = tableErase m k := by
  induction m with
  | nil => rfl
  | cons p rest ih =>
    obtain ⟨j, w⟩ := p
    by_cases h : k = j
    · simp only [tableErase, if_pos h, ih]
    · simp only [tableErase, if_neg h, ih]

theorem tableInsert_insert (m : List (Nat × α)) (k : Nat) (v w : α) :
    tableInsert (tableInsert m k v) k w = tableInsert m k w := by
  induction m with
  | nil => simp [tableInsert]
  | cons p rest ih =>
    obtain ⟨j, x⟩ := p
    by_cases h1 : k < j
    · simp [tableInsert, h1]
    · by_cases h2 : k = j
      · simp [tableInsert, h2]
      · simp [tableInsert, h1, h2, ih]

/-- The last of two writes to a key stands, unless the first alone was the default in a table out of form. -/
theorem tablePut_put [DecidableEq α] (d : α) (m : List (Nat × α)) (k : Nat) (v w : α) (h : v ≠ d ∨ w = d) :
    tablePut d (tablePut d m k v) k w = tablePut d m k w := by
  unfold tablePut
  by_cases hw : w = d
  · by_cases hv : v = d
    · simp [hv, hw, tableErase_erase]
    · simp [hv, hw, tableErase_insert]
  · have hv : v ≠ d := h.resolve_right hw
    simp [hv, hw, tableInsert_insert]

theorem keysAbove_iff (k : Nat) (m : List (Nat × α)) : keysAbove k m = true ↔ ∀ p ∈ m, k < p.1 := by
  induction m with
  | nil => simp [keysAbove]
  | cons p rest ih => obtain ⟨j, v⟩ := p; simp [keysAbove, ih]

theorem keysAbove_erase {k : Nat} {m : List (Nat × α)} (j : Nat) (h : keysAbove k m = true) :
    keysAbove k (tableErase m j) = true := by
  induction m with
  | nil => rfl
  | cons p rest ih =>
    obtain ⟨l, v⟩ := p
    simp only [keysAbove, Bool.and_eq_true] at h
    simp only [tableErase]
    split
    · exact ih h.2
    · simp [keysAbove, h.1, ih h.2]

theorem keysAbove_insert {k j : Nat} {m : List (Nat × α)} (v : α) (hk : k < j) (h : keysAbove k m = true) :
    keysAbove k (tableInsert m j v) = true := by
  induction m with
  | nil => simp [tableInsert, keysAbove, hk]
  | cons p rest ih =>
    obtain ⟨l, w⟩ := p
    have h' := h
    simp only [keysAbove, Bool.and_eq_true] at h'
    simp only [tableInsert]
    split
    · simp [keysAbove, hk, h'.1, h'.2]
    · split
      · simp [keysAbove, hk, h'.2]
      · simp only [keysAbove, Bool.and_eq_true]; exact ⟨h'.1, ih h'.2⟩

theorem tableWf_erase [DecidableEq α] (d : α) {m : List (Nat × α)} (j : Nat) (h : tableWf d m = true) :
    tableWf d (tableErase m j) = true := by
  induction m with
  | nil => rfl
  | cons p rest ih =>
    obtain ⟨l, v⟩ := p
    simp only [tableWf, Bool.and_eq_true] at h
    simp only [tableErase]
    split
    · exact ih h.2
    · simp only [tableWf, Bool.and_eq_true]; exact ⟨⟨keysAbove_erase j h.1.1, h.1.2⟩, ih h.2⟩

theorem keysAbove_trans {k j : Nat} {m : List (Nat × α)} (hkj : k < j) (h : keysAbove j m = true) :
    keysAbove k m = true := by
  rw [keysAbove_iff] at *
  intro p hp
  have := h p hp
  omega

theorem tableWf_insert [DecidableEq α] (d : α) {m : List (Nat × α)} (j : Nat) {v : α} (hv : v ≠ d)
    (h : tableWf d m = true) : tableWf d (tableInsert m j v) = true := by
  induction m with
  | nil => simp [tableInsert, tableWf, keysAbove, hv]
  | cons p rest ih =>
    obtain ⟨l, w⟩ := p
    have h' := h
    simp only [tableWf, Bool.and_eq_true] at h'
    simp only [tableInsert]
    split
    · rename_i hlt
      simp [tableWf, keysAbove, hlt, hv, h'.2, h'.1.1, keysAbove_trans hlt h'.1.1]
      simpa using h'.1.2
    · split
      · rename_i heq
        simp [tableWf, hv, h'.2, heq, h'.1.1]
      · rename_i h1 h2
        simp only [tableWf, Bool.and_eq_true]
        exact ⟨⟨keysAbove_insert v (by omega) h'.1.1, h'.1.2⟩, ih h'.2⟩

/-- A write keeps the canonical form. -/
theorem tableWf_put [DecidableEq α] (d : α) {m : List (Nat × α)} (j : Nat) (v : α) (h : tableWf d m = true) :
    tableWf d (tablePut d m j v) = true := by
  unfold tablePut
  split
  · exact tableWf_erase d j h
  · rename_i hv; exact tableWf_insert d j hv h

theorem tableGet_below (d : α) {m : List (Nat × α)} {k j : Nat} (h : keysAbove k m = true) (hj : j ≤ k) :
    tableGet d m j = d := by
  induction m with
  | nil => rfl
  | cons p rest ih =>
    obtain ⟨l, v⟩ := p
    simp only [keysAbove, Bool.and_eq_true, decide_eq_true_eq] at h
    have : j ≠ l := by omega
    simp [tableGet, this, ih h.2]

/-- Two canonical tables with equal reads are equal data. -/
theorem tableWf_ext [DecidableEq α] (d : α) {m m' : List (Nat × α)} (h : tableWf d m = true)
    (h' : tableWf d m' = true) (heq : ∀ k, tableGet d m k = tableGet d m' k) : m = m' := by
  induction m generalizing m' with
  | nil =>
    cases m' with
    | nil => rfl
    | cons p rest =>
      obtain ⟨j, v⟩ := p
      have := heq j
      simp [tableWf, tableGet] at h' this
      exact absurd this.symm h'.1.2
  | cons p rest ih =>
    obtain ⟨j, v⟩ := p
    have hj := heq j
    simp only [tableWf, Bool.and_eq_true, Bool.not_eq_true', decide_eq_false_iff_not] at h
    cases m' with
    | nil => simp [tableGet] at hj; exact absurd hj h.1.2
    | cons p' rest' =>
      obtain ⟨j', v'⟩ := p'
      have hj' := heq j'
      simp only [tableWf, Bool.and_eq_true, Bool.not_eq_true', decide_eq_false_iff_not] at h'
      rcases Nat.lt_trichotomy j j' with hlt | he | hgt
      · have hne : j ≠ j' := by omega
        simp [tableGet, hne, tableGet_below d h'.1.1 (Nat.le_of_lt hlt)] at hj
        exact absurd hj h.1.2
      · subst he
        simp [tableGet] at hj
        subst hj
        congr 1
        refine ih h.2 h'.2 fun k => ?_
        by_cases hk : k = j
        · subst hk
          rw [tableGet_below d h.1.1 (Nat.le_refl _), tableGet_below d h'.1.1 (Nat.le_refl _)]
        · have := heq k
          simpa [tableGet, hk] using this
      · have hne : j' ≠ j := by omega
        simp [tableGet, hne, tableGet_below d h.1.1 (Nat.le_of_lt hgt)] at hj'
        exact absurd hj'.symm h'.1.2

/-! ## The buffer memory -/

/-- A store keeps the buffer's canonical form. -/
theorem Memory.wf_setByte (s : State) (a : Nat) (v : Byte) (h : Memory.wf s.buf = true) :
    Memory.wf (s.setByte a v).buf = true := tableWf_put _ a v h

/-- The buffer at `State.reset` is canonical. -/
theorem Memory.wf_reset : Memory.wf State.reset.buf = true := rfl

end Sys2Proof.Machine
end

