-- ==== Sys2Proof/Laws/State.lean ====
section
/-! SUPPORT. One lemma per field per update of the state, and what each table read gives after each update, so that
no later proof unfolds a record update. -/

namespace Sys2Proof.Machine

/-! ## Reads of a state written out field by field

A record update of a state is such a state, so these lemmas see through every one of them. -/

section written

variable (x0 : Board)
  (x1 : Bool)
  (x2 : List (Nat × DriverState))
  (x3 : Option ConfigDoc)
  (x4 : Bool)
  (x5 : Bool)
  (x6 : Nat)
  (x7 : List Host.Cell)
  (x8 : List Diagnostic)
  (x9 : List FaultRecord)
  (x10 : Option RefusalReason)
  (x11 : Option (Nat × List Nat))
  (x12 : Option Nat)
  (x13 : Option ConfigDoc)
  (x14 : List (Nat × PulseUnit))
  (x15 : List (Nat × SerialUnit))
  (x16 : Nat)
  (x17 : List Move)
  (x18 : Option Reply)
  (x19 : List Bool)
  (x20 : List (Option ConfigDoc))
  (x21 : Nat)

@[simp] theorem slot_mk (i : Nat) :
    State.slot (State.mk x0 x1 x2 x3 x4 x5 x6 x7 x8 x9 x10 x11 x12 x13 x14 x15 x16 x17 x18 x19 x20 x21) i = tableGet DriverState.powerOn x2 i := rfl

@[simp] theorem pu_mk (u : Nat) :
    State.pu (State.mk x0 x1 x2 x3 x4 x5 x6 x7 x8 x9 x10 x11 x12 x13 x14 x15 x16 x17 x18 x19 x20 x21) u = tableGet (PulseUnit.powerOn false) x14 u := rfl

@[simp] theorem su_mk (u : Nat) :
    State.su (State.mk x0 x1 x2 x3 x4 x5 x6 x7 x8 x9 x10 x11 x12 x13 x14 x15 x16 x17 x18 x19 x20 x21) u = tableGet (SerialUnit.powerOn false) x15 u := rfl

@[simp] theorem byte_mk (a : Nat) :
    State.byte (State.mk x0 x1 x2 x3 x4 x5 x6 x7 x8 x9 x10 x11 x12 x13 x14 x15 x16 x17 x18 x19 x20 x21) a = tableGet unwrittenByte x7 a := rfl

@[simp] theorem slotIndices_mk :
    State.slotIndices (State.mk x0 x1 x2 x3 x4 x5 x6 x7 x8 x9 x10 x11 x12 x13 x14 x15 x16 x17 x18 x19 x20 x21) = List.range x0.numSlots := rfl

@[simp] theorem pauseHeld_mk :
    State.pauseHeld (State.mk x0 x1 x2 x3 x4 x5 x6 x7 x8 x9 x10 x11 x12 x13 x14 x15 x16 x17 x18 x19 x20 x21) = (x4 || x5) := rfl

@[simp] theorem timeModulus_mk :
    State.timeModulus (State.mk x0 x1 x2 x3 x4 x5 x6 x7 x8 x9 x10 x11 x12 x13 x14 x15 x16 x17 x18 x19 x20 x21) = 2 ^ x0.timeBits := rfl

end written

/-- Fold a table read back into the state's own read. -/
@[simp] theorem tableGet_slots (s : State) (i : Nat) : tableGet DriverState.powerOn s.slots i = s.slot i := rfl

@[simp] theorem tableGet_pulseUnits (s : State) (u : Nat) :
    tableGet (PulseUnit.powerOn false) s.pulseUnits u = s.pu u := rfl

@[simp] theorem tableGet_serialUnits (s : State) (u : Nat) :
    tableGet (SerialUnit.powerOn false) s.serialUnits u = s.su u := rfl

@[simp] theorem tableGet_buf (s : State) (a : Nat) : tableGet unwrittenByte s.buf a = s.byte a := rfl

/-! ## setSlot -/

@[simp] theorem setSlot_board (s : State) (i : Nat) (d : DriverState) : (s.setSlot i d).board = s.board := rfl

@[simp] theorem setSlot_begun (s : State) (i : Nat) (d : DriverState) : (s.setSlot i d).begun = s.begun := rfl

@[simp] theorem setSlot_pending (s : State) (i : Nat) (d : DriverState) : (s.setSlot i d).pending = s.pending := rfl

@[simp] theorem setSlot_userPaused (s : State) (i : Nat) (d : DriverState) : (s.setSlot i d).userPaused = s.userPaused := rfl

@[simp] theorem setSlot_reloadPaused (s : State) (i : Nat) (d : DriverState) : (s.setSlot i d).reloadPaused = s.reloadPaused := rfl

@[simp] theorem setSlot_totalUsed (s : State) (i : Nat) (d : DriverState) : (s.setSlot i d).totalUsed = s.totalUsed := rfl

@[simp] theorem setSlot_buf (s : State) (i : Nat) (d : DriverState) : (s.setSlot i d).buf = s.buf := rfl

@[simp] theorem setSlot_diag (s : State) (i : Nat) (d : DriverState) : (s.setSlot i d).diag = s.diag := rfl

@[simp] theorem setSlot_faults (s : State) (i : Nat) (d : DriverState) : (s.setSlot i d).faults = s.faults := rfl

@[simp] theorem setSlot_refused (s : State) (i : Nat) (d : DriverState) : (s.setSlot i d).refused = s.refused := rfl

@[simp] theorem setSlot_capacity (s : State) (i : Nat) (d : DriverState) : (s.setSlot i d).capacity = s.capacity := rfl

@[simp] theorem setSlot_renderPos (s : State) (i : Nat) (d : DriverState) : (s.setSlot i d).renderPos = s.renderPos := rfl

@[simp] theorem setSlot_persisted (s : State) (i : Nat) (d : DriverState) : (s.setSlot i d).persisted = s.persisted := rfl

@[simp] theorem setSlot_pulseUnits (s : State) (i : Nat) (d : DriverState) : (s.setSlot i d).pulseUnits = s.pulseUnits := rfl

@[simp] theorem setSlot_serialUnits (s : State) (i : Nat) (d : DriverState) : (s.setSlot i d).serialUnits = s.serialUnits := rfl

@[simp] theorem setSlot_now (s : State) (i : Nat) (d : DriverState) : (s.setSlot i d).now = s.now := rfl

@[simp] theorem setSlot_schedule (s : State) (i : Nat) (d : DriverState) : (s.setSlot i d).schedule = s.schedule := rfl

@[simp] theorem setSlot_reply (s : State) (i : Nat) (d : DriverState) : (s.setSlot i d).reply = s.reply := rfl

@[simp] theorem setSlot_initAnswers (s : State) (i : Nat) (d : DriverState) : (s.setSlot i d).initAnswers = s.initAnswers := rfl

@[simp] theorem setSlot_loadAnswers (s : State) (i : Nat) (d : DriverState) : (s.setSlot i d).loadAnswers = s.loadAnswers := rfl

@[simp] theorem setSlot_drawCount (s : State) (i : Nat) (d : DriverState) : (s.setSlot i d).drawCount = s.drawCount := rfl

theorem setSlot_slot (s : State) (i : Nat) (d : DriverState) (j : Nat) :
    (s.setSlot i d).slot j = if j = i then d else s.slot j := tableGet_put _ _ _ _ _

@[simp] theorem setSlot_slot_same (s : State) (i : Nat) (d : DriverState) : (s.setSlot i d).slot i = d := tableGet_put_same _ _ _ _

@[simp] theorem setSlot_slot_other (s : State) (i : Nat) (d : DriverState) {j : Nat} (h : j ≠ i) :
    (s.setSlot i d).slot j = s.slot j := tableGet_put_other _ _ _ h

@[simp] theorem setSlot_pu (s : State) (i : Nat) (d : DriverState) (w : Nat) : (s.setSlot i d).pu w = s.pu w := rfl

@[simp] theorem setSlot_su (s : State) (i : Nat) (d : DriverState) (w : Nat) : (s.setSlot i d).su w = s.su w := rfl

@[simp] theorem setSlot_byte (s : State) (i : Nat) (d : DriverState) (b : Nat) : (s.setSlot i d).byte b = s.byte b := rfl

@[simp] theorem setSlot_slotIndices (s : State) (i : Nat) (d : DriverState) : (s.setSlot i d).slotIndices = s.slotIndices := rfl

@[simp] theorem setSlot_pauseHeld (s : State) (i : Nat) (d : DriverState) : (s.setSlot i d).pauseHeld = s.pauseHeld := rfl

@[simp] theorem setSlot_timeModulus (s : State) (i : Nat) (d : DriverState) : (s.setSlot i d).timeModulus = s.timeModulus := rfl

@[simp] theorem setSlot_periph (s : State) (i : Nat) (d : DriverState) (j : Nat) : (s.setSlot i d).periph j = s.periph j := rfl

/-! ## setPu -/

@[simp] theorem setPu_board (s : State) (u : Nat) (p : PulseUnit) : (s.setPu u p).board = s.board := rfl

@[simp] theorem setPu_begun (s : State) (u : Nat) (p : PulseUnit) : (s.setPu u p).begun = s.begun := rfl

@[simp] theorem setPu_slots (s : State) (u : Nat) (p : PulseUnit) : (s.setPu u p).slots = s.slots := rfl

@[simp] theorem setPu_pending (s : State) (u : Nat) (p : PulseUnit) : (s.setPu u p).pending = s.pending := rfl

@[simp] theorem setPu_userPaused (s : State) (u : Nat) (p : PulseUnit) : (s.setPu u p).userPaused = s.userPaused := rfl

@[simp] theorem setPu_reloadPaused (s : State) (u : Nat) (p : PulseUnit) : (s.setPu u p).reloadPaused = s.reloadPaused := rfl

@[simp] theorem setPu_totalUsed (s : State) (u : Nat) (p : PulseUnit) : (s.setPu u p).totalUsed = s.totalUsed := rfl

@[simp] theorem setPu_buf (s : State) (u : Nat) (p : PulseUnit) : (s.setPu u p).buf = s.buf := rfl

@[simp] theorem setPu_diag (s : State) (u : Nat) (p : PulseUnit) : (s.setPu u p).diag = s.diag := rfl

@[simp] theorem setPu_faults (s : State) (u : Nat) (p : PulseUnit) : (s.setPu u p).faults = s.faults := rfl

@[simp] theorem setPu_refused (s : State) (u : Nat) (p : PulseUnit) : (s.setPu u p).refused = s.refused := rfl

@[simp] theorem setPu_capacity (s : State) (u : Nat) (p : PulseUnit) : (s.setPu u p).capacity = s.capacity := rfl

@[simp] theorem setPu_renderPos (s : State) (u : Nat) (p : PulseUnit) : (s.setPu u p).renderPos = s.renderPos := rfl

@[simp] theorem setPu_persisted (s : State) (u : Nat) (p : PulseUnit) : (s.setPu u p).persisted = s.persisted := rfl

@[simp] theorem setPu_serialUnits (s : State) (u : Nat) (p : PulseUnit) : (s.setPu u p).serialUnits = s.serialUnits := rfl

@[simp] theorem setPu_now (s : State) (u : Nat) (p : PulseUnit) : (s.setPu u p).now = s.now := rfl

@[simp] theorem setPu_schedule (s : State) (u : Nat) (p : PulseUnit) : (s.setPu u p).schedule = s.schedule := rfl

@[simp] theorem setPu_reply (s : State) (u : Nat) (p : PulseUnit) : (s.setPu u p).reply = s.reply := rfl

@[simp] theorem setPu_initAnswers (s : State) (u : Nat) (p : PulseUnit) : (s.setPu u p).initAnswers = s.initAnswers := rfl

@[simp] theorem setPu_loadAnswers (s : State) (u : Nat) (p : PulseUnit) : (s.setPu u p).loadAnswers = s.loadAnswers := rfl

@[simp] theorem setPu_drawCount (s : State) (u : Nat) (p : PulseUnit) : (s.setPu u p).drawCount = s.drawCount := rfl

@[simp] theorem setPu_slot (s : State) (u : Nat) (p : PulseUnit) (j : Nat) : (s.setPu u p).slot j = s.slot j := rfl

theorem setPu_pu (s : State) (u : Nat) (p : PulseUnit) (w : Nat) :
    (s.setPu u p).pu w = if w = u then p else s.pu w := tableGet_put _ _ _ _ _

@[simp] theorem setPu_pu_same (s : State) (u : Nat) (p : PulseUnit) : (s.setPu u p).pu u = p := tableGet_put_same _ _ _ _

@[simp] theorem setPu_pu_other (s : State) (u : Nat) (p : PulseUnit) {w : Nat} (h : w ≠ u) :
    (s.setPu u p).pu w = s.pu w := tableGet_put_other _ _ _ h

@[simp] theorem setPu_su (s : State) (u : Nat) (p : PulseUnit) (w : Nat) : (s.setPu u p).su w = s.su w := rfl

@[simp] theorem setPu_byte (s : State) (u : Nat) (p : PulseUnit) (b : Nat) : (s.setPu u p).byte b = s.byte b := rfl

@[simp] theorem setPu_slotIndices (s : State) (u : Nat) (p : PulseUnit) : (s.setPu u p).slotIndices = s.slotIndices := rfl

@[simp] theorem setPu_pauseHeld (s : State) (u : Nat) (p : PulseUnit) : (s.setPu u p).pauseHeld = s.pauseHeld := rfl

@[simp] theorem setPu_timeModulus (s : State) (u : Nat) (p : PulseUnit) : (s.setPu u p).timeModulus = s.timeModulus := rfl

@[simp] theorem setPu_periph (s : State) (u : Nat) (p : PulseUnit) (j : Nat) : (s.setPu u p).periph j = s.periph j := rfl

/-! ## setSu -/

@[simp] theorem setSu_board (s : State) (u : Nat) (p : SerialUnit) : (s.setSu u p).board = s.board := rfl

@[simp] theorem setSu_begun (s : State) (u : Nat) (p : SerialUnit) : (s.setSu u p).begun = s.begun := rfl

@[simp] theorem setSu_slots (s : State) (u : Nat) (p : SerialUnit) : (s.setSu u p).slots = s.slots := rfl

@[simp] theorem setSu_pending (s : State) (u : Nat) (p : SerialUnit) : (s.setSu u p).pending = s.pending := rfl

@[simp] theorem setSu_userPaused (s : State) (u : Nat) (p : SerialUnit) : (s.setSu u p).userPaused = s.userPaused := rfl

@[simp] theorem setSu_reloadPaused (s : State) (u : Nat) (p : SerialUnit) : (s.setSu u p).reloadPaused = s.reloadPaused := rfl

@[simp] theorem setSu_totalUsed (s : State) (u : Nat) (p : SerialUnit) : (s.setSu u p).totalUsed = s.totalUsed := rfl

@[simp] theorem setSu_buf (s : State) (u : Nat) (p : SerialUnit) : (s.setSu u p).buf = s.buf := rfl

@[simp] theorem setSu_diag (s : State) (u : Nat) (p : SerialUnit) : (s.setSu u p).diag = s.diag := rfl

@[simp] theorem setSu_faults (s : State) (u : Nat) (p : SerialUnit) : (s.setSu u p).faults = s.faults := rfl

@[simp] theorem setSu_refused (s : State) (u : Nat) (p : SerialUnit) : (s.setSu u p).refused = s.refused := rfl

@[simp] theorem setSu_capacity (s : State) (u : Nat) (p : SerialUnit) : (s.setSu u p).capacity = s.capacity := rfl

@[simp] theorem setSu_renderPos (s : State) (u : Nat) (p : SerialUnit) : (s.setSu u p).renderPos = s.renderPos := rfl

@[simp] theorem setSu_persisted (s : State) (u : Nat) (p : SerialUnit) : (s.setSu u p).persisted = s.persisted := rfl

@[simp] theorem setSu_pulseUnits (s : State) (u : Nat) (p : SerialUnit) : (s.setSu u p).pulseUnits = s.pulseUnits := rfl

@[simp] theorem setSu_now (s : State) (u : Nat) (p : SerialUnit) : (s.setSu u p).now = s.now := rfl

@[simp] theorem setSu_schedule (s : State) (u : Nat) (p : SerialUnit) : (s.setSu u p).schedule = s.schedule := rfl

@[simp] theorem setSu_reply (s : State) (u : Nat) (p : SerialUnit) : (s.setSu u p).reply = s.reply := rfl

@[simp] theorem setSu_initAnswers (s : State) (u : Nat) (p : SerialUnit) : (s.setSu u p).initAnswers = s.initAnswers := rfl

@[simp] theorem setSu_loadAnswers (s : State) (u : Nat) (p : SerialUnit) : (s.setSu u p).loadAnswers = s.loadAnswers := rfl

@[simp] theorem setSu_drawCount (s : State) (u : Nat) (p : SerialUnit) : (s.setSu u p).drawCount = s.drawCount := rfl

@[simp] theorem setSu_slot (s : State) (u : Nat) (p : SerialUnit) (j : Nat) : (s.setSu u p).slot j = s.slot j := rfl

@[simp] theorem setSu_pu (s : State) (u : Nat) (p : SerialUnit) (w : Nat) : (s.setSu u p).pu w = s.pu w := rfl

theorem setSu_su (s : State) (u : Nat) (p : SerialUnit) (w : Nat) :
    (s.setSu u p).su w = if w = u then p else s.su w := tableGet_put _ _ _ _ _

@[simp] theorem setSu_su_same (s : State) (u : Nat) (p : SerialUnit) : (s.setSu u p).su u = p := tableGet_put_same _ _ _ _

@[simp] theorem setSu_su_other (s : State) (u : Nat) (p : SerialUnit) {w : Nat} (h : w ≠ u) :
    (s.setSu u p).su w = s.su w := tableGet_put_other _ _ _ h

@[simp] theorem setSu_byte (s : State) (u : Nat) (p : SerialUnit) (b : Nat) : (s.setSu u p).byte b = s.byte b := rfl

@[simp] theorem setSu_slotIndices (s : State) (u : Nat) (p : SerialUnit) : (s.setSu u p).slotIndices = s.slotIndices := rfl

@[simp] theorem setSu_pauseHeld (s : State) (u : Nat) (p : SerialUnit) : (s.setSu u p).pauseHeld = s.pauseHeld := rfl

@[simp] theorem setSu_timeModulus (s : State) (u : Nat) (p : SerialUnit) : (s.setSu u p).timeModulus = s.timeModulus := rfl

@[simp] theorem setSu_periph (s : State) (u : Nat) (p : SerialUnit) (j : Nat) : (s.setSu u p).periph j = s.periph j := rfl

/-! ## setByte -/

@[simp] theorem setByte_board (s : State) (a : Nat) (v : Byte) : (s.setByte a v).board = s.board := rfl

@[simp] theorem setByte_begun (s : State) (a : Nat) (v : Byte) : (s.setByte a v).begun = s.begun := rfl

@[simp] theorem setByte_slots (s : State) (a : Nat) (v : Byte) : (s.setByte a v).slots = s.slots := rfl

@[simp] theorem setByte_pending (s : State) (a : Nat) (v : Byte) : (s.setByte a v).pending = s.pending := rfl

@[simp] theorem setByte_userPaused (s : State) (a : Nat) (v : Byte) : (s.setByte a v).userPaused = s.userPaused := rfl

@[simp] theorem setByte_reloadPaused (s : State) (a : Nat) (v : Byte) : (s.setByte a v).reloadPaused = s.reloadPaused := rfl

@[simp] theorem setByte_totalUsed (s : State) (a : Nat) (v : Byte) : (s.setByte a v).totalUsed = s.totalUsed := rfl

@[simp] theorem setByte_diag (s : State) (a : Nat) (v : Byte) : (s.setByte a v).diag = s.diag := rfl

@[simp] theorem setByte_faults (s : State) (a : Nat) (v : Byte) : (s.setByte a v).faults = s.faults := rfl

@[simp] theorem setByte_refused (s : State) (a : Nat) (v : Byte) : (s.setByte a v).refused = s.refused := rfl

@[simp] theorem setByte_capacity (s : State) (a : Nat) (v : Byte) : (s.setByte a v).capacity = s.capacity := rfl

@[simp] theorem setByte_renderPos (s : State) (a : Nat) (v : Byte) : (s.setByte a v).renderPos = s.renderPos := rfl

@[simp] theorem setByte_persisted (s : State) (a : Nat) (v : Byte) : (s.setByte a v).persisted = s.persisted := rfl

@[simp] theorem setByte_pulseUnits (s : State) (a : Nat) (v : Byte) : (s.setByte a v).pulseUnits = s.pulseUnits := rfl

@[simp] theorem setByte_serialUnits (s : State) (a : Nat) (v : Byte) : (s.setByte a v).serialUnits = s.serialUnits := rfl

@[simp] theorem setByte_now (s : State) (a : Nat) (v : Byte) : (s.setByte a v).now = s.now := rfl

@[simp] theorem setByte_schedule (s : State) (a : Nat) (v : Byte) : (s.setByte a v).schedule = s.schedule := rfl

@[simp] theorem setByte_reply (s : State) (a : Nat) (v : Byte) : (s.setByte a v).reply = s.reply := rfl

@[simp] theorem setByte_initAnswers (s : State) (a : Nat) (v : Byte) : (s.setByte a v).initAnswers = s.initAnswers := rfl

@[simp] theorem setByte_loadAnswers (s : State) (a : Nat) (v : Byte) : (s.setByte a v).loadAnswers = s.loadAnswers := rfl

@[simp] theorem setByte_drawCount (s : State) (a : Nat) (v : Byte) : (s.setByte a v).drawCount = s.drawCount := rfl

@[simp] theorem setByte_slot (s : State) (a : Nat) (v : Byte) (j : Nat) : (s.setByte a v).slot j = s.slot j := rfl

@[simp] theorem setByte_pu (s : State) (a : Nat) (v : Byte) (w : Nat) : (s.setByte a v).pu w = s.pu w := rfl

@[simp] theorem setByte_su (s : State) (a : Nat) (v : Byte) (w : Nat) : (s.setByte a v).su w = s.su w := rfl

theorem setByte_byte (s : State) (a : Nat) (v : Byte) (b : Nat) :
    (s.setByte a v).byte b = if b = a then v else s.byte b := tableGet_put _ _ _ _ _

@[simp] theorem setByte_byte_same (s : State) (a : Nat) (v : Byte) : (s.setByte a v).byte a = v := tableGet_put_same _ _ _ _

@[simp] theorem setByte_byte_other (s : State) (a : Nat) (v : Byte) {b : Nat} (h : b ≠ a) :
    (s.setByte a v).byte b = s.byte b := tableGet_put_other _ _ _ h

@[simp] theorem setByte_slotIndices (s : State) (a : Nat) (v : Byte) : (s.setByte a v).slotIndices = s.slotIndices := rfl

@[simp] theorem setByte_pauseHeld (s : State) (a : Nat) (v : Byte) : (s.setByte a v).pauseHeld = s.pauseHeld := rfl

@[simp] theorem setByte_timeModulus (s : State) (a : Nat) (v : Byte) : (s.setByte a v).timeModulus = s.timeModulus := rfl

@[simp] theorem setByte_periph (s : State) (a : Nat) (v : Byte) (j : Nat) : (s.setByte a v).periph j = s.periph j := rfl

/-! ## addFault -/

@[simp] theorem addFault_board (s : State) (f : FaultRecord) : (s.addFault f).board = s.board := by
  unfold State.addFault; split <;> rfl

@[simp] theorem addFault_begun (s : State) (f : FaultRecord) : (s.addFault f).begun = s.begun := by
  unfold State.addFault; split <;> rfl

@[simp] theorem addFault_slots (s : State) (f : FaultRecord) : (s.addFault f).slots = s.slots := by
  unfold State.addFault; split <;> rfl

@[simp] theorem addFault_pending (s : State) (f : FaultRecord) : (s.addFault f).pending = s.pending := by
  unfold State.addFault; split <;> rfl

@[simp] theorem addFault_userPaused (s : State) (f : FaultRecord) : (s.addFault f).userPaused = s.userPaused := by
  unfold State.addFault; split <;> rfl

@[simp] theorem addFault_reloadPaused (s : State) (f : FaultRecord) : (s.addFault f).reloadPaused = s.reloadPaused := by
  unfold State.addFault; split <;> rfl

@[simp] theorem addFault_totalUsed (s : State) (f : FaultRecord) : (s.addFault f).totalUsed = s.totalUsed := by
  unfold State.addFault; split <;> rfl

@[simp] theorem addFault_buf (s : State) (f : FaultRecord) : (s.addFault f).buf = s.buf := by
  unfold State.addFault; split <;> rfl

@[simp] theorem addFault_diag (s : State) (f : FaultRecord) : (s.addFault f).diag = s.diag := by
  unfold State.addFault; split <;> rfl

@[simp] theorem addFault_refused (s : State) (f : FaultRecord) : (s.addFault f).refused = s.refused := by
  unfold State.addFault; split <;> rfl

@[simp] theorem addFault_capacity (s : State) (f : FaultRecord) : (s.addFault f).capacity = s.capacity := by
  unfold State.addFault; split <;> rfl

@[simp] theorem addFault_renderPos (s : State) (f : FaultRecord) : (s.addFault f).renderPos = s.renderPos := by
  unfold State.addFault; split <;> rfl

@[simp] theorem addFault_persisted (s : State) (f : FaultRecord) : (s.addFault f).persisted = s.persisted := by
  unfold State.addFault; split <;> rfl

@[simp] theorem addFault_pulseUnits (s : State) (f : FaultRecord) : (s.addFault f).pulseUnits = s.pulseUnits := by
  unfold State.addFault; split <;> rfl

@[simp] theorem addFault_serialUnits (s : State) (f : FaultRecord) : (s.addFault f).serialUnits = s.serialUnits := by
  unfold State.addFault; split <;> rfl

@[simp] theorem addFault_now (s : State) (f : FaultRecord) : (s.addFault f).now = s.now := by
  unfold State.addFault; split <;> rfl

@[simp] theorem addFault_schedule (s : State) (f : FaultRecord) : (s.addFault f).schedule = s.schedule := by
  unfold State.addFault; split <;> rfl

@[simp] theorem addFault_reply (s : State) (f : FaultRecord) : (s.addFault f).reply = s.reply := by
  unfold State.addFault; split <;> rfl

@[simp] theorem addFault_initAnswers (s : State) (f : FaultRecord) : (s.addFault f).initAnswers = s.initAnswers := by
  unfold State.addFault; split <;> rfl

@[simp] theorem addFault_loadAnswers (s : State) (f : FaultRecord) : (s.addFault f).loadAnswers = s.loadAnswers := by
  unfold State.addFault; split <;> rfl

@[simp] theorem addFault_drawCount (s : State) (f : FaultRecord) : (s.addFault f).drawCount = s.drawCount := by
  unfold State.addFault; split <;> rfl

@[simp] theorem addFault_slot (s : State) (f : FaultRecord) (i : Nat) : (s.addFault f).slot i = s.slot i := by
  unfold State.addFault; split <;> rfl

@[simp] theorem addFault_pu (s : State) (f : FaultRecord) (u : Nat) : (s.addFault f).pu u = s.pu u := by
  unfold State.addFault; split <;> rfl

@[simp] theorem addFault_su (s : State) (f : FaultRecord) (u : Nat) : (s.addFault f).su u = s.su u := by
  unfold State.addFault; split <;> rfl

@[simp] theorem addFault_byte (s : State) (f : FaultRecord) (a : Nat) : (s.addFault f).byte a = s.byte a := by
  unfold State.addFault; split <;> rfl

@[simp] theorem addFault_periph (s : State) (f : FaultRecord) (i : Nat) : (s.addFault f).periph i = s.periph i := by
  unfold State.addFault; split <;> rfl

theorem addFault_faults (s : State) (f : FaultRecord) :
    (s.addFault f).faults = if f ∈ s.faults then s.faults else s.faults ++ [f] := by
  unfold State.addFault; split <;> rfl

@[simp] theorem mem_addFault (s : State) (f g : FaultRecord) : g ∈ (s.addFault f).faults ↔ g = f ∨ g ∈ s.faults := by
  rw [addFault_faults]
  split
  · constructor
    · exact Or.inr
    · rintro (rfl | h) <;> assumption
  · simp [or_comm]

theorem addFault_ne_nil (s : State) (f : FaultRecord) : (s.addFault f).faults ≠ [] := by
  intro h
  have : f ∈ (s.addFault f).faults := by simp
  rw [h] at this
  exact absurd this (by simp)

/-! ## Updates of a driver's engine -/

@[simp] theorem mapEng_eng (d : DriverState) (f : Engine → Engine) : (d.mapEng f).eng = d.eng.map f := rfl

@[simp] theorem mapEng_variant (d : DriverState) (f : Engine → Engine) : (d.mapEng f).variant = d.variant := rfl

@[simp] theorem mapEng_status (d : DriverState) (f : Engine → Engine) : (d.mapEng f).status = d.status := rfl

@[simp] theorem mapEng_cfg (d : DriverState) (f : Engine → Engine) : (d.mapEng f).cfg = d.cfg := rfl

@[simp] theorem mapEng_needed (d : DriverState) (f : Engine → Engine) : (d.mapEng f).needed = d.needed := rfl

@[simp] theorem mapEng_offset (d : DriverState) (f : Engine → Engine) : (d.mapEng f).offset = d.offset := rfl

@[simp] theorem mapEng_length (d : DriverState) (f : Engine → Engine) : (d.mapEng f).length = d.length := rfl

@[simp] theorem mapEng_paused (d : DriverState) (f : Engine → Engine) : (d.mapEng f).paused = d.paused := rfl

@[simp] theorem mapEng_frameCount (d : DriverState) (f : Engine → Engine) : (d.mapEng f).frameCount = d.frameCount := rfl

@[simp] theorem mapEng_droppedCount (d : DriverState) (f : Engine → Engine) : (d.mapEng f).droppedCount = d.droppedCount := rfl

@[simp] theorem mapEng_hwErrorCount (d : DriverState) (f : Engine → Engine) : (d.mapEng f).hwErrorCount = d.hwErrorCount := rfl

@[simp] theorem mapEng_hwInitFailed (d : DriverState) (f : Engine → Engine) : (d.mapEng f).hwInitFailed = d.hwInitFailed := rfl

end Sys2Proof.Machine
end

