-- ==== Sys2Proof/Laws/Ops.lean ====
section
/-! SUPPORT. How the shared operations run: each primitive applied to a state, a sequence of two operations, and the
outcome of a step. A proof about an operation rewrites with these and never unfolds the monad. -/

namespace Sys2Proof.Machine

variable {α β : Type}

/-! ## Sequencing -/

theorem op_bind (x : Op α) (f : α → Op β) (s : State) :
    (x >>= f) s = match x s with
      | .ok a t => f a t
      | .error e t => .error e t := by
  show EStateM.bind x f s = _
  unfold EStateM.bind
  cases x s <;> rfl

theorem op_map (f : α → β) (x : Op α) (s : State) :
    (f <$> x) s = match x s with
      | .ok a t => .ok (f a) t
      | .error e t => .error e t := by
  show EStateM.map f x s = _
  unfold EStateM.map
  cases x s <;> rfl

@[simp] theorem op_pure (a : α) (s : State) : (pure a : Op α) s = .ok a s := rfl

theorem op_bind_ok {x : Op α} {f : α → Op β} {s t : State} {a : α} (h : x s = .ok a t) :
    (x >>= f) s = f a t := by simp [op_bind, h]

theorem op_bind_error {x : Op α} {f : α → Op β} {s t : State} {e : Exc} (h : x s = .error e t) :
    (x >>= f) s = .error e t := by simp [op_bind, h]

/-- A sequence that finishes: both operations finish. -/
theorem op_bind_eq_ok {x : Op α} {f : α → Op β} {s t : State} {b : β} :
    (x >>= f) s = .ok b t ↔ ∃ a u, x s = .ok a u ∧ f a u = .ok b t := by
  rw [op_bind]
  cases h : x s with
  | ok a u => simp
  | error e u => simp

theorem op_ite (c : Prop) [Decidable c] (x y : Op α) (s : State) :
    (if c then x else y) s = if c then x s else y s := by split <;> rfl

/-! ## The primitives -/

@[simp] theorem getState_run (s : State) : getState s = .ok s s := rfl

@[simp] theorem modState_run (f : State → State) (s : State) : modState f s = .ok () (f s) := rfl

@[simp] theorem fail_run (e : Exc) (s : State) : (fail e : Op α) s = .error e s := rfl

@[simp] theorem raise_run (f : FaultRecord) (s : State) : (raise f : Op α) s = .error .raised (s.addFault f) := rfl

@[simp] theorem refuse_run (r : RefusalReason) (s : State) : (refuse r : Op α) s = .error (.refused r) s := rfl

@[simp] theorem refuseIf_true (r : RefusalReason) (s : State) : refuseIf true r s = .error (.refused r) s := rfl

@[simp] theorem refuseIf_false (r : RefusalReason) (s : State) : refuseIf false r s = .ok () s := rfl

theorem refuseIf_run (c : Bool) (r : RefusalReason) (s : State) :
    refuseIf c r s = if c then .error (.refused r) s else .ok () s := by cases c <;> rfl

@[simp] theorem raiseIf_true (f : FaultRecord) (s : State) : raiseIf true f s = .error .raised (s.addFault f) := rfl

@[simp] theorem raiseIf_false (f : FaultRecord) (s : State) : raiseIf false f s = .ok () s := rfl

theorem raiseIf_run (c : Bool) (f : FaultRecord) (s : State) :
    raiseIf c f s = if c then .error .raised (s.addFault f) else .ok () s := by cases c <;> rfl

@[simp] theorem guardStep_true (m : String) (s : State) : guardStep true m s = .ok () s := rfl

@[simp] theorem guardStep_false (m : String) (s : State) : guardStep false m s = .error (.disabled m) s := rfl

theorem guardStep_run (c : Bool) (m : String) (s : State) :
    guardStep c m s = if c then .ok () s else .error (.disabled m) s := by cases c <;> rfl

@[simp] theorem answer_run (r : Reply) (s : State) : answer r s = .ok () { s with reply := some r } := rfl

@[simp] theorem logDiag_run (i : Nat) (d : DiagDetail) (s : State) :
    logDiag i d s = .ok () { s with diag := s.diag ++ [{ slot := i, detail := d }] } := rfl

@[simp] theorem modSlot_run (i : Nat) (f : DriverState → DriverState) (s : State) :
    modSlot i f s = .ok () (s.setSlot i (f (s.slot i))) := rfl

@[simp] theorem modEngine_run (i : Nat) (f : Engine → Engine) (s : State) :
    modEngine i f s = .ok () (s.setSlot i ((s.slot i).mapEng f)) := rfl

@[simp] theorem modPu_run (u : Nat) (f : PulseUnit → PulseUnit) (s : State) :
    modPu u f s = .ok () (s.setPu u (f (s.pu u))) := rfl

@[simp] theorem modSu_run (u : Nat) (f : SerialUnit → SerialUnit) (s : State) :
    modSu u f s = .ok () (s.setSu u (f (s.su u))) := rfl

@[simp] theorem latched_some (p : α) (m : String) : latched (some p) m = pure p := rfl

@[simp] theorem latched_none (m : String) : (latched (none : Option α) m) = fail (.disabled m) := rfl

theorem entryOf_some {xs : List α} {k : Nat} {x : α} (h : xs[k]? = some x) : entryOf xs k = pure x := by
  simp [entryOf, h]

theorem entryOf_none {xs : List α} {k : Nat} (h : xs[k]? = none) :
    entryOf xs k = fail (.stopped .missingTableEntry) := by simp [entryOf, h]

theorem drawPeriphInit_cons {i : Nat} {s : State} {b : Bool} {rest : List Bool} (h : s.initAnswers = b :: rest) :
    drawPeriphInit i s = .ok b { s with initAnswers := rest } := by simp [drawPeriphInit, h]

theorem drawPeriphInit_nil {i : Nat} {s : State} (h : s.initAnswers = []) :
    drawPeriphInit i s = .ok (Config.freePeriphInit s.drawCount i) { s with drawCount := s.drawCount + 1 } := by
  simp [drawPeriphInit, h]

theorem drawPersistLoad_cons {s : State} {r : Option ConfigDoc} {rest : List (Option ConfigDoc)}
    (h : s.loadAnswers = r :: rest) : drawPersistLoad s = .ok r { s with loadAnswers := rest } := by
  simp [drawPersistLoad, h]

theorem drawPersistLoad_nil {s : State} (h : s.loadAnswers = []) :
    drawPersistLoad s = .ok (Config.freePersistLoad s.drawCount) { s with drawCount := s.drawCount + 1 } := by
  simp [drawPersistLoad, h]

theorem bufRead_run (a : Nat) (s : State) :
    bufRead a s =
      if s.board.totalBufferSize ≤ a then .error .raised (s.addFault (.bufferOutOfBounds a)) else .ok (s.byte a) s :=
  rfl

theorem forEach_nil (f : Nat → Op Unit) : forEach f [] = pure () := rfl

theorem forEach_cons (f : Nat → Op Unit) (i : Nat) (rest : List Nat) :
    forEach f (i :: rest) = (do f i; forEach f rest) := rfl

theorem forEach_append (f : Nat → Op Unit) (xs ys : List Nat) (s : State) :
    forEach f (xs ++ ys) s = (do forEach f xs; forEach f ys) s := by
  induction xs generalizing s with
  | nil => rfl
  | cons i rest ih =>
    simp only [List.cons_append, forEach_cons, op_bind]
    cases f i s with
    | ok a t => simpa [op_bind] using ih t
    | error e t => rfl

/-! ## The checks before an operation (R338) -/

theorem admitSlot_ok {i : Nat} {s : State} (h : i < s.board.numSlots) : admitSlot i s = .ok () s := by
  simp [admitSlot, Nat.not_le.mpr h]

theorem admitSlot_bad {i : Nat} {s : State} (h : s.board.numSlots ≤ i) :
    admitSlot i s = .error (.refused .badSlot) s := by simp [admitSlot, h]

theorem admitBegun_ok {s : State} (h : s.begun = true) : admitBegun s = .ok () s := by simp [admitBegun, h]

theorem admitTurn_ok {m : String} {s : State} (h : s.renderPos = none) : admitTurn m s = .ok () s := by
  simp [admitTurn, h]

theorem admitOperands_true (s : State) : admitOperands true s = .ok () s := rfl

theorem admitKind_ok {i : Nat} {k : EngineKind} {s : State} {e : Engine} (h : (s.slot i).eng = some e)
    (hk : e.kind = k) : admitKind i k s = .ok () s := by simp [admitKind, h, hk]

theorem engineOf_some {i : Nat} {m : String} {s : State} {e : Engine} (h : (s.slot i).eng = some e) :
    engineOf i m s = .ok e s := by simp [engineOf, h]

theorem pulseEngineOf_some {i : Nat} {s : State} {e : Engine} {q : PulseSeq} {l : Option PulseLatch}
    (h : (s.slot i).eng = some e) (hc : e.core = .pulse q l) : pulseEngineOf i s = .ok (e, q, l) s := by
  simp [pulseEngineOf, h, hc]

theorem serialEngineOf_some {i : Nat} {s : State} {e : Engine} {q : SerialSeq} {l : Option SerialLatch}
    (h : (s.slot i).eng = some e) (hc : e.core = .serial q l) : serialEngineOf i s = .ok (e, q, l) s := by
  simp [serialEngineOf, h, hc]

theorem kind_pulse {e : Engine} {q : PulseSeq} {l : Option PulseLatch} (hc : e.core = .pulse q l) :
    e.kind = .pulse := by simp [Engine.kind, hc]

theorem kind_serial {e : Engine} {q : SerialSeq} {l : Option SerialLatch} (hc : e.core = .serial q l) :
    e.kind = .serial := by simp [Engine.kind, hc]

/-! ## The outcome of a step -/

theorem runStep_ok {s t : State} {x : Op Unit} (h : x s = .ok () t) : runStep s x = .next t := by simp [runStep, h]

theorem runStep_raised {s t : State} {x : Op Unit} (h : x s = .error .raised t) : runStep s x = .next t := by
  simp [runStep, h]

theorem runStep_refused {s t : State} {x : Op Unit} {r : RefusalReason} (h : x s = .error (.refused r) t) :
    runStep s x = .next { s with refused := some r } := by simp [runStep, h]

theorem runStep_disabled {s t : State} {x : Op Unit} {m : String} (h : x s = .error (.disabled m) t) :
    runStep s x = .refused (.notEnabled m) := by simp [runStep, h]

/-- A next state is that of a finished operation, of one that raised a fault, or the refusal mark (R330, R337). -/
theorem runStep_next {s t : State} {x : Op Unit} (h : runStep s x = .next t) :
    x s = .ok () t ∨ x s = .error .raised t ∨ ∃ r u, x s = .error (.refused r) u ∧ t = { s with refused := some r } := by
  unfold runStep at h
  split at h
  · rename_i hx; cases h; exact .inl hx
  · rename_i hx; cases h; exact .inr (.inl hx)
  · rename_i r u hx; cases h; exact .inr (.inr ⟨r, u, hx, rfl⟩)
  · cases h
  · cases h

/-- A model fault is the operation's own stop. -/
theorem runStep_fault {s : State} {x : Op Unit} {f : Fault} (h : runStep s x = .fault f) :
    ∃ u, x s = .error (.stopped f) u := by
  unfold runStep at h
  split at h
  · cases h
  · cases h
  · cases h
  · cases h
  · rename_i g u hx; cases h; exact ⟨u, hx⟩

end Sys2Proof.Machine
end

