-- ==== Sys2Proof/Laws/Slice.lean ====
section
/-! SUPPORT. What the buffer interface and the table lookups do, once each: DRV_MORE_DATA, DRV_NEXT_BYTE (R263, R264),
XLAT_LOOKUP_PULSE, XLAT_LOOKUP_SERIAL (R152, R153). -/

namespace Sys2Proof.Machine

theorem mapEng_some {d : DriverState} {e : Engine} (h : d.eng = some e) (f : Engine → Engine) :
    d.mapEng f = { d with eng := some (f e) } := by simp [DriverState.mapEng, h]

theorem drvMoreData_run {s : State} {i : Nat} {e : Engine} (he : (s.slot i).eng = some e) :
    drvMoreData i s = .ok (decide (e.cursor < (s.slot i).length)) s := by
  simp [drvMoreData, op_bind, op_map, engineOf_some he]

theorem legalEncoderCfg_order {c : EncoderCfg} (h : legalEncoderCfg c = true) (k : Nat) :
    ∃ j, c.colorOrder[k % c.channelsPerPixel]? = some j ∧ j < c.channelsPerPixel := by
  simp only [legalEncoderCfg, isPermutation, Bool.and_eq_true, decide_eq_true_eq, List.all_eq_true,
    List.mem_range] at h
  obtain ⟨⟨⟨hC, hlen, hall⟩, -⟩, -⟩ := h
  have hk : k % c.channelsPerPixel < c.colorOrder.length := by rw [hlen]; exact Nat.mod_lt _ (by omega)
  refine ⟨_, List.getElem?_eq_getElem hk, ?_⟩
  have hsub : List.range c.channelsPerPixel ⊆ c.colorOrder := fun j hj => hall j (List.mem_range.mp hj)
  have hperm : (List.range c.channelsPerPixel).Perm c.colorOrder :=
    List.Subperm.perm_of_length_le (List.nodup_range.subperm hsub) (by simp [hlen])
  exact List.mem_range.mp (hperm.mem_iff.mpr (List.getElem_mem hk))

theorem sourceOf_lt {c : EncoderCfg} (h : legalEncoderCfg c = true) {k n : Nat} (hk : k < n) :
    sourceOf c k n < n := by
  unfold sourceOf
  split
  · rename_i hle
    obtain ⟨j, hj, hlt⟩ := legalEncoderCfg_order h k
    simp only [List.getD, hj, Option.getD_some]
    rw [Nat.add_mul] at hle
    omega
  · exact hk

theorem sourceIndex_run {c : EncoderCfg} (h : legalEncoderCfg c = true) (k n : Nat) (s : State) :
    sourceIndex c k n s = .ok (sourceOf c k n) s := by
  unfold sourceIndex sourceOf
  split
  · obtain ⟨j, hj, -⟩ := legalEncoderCfg_order h k
    simp [op_bind, entryOf_some hj, List.getD, hj]
  · rfl

theorem legalCfg_encoder {c : DriverConfig} (h : legalCfg c = true) :
    ∃ c', c = .encoder c' ∧ legalEncoderCfg c' = true := by
  cases c with
  | encoder c' => exact ⟨c', rfl, h⟩
  | empty => cases h
  | stored p => cases h

theorem gamma_entry {c : EncoderCfg} (h : legalEncoderCfg c = true) (x : Byte) :
    c.gamma[x.toNat]? = some (c.gamma.getD x.toNat 0) := by
  have hlen : c.gamma.length = 256 := by
    simp only [legalEncoderCfg, Bool.and_eq_true, decide_eq_true_eq] at h
    exact h.1.2
  have : x.toNat < c.gamma.length := by rw [hlen]; exact x.isLt
  simp [List.getD, List.getElem?_eq_getElem this]

/-- DRV_NEXT_BYTE on a readable slice with data left: the byte, and the cursor one further. -/
theorem drvNextByte_run {s : State} {i : Nat} {e : Engine} (hs : s.sliceReadable i)
    (he : (s.slot i).eng = some e) (hc : e.cursor < (s.slot i).length) :
    drvNextByte i s =
      .ok (s.dataByte i e.cursor) (s.setSlot i { s.slot i with eng := some { e with cursor := e.cursor + 1 } }) := by
  obtain ⟨hl, hb⟩ := hs
  obtain ⟨c, hcfg, hleg⟩ := legalCfg_encoder hl
  have hlt := sourceOf_lt hleg hc
  have hin : ¬s.board.totalBufferSize ≤ (s.slot i).offset + sourceOf c e.cursor (s.slot i).length := by omega
  simp [drvNextByte, op_bind, op_map, engineOf_some he, hcfg, encoderCfg, sourceIndex_run hleg, bufRead_run, hin,
    entryOf_some (gamma_entry hleg _), mapEng_some he, State.dataByte]

theorem xlatLookupPulse_run {s : State} {i : Nat} {e : Engine} {q : PulseSeq} {l : PulseLatch}
    (h : s.pulseEngine i e q l) (x : Symbol) : xlatLookupPulse i x s = .ok (descriptorAt l.ptable x) s := by
  simp [xlatLookupPulse, op_bind, op_map, pulseEngineOf_some h.1 h.2]

theorem stable_entry {l : SerialLatch} (hl : l.legal) {g : Nat} (hg : g < 2 ^ l.G) :
    l.stable[g]? = some (l.stable.getD g 0) := by
  have : g < l.stable.length := by rw [hl.2]; exact hg
  simp [List.getD, List.getElem?_eq_getElem this]

theorem xlatLookupSerial_run {s : State} {i : Nat} {e : Engine} {q : SerialSeq} {l : SerialLatch}
    (h : s.serialEngine i e q l) (hl : l.legal) {g : Nat} (hg : g < 2 ^ l.G) :
    xlatLookupSerial i g s = .ok (l.stable.getD g 0) s := by
  simp [xlatLookupSerial, op_bind, serialEngineOf_some h.1 h.2, refuseIf_run, Nat.not_le.mpr hg,
    entryOf_some (stable_entry hl hg)]

theorem group_lt (b : Byte) (j G : Nat) : group b j G < 2 ^ G := Nat.mod_lt _ (Nat.two_pow_pos G)

end Sys2Proof.Machine
end

