-- ==== Sys2Proof/Laws/Engines.lean ====
section
/-! SUPPORT. The engines' sequencers as plain functions: one pass of PE_NEXT_ITEM (R194) and of SE_NEXT_ITEM (R226)
replaces the engine of its slot and nothing else, by the pass said here on the sequencer, the cursor and the slice. -/

namespace Sys2Proof.Machine

/-! ## Replacing the engine of a slot -/

/-- The state whose slot `i` holds engine `e`, all else as before. -/
def State.withEng (s : State) (i : Nat) (e : Engine) : State := s.setSlot i { s.slot i with eng := some e }

section withEng

variable (s : State) (i : Nat) (e : Engine)

@[simp] theorem withEng_slot_same : (s.withEng i e).slot i = { s.slot i with eng := some e } := by
  simp [State.withEng]

@[simp] theorem withEng_slot_other {j : Nat} (h : j ≠ i) : (s.withEng i e).slot j = s.slot j := by
  simp [State.withEng, h]

@[simp] theorem withEng_board : (s.withEng i e).board = s.board := rfl

@[simp] theorem withEng_pu (u : Nat) : (s.withEng i e).pu u = s.pu u := rfl

@[simp] theorem withEng_su (u : Nat) : (s.withEng i e).su u = s.su u := rfl

@[simp] theorem withEng_byte (a : Nat) : (s.withEng i e).byte a = s.byte a := rfl

@[simp] theorem withEng_now : (s.withEng i e).now = s.now := rfl

/-- The engine replaced last stands. -/
@[simp] theorem withEng_withEng (e' : Engine) : (s.withEng i e).withEng i e' = s.withEng i e' := by
  unfold State.withEng
  rw [setSlot_slot_same]
  unfold State.setSlot
  congr 1
  exact tablePut_put _ _ _ _ _ (.inl fun h => by cases congrArg DriverState.eng h)

theorem withEng_frame :
    s.withEng i e = { s with slots := (s.withEng i e).slots } := rfl

@[simp] theorem withEng_sliceReadable : (s.withEng i e).sliceReadable i ↔ s.sliceReadable i := by
  simp [State.sliceReadable]

@[simp] theorem withEng_dataByte (k : Nat) : (s.withEng i e).dataByte i k = s.dataByte i k := by
  simp [State.dataByte]

@[simp] theorem withEng_dataFrom (k : Nat) : (s.withEng i e).dataFrom i k = s.dataFrom i k := by
  unfold State.dataFrom
  rw [withEng_slot_same]
  exact List.map_congr_left fun j _ => withEng_dataByte s i e j

end withEng

theorem modEngine_withEng {s : State} {i : Nat} {e : Engine} (he : (s.slot i).eng = some e) (f : Engine → Engine) :
    modEngine i f s = .ok () (s.withEng i (f e)) := by
  rw [modEngine_run, mapEng_some he]; rfl

/-- The bytes left at a cursor inside the slice: the next one, and those after it. -/
theorem dataFrom_cons {s : State} {i k : Nat} (h : k < (s.slot i).length) :
    s.dataFrom i k = s.dataByte i k :: s.dataFrom i (k + 1) := by
  unfold State.dataFrom
  obtain ⟨n, hn⟩ : ∃ n, (s.slot i).length - k = n + 1 := ⟨(s.slot i).length - k - 1, by omega⟩
  rw [hn, List.range'_succ, List.map_cons]
  congr 3
  omega

theorem dataFrom_nil {s : State} {i k : Nat} (h : (s.slot i).length ≤ k) : s.dataFrom i k = [] := by
  unfold State.dataFrom
  rw [Nat.sub_eq_zero_of_le h]; rfl

theorem dataFrom_isEmpty {s : State} {i k : Nat} : (s.dataFrom i k).isEmpty = !decide (k < (s.slot i).length) := by
  by_cases h : k < (s.slot i).length
  · simp [dataFrom_cons h, h]
  · simp [dataFrom_nil (Nat.le_of_not_lt h), h]

/-! ## The pulse sequencer -/

/-- Emitting bit `q.bitIdx` of byte `b` (R194): the descriptor and the sequencer after it, `more` saying that data is
left. -/
def PulseSeq.emitBit (q : PulseSeq) (l : PulseLatch) (b : Byte) (more : Bool) : PulseDescriptor × PulseSeq :=
  (descriptorAt l.ptable (symbolOfBit (b.getLsbD q.bitIdx)),
    if q.bitIdx = 0 then { q with curByte := none, phase := if l.gapFlag && more then .gap else q.phase }
    else { q with curByte := some b, bitIdx := q.bitIdx - 1 })

/-- One pass of PE_NEXT_ITEM on a sequencer with `rest` to read (R194): what it returns if it returns, the sequencer
after it, and whether it took a byte. -/
def PulseSeq.pass (q : PulseSeq) (l : PulseLatch) (rest : List Byte) :
    Option (Option PulseDescriptor) × PulseSeq × Bool :=
  match q.phase with
  | .preIdle =>
    if q.idleIdx < l.preIdle then (some (some l.ptable.idle), { q with idleIdx := q.idleIdx + 1 }, false)
    else (none, { q with phase := .data, idleIdx := 0 }, false)
  | .data =>
    match q.curByte, rest with
    | some b, rest => (some (some (q.emitBit l b (!rest.isEmpty)).1), (q.emitBit l b (!rest.isEmpty)).2, false)
    | none, [] => (none, { q with phase := .postIdle }, false)
    | none, b :: rest =>
      (some (some (({ q with curByte := some b, bitIdx := l.W - 1 } : PulseSeq).emitBit l b (!rest.isEmpty)).1),
        (({ q with curByte := some b, bitIdx := l.W - 1 } : PulseSeq).emitBit l b (!rest.isEmpty)).2, true)
  | .gap => (some (some l.ptable.gap), { q with phase := .data }, false)
  | .postIdle =>
    if q.idleIdx < l.postIdle then (some (some l.ptable.idle), { q with idleIdx := q.idleIdx + 1 }, false)
    else (some none, { q with phase := .done }, false)
  | .done => (some none, q, false)

theorem setPulseSeq_run {s : State} {i : Nat} {e : Engine} {q : PulseSeq} {l : Option PulseLatch}
    (he : (s.slot i).eng = some e) (hc : e.core = .pulse q l) (q' : PulseSeq) :
    setPulseSeq i q' s = .ok () (s.withEng i { e with core := .pulse q' l }) := by
  unfold setPulseSeq
  rw [modEngine_withEng he]
  simp [Engine.withPulseSeq, hc]

theorem pulseEngine_withEng (s : State) (i : Nat) (e : Engine) (q : PulseSeq) (l : PulseLatch) :
    (s.withEng i { e with core := .pulse q (some l) }).pulseEngine i { e with core := .pulse q (some l) } q l :=
  ⟨by simp, rfl⟩

theorem peEmitBit_run {s : State} {i : Nat} {e : Engine} {q : PulseSeq} {l : PulseLatch}
    (h : s.pulseEngine i e q l) (q' : PulseSeq) (b : Byte) :
    peEmitBit i l q' b s =
      .ok (q'.emitBit l b (decide (e.cursor < (s.slot i).length))).1
        (s.withEng i
          { e with core := .pulse (q'.emitBit l b (decide (e.cursor < (s.slot i).length))).2 (some l) }) := by
  unfold peEmitBit PulseSeq.emitBit
  by_cases hb : q'.bitIdx = 0
  · simp [op_bind, op_map, xlatLookupPulse_run h, hb, drvMoreData_run h.1, setPulseSeq_run h.1 h.2]
  · simp [op_bind, op_map, xlatLookupPulse_run h, hb, setPulseSeq_run h.1 h.2]

/-- `t` is `s` with engine `e` in slot `i`, every other read as before. -/
structure EngStep (s t : State) (i : Nat) (e : Engine) : Prop where
  frame : t = { s with slots := t.slots }
  other : ∀ j, j ≠ i → t.slot j = s.slot j
  here : t.slot i = { s.slot i with eng := some e }

namespace EngStep

variable {s t u : State} {i : Nat} {e e' : Engine}

theorem withEng (s : State) (i : Nat) (e : Engine) : EngStep s (s.withEng i e) i e :=
  ⟨withEng_frame s i e, fun _ h => withEng_slot_other s i e h, withEng_slot_same s i e⟩

theorem self (he : (s.slot i).eng = some e) : EngStep s s i e := ⟨rfl, fun _ _ => rfl, by rw [← he]⟩

theorem trans (h : EngStep s t i e) (h' : EngStep t u i e') : EngStep s u i e' :=
  ⟨by rw [h'.frame, h.frame], fun j hj => (h'.other j hj).trans (h.other j hj), by rw [h'.here, h.here]⟩

theorem eng (h : EngStep s t i e) : (t.slot i).eng = some e := by rw [h.here]

theorem board (h : EngStep s t i e) : t.board = s.board := by rw [h.frame]

theorem pu (h : EngStep s t i e) (w : Nat) : t.pu w = s.pu w := by rw [h.frame]; simp

theorem su (h : EngStep s t i e) (w : Nat) : t.su w = s.su w := by rw [h.frame]; simp

theorem byte (h : EngStep s t i e) (a : Nat) : t.byte a = s.byte a := by rw [h.frame]; simp

theorem length (h : EngStep s t i e) : (t.slot i).length = (s.slot i).length := by rw [h.here]

theorem sliceReadable (h : EngStep s t i e) : t.sliceReadable i ↔ s.sliceReadable i := by
  simp [State.sliceReadable, h.here, h.board]

theorem dataByte (h : EngStep s t i e) (k : Nat) : t.dataByte i k = s.dataByte i k := by
  simp [State.dataByte, h.here, h.byte]

theorem dataFrom (h : EngStep s t i e) (k : Nat) : t.dataFrom i k = s.dataFrom i k := by
  unfold State.dataFrom
  rw [h.length]
  exact List.map_congr_left fun j _ => h.dataByte j

end EngStep

/-- One pass of PE_NEXT_ITEM (R194): the pass of the plain sequencer, the cursor one further when it takes a byte. -/
theorem pePass_run {s : State} {i : Nat} {e : Engine} {q : PulseSeq} {l : PulseLatch} (h : s.pulseEngine i e q l)
    (hs : s.sliceReadable i) :
    ∃ t, pePass i s = .ok (q.pass l (s.dataFrom i e.cursor)).1 t ∧
      EngStep s t i
        { e with
          cursor := if (q.pass l (s.dataFrom i e.cursor)).2.2 then e.cursor + 1 else e.cursor
          core := .pulse (q.pass l (s.dataFrom i e.cursor)).2.1 (some l) } := by
  obtain ⟨he, hc⟩ := h
  have h : s.pulseEngine i e q l := ⟨he, hc⟩
  have hx : ∀ (q' : PulseSeq) (e' : Engine) (t : State), EngStep s t i { e' with core := .pulse q' (some l) } →
      ∀ x, xlatLookupPulse i x t = .ok (descriptorAt l.ptable x) t := fun q' e' t ht x =>
    xlatLookupPulse_run (q := q') ⟨ht.eng, rfl⟩ x
  unfold pePass
  simp only [op_bind, pulseEngineOf_some he hc, latched_some, op_pure]
  cases hp : q.phase with
  | preIdle =>
    by_cases hi : q.idleIdx < l.preIdle
    · simp only [PulseSeq.pass, hp, hi, if_true, op_bind, setPulseSeq_run he hc,
        hx _ e _ (EngStep.withEng s i _)]
      exact ⟨_, rfl, EngStep.withEng s i _⟩
    · simp only [PulseSeq.pass, hp, hi, if_false, op_bind, setPulseSeq_run he hc]
      exact ⟨_, rfl, EngStep.withEng s i _⟩
  | data =>
    cases hb : q.curByte with
    | some b =>
      simp only [PulseSeq.pass, hp, hb, op_bind, peEmitBit_run h]
      rw [dataFrom_isEmpty, Bool.not_not]
      exact ⟨_, rfl, EngStep.withEng s i _⟩
    | none =>
      simp only [op_bind, drvMoreData_run he]
      by_cases hm : e.cursor < (s.slot i).length
      · have hst := EngStep.withEng s i { e with cursor := e.cursor + 1 }
        have hn := drvNextByte_run hs he hm
        rw [← State.withEng] at hn
        have h2 : (s.withEng i { e with cursor := e.cursor + 1 }).pulseEngine i { e with cursor := e.cursor + 1 } q l :=
          ⟨hst.eng, hc⟩
        have hd : decide (e.cursor + 1 < ((s.withEng i { e with cursor := e.cursor + 1 }).slot i).length) =
            !(s.dataFrom i (e.cursor + 1)).isEmpty := by rw [dataFrom_isEmpty, Bool.not_not, hst.length]
        simp only [hm, decide_true, if_true, op_bind, hn, peEmitBit_run h2, hd]
        rw [dataFrom_cons hm]
        simp only [PulseSeq.pass, hp, hb, if_true]
        exact ⟨_, rfl, hst.trans (EngStep.withEng _ i _)⟩
      · simp only [hm, decide_false, Bool.false_eq_true, if_false, op_bind, setPulseSeq_run he hc]
        rw [dataFrom_nil (Nat.le_of_not_lt hm)]
        simp only [PulseSeq.pass, hp, hb, Bool.false_eq_true, if_false]
        exact ⟨_, rfl, EngStep.withEng s i _⟩
  | gap =>
    simp only [PulseSeq.pass, hp, op_bind, setPulseSeq_run he hc, hx _ e _ (EngStep.withEng s i _)]
    exact ⟨_, rfl, EngStep.withEng s i _⟩
  | postIdle =>
    by_cases hi : q.idleIdx < l.postIdle
    · simp only [PulseSeq.pass, hp, hi, if_true, op_bind, setPulseSeq_run he hc,
        hx _ e _ (EngStep.withEng s i _)]
      exact ⟨_, rfl, EngStep.withEng s i _⟩
    · simp only [PulseSeq.pass, hp, hi, if_false, op_bind, setPulseSeq_run he hc]
      exact ⟨_, rfl, EngStep.withEng s i _⟩
  | done =>
    simp only [PulseSeq.pass, hp]
    exact ⟨s, rfl, EngStep.self (by rw [he, ← hc]; simp)⟩

/-! ## The serial sequencer -/

/-- One pass through a fixed sequence (R226). -/
def SerialSeq.fixed (q : SerialSeq) (xs : List Byte) (next : SPhase) : SerialSeq :=
  match xs[q.seqIdx]? with
  | some x => { q.load x with seqIdx := q.seqIdx + 1 }
  | none => { q with seqIdx := 0, sphase := next }

/-- One pass of SE_NEXT_ITEM on a sequencer at cursor `k` with `rest` to read (R226): what it returns if it returns,
the sequencer after it, and whether it took a byte. -/
def SerialSeq.pass (q : SerialSeq) (l : SerialLatch) (k : Nat) (rest : List Byte) :
    Option (Option Byte) × SerialSeq × Bool :=
  match q.curByte with
  | some b =>
    (some (some (l.stable.getD (group b q.groupIdx l.G) 0)),
      (if q.groupIdx = 8 / l.G - 1 then { q with curByte := none, groupIdx := 0 }
        else { q with groupIdx := q.groupIdx + 1 }), false)
  | none =>
    match q.sphase with
    | .framePrefix => (none, q.fixed l.FP (if !rest.isEmpty then .pixelPrefix else .frameSuffix), false)
    | .pixelPrefix => (none, q.fixed l.PP .pixelData, false)
    | .pixelData =>
      match rest with
      | [] => (none, { q with sphase := .pixelSuffix }, false)
      | b :: rest =>
        (none, { q.load b with sphase := if (k + 1) % l.C = 0 || rest.isEmpty then .pixelSuffix else .pixelData },
          true)
    | .pixelSuffix => (none, q.fixed l.PS (if !rest.isEmpty then .pixelPrefix else .frameSuffix), false)
    | .frameSuffix =>
      match l.FS[q.seqIdx]? with
      | some x => (none, { q.load x with seqIdx := q.seqIdx + 1 }, false)
      | none => (some none, { q with seqIdx := 0, sphase := .done }, false)
    | .done => (some none, q, false)

theorem setSerialSeq_run {s : State} {i : Nat} {e : Engine} {q : SerialSeq} {l : Option SerialLatch}
    (he : (s.slot i).eng = some e) (hc : e.core = .serial q l) (q' : SerialSeq) :
    setSerialSeq i q' s = .ok () (s.withEng i { e with core := .serial q' l }) := by
  unfold setSerialSeq
  rw [modEngine_withEng he]
  simp [Engine.withSerialSeq, hc]

theorem seFixed_run {s : State} {i : Nat} {e : Engine} {q : SerialSeq} {l : Option SerialLatch}
    (he : (s.slot i).eng = some e) (hc : e.core = .serial q l) (q' : SerialSeq) (xs : List Byte) (next : SPhase) :
    seFixed i q' xs next s = .ok () (s.withEng i { e with core := .serial (q'.fixed xs next) l }) := by
  unfold seFixed SerialSeq.fixed
  cases xs[q'.seqIdx]? <;> exact setSerialSeq_run he hc _

/-- One pass of SE_NEXT_ITEM (R226): the pass of the plain sequencer, the cursor one further when it takes a byte. -/
theorem sePass_run {s : State} {i : Nat} {e : Engine} {q : SerialSeq} {l : SerialLatch} (h : s.serialEngine i e q l)
    (hl : l.legal) (hs : s.sliceReadable i) :
    ∃ t, sePass i s = .ok (q.pass l e.cursor (s.dataFrom i e.cursor)).1 t ∧
      EngStep s t i
        { e with
          cursor := if (q.pass l e.cursor (s.dataFrom i e.cursor)).2.2 then e.cursor + 1 else e.cursor
          core := .serial (q.pass l e.cursor (s.dataFrom i e.cursor)).2.1 (some l) } := by
  obtain ⟨he, hc⟩ := h
  have hmore : decide (e.cursor < (s.slot i).length) = !(s.dataFrom i e.cursor).isEmpty := by
    rw [dataFrom_isEmpty, Bool.not_not]
  unfold sePass
  simp only [op_bind, serialEngineOf_some he hc, latched_some, op_pure]
  cases hb : q.curByte with
  | some b =>
    have hx : ∀ q' : SerialSeq, xlatLookupSerial i (group b q.groupIdx l.G)
        (s.withEng i { e with core := .serial q' (some l) }) =
          .ok (l.stable.getD (group b q.groupIdx l.G) 0)
            (s.withEng i { e with core := .serial q' (some l) }) := fun q' =>
      xlatLookupSerial_run (q := q') ⟨(EngStep.withEng s i _).eng, rfl⟩ hl (group_lt _ _ _)
    by_cases hg : q.groupIdx = 8 / l.G - 1
    · simp only [SerialSeq.pass, hb, hg, if_true, op_bind, setSerialSeq_run he hc]
      rw [hg] at hx
      simp only [hx]
      exact ⟨_, rfl, EngStep.withEng s i _⟩
    · simp only [SerialSeq.pass, hb, hg, if_false, op_bind, setSerialSeq_run he hc, hx]
      exact ⟨_, rfl, EngStep.withEng s i _⟩
  | none =>
    cases hp : q.sphase with
    | framePrefix =>
      simp only [SerialSeq.pass, hb, hp, op_bind, drvMoreData_run he, seFixed_run he hc, hmore]
      exact ⟨_, rfl, EngStep.withEng s i _⟩
    | pixelPrefix =>
      simp only [SerialSeq.pass, hb, hp, op_bind, seFixed_run he hc]
      exact ⟨_, rfl, EngStep.withEng s i _⟩
    | pixelData =>
      simp only [op_bind, drvMoreData_run he]
      by_cases hm : e.cursor < (s.slot i).length
      · have hst := EngStep.withEng s i { e with cursor := e.cursor + 1 }
        have hn := drvNextByte_run hs he hm
        rw [← State.withEng] at hn
        have hd : decide (e.cursor + 1 < ((s.withEng i { e with cursor := e.cursor + 1 }).slot i).length) =
            !(s.dataFrom i (e.cursor + 1)).isEmpty := by rw [dataFrom_isEmpty, Bool.not_not, hst.length]
        simp only [hm, decide_true, if_true, op_bind, hn, serialEngineOf_some hst.eng hc, drvMoreData_run hst.eng, hd,
          setSerialSeq_run hst.eng hc, Bool.not_not, op_pure]
        rw [dataFrom_cons hm]
        simp only [SerialSeq.pass, hb, hp, if_true]
        exact ⟨_, rfl, hst.trans (EngStep.withEng _ i _)⟩
      · simp only [hm, decide_false, Bool.false_eq_true, if_false, op_bind, setSerialSeq_run he hc]
        rw [dataFrom_nil (Nat.le_of_not_lt hm)]
        simp only [SerialSeq.pass, hb, hp, Bool.false_eq_true, if_false]
        exact ⟨_, rfl, EngStep.withEng s i _⟩
    | pixelSuffix =>
      simp only [SerialSeq.pass, hb, hp, op_bind, drvMoreData_run he, seFixed_run he hc, hmore]
      exact ⟨_, rfl, EngStep.withEng s i _⟩
    | frameSuffix =>
      cases hf : l.FS[q.seqIdx]? with
      | some x =>
        simp only [SerialSeq.pass, hb, hp, hf, op_bind, setSerialSeq_run he hc]
        exact ⟨_, rfl, EngStep.withEng s i _⟩
      | none =>
        simp only [SerialSeq.pass, hb, hp, hf, op_bind, setSerialSeq_run he hc]
        exact ⟨_, rfl, EngStep.withEng s i _⟩
    | done =>
      simp only [SerialSeq.pass, hb, hp]
      exact ⟨s, rfl, EngStep.self (by rw [he, ← hc]; simp)⟩

end Sys2Proof.Machine
end

