-- ==== Sys2Proof/Laws/Maps.lean ====
section
/-! SUPPORT. The laws of finite maps held as lists (R121): lookups, equality as maps, and that what an out-of-scope
variant stores and needs (R278) does not depend on the order of its keys. -/

namespace Sys2Proof.Machine

variable {κ α : Type} [DecidableEq κ]

@[simp] theorem mapGet_nil (k : κ) : mapGet ([] : List (κ × α)) k = none := rfl

@[simp] theorem mapGet_cons (e : κ × α) (m : List (κ × α)) (k : κ) :
    mapGet (e :: m) k = if e.1 = k then some e.2 else mapGet m k := rfl

/-- A key that no entry has is absent. -/
theorem mapGet_eq_none (m : List (κ × α)) (k : κ) (h : ∀ e ∈ m, e.1 ≠ k) : mapGet m k = none := by
  induction m with
  | nil => rfl
  | cons e m ih =>
    rw [mapGet_cons, if_neg (h e (by simp))]
    exact ih fun e' he => h e' (by simp [he])

/-- A removed key is absent, and every other key keeps its value. -/
theorem mapGet_mapErase (m : List (κ × α)) (k j : κ) :
    mapGet (mapErase m k) j = if j = k then none else mapGet m j := by
  induction m with
  | nil => simp [mapErase]
  | cons e m ih =>
    by_cases he : e.1 = k
    · rw [show mapErase (e :: m) k = mapErase m k by simp [mapErase, he], ih, mapGet_cons]
      split
      · rfl
      · rename_i hj
        rw [if_neg fun h : e.1 = j => hj (h.symm.trans he)]
    · rw [show mapErase (e :: m) k = e :: mapErase m k by simp [mapErase, he], mapGet_cons, ih, mapGet_cons]
      split
      · rename_i hj
        rw [if_neg fun h : j = k => he (hj.trans h)]
      · rfl

/-- `sameMap` is equality as finite maps. -/
theorem sameMap_iff [DecidableEq α] (m n : List (κ × α)) : sameMap m n = true ↔ ∀ k, mapGet m k = mapGet n k := by
  simp only [sameMap, List.all_eq_true, decide_eq_true_eq, List.mem_append]
  refine ⟨fun h k => ?_, fun h e _ => h e.1⟩
  by_cases hk : ∃ e, (e ∈ m ∨ e ∈ n) ∧ e.1 = k
  · obtain ⟨e, he, rfl⟩ := hk
    exact h e he
  · rw [mapGet_eq_none m k fun e he h => hk ⟨e, .inl he, h⟩, mapGet_eq_none n k fun e he h => hk ⟨e, .inr he, h⟩]

/-- Configurations that store the same finite map cannot be told apart by `sameConfig`. -/
theorem sameConfig_stored (p q : ParamObject) (h : ∀ k, mapGet p k = mapGet q k) (c : DriverConfig) :
    sameConfig c (.stored p) = sameConfig c (.stored q) := by
  cases c with
  | stored r =>
    rw [Bool.eq_iff_iff, sameConfig, sameConfig, sameMap_iff, sameMap_iff]
    simp only [h]
  | empty => rfl
  | encoder _ => rfl

/-- A board table gives one value to objects that are the same finite map (R7, R121, R278). -/
theorem cfgTableAt_stored (t : CfgTable) (v : Variant) (p q : ParamObject) (h : ∀ k, mapGet p k = mapGet q k) :
    cfgTableAt t v (.stored p) = cfgTableAt t v (.stored q) := by
  simp only [cfgTableAt, sameConfig_stored p q h]

/-- What OpaqueMerge stores (R278): the new value at each recognised key that has one, the old value elsewhere. -/
theorem mapGet_opaqueMergeObject (keys : List String) (c p : ParamObject) (k : String) :
    mapGet (opaqueMergeObject keys c p) k =
      if k ∈ keys then (mapGet p k).or (mapGet c k) else mapGet c k := by
  induction keys generalizing c p with
  | nil => rfl
  | cons j keys ih =>
    have step : mapGet (opaqueMergeObject (j :: keys) c p) k =
        if j = k then (mapGet p k).or (mapGet c k)
        else mapGet (opaqueMergeObject keys (mapErase c j) (mapErase p j)) k := by
      simp only [opaqueMergeObject]
      split
      · rename_i v hv
        rw [mapGet_cons]
        by_cases hj : j = k
        · subst hj; simp [hv]
        · simp [hj]
      · rename_i hv
        by_cases hj : j = k
        · subst hj; simp [hv, ih, mapGet_mapErase]
        · simp [hj]
    rw [step, ih]
    by_cases hj : j = k
    · simp [hj]
    · simp [hj, mapGet_mapErase, Ne.symm hj]

/-- OpaqueMerge reads its parameters as a finite map: the order of their keys leaves no trace. -/
theorem opaqueMergeObject_sameParams (keys : List String) (c p q : ParamObject)
    (h : ∀ k, mapGet p k = mapGet q k) : opaqueMergeObject keys c p = opaqueMergeObject keys c q := by
  induction keys generalizing c p q with
  | nil => rfl
  | cons j keys ih =>
    simp only [opaqueMergeObject, h j]
    rw [ih (mapErase c j) (mapErase p j) (mapErase q j) fun k => by simp only [mapGet_mapErase, h k]]

end Sys2Proof.Machine
end

