-- ==== Sys2Proof/Laws/PowerOn.lean ====
section
/-! SUPPORT. What the draws of power-on give (R8, R370): the tables they fill are canonical, and each key reads as it
was drawn. -/

namespace Sys2Proof.Machine

/-- The table of a function on rising keys, the default left out: it is canonical and reads as the function. -/
theorem tableOf_rising {α : Type} [DecidableEq α] (d : α) (f : Nat → α) (ks : List Nat) (h : ks.Pairwise (· < ·)) :
    tableWf d (ks.filterMap fun k => if f k = d then none else some (k, f k)) = true ∧
      ∀ k, tableGet d (ks.filterMap fun k => if f k = d then none else some (k, f k)) k =
        if k ∈ ks then f k else d := by
  induction ks with
  | nil => exact ⟨rfl, fun _ => rfl⟩
  | cons j ks ih =>
    obtain ⟨hj, hks⟩ := List.pairwise_cons.mp h
    obtain ⟨hwf, hget⟩ := ih hks
    by_cases hd : f j = d
    · rw [List.filterMap_cons_none (by simp [hd])]
      refine ⟨hwf, fun k => ?_⟩
      rw [hget]
      by_cases hk : k = j
      · subst hk; simp [hd]
      · simp [hk]
    · rw [List.filterMap_cons_some (b := (j, f j)) (by simp only [hd, if_false])]
      refine ⟨?_, fun k => ?_⟩
      · have : keysAbove j (ks.filterMap fun k => if f k = d then none else some (k, f k)) = true := by
          rw [keysAbove_iff]
          intro p hp
          obtain ⟨k, hk, hp⟩ := List.mem_filterMap.mp hp
          split at hp
          · cases hp
          · cases hp; exact hj k hk
        simp [tableWf, this, hd, hwf]
      · by_cases hk : k = j
        · subst hk; simp [tableGet]
        · simp [tableGet, hk, hget]

/-- The cells of drawn contents are canonical memory. -/
theorem Memory.wf_drawnCells (size : Nat) (xs : List Byte) : Memory.wf (drawnCells size xs) = true :=
  (tableOf_rising unwrittenByte (fun a => xs.getD a 0) _ List.pairwise_lt_range).1

/-- A byte of the buffer reads as it was drawn (R82). -/
theorem tableGet_drawnCells (size : Nat) (xs : List Byte) (a : Nat) :
    tableGet unwrittenByte (drawnCells size xs) a = if a < size then xs.getD a 0 else 0 := by
  have h := (tableOf_rising unwrittenByte (fun a => xs.getD a 0) _ (List.pairwise_lt_range (n := size))).2 a
  simp only [List.mem_range] at h
  exact h

/-- `risingIds` keeps the ids. -/
@[simp] theorem mem_risingIds (us : List Nat) (u : Nat) : u ∈ risingIds us ↔ u ∈ us := by
  have hmax : ∀ us : List Nat, u ∈ us → u ≤ us.foldr max 0 := by
    intro us hu
    induction us with
    | nil => cases hu
    | cons v us ih =>
      rcases List.mem_cons.mp hu with rfl | hu
      · exact Nat.le_max_left _ _
      · exact (ih hu).trans (Nat.le_max_right _ _)
  simp only [risingIds, List.mem_filter, List.mem_range, decide_eq_true_eq]
  exact ⟨fun h => h.2, fun h => ⟨Nat.lt_succ_of_le (hmax us h), h⟩⟩

theorem risingIds_pairwise (us : List Nat) : (risingIds us).Pairwise (· < ·) :=
  List.pairwise_lt_range.filter _

/-- The table that gives the listed ids the value `v` is canonical, and reads so (R47, R48). -/
theorem tableOf_ids {α : Type} [DecidableEq α] (d v : α) (hv : v ≠ d) (us : List Nat) :
    tableWf d ((risingIds us).map fun u => (u, v)) = true ∧
      ∀ u, tableGet d ((risingIds us).map fun u => (u, v)) u = if u ∈ us then v else d := by
  have h := tableOf_rising d (fun _ => v) _ (risingIds_pairwise us)
  simp only [hv, if_false, List.filterMap_eq_map', mem_risingIds] at h
  exact h

end Sys2Proof.Machine
end

