-- ==== Sys2Proof/Laws/Writes.lean ====
section
/-! SUPPORT. What a step can write, said once for every operation: the state a step leaves is reached by the named
writes of `StepWrites`. A relation closed under those writes holds between a state and every next state
(`exec_writes`, `step_writes`). -/

namespace Sys2Proof.Machine

variable {α β : Type}

/-- The state an operation leaves, finished or faulted, is `R`-related to `s`. -/
def Reached (R : State → State → Prop) (s : State) : EStateM.Result Exc State α → Prop
  | .ok _ t => R s t
  | .error .raised t => R s t
  | .error (.refused _) _ => True
  | .error (.disabled _) _ => True
  | .error (.stopped _) _ => True

/-- Every state an operation leaves, finished or faulted, is `R`-related to the one it began in. -/
def Op.Follows (R : State → State → Prop) (x : Op α) : Prop := ∀ s, Reached R s (x s)

/-- `R` is reflexive, transitive, and closed under every write an operation makes but for the refusal mark: a trace
and the log only grow, a fault is only added, `begun` is only set, and the board is not written. -/
structure StepWrites (R : State → State → Prop) : Prop where
  refl : ∀ s, R s s
  trans : ∀ {s t u}, R s t → R t u → R s u
  slot : ∀ s i d, R s (s.setSlot i d)
  pu : ∀ s u p, (s.pu u).trace <+: p.trace → R s (s.setPu u p)
  su : ∀ s u p, (s.su u).trace <+: p.trace → R s (s.setSu u p)
  byte : ∀ s a v, R s (s.setByte a v)
  fault : ∀ s f, R s (s.addFault f)
  diag : ∀ (s : State) d, R s { s with diag := s.diag ++ [d] }
  reply : ∀ (s : State) r, R s { s with reply := r }
  initAnswers : ∀ (s : State) r, R s { s with initAnswers := r }
  loadAnswers : ∀ (s : State) r, R s { s with loadAnswers := r }
  drawCount : ∀ (s : State) n, R s { s with drawCount := n }
  now : ∀ (s : State) n, R s { s with now := (s.now + n) % s.timeModulus }
  begun : ∀ s : State, R s { s with begun := true }
  pending : ∀ (s : State) p, R s { s with pending := p }
  userPaused : ∀ (s : State) b, R s { s with userPaused := b }
  reloadPaused : ∀ (s : State) b, R s { s with reloadPaused := b }
  totalUsed : ∀ (s : State) n, R s { s with totalUsed := n }
  capacity : ∀ (s : State) c, R s { s with capacity := c }
  renderPos : ∀ (s : State) p, R s { s with renderPos := p }
  persisted : ∀ (s : State) d, R s { s with persisted := d }

namespace Follows

variable {R : State → State → Prop}

/-! ## Building blocks -/

theorem bind (hR : StepWrites R) {x : Op α} {f : α → Op β} (hx : x.Follows R) (hf : ∀ a, (f a).Follows R) :
    (x >>= f).Follows R := by
  intro s
  have h := hx s
  rw [op_bind]
  cases hxs : x s with
  | error e t => rw [hxs] at h; cases e <;> exact h
  | ok a t =>
    rw [hxs] at h
    have h2 := hf a t
    show Reached R s (f a t)
    cases hft : f a t with
    | ok b u => rw [hft] at h2; exact hR.trans h h2
    | error e u =>
      rw [hft] at h2
      cases e with
      | raised => exact hR.trans h h2
      | refused r => trivial
      | disabled m => trivial
      | stopped g => trivial

theorem pure (hR : StepWrites R) (a : α) : (Pure.pure a : Op α).Follows R := fun s => hR.refl s

theorem get (hR : StepWrites R) : getState.Follows R := fun s => hR.refl s

theorem mod {f : State → State} (h : ∀ s, R s (f s)) : (modState f).Follows R := h

theorem fail_ {e : Exc} (he : e ≠ .raised) : (fail e : Op α).Follows R := by
  intro s
  cases e with
  | raised => exact absurd rfl he
  | refused r => trivial
  | disabled m => trivial
  | stopped g => trivial

theorem raise_ (hR : StepWrites R) (f : FaultRecord) : (raise f : Op α).Follows R := fun s => hR.fault s f

theorem refuse_ (r : RefusalReason) : (refuse r : Op α).Follows R := fail_ (by simp)

theorem ite {c : Prop} [Decidable c] {x y : Op α} (hx : x.Follows R) (hy : y.Follows R) :
    (if c then x else y).Follows R := by split <;> assumption

theorem refuseIf_ (hR : StepWrites R) (c : Bool) (r : RefusalReason) : (refuseIf c r).Follows R :=
  ite (refuse_ r) (pure hR ())

theorem raiseIf_ (hR : StepWrites R) (c : Bool) (f : FaultRecord) : (raiseIf c f).Follows R :=
  ite (raise_ hR f) (pure hR ())

theorem guardStep_ (hR : StepWrites R) (c : Bool) (m : String) : (guardStep c m).Follows R :=
  ite (pure hR ()) (fail_ (by simp))

theorem answer_ (hR : StepWrites R) (r : Reply) : (answer r).Follows R := fun s => hR.reply s (some r)

theorem logDiag_ (hR : StepWrites R) (i : Nat) (d : DiagDetail) : (logDiag i d).Follows R := fun s => hR.diag s _

theorem modSlot_ (hR : StepWrites R) (i : Nat) (f : DriverState → DriverState) : (modSlot i f).Follows R :=
  fun s => hR.slot s i _

theorem modEngine_ (hR : StepWrites R) (i : Nat) (f : Engine → Engine) : (modEngine i f).Follows R :=
  modSlot_ hR i _

theorem modPu_ (hR : StepWrites R) (u : Nat) (f : PulseUnit → PulseUnit) (h : ∀ p, p.trace <+: (f p).trace) :
    (modPu u f).Follows R := fun s => hR.pu s u _ (h _)

theorem modSu_ (hR : StepWrites R) (u : Nat) (f : SerialUnit → SerialUnit) (h : ∀ p, p.trace <+: (f p).trace) :
    (modSu u f).Follows R := fun s => hR.su s u _ (h _)

theorem engineOf_ (hR : StepWrites R) (i : Nat) (m : String) : (engineOf i m).Follows R := by
  intro s; unfold engineOf; cases (s.slot i).eng with
  | none => trivial
  | some e => exact hR.refl s

theorem pulseEngineOf_ (hR : StepWrites R) (i : Nat) : (pulseEngineOf i).Follows R := by
  intro s; unfold pulseEngineOf; cases (s.slot i).eng with
  | none => trivial
  | some e => cases h : e.core <;> simp only [h] <;> first | exact hR.refl s | trivial

theorem serialEngineOf_ (hR : StepWrites R) (i : Nat) : (serialEngineOf i).Follows R := by
  intro s; unfold serialEngineOf; cases (s.slot i).eng with
  | none => trivial
  | some e => cases h : e.core <;> simp only [h] <;> first | exact hR.refl s | trivial

theorem latched_ (hR : StepWrites R) (l : Option α) (m : String) : (latched l m).Follows R := by
  cases l with
  | none => exact fail_ (by simp)
  | some p => exact pure hR p

theorem entryOf_ (hR : StepWrites R) (xs : List α) (k : Nat) : (entryOf xs k).Follows R := by
  unfold entryOf; split
  · exact pure hR _
  · exact fail_ (by simp)

theorem bufRead_ (hR : StepWrites R) (a : Nat) : (bufRead a).Follows R := by
  intro s; rw [bufRead_run]; split
  · exact hR.fault s _
  · exact hR.refl s

theorem drawPeriphInit_ (hR : StepWrites R) (i : Nat) : (drawPeriphInit i).Follows R := by
  intro s; unfold drawPeriphInit; split
  · exact hR.initAnswers s _
  · exact hR.drawCount s _

theorem drawPersistLoad_ (hR : StepWrites R) : drawPersistLoad.Follows R := by
  intro s; unfold drawPersistLoad; split
  · exact hR.loadAnswers s _
  · exact hR.drawCount s _

theorem forEach_ (hR : StepWrites R) {f : Nat → Op Unit} (hf : ∀ i, (f i).Follows R) :
    ∀ xs : List Nat, (forEach f xs).Follows R
  | [] => pure hR ()
  | i :: rest => bind hR (hf i) fun _ => forEach_ hR hf rest

theorem admitSlot_ (hR : StepWrites R) (i : Nat) : (admitSlot i).Follows R := by
  intro s; unfold admitSlot; split
  · trivial
  · exact hR.refl s

theorem admitKind_ (hR : StepWrites R) (i : Nat) (k : EngineKind) : (admitKind i k).Follows R := by
  intro s; unfold admitKind; cases (s.slot i).eng with
  | none => trivial
  | some e => simp only; split <;> first | trivial | exact hR.refl s

theorem admitOperands_ (hR : StepWrites R) (ok : Bool) : (admitOperands ok).Follows R := refuseIf_ hR _ _

theorem admitBegun_ (hR : StepWrites R) : admitBegun.Follows R := by
  intro s; unfold admitBegun; split <;> first | trivial | exact hR.refl s

theorem admitTurn_ (hR : StepWrites R) (m : String) : (admitTurn m).Follows R := by
  intro s; unfold admitTurn; split <;> first | trivial | exact hR.refl s

/-! ## The translation tables -/

theorem xlatSplit_ (hR : StepWrites R) (b : Byte) (G : Nat) : (xlatSplit b G).Follows R :=
  bind hR (refuseIf_ hR _ _) fun _ => pure hR _

theorem xlatLookupPulse_ (hR : StepWrites R) (i : Nat) (x : Symbol) : (xlatLookupPulse i x).Follows R :=
  bind hR (pulseEngineOf_ hR i) fun _ => bind hR (latched_ hR _ _) fun _ => pure hR _

theorem xlatLookupPulseCode_ (hR : StepWrites R) (i code : Nat) : (xlatLookupPulseCode i code).Follows R :=
  bind hR (pulseEngineOf_ hR i) fun _ => bind hR (latched_ hR _ _) fun _ => by
    cases symbolOfCode code with
    | none => exact refuse_ _
    | some x => exact xlatLookupPulse_ hR i x

theorem xlatLookupSerial_ (hR : StepWrites R) (i g : Nat) : (xlatLookupSerial i g).Follows R :=
  bind hR (serialEngineOf_ hR i) fun _ => bind hR (latched_ hR _ _) fun _ => bind hR (refuseIf_ hR _ _) fun _ =>
    entryOf_ hR _ _

theorem xlatBuildSerial_ (hR : StepWrites R) (G S H0 H1 : Nat) : (xlatBuildSerial G S H0 H1).Follows R :=
  bind hR (refuseIf_ hR _ _) fun _ => pure hR _

theorem lookupBits_ (hR : StepWrites R) (i : Nat) : ∀ xs, (lookupBits i xs).Follows R
  | [] => pure hR _
  | _ :: rest => bind hR (xlatLookupPulse_ hR i _) fun _ => bind hR (lookupBits_ hR i rest) fun _ => pure hR _

theorem lookupGroups_ (hR : StepWrites R) (i : Nat) : ∀ xs, (lookupGroups i xs).Follows R
  | [] => pure hR _
  | _ :: rest => bind hR (xlatLookupSerial_ hR i _) fun _ => bind hR (lookupGroups_ hR i rest) fun _ => pure hR _

theorem xlatEncodePulse_ (hR : StepWrites R) (i : Nat) (b : Byte) : (xlatEncodePulse i b).Follows R :=
  bind hR (pulseEngineOf_ hR i) fun _ => bind hR (latched_ hR _ _) fun _ => bind hR (guardStep_ hR _ _) fun _ =>
    bind hR (xlatSplit_ hR _ _) fun _ => lookupBits_ hR i _

theorem xlatEncodeSerial_ (hR : StepWrites R) (i : Nat) (b : Byte) : (xlatEncodeSerial i b).Follows R :=
  bind hR (serialEngineOf_ hR i) fun _ => bind hR (latched_ hR _ _) fun _ =>
    bind hR (xlatSplit_ hR _ _) fun _ => lookupGroups_ hR i _

/-! ## The buffer interface and the units -/

theorem drvMoreData_ (hR : StepWrites R) (i : Nat) : (drvMoreData i).Follows R :=
  bind hR (engineOf_ hR i _) fun _ => bind hR (get hR) fun _ => pure hR _

theorem sourceIndex_ (hR : StepWrites R) (c : EncoderCfg) (k n : Nat) : (sourceIndex c k n).Follows R :=
  ite (bind hR (entryOf_ hR _ _) fun _ => pure hR _) (pure hR _)

theorem drvNextByte_ (hR : StepWrites R) (i : Nat) : (drvNextByte i).Follows R :=
  bind hR (engineOf_ hR i _) fun _ => bind hR (get hR) fun s => by
    cases encoderCfg (s.slot i).cfg with
    | none => exact fail_ (by simp)
    | some c =>
      exact bind hR (sourceIndex_ hR _ _ _) fun _ => bind hR (bufRead_ hR _) fun _ =>
        bind hR (modEngine_ hR i _) fun _ => entryOf_ hR _ _

theorem puStart_ (hR : StepWrites R) (u : Nat) : (puStart u).Follows R :=
  modPu_ hR u _ fun p => by split <;> exact List.prefix_rfl

theorem suStart_ (hR : StepWrites R) (u : Nat) : (suStart u).Follows R :=
  modSu_ hR u _ fun p => by split <;> exact List.prefix_rfl

theorem puEmit_ (hR : StepWrites R) (i : Nat) : (puEmit i).Follows R :=
  bind hR (pulseEngineOf_ hR i) fun a => bind hR (get hR) fun s => bind hR (guardStep_ hR _ _) fun _ => by
    cases (s.pu a.1.unit).ring with
    | nil => exact fail_ (by simp)
    | cons d rest => exact modPu_ hR _ _ fun p => ⟨_, rfl⟩

theorem suShift_ (hR : StepWrites R) (i : Nat) : (suShift i).Follows R :=
  bind hR (serialEngineOf_ hR i) fun a => bind hR (get hR) fun s => bind hR (guardStep_ hR _ _) fun _ => by
    cases (s.su a.1.unit).fifo with
    | nil => exact fail_ (by simp)
    | cons x rest => exact modSu_ hR _ _ fun p => ⟨_, rfl⟩

/-! ## The pulse engine -/

theorem setPulseSeq_ (hR : StepWrites R) (i : Nat) (q : PulseSeq) : (setPulseSeq i q).Follows R := modEngine_ hR i _

theorem peBegin_ (hR : StepWrites R) (i : Nat) : (peBegin i).Follows R :=
  bind hR (pulseEngineOf_ hR i) fun a => bind hR (get hR) fun s => bind hR (raiseIf_ hR _ _) fun _ => by
    cases pulseConstantsOf s.board (s.slot i).variant with
    | none => exact refuse_ _
    | some pc =>
      exact bind hR (refuseIf_ hR _ _) fun _ => bind hR (modEngine_ hR i _) fun _ =>
        modPu_ hR _ _ fun _ => List.prefix_rfl

theorem peEmitBit_ (hR : StepWrites R) (i : Nat) (l : PulseLatch) (q : PulseSeq) (b : Byte) :
    (peEmitBit i l q b).Follows R := by
  refine bind hR (xlatLookupPulse_ hR i _) fun p => ?_
  split
  · exact bind hR (drvMoreData_ hR i) fun _ => bind hR (setPulseSeq_ hR i _) fun _ => pure hR _
  · exact bind hR (setPulseSeq_ hR i _) fun _ => pure hR _

theorem pePass_ (hR : StepWrites R) (i : Nat) : (pePass i).Follows R :=
  bind hR (pulseEngineOf_ hR i) fun a => by
    obtain ⟨e, q, l⟩ := a
    refine bind hR (latched_ hR l _) fun l => ?_
    cases q.phase with
    | preIdle =>
      exact ite (bind hR (setPulseSeq_ hR i _) fun _ => bind hR (xlatLookupPulse_ hR i _) fun _ => pure hR _)
        (bind hR (setPulseSeq_ hR i _) fun _ => pure hR _)
    | data =>
      cases q.curByte with
      | some b => exact bind hR (peEmitBit_ hR i l q b) fun _ => pure hR _
      | none =>
        exact bind hR (drvMoreData_ hR i) fun m =>
          ite (bind hR (drvNextByte_ hR i) fun b => bind hR (peEmitBit_ hR i l _ b) fun _ => pure hR _)
            (bind hR (setPulseSeq_ hR i _) fun _ => pure hR _)
    | gap => exact bind hR (setPulseSeq_ hR i _) fun _ => bind hR (xlatLookupPulse_ hR i _) fun _ => pure hR _
    | postIdle =>
      exact ite (bind hR (setPulseSeq_ hR i _) fun _ => bind hR (xlatLookupPulse_ hR i _) fun _ => pure hR _)
        (bind hR (setPulseSeq_ hR i _) fun _ => pure hR _)
    | done => exact pure hR _

theorem peLoop_ (hR : StepWrites R) (i : Nat) : ∀ n, (peLoop i n).Follows R
  | 0 => fail_ (by simp)
  | n + 1 => bind hR (pePass_ hR i) fun r => by
      cases r with
      | none => exact peLoop_ hR i n
      | some p => exact pure hR p

theorem peFillLoop_ (hR : StepWrites R) (i : Nat) : ∀ n, (peFillLoop i n).Follows R
  | 0 => pure hR ()
  | n + 1 => bind hR (pulseEngineOf_ hR i) fun a => bind hR (get hR) fun s =>
      ite (bind hR (peLoop_ hR i 3) fun r => by
            cases r with
            | none => exact peFillLoop_ hR i n
            | some p => exact bind hR (modPu_ hR _ _ fun _ => List.prefix_rfl) fun _ => peFillLoop_ hR i n)
        (pure hR _)

theorem peFill_ (hR : StepWrites R) (i : Nat) : (peFill i).Follows R :=
  bind hR (get hR) fun _ => peFillLoop_ hR i _

theorem peStartFrame_ (hR : StepWrites R) (i : Nat) : (peStartFrame i).Follows R :=
  bind hR (pulseEngineOf_ hR i) fun _ => bind hR (mod fun s => hR.slot s i _) fun _ =>
    bind hR (modPu_ hR _ _ fun _ => List.prefix_rfl) fun _ => bind hR (peFill_ hR i) fun _ =>
      bind hR (modEngine_ hR i _) fun _ => puStart_ hR _

theorem peIsr_ (hR : StepWrites R) (i : Nat) : (peIsr i).Follows R :=
  bind hR (pulseEngineOf_ hR i) fun _ => bind hR (get hR) fun _ =>
    ite (bind hR (modPu_ hR _ _ fun _ => List.prefix_rfl) fun _ =>
          ite (modEngine_ hR i _)
            (bind hR (modSlot_ hR i _) fun _ => bind hR (modPu_ hR _ _ fun _ => List.prefix_rfl) fun _ => raise_ hR _))
      (ite (bind hR (modPu_ hR _ _ fun _ => List.prefix_rfl) fun _ => ite (peFill_ hR i) (pure hR _)) (pure hR _))

theorem peIdle_ (hR : StepWrites R) (i : Nat) : (peIdle i).Follows R :=
  bind hR (pulseEngineOf_ hR i) fun _ => bind hR (get hR) fun _ => bind hR (guardStep_ hR _ _) fun _ =>
    modEngine_ hR i _

/-! ## The serial engine -/

theorem setSerialSeq_ (hR : StepWrites R) (i : Nat) (q : SerialSeq) : (setSerialSeq i q).Follows R :=
  modEngine_ hR i _

theorem seBegin_ (hR : StepWrites R) (i : Nat) : (seBegin i).Follows R :=
  bind hR (serialEngineOf_ hR i) fun a => bind hR (get hR) fun s => bind hR (raiseIf_ hR _ _) fun _ => by
    cases serialConstantsOf s.board (s.slot i).variant with
    | none => exact refuse_ _
    | some pc =>
      exact bind hR (xlatBuildSerial_ hR _ _ _ _) fun _ => bind hR (refuseIf_ hR _ _) fun _ =>
        bind hR (refuseIf_ hR _ _) fun _ => bind hR (modEngine_ hR i _) fun _ =>
          modSu_ hR _ _ fun _ => List.prefix_rfl

theorem seFixed_ (hR : StepWrites R) (i : Nat) (q : SerialSeq) (xs : List Byte) (next : SPhase) :
    (seFixed i q xs next).Follows R := by
  unfold seFixed; split <;> exact setSerialSeq_ hR i _

theorem sePass_ (hR : StepWrites R) (i : Nat) : (sePass i).Follows R :=
  bind hR (serialEngineOf_ hR i) fun a => by
    obtain ⟨e, q, l⟩ := a
    refine bind hR (latched_ hR l _) fun l => ?_
    cases q.curByte with
    | some b =>
      simp only
      split
      · exact bind hR (setSerialSeq_ hR i _) fun _ => bind hR (xlatLookupSerial_ hR i _) fun _ => pure hR _
      · exact bind hR (setSerialSeq_ hR i _) fun _ => bind hR (xlatLookupSerial_ hR i _) fun _ => pure hR _
    | none =>
      cases q.sphase with
      | framePrefix =>
        exact bind hR (drvMoreData_ hR i) fun _ => bind hR (seFixed_ hR i _ _ _) fun _ => pure hR _
      | pixelPrefix => exact bind hR (seFixed_ hR i _ _ _) fun _ => pure hR _
      | pixelData =>
        exact bind hR (drvMoreData_ hR i) fun _ =>
          ite (bind hR (drvNextByte_ hR i) fun _ => bind hR (serialEngineOf_ hR i) fun _ =>
                bind hR (drvMoreData_ hR i) fun _ => bind hR (setSerialSeq_ hR i _) fun _ => pure hR _)
            (bind hR (setSerialSeq_ hR i _) fun _ => pure hR _)
      | pixelSuffix =>
        exact bind hR (drvMoreData_ hR i) fun _ => bind hR (seFixed_ hR i _ _ _) fun _ => pure hR _
      | frameSuffix =>
        simp only
        split
        · exact bind hR (setSerialSeq_ hR i _) fun _ => pure hR _
        · exact bind hR (setSerialSeq_ hR i _) fun _ => pure hR _
      | done => exact pure hR _

theorem seLoop_ (hR : StepWrites R) (i : Nat) : ∀ n, (seLoop i n).Follows R
  | 0 => fail_ (by simp)
  | n + 1 => bind hR (sePass_ hR i) fun r => by
      cases r with
      | none => exact seLoop_ hR i n
      | some p => exact pure hR p

theorem seFillLoop_ (hR : StepWrites R) (i : Nat) : ∀ n, (seFillLoop i n).Follows R
  | 0 => pure hR ()
  | n + 1 => bind hR (serialEngineOf_ hR i) fun a => bind hR (get hR) fun s =>
      ite (bind hR (seLoop_ hR i 5) fun r => by
            cases r with
            | none => exact seFillLoop_ hR i n
            | some p => exact bind hR (modSu_ hR _ _ fun _ => List.prefix_rfl) fun _ => seFillLoop_ hR i n)
        (pure hR _)

theorem seFill_ (hR : StepWrites R) (i : Nat) : (seFill i).Follows R :=
  bind hR (get hR) fun _ => seFillLoop_ hR i _

theorem seStartFrame_ (hR : StepWrites R) (i : Nat) : (seStartFrame i).Follows R :=
  bind hR (serialEngineOf_ hR i) fun _ => bind hR (mod fun s => hR.slot s i _) fun _ =>
    bind hR (modSu_ hR _ _ fun _ => List.prefix_rfl) fun _ => bind hR (seFill_ hR i) fun _ =>
      bind hR (modEngine_ hR i _) fun _ => suStart_ hR _

theorem seIsr_ (hR : StepWrites R) (i : Nat) : (seIsr i).Follows R :=
  bind hR (serialEngineOf_ hR i) fun _ => bind hR (get hR) fun _ =>
    ite (bind hR (modSu_ hR _ _ fun _ => List.prefix_rfl) fun _ =>
          ite (modEngine_ hR i _)
            (bind hR (modSlot_ hR i _) fun _ => bind hR (modSu_ hR _ _ fun _ => List.prefix_rfl) fun _ => raise_ hR _))
      (ite (bind hR (modSu_ hR _ _ fun _ => List.prefix_rfl) fun _ => ite (seFill_ hR i) (pure hR _)) (pure hR _))

theorem seIdle_ (hR : StepWrites R) (i : Nat) : (seIdle i).Follows R :=
  bind hR (serialEngineOf_ hR i) fun _ => bind hR (get hR) fun _ => bind hR (guardStep_ hR _ _) fun _ =>
    modEngine_ hR i _

/-! ## The driver -/

theorem drvConstruct_ (hR : StepWrites R) (i : Nat) (v : Variant) : (drvConstruct i v).Follows R :=
  bind hR (get hR) fun s => bind hR (raiseIf_ hR _ _) fun _ => bind hR (refuseIf_ hR _ _) fun _ =>
    bind hR (refuseIf_ hR _ _) fun _ => by
      cases engineFor v (s.periph i) with
      | none => exact refuse_ _
      | some e => exact modSlot_ hR i _

theorem quietUnit_ (hR : StepWrites R) (e : Engine) : (quietUnit e).Follows R := by
  unfold quietUnit
  cases e.kind with
  | pulse => exact modPu_ hR _ _ fun _ => List.prefix_rfl
  | serial => exact modSu_ hR _ _ fun _ => List.prefix_rfl

theorem drvStop_ (hR : StepWrites R) (i : Nat) : (drvStop i).Follows R :=
  bind hR (get hR) fun s => by
    cases (s.slot i).eng with
    | none => exact pure hR _
    | some e =>
      exact bind hR (raiseIf_ hR _ _) fun _ => bind hR (modEngine_ hR i _) fun _ => quietUnit_ hR e

theorem engineBegin_ (hR : StepWrites R) (i : Nat) : (engineBegin i).Follows R :=
  bind hR (get hR) fun s => by
    cases engineKindOf (s.slot i).variant with
    | none => exact pure hR _
    | some k =>
      cases k with
      | pulse => exact peBegin_ hR i
      | serial => exact seBegin_ hR i

theorem startFrame_ (hR : StepWrites R) (i : Nat) : (startFrame i).Follows R :=
  bind hR (get hR) fun s => by
    cases engineKindOf (s.slot i).variant with
    | none => exact pure hR _
    | some k =>
      cases k with
      | pulse => exact peStartFrame_ hR i
      | serial => exact seStartFrame_ hR i

theorem drvBegin_ (hR : StepWrites R) (i : Nat) : (drvBegin i).Follows R := by
  refine bind hR (get hR) fun s => bind hR (raiseIf_ hR _ _) fun _ => ?_
  split
  · exact pure hR _
  · split
    · refine bind hR (drawPeriphInit_ hR i) fun ok => ?_
      split
      · exact bind hR (engineBegin_ hR i) fun _ => modSlot_ hR i _
      · exact bind hR (modSlot_ hR i _) fun _ => logDiag_ hR i _
    · exact modSlot_ hR i _

theorem drvSetConfig_ (hR : StepWrites R) (i : Nat) (p : ParamObject) : (drvSetConfig i p).Follows R := by
  refine bind hR (get hR) fun s => bind hR (raiseIf_ hR _ _) fun _ => ?_
  split
  · exact pure hR _
  · split
    · cases mergeDriverCfg (s.slot i).cfg p with
      | none => exact refuse_ _
      | some c =>
        exact bind hR (refuseIf_ hR _ _) fun _ => bind hR (modSlot_ hR i _) fun _ =>
          ite (engineBegin_ hR i) (pure hR _)
    · exact modSlot_ hR i _

theorem drvRender_ (hR : StepWrites R) (i : Nat) : (drvRender i).Follows R :=
  bind hR (get hR) fun s => by
    cases (s.slot i).eng with
    | none => exact pure hR _
    | some e =>
      simp only
      split
      · exact pure hR _
      · split
        · exact modSlot_ hR i _
        · exact startFrame_ hR i

theorem drvPause_ (hR : StepWrites R) (i : Nat) : (drvPause i).Follows R := modSlot_ hR i _

theorem drvResume_ (hR : StepWrites R) (i : Nat) : (drvResume i).Follows R :=
  bind hR (get hR) fun _ => modSlot_ hR i _

theorem drvSetBuffer_ (hR : StepWrites R) (i o n : Nat) : (drvSetBuffer i o n).Follows R :=
  bind hR (get hR) fun _ => bind hR (raiseIf_ hR _ _) fun _ => bind hR (refuseIf_ hR _ _) fun _ => modSlot_ hR i _

/-! ## The manager -/

theorem mgrResolveEntry_ (hR : StepWrites R) (i : Nat) (doc : ConfigDoc) : (mgrResolveEntry i doc).Follows R :=
  bind hR (get hR) fun s => by
    cases resolve s i doc with
    | bind v p => exact pure hR _
    | bad r => exact bind hR (logDiag_ hR i _) fun _ => pure hR _

theorem applySlot_ (hR : StepWrites R) (doc : ConfigDoc) (i : Nat) : (applySlot doc i).Follows R :=
  bind hR (mgrResolveEntry_ hR i doc) fun _ => bind hR (get hR) fun _ =>
    ite (drvSetConfig_ hR i _)
      (bind hR (drvStop_ hR i) fun _ => bind hR (drvConstruct_ hR i _) fun _ =>
        bind hR (drvSetConfig_ hR i _) fun _ => drvBegin_ hR i)

theorem mgrApplyConfig_ (hR : StepWrites R) (doc : ConfigDoc) : (mgrApplyConfig doc).Follows R :=
  bind hR (get hR) fun _ => forEach_ hR (applySlot_ hR doc) _

theorem mgrNotifyCapacity_ (hR : StepWrites R) : mgrNotifyCapacity.Follows R := mod fun s => hR.capacity s _

theorem partitionSlot_ (hR : StepWrites R) (i off : Nat) : (partitionSlot i off).Follows R := by
  refine bind hR (get hR) fun s => ?_
  simp only
  split
  · exact bind hR (logDiag_ hR i _) fun _ => bind hR (drvSetBuffer_ hR i _ _) fun _ => pure hR _
  · exact bind hR (drvSetBuffer_ hR i _ _) fun _ => pure hR _

theorem partitionFrom_ (hR : StepWrites R) : ∀ xs off, (partitionFrom off xs).Follows R
  | [], _ => pure hR _
  | i :: rest, off => bind hR (partitionSlot_ hR i off) fun next => partitionFrom_ hR rest next

theorem mgrUpdatePartition_ (hR : StepWrites R) : mgrUpdatePartition.Follows R :=
  bind hR (get hR) fun _ => bind hR (partitionFrom_ hR _ _) fun _ =>
    bind hR (mod fun s => hR.totalUsed s _) fun _ => mgrNotifyCapacity_ hR

theorem mgrBegin_ (hR : StepWrites R) : mgrBegin.Follows R :=
  bind hR (get hR) fun s => ite (pure hR _)
    (bind hR (refuseIf_ hR _ _) fun _ =>
      bind hR (forEach_ hR (fun i => bind hR (drvConstruct_ hR i _) fun _ => drvBegin_ hR i) _) fun _ =>
        bind hR (bind hR (drawPersistLoad_ hR) fun r => bind hR (get hR) fun s => by
            cases r with
            | some d => exact pure hR d
            | none => exact bind hR (mod fun s => hR.persisted s _) fun _ => pure hR _) fun doc =>
          bind hR (mgrApplyConfig_ hR doc) fun _ => bind hR (mgrUpdatePartition_ hR) fun _ =>
            mod fun s => hR.begun s)

theorem mgrReload_ (hR : StepWrites R) : mgrReload.Follows R :=
  bind hR (mod fun s => hR.reloadPaused s true) fun _ => bind hR (get hR) fun s =>
    bind hR (forEach_ hR (drvPause_ hR) _) fun _ => ite (pure hR _) (by
      cases s.pending with
      | none => exact fail_ (by simp)
      | some doc =>
        exact bind hR (mgrApplyConfig_ hR doc) fun _ => bind hR (mgrUpdatePartition_ hR) fun _ =>
          bind hR (mod fun s => hR.trans (hR.pending s none) (hR.reloadPaused { s with pending := none } false))
            fun _ => forEach_ hR (drvResume_ hR) _)

theorem mgrRender_ (hR : StepWrites R) : mgrRender.Follows R := by
  refine bind hR (get hR) fun s => ?_
  split
  · exact bind hR (mgrReload_ hR) fun _ => bind hR (get hR) fun _ =>
      ite (pure hR _) (mod fun s => hR.renderPos s _)
  · exact bind hR (get hR) fun _ => ite (pure hR _) (mod fun s => hR.renderPos s _)

theorem renderSubstep_ (hR : StepWrites R) : renderSubstep.Follows R :=
  bind hR (get hR) fun s => by
    cases s.renderPos with
    | none => exact fail_ (by simp)
    | some i => exact bind hR (drvRender_ hR i) fun _ => mod fun s => hR.renderPos s _

theorem mgrPause_ (hR : StepWrites R) : mgrPause.Follows R :=
  bind hR (mod fun s => hR.userPaused s true) fun _ => bind hR (get hR) fun _ => forEach_ hR (drvPause_ hR) _

theorem mgrResume_ (hR : StepWrites R) : mgrResume.Follows R :=
  bind hR (mod fun s => hR.userPaused s false) fun _ => bind hR (get hR) fun _ => forEach_ hR (drvResume_ hR) _

/-! ## Interrupt entry and the host -/

theorem irqEntry_ (hR : StepWrites R) (i : Nat) : (irqEntry i).Follows R :=
  bind hR (get hR) fun s => by
    cases (s.slot i).eng with
    | none => exact fail_ (by simp)
    | some e =>
      refine bind hR (guardStep_ hR _ _) fun _ => ?_
      cases e.kind with
      | pulse => exact peIsr_ hR i
      | serial => exact seIsr_ hR i

theorem hostBufWrite_ (hR : StepWrites R) (a : Nat) (v : Byte) : (hostBufWrite a v).Follows R :=
  bind hR (get hR) fun s => bind hR (raiseIf_ hR _ _) fun _ => by
    cases s.slotIndices.find? (fun i => (s.slot i).ownsDuringFrame a) with
    | none => exact mod fun s => hR.byte s a v
    | some i => exact raise_ hR _

/-- The outcome of a step whose operation follows `R`. -/
theorem runStep_ (hM : ∀ (s : State) r, R s { s with refused := some r }) {x : Op Unit} (hx : x.Follows R) {s t : State}
    (h : runStep s x = .next t) : R s t := by
  have hs := hx s
  rcases runStep_next h with h | h | ⟨r, u, h, rfl⟩
  · rw [h] at hs; exact hs
  · rw [h] at hs; exact hs
  · exact hM s r

end Follows

/-- What one instruction can write. -/
theorem exec_writes {R : State → State → Prop} (hR : StepWrites R)
    (hM : ∀ (s : State) r, R s { s with refused := some r }) (i : Instr) {s t : State} (h : exec i s = .next t) :
    R s t := by
  open Follows in
  cases i with
  | mgrBegin => exact runStep_ hM (bind hR (admitTurn_ hR _) fun _ => mgrBegin_ hR) h
  | mgrSetConfig doc =>
    exact runStep_ hM (bind hR (admitOperands_ hR _) fun _ => bind hR (admitBegun_ hR) fun _ =>
      bind hR (admitTurn_ hR _) fun _ => mod fun s => hR.pending s _) h
  | mgrGetConfig =>
    exact runStep_ hM (bind hR (admitBegun_ hR) fun _ => bind hR (admitTurn_ hR _) fun _ => answer_ hR _) h
  | mgrGetStatus =>
    exact runStep_ hM (bind hR (admitBegun_ hR) fun _ => bind hR (admitTurn_ hR _) fun _ => answer_ hR _) h
  | mgrRender => exact runStep_ hM (bind hR (admitBegun_ hR) fun _ => bind hR (admitTurn_ hR _) fun _ => mgrRender_ hR) h
  | mgrPause => exact runStep_ hM (bind hR (admitBegun_ hR) fun _ => bind hR (admitTurn_ hR _) fun _ => mgrPause_ hR) h
  | mgrResume => exact runStep_ hM (bind hR (admitBegun_ hR) fun _ => bind hR (admitTurn_ hR _) fun _ => mgrResume_ hR) h
  | mgrReload => exact runStep_ hM (bind hR (guardStep_ hR _ _) fun _ => mgrReload_ hR) h
  | mgrApplyConfig doc =>
    exact runStep_ hM (bind hR (admitOperands_ hR _) fun _ => bind hR (guardStep_ hR _ _) fun _ =>
      mgrApplyConfig_ hR doc) h
  | mgrResolveEntry i doc =>
    exact runStep_ hM (bind hR (admitSlot_ hR i) fun _ => bind hR (admitOperands_ hR _) fun _ =>
      bind hR (mgrResolveEntry_ hR i doc) fun _ => answer_ hR _) h
  | mgrUpdatePartition => exact runStep_ hM (bind hR (guardStep_ hR _ _) fun _ => mgrUpdatePartition_ hR) h
  | mgrNotifyCapacity => exact runStep_ hM (mgrNotifyCapacity_ hR) h
  | drvConstruct i v => exact runStep_ hM (bind hR (admitSlot_ hR i) fun _ => drvConstruct_ hR i v) h
  | drvStop i => exact runStep_ hM (bind hR (admitSlot_ hR i) fun _ => drvStop_ hR i) h
  | drvBegin i =>
    exact runStep_ hM (bind hR (admitSlot_ hR i) fun _ => bind hR (admitBegun_ hR) fun _ =>
      bind hR (admitTurn_ hR _) fun _ => drvBegin_ hR i) h
  | drvSetConfig i p =>
    exact runStep_ hM (bind hR (admitSlot_ hR i) fun _ => bind hR (admitOperands_ hR _) fun _ =>
      bind hR (admitBegun_ hR) fun _ => bind hR (admitTurn_ hR _) fun _ => drvSetConfig_ hR i p) h
  | drvGetConfig i =>
    exact runStep_ hM (bind hR (admitSlot_ hR i) fun _ => bind hR (admitBegun_ hR) fun _ =>
      bind hR (admitTurn_ hR _) fun _ => answer_ hR _) h
  | drvRender i =>
    exact runStep_ hM (bind hR (admitSlot_ hR i) fun _ => bind hR (admitBegun_ hR) fun _ =>
      bind hR (admitTurn_ hR _) fun _ => drvRender_ hR i) h
  | drvGetStatus i =>
    exact runStep_ hM (bind hR (admitSlot_ hR i) fun _ => bind hR (admitBegun_ hR) fun _ =>
      bind hR (admitTurn_ hR _) fun _ => answer_ hR _) h
  | drvPause i => exact runStep_ hM (bind hR (admitSlot_ hR i) fun _ => drvPause_ hR i) h
  | drvResume i => exact runStep_ hM (bind hR (admitSlot_ hR i) fun _ => drvResume_ hR i) h
  | drvSetBuffer i o n => exact runStep_ hM (bind hR (admitSlot_ hR i) fun _ => drvSetBuffer_ hR i o n) h
  | drvMoreData i =>
    exact runStep_ hM (bind hR (admitSlot_ hR i) fun _ => bind hR (drvMoreData_ hR i) fun _ => answer_ hR _) h
  | drvNextByte i =>
    exact runStep_ hM (bind hR (admitSlot_ hR i) fun _ => bind hR (drvMoreData_ hR i) fun _ =>
      bind hR (guardStep_ hR _ _) fun _ => bind hR (drvNextByte_ hR i) fun _ => answer_ hR _) h
  | drvNeeded i => exact runStep_ hM (bind hR (admitSlot_ hR i) fun _ => answer_ hR _) h
  | xlatSplit b G => exact runStep_ hM (bind hR (xlatSplit_ hR b G) fun _ => answer_ hR _) h
  | xlatLookupPulse i c =>
    exact runStep_ hM (bind hR (admitSlot_ hR i) fun _ => bind hR (admitKind_ hR i _) fun _ =>
      bind hR (xlatLookupPulseCode_ hR i c) fun _ => answer_ hR _) h
  | xlatLookupSerial i g =>
    exact runStep_ hM (bind hR (admitSlot_ hR i) fun _ => bind hR (admitKind_ hR i _) fun _ =>
      bind hR (xlatLookupSerial_ hR i g) fun _ => answer_ hR _) h
  | xlatBuildSerial G S H0 H1 =>
    exact runStep_ hM (bind hR (xlatBuildSerial_ hR G S H0 H1) fun _ => answer_ hR _) h
  | xlatEncodePulse i b =>
    exact runStep_ hM (bind hR (admitSlot_ hR i) fun _ => bind hR (admitKind_ hR i _) fun _ =>
      bind hR (xlatEncodePulse_ hR i b) fun _ => answer_ hR _) h
  | xlatEncodeSerial i b =>
    exact runStep_ hM (bind hR (admitSlot_ hR i) fun _ => bind hR (admitKind_ hR i _) fun _ =>
      bind hR (xlatEncodeSerial_ hR i b) fun _ => answer_ hR _) h
  | peBegin i => exact runStep_ hM (bind hR (admitSlot_ hR i) fun _ => peBegin_ hR i) h
  | peStartFrame i =>
    exact runStep_ hM (bind hR (admitSlot_ hR i) fun _ => bind hR (pulseEngineOf_ hR i) fun _ =>
      bind hR (guardStep_ hR _ _) fun _ => peStartFrame_ hR i) h
  | peNextItem i =>
    exact runStep_ hM (bind hR (admitSlot_ hR i) fun _ => bind hR (pulseEngineOf_ hR i) fun _ =>
      bind hR (guardStep_ hR _ _) fun _ => bind hR (peLoop_ hR i 3) fun _ => answer_ hR _) h
  | peFill i =>
    exact runStep_ hM (bind hR (admitSlot_ hR i) fun _ => bind hR (pulseEngineOf_ hR i) fun _ =>
      bind hR (guardStep_ hR _ _) fun _ => peFill_ hR i) h
  | peIsr i =>
    exact runStep_ hM (bind hR (admitSlot_ hR i) fun _ => bind hR (pulseEngineOf_ hR i) fun _ =>
      bind hR (guardStep_ hR _ _) fun _ => peIsr_ hR i) h
  | peIdle i => exact runStep_ hM (bind hR (admitSlot_ hR i) fun _ => peIdle_ hR i) h
  | seBegin i => exact runStep_ hM (bind hR (admitSlot_ hR i) fun _ => seBegin_ hR i) h
  | seStartFrame i =>
    exact runStep_ hM (bind hR (admitSlot_ hR i) fun _ => bind hR (serialEngineOf_ hR i) fun _ =>
      bind hR (guardStep_ hR _ _) fun _ => seStartFrame_ hR i) h
  | seNextItem i =>
    exact runStep_ hM (bind hR (admitSlot_ hR i) fun _ => bind hR (serialEngineOf_ hR i) fun _ =>
      bind hR (guardStep_ hR _ _) fun _ => bind hR (seLoop_ hR i 5) fun _ => answer_ hR _) h
  | seFill i =>
    exact runStep_ hM (bind hR (admitSlot_ hR i) fun _ => bind hR (serialEngineOf_ hR i) fun _ =>
      bind hR (guardStep_ hR _ _) fun _ => seFill_ hR i) h
  | seIsr i =>
    exact runStep_ hM (bind hR (admitSlot_ hR i) fun _ => bind hR (serialEngineOf_ hR i) fun _ =>
      bind hR (guardStep_ hR _ _) fun _ => seIsr_ hR i) h
  | seIdle i => exact runStep_ hM (bind hR (admitSlot_ hR i) fun _ => seIdle_ hR i) h
  | puStart i =>
    exact runStep_ hM (bind hR (admitSlot_ hR i) fun _ => bind hR (pulseEngineOf_ hR i) fun _ =>
      bind hR (guardStep_ hR _ _) fun _ => puStart_ hR _) h
  | puEmit i => exact runStep_ hM (bind hR (admitSlot_ hR i) fun _ => puEmit_ hR i) h
  | suStart i =>
    exact runStep_ hM (bind hR (admitSlot_ hR i) fun _ => bind hR (serialEngineOf_ hR i) fun _ =>
      bind hR (guardStep_ hR _ _) fun _ => suStart_ hR _) h
  | suShift i => exact runStep_ hM (bind hR (admitSlot_ hR i) fun _ => suShift_ hR i) h
  | timerTick n =>
    exact runStep_ hM (bind hR (admitOperands_ hR _) fun _ => mod fun s => hR.now s n) h
  | irqEntry i => exact runStep_ hM (bind hR (admitSlot_ hR i) fun _ => irqEntry_ hR i) h
  | hostBufWrite a v => exact runStep_ hM (hostBufWrite_ hR a v) h

/-- What one command can write. -/
theorem runCommand_writes {R : State → State → Prop} (hR : StepWrites R)
    (hM : ∀ (s : State) r, R s { s with refused := some r }) (c : Command) {s t : State}
    (h : runCommand c s = .next t) : R s t := by
  open Follows in
  unfold runCommand at h
  cases hd : decode c with
  | instr i => rw [hd] at h; exact exec_writes hR hM i h
  | unassigned => rw [hd] at h; exact runStep_ hM (refuse_ _) h
  | badSlot => rw [hd] at h; exact runStep_ hM (refuse_ _) h
  | illFormed op slot =>
    rw [hd] at h
    refine runStep_ hM (bind hR ?_ fun _ => bind hR ?_ fun _ => refuse_ _) h
    · exact ite (Follows.pure hR _) (admitSlot_ hR slot)
    · unfold admitOpKind
      cases engineNeed op with
      | none => exact Follows.pure hR _
      | some k => exact admitKind_ hR slot k

/-- What one step can write: the schedule's head goes, then the writes of the move it held. -/
theorem step_writes {R : State → State → Prop} (hR : StepWrites R)
    (hM : ∀ (s : State) r, R s { s with refused := some r }) (hS : ∀ (s : State) m, R s { s with schedule := m })
    {s t : State} (h : step s = .next t) : R s t := by
  open Follows in
  unfold step at h
  split at h
  · cases h; exact hR.refl s
  · exact hR.trans (hS s _) (runCommand_writes hR hM _ h)
  · exact hR.trans (hS s _) (runStep_ hM (renderSubstep_ hR) h)

end Sys2Proof.Machine
end

