-- ==== Sys2Proof/Tests/Slice0.lean ====
section
/-! SUPPORT. Tests: ill-formed instructions, every constructor's decoding from a word written out by hand, single steps
with the results spec/95_test_vectors.md gives, and for every statement that has hypotheses a state that meets them. -/

namespace Sys2Proof.Slice0Tests

open Sys2Proof.Machine

/-! ## Helpers -/

def five : ParamObject := [("pixelCount", .nat 5)]

/-- Slot 0 of code 1 (WS2811-pulse) and slot 1 of code 2 (WS2811-serial), five pixels each (spec 95, program 3). -/
def doc2 : ConfigDoc := { version := 1, channels := [(0, ⟨some 1, [(1, five)]⟩), (1, ⟨some 2, [(2, five)]⟩)] }

/-- A value of the next state. -/
def seen {α : Type} (o : Host.Outcome State Fault Refusal) (f : State → α) : Option α :=
  match o with
  | .next t => some (f t)
  | .fault _ => none
  | .refused _ => none

/-- The step does not exist. -/
def absent (o : Host.Outcome State Fault Refusal) : Option Refusal :=
  match o with
  | .next _ => none
  | .fault _ => none
  | .refused r => some r

/-- Set W of spec 95, latched. -/
def latW : PulseLatch :=
  { ptable := Config.exampleW.ptable, preIdle := 0, postIdle := 2, gapFlag := false, W := 8 }

/-- Set S of spec 95, latched. -/
def latS : SerialLatch :=
  { G := 2, S := 4, D := 6, stable := [0x37#8, 0x07#8, 0x34#8, 0x04#8], FP := [], FS := [], PP := [], PS := [], C := 1 }

def p0 : PulseDescriptor := ⟨1, 8, 0, 17⟩
def p1 : PulseDescriptor := ⟨1, 17, 0, 8⟩
def pI : PulseDescriptor := ⟨0, 25, 0, 25⟩

def pDone : PulseSeq := { phase := .done, idleIdx := 0, curByte := none, bitIdx := 0 }
def sDone : SerialSeq := { sphase := .done, seqIdx := 0, curByte := none, groupIdx := 0 }

/-- A pulse engine of unit 0, its interrupts enabled while it drains. -/
def pEng (ts : TState) (q : PulseSeq) (l : Option PulseLatch) : Engine :=
  { unit := 0, tstate := ts, cursor := 0, frameStart := none, enLow := decide (ts = .draining),
    enEnd := decide (ts = .draining), core := .pulse q l }

/-- A serial engine of unit 0, its interrupts enabled while it drains. -/
def sEng (ts : TState) (q : SerialSeq) (l : Option SerialLatch) : Engine :=
  { unit := 0, tstate := ts, cursor := 0, frameStart := none, enLow := decide (ts = .draining),
    enEnd := decide (ts = .draining), core := .serial q l }

/-- A Ready WS2811-pulse driver whose slice is `(0, n)`. -/
def pDrv (e : Engine) (n : Nat) : DriverState :=
  { variant := .ws2811Pulse, status := .ready, cfg := .encoder { Config.exampleCfg with pixelCount := n }, needed := n,
    offset := 0, length := n, paused := false, frameCount := 0, droppedCount := 0, hwErrorCount := 0,
    hwInitFailed := false, eng := some e }

/-- A Ready WS2811-serial driver whose slice is `(4, n)`. -/
def sDrv (e : Engine) (n : Nat) : DriverState :=
  { variant := .ws2811Serial, status := .ready, cfg := .encoder { Config.exampleCfg with pixelCount := n }, needed := n,
    offset := 4, length := n, paused := false, frameCount := 0, droppedCount := 0, hwErrorCount := 0,
    hwInitFailed := false, eng := some e }

/-- A begun block with two drivers, the bytes 0x80, 0x01 at 0 and 0xB4 at 4. -/
def block (p d : DriverState) : State :=
  { State.reset with begun := true, slots := [(0, p), (1, d)], buf := [(0, 0x80#8), (1, 0x01#8), (4, 0xB4#8)] }

/-- Both engines Idle, slices of two bytes and of one. -/
def idle : State := block (pDrv (pEng .idle pDone (some latW)) 2) (sDrv (sEng .idle sDone (some latS)) 1)

/-- The same with both engines in another state, their sequencers at `q` and `r`. -/
def inState (ts : TState) (q : PulseSeq) (r : SerialSeq) : State :=
  block (pDrv (pEng ts q (some latW)) 2) (sDrv (sEng ts r (some latS)) 1)

/-- Both units busy with three items staged. -/
def busyUnits (s : State) : State :=
  (s.setPu 0 { PulseUnit.powerOn false with ring := [p1, p0, p0], busy := true }).setSu 0
    { SerialUnit.powerOn false with fifo := [0x34#8, 0x04#8, 0x07#8], busy := true, D := 6 }

/-- Both engines Draining in mid-frame, their units busy. -/
def draining : State := busyUnits (inState .draining pulseSeqStart serialSeqStart)

/-- An END request on both units. -/
def ended (s : State) : State :=
  (s.setPu 0 { PulseUnit.powerOn false with pendEnd := true, pendLow := true }).setSu 0
    { SerialUnit.powerOn false with pendEnd := true, pendLow := true }

/-- A LOW request on both units, one item staged. -/
def low (s : State) : State :=
  (s.setPu 0 { PulseUnit.powerOn false with pendLow := true, ring := [p1], busy := true }).setSu 0
    { SerialUnit.powerOn false with pendLow := true, fifo := [0x34#8], busy := true }

/-! ## Ill-formed instructions (WellFormed) -/

theorem test_slot_field_has_eight_bits :
    (Instr.drvRender 256).wellFormed = false ∧ (Instr.irqEntry 256).wellFormed = false ∧
      (Instr.drvRender 255).wellFormed = true := by decide

theorem test_tick_of_zero_is_ill_formed :
    (Instr.timerTick 0).wellFormed = false ∧ (Instr.timerTick 1).wellFormed = true := by decide

theorem test_document_with_a_slot_twice_is_ill_formed :
    (Instr.mgrSetConfig ⟨1, [(0, ⟨none, []⟩), (0, ⟨none, []⟩)]⟩).wellFormed = false ∧
      (Instr.mgrApplyConfig ⟨1, [(0, ⟨some 1, [(1, []), (1, [])]⟩)]⟩).wellFormed = false ∧
      (Instr.mgrResolveEntry 0 ⟨1, [(0, ⟨some 1, [(1, five ++ five)]⟩)]⟩).wellFormed = false ∧
      (Instr.mgrSetConfig doc2).wellFormed = true := by decide

theorem test_parameters_with_a_key_twice_are_ill_formed :
    (Instr.drvSetConfig 0 (five ++ five)).wellFormed = false ∧ (Instr.drvSetConfig 0 five).wellFormed = true := by
  decide

/-! ## Decoding, from the table of R112 -/

theorem test_decode_manager :
    decode ⟨0b0000000100000000#16, []⟩ = .instr .mgrBegin ∧
    decode ⟨0b0000001000000000#16, [(.doc, .doc doc2)]⟩ = .instr (.mgrSetConfig doc2) ∧
    decode ⟨0b0000001100000000#16, []⟩ = .instr .mgrGetConfig ∧
    decode ⟨0b0000010000000000#16, []⟩ = .instr .mgrGetStatus ∧
    decode ⟨0b0000010100000000#16, []⟩ = .instr .mgrRender ∧
    decode ⟨0b0000011000000000#16, []⟩ = .instr .mgrPause ∧
    decode ⟨0b0000011100000000#16, []⟩ = .instr .mgrResume ∧
    decode ⟨0b0000100000000000#16, []⟩ = .instr .mgrReload ∧
    decode ⟨0b0000100100000000#16, [(.doc, .doc doc2)]⟩ = .instr (.mgrApplyConfig doc2) ∧
    decode ⟨0b0000101000000001#16, [(.doc, .doc doc2)]⟩ = .instr (.mgrResolveEntry 1 doc2) ∧
    decode ⟨0b0000101100000000#16, []⟩ = .instr .mgrUpdatePartition ∧
    decode ⟨0b0000110000000000#16, []⟩ = .instr .mgrNotifyCapacity := by
  decide

theorem test_decode_driver :
    decode ⟨0b0001000000000000#16, [(.v, .variant .tm1814Serial)]⟩ = .instr (.drvConstruct 0 .tm1814Serial) ∧
    decode ⟨0b0001000111111111#16, []⟩ = .instr (.drvStop 255) ∧
    decode ⟨0b0001001010000000#16, []⟩ = .instr (.drvBegin 128) ∧
    decode ⟨0b0001001100000010#16, [(.params, .params five)]⟩ = .instr (.drvSetConfig 2 five) ∧
    decode ⟨0b0001010001010101#16, []⟩ = .instr (.drvGetConfig 85) ∧
    decode ⟨0b0001010110101010#16, []⟩ = .instr (.drvRender 170) ∧
    decode ⟨0b0001011001000000#16, []⟩ = .instr (.drvGetStatus 64) ∧
    decode ⟨0b0001011100000111#16, []⟩ = .instr (.drvPause 7) ∧
    decode ⟨0b0001100011111110#16, []⟩ = .instr (.drvResume 254) ∧
    decode ⟨0b0001100100000001#16, [(.length, .num 3), (.offset, .num 512)]⟩ = .instr (.drvSetBuffer 1 512 3) ∧
    decode ⟨0b0001101000000000#16, []⟩ = .instr (.drvMoreData 0) ∧
    decode ⟨0b0001101111111111#16, []⟩ = .instr (.drvNextByte 255) ∧
    decode ⟨0b0001110010000000#16, []⟩ = .instr (.drvNeeded 128) := by
  decide

theorem test_decode_translation :
    decode ⟨0b0010000000000000#16, [(.b, .num 180), (.G, .num 2)]⟩ = .instr (.xlatSplit 0xB4#8 2) ∧
    decode ⟨0b0010000100000010#16, [(.s, .num 3)]⟩ = .instr (.xlatLookupPulse 2 3) ∧
    decode ⟨0b0010001001010101#16, [(.g, .num 2)]⟩ = .instr (.xlatLookupSerial 85 2) ∧
    decode ⟨0b0010001100000000#16, [(.G, .num 2), (.S, .num 4), (.H0, .num 1), (.H1, .num 3)]⟩ =
      .instr (.xlatBuildSerial 2 4 1 3) ∧
    decode ⟨0b0010010010101010#16, [(.b, .num 255)]⟩ = .instr (.xlatEncodePulse 170 0xFF#8) ∧
    decode ⟨0b0010010101000000#16, [(.b, .num 1)]⟩ = .instr (.xlatEncodeSerial 64 0x01#8) := by
  decide

theorem test_decode_pulse_engine :
    decode ⟨0b0011000000000111#16, []⟩ = .instr (.peBegin 7) ∧
    decode ⟨0b0011000111111110#16, []⟩ = .instr (.peStartFrame 254) ∧
    decode ⟨0b0011001000000001#16, []⟩ = .instr (.peNextItem 1) ∧
    decode ⟨0b0011001100000000#16, []⟩ = .instr (.peFill 0) ∧
    decode ⟨0b0011010011111111#16, []⟩ = .instr (.peIsr 255) ∧
    decode ⟨0b0011010110000000#16, []⟩ = .instr (.peIdle 128) := by
  decide

theorem test_decode_serial_engine :
    decode ⟨0b0100000000000010#16, []⟩ = .instr (.seBegin 2) ∧
    decode ⟨0b0100000101010101#16, []⟩ = .instr (.seStartFrame 85) ∧
    decode ⟨0b0100001010101010#16, []⟩ = .instr (.seNextItem 170) ∧
    decode ⟨0b0100001101000000#16, []⟩ = .instr (.seFill 64) ∧
    decode ⟨0b0100010000000111#16, []⟩ = .instr (.seIsr 7) ∧
    decode ⟨0b0100010111111110#16, []⟩ = .instr (.seIdle 254) := by
  decide

theorem test_decode_pulse_unit :
    decode ⟨0b0101000000000001#16, []⟩ = .instr (.puStart 1) ∧
    decode ⟨0b0101000100000000#16, []⟩ = .instr (.puEmit 0) := by
  decide

theorem test_decode_serial_unit :
    decode ⟨0b0101001011111111#16, []⟩ = .instr (.suStart 255) ∧
    decode ⟨0b0101001110000000#16, []⟩ = .instr (.suShift 128) := by
  decide

theorem test_decode_timer :
    decode ⟨0b0101010000000000#16, [(.n, .num 50)]⟩ = .instr (.timerTick 50) := by
  decide

theorem test_decode_interrupt :
    decode ⟨0b0101010100000010#16, []⟩ = .instr (.irqEntry 2) := by
  decide

theorem test_decode_host :
    decode ⟨0b0110000000000000#16, [(.v, .num 180), (.a, .num 3)]⟩ = .instr (.hostBufWrite 3 0xB4#8) := by
  decide

theorem test_table_word_has_a_zero_record :
    decodeTableWord 16 0x1901 = some (.drvSetBuffer 1 0 0) ∧ decodeTableWord 16 0x0D00 = none := by decide

/-! ## Refused words (spec 95, C1 to C10) -/

theorem test_unassigned_ops_are_refused :
    (seen (runCommand ⟨0x0000#16, []⟩ idle) State.refused, seen (runCommand ⟨0x0D05#16, []⟩ idle) State.refused,
      seen (runCommand ⟨0xFF00#16, []⟩ idle) State.refused) =
    (some (some .unassignedOp), some (some .unassignedOp), some (some .unassignedOp)) := by decide

theorem test_bad_slots_are_refused :
    (seen (runCommand ⟨0x0501#16, []⟩ idle) State.refused, seen (runCommand ⟨0x1502#16, []⟩ idle) State.refused,
      seen (runCommand ⟨0x3405#16, []⟩ idle) State.refused) =
    (some (some .badSlot), some (some .badSlot), some (some .badSlot)) := by decide

theorem test_operand_refusals :
    (seen (runCommand ⟨0x3001#16, []⟩ idle) State.refused,
      seen (runCommand ⟨0x2000#16, [(.b, .num 0xB4)]⟩ idle) State.refused,
      seen (runCommand ⟨0x5400#16, [(.n, .num 0)]⟩ idle) State.refused,
      seen (runCommand ⟨0x0500#16, []⟩ State.reset) State.refused) =
    (some (some .wrongEngineKind), some (some .illFormedOperand), some (some .illFormedOperand),
      some (some .notBegun)) := by decide

/-! ## Translation (spec 95, T1 to T18) -/

theorem test_split_in_two_bit_groups :
    seen (exec (.xlatSplit 0xB4#8 2) idle) State.reply = some (some (.groups [2, 3, 1, 0])) := by decide

theorem test_lookup_pulse_code_one :
    seen (exec (.xlatLookupPulse 0 1) idle) State.reply = some (some (.descriptor p1)) := by decide

theorem test_lookup_serial_group_two :
    seen (exec (.xlatLookupSerial 1 2) idle) State.reply = some (some (.byte 0x34#8)) ∧
      seen (exec (.xlatLookupSerial 1 4) idle) State.refused = some (some .groupOutOfRange) := by decide

theorem test_build_serial_wide :
    seen (exec (.xlatBuildSerial 2 5 1 3) idle) State.reply =
      some (some (.serialTable [0xEF#8, 0x8F#8, 0xEC#8, 0x8C#8] 8)) := by decide

theorem test_build_serial_refuses_equal_highs :
    seen (exec (.xlatBuildSerial 2 4 2 2) idle) State.refused = some (some .illFormedSerialTiming) := by decide

theorem test_encode_pulse :
    seen (exec (.xlatEncodePulse 0 0xB4#8) idle) State.reply =
      some (some (.descriptors [p1, p0, p1, p1, p0, p1, p0, p0])) := by decide

theorem test_encode_serial :
    seen (exec (.xlatEncodeSerial 1 0xB4#8) idle) State.reply =
      some (some (.bytes [0x34#8, 0x04#8, 0x07#8, 0x37#8])) := by decide

/-! ## Units and time (spec 95, P1 to P11) -/

theorem test_emit_inverted_last_item :
    seen (exec (.puEmit 0) (draining.setPu 0
      { PulseUnit.powerOn false with ring := [p0], busy := true, invert := true })) (fun t => t.pu 0) =
      some
        { ring := [], busy := false, pendLow := true, pendEnd := true, invert := true, line := true,
          trace := [(false, 8), (true, 17)] } := by decide

theorem test_shift_sends_the_inverted_frame :
    seen (exec (.suShift 1) draining) (fun t => ((t.su 0).trace, (t.su 0).pendLow)) =
      some ([true, true, true, false, true, false, false, false], false) := by decide

theorem test_start_of_an_empty_unit_raises_end :
    seen (exec (.puStart 0) idle) (fun t => ((t.pu 0).pendEnd, (t.pu 0).busy)) = some (true, false) ∧
      seen (exec (.suStart 1) idle) (fun t => ((t.su 0).pendEnd, (t.su 0).busy)) = some (true, false) := by decide

theorem test_tick_wraps :
    seen (exec (.timerTick 0x20) { idle with now := 0xFFFFFFF0 }) (fun t => (t.now, t.elapsed 0xFFFFFFF0)) =
      some (0x10, 0x20) := by decide

theorem test_held_unit_does_not_emit :
    absent (exec (.puEmit 0) (low draining)) = some (.notEnabled "PU_EMIT") := by decide

/-! ## Engines (spec 95, E1 to E10, N1 to N9) -/

theorem test_pulse_begin_while_draining_faults :
    seen (exec (.peBegin 0) draining) State.faults = some [.ownershipViolation 0 .peBegin] := by decide

theorem test_pulse_frame_start_fills_the_ring :
    seen (exec (.peStartFrame 0) { idle with now := 1000 }) (fun t => ((t.pu 0).ring, (t.slot 0).frameCount)) =
      some ([p1, p0, p0, p0, p0, p0, p0, p0], 1) := by decide

theorem test_pulse_next_item_ends_the_frame :
    seen (exec (.peNextItem 0) (inState .draining { pDone with phase := .postIdle, idleIdx := 2 } sDone))
      State.reply = some (some (.pulseItem none)) := by decide

theorem test_pulse_fill_stops_at_capacity :
    seen (exec (.peFill 0) draining) (fun t => (t.pu 0).ring) = some [p1, p0, p0, p1, p0, p0, p0, p0] := by decide

theorem test_pulse_isr_completes_the_frame :
    seen (exec (.peIsr 0) (ended (inState .draining pDone sDone)))
      (fun t => ((t.slot 0).eng, (t.pu 0).pendLow, (t.slot 0).hwErrorCount)) =
      some (some (pEng .frameComplete pDone (some latW)), false, 0) := by decide

theorem test_idle_waits_for_the_frame_timer :
    absent (exec (.peIdle 0) ((inState .frameComplete pDone sDone).setSlot 0
        (pDrv { pEng .frameComplete pDone (some latW) with frameStart := some 0 } 2))) =
      some (.notEnabled "PE_IDLE") := by decide

theorem test_serial_begin_sets_the_rate :
    seen (exec (.seBegin 1) idle) (fun t => ((t.su 0).baud, (t.su 0).D)) = some (3200000, 6) := by decide

theorem test_serial_frame_start_fills_the_fifo :
    seen (exec (.seStartFrame 1) idle) (fun t => (t.su 0).fifo) = some [0x34#8, 0x04#8, 0x07#8, 0x37#8] := by decide

theorem test_serial_next_item_translates :
    seen (exec (.seNextItem 1) draining) State.reply = some (some (.serialItem (some 0x34#8))) := by decide

theorem test_serial_fill_stops_at_capacity :
    seen (exec (.seFill 1) draining) (fun t => (t.su 0).fifo) = some [0x34#8, 0x04#8, 0x07#8, 0x34#8] := by decide

theorem test_serial_isr_reports_an_underrun :
    seen (exec (.seIsr 1) (ended draining)) (fun t => (t.faults, (t.slot 1).hwErrorCount)) =
      some ([.underrun 1], 1) := by decide

theorem test_serial_idle :
    seen (exec (.seIdle 1) (inState .frameComplete pDone sDone)) (fun t => (t.slot 1).eng.map Engine.tstate) =
      some (some .idle) := by decide

/-! ## Driver (spec 95, V1 to V15) -/

theorem test_construct_refuses_an_illegal_variant :
    seen (exec (.drvConstruct 0 .ws2811Serial) idle) State.refused = some (some .illegalVariant) := by decide

theorem test_stop_while_draining_faults :
    seen (exec (.drvStop 0) draining) State.faults = some [.destroyWhileDraining 0] := by decide

theorem test_begin_failure_is_counted :
    seen (exec (.drvBegin 0) { idle with initAnswers := [false] })
      (fun t => ((t.slot 0).status, (t.slot 0).hwErrorCount, t.diag)) =
      some (.failed, 1, [{ slot := 0, detail := .hwInitError }]) := by decide

theorem test_set_config_ignores_unknown_keys :
    seen (exec (.drvSetConfig 0 [("pixelCount", .nat 50), ("brightness", .nat 7)]) idle)
      (fun t => ((t.slot 0).needed, (t.slot 0).length)) = some (50, 2) := by decide +kernel

theorem test_set_config_refuses_a_group_size :
    seen (exec (.drvSetConfig 0 [("groupSize", .nat 2)]) idle) State.refused = some (some .illFormedConfig) := by decide +kernel

theorem test_render_starts_and_drops :
    seen (exec (.drvRender 0) idle) (fun t => ((t.slot 0).frameCount, (t.slot 0).droppedCount)) = some (1, 0) ∧
      seen (exec (.drvRender 0) draining) (fun t => ((t.slot 0).frameCount, (t.slot 0).droppedCount)) =
        some (0, 1) := by decide

theorem test_status_reports_the_type :
    seen (exec (.drvGetStatus 0) idle) State.reply =
      some (some (.slotStatus ⟨1, .ready, 0, 0, 0, false, []⟩)) := by decide

theorem test_get_config_of_disabled_is_empty :
    seen (exec (.drvGetConfig 0) { State.reset with begun := true }) State.reply = some (some (.params [])) := by decide

theorem test_pause_and_resume :
    seen (exec (.drvPause 0) idle) (fun t => (t.slot 0).paused) = some true ∧
      seen (exec (.drvResume 0) { idle with userPaused := true }) (fun t => (t.slot 0).paused) = some true := by decide

theorem test_slice_past_the_buffer_is_refused :
    seen (exec (.drvSetBuffer 0 6 4) idle) State.refused = some (some .illFormedOperand) := by decide

theorem test_next_byte_follows_the_colour_order :
    seen (exec (.drvNextByte 0) (idle.setSlot 0
      { pDrv (pEng .idle pDone none) 3 with
        cfg := .encoder { Config.exampleCfg with channelsPerPixel := 3, colorOrder := [1, 0, 2] } }))
      State.reply = some (some (.byte 0x01#8)) := by decide

theorem test_more_data_and_needed :
    seen (exec (.drvMoreData 0) idle) State.reply = some (some (.flag true)) ∧
      seen (exec (.drvNeeded 0) idle) State.reply = some (some (.nat 2)) := by decide

/-! ## Manager (spec 95, M1 to M13) -/

theorem test_begin_after_a_failed_load :
    seen (exec .mgrBegin { State.reset with loadAnswers := [none] })
      (fun t => (t.begun, t.capacity, (t.slot 1).status)) = some (true, some (0, [0, 0]), .ready) := by decide +kernel

theorem test_set_config_stages :
    seen (exec (.mgrSetConfig doc2) idle) State.pending = some (some doc2) := by decide

theorem test_partition_truncates_in_slot_order :
    seen (exec .mgrUpdatePartition (block (pDrv (pEng .idle pDone none) 5) (sDrv (sEng .idle sDone none) 5)))
      (fun t => (t.totalUsed, t.capacity, t.diag)) =
      some (8, some (8, [0, 5]), [{ slot := 1, detail := .capacityShortfall 5 3 }]) := by decide

theorem test_notify_capacity :
    seen (exec .mgrNotifyCapacity { idle with totalUsed := 3 }) State.capacity = some (some (3, [0, 4])) := by decide

theorem test_unknown_code_falls_back_to_disabled :
    seen (exec (.mgrResolveEntry 0 ⟨1, [(0, ⟨some 999, [(999, [])]⟩)]⟩) idle) (fun t => (t.reply, t.diag)) =
      some (some (.binding .disabled []), [{ slot := 0, detail := .configError .unknownType }]) := by decide

theorem test_wrong_version_disables_every_slot :
    seen (exec (.mgrApplyConfig ⟨2, []⟩) idle) (fun t => ((t.slot 0).variant, t.diag)) =
      some (.disabled, [{ slot := 0, detail := .configError .versionMismatch },
        { slot := 1, detail := .configError .versionMismatch }]) := by decide +kernel

theorem test_reload_waits_for_a_draining_engine :
    seen (exec .mgrReload { draining with pending := some doc2 })
      (fun t => (t.pending, t.reloadPaused, (t.slot 1).paused)) = some (some doc2, true, true) := by decide

theorem test_reload_applies_when_idle :
    seen (exec .mgrReload { idle with pending := some doc2 })
      (fun t => (t.pending, t.capacity, (t.slot 1).length, t.reloadPaused)) =
      some (none, some (8, [0, 5]), 3, false) := by decide +kernel

theorem test_render_opens_a_pass :
    seen (exec .mgrRender idle) State.renderPos = some (some 0) ∧
      seen (exec .mgrRender { idle with userPaused := true }) State.renderPos = some none := by decide

theorem test_pause_and_resume_every_slot :
    seen (exec .mgrPause idle) (fun t => (t.userPaused, (t.slot 1).paused)) = some (true, true) ∧
      seen (exec .mgrResume { idle with userPaused := true }) (fun t => (t.userPaused, (t.slot 1).paused)) =
        some (false, false) := by decide

theorem test_status_and_config_documents :
    seen (exec .mgrGetStatus idle) State.reply =
      some (some (.statusDoc [⟨1, .ready, 0, 0, 0, false, []⟩, ⟨2, .ready, 0, 0, 0, false, []⟩])) ∧
    seen (exec .mgrGetConfig { State.reset with begun := true }) State.reply =
      some (some (.config ⟨1, [(0, ⟨some 0, [(0, [])]⟩), (1, ⟨some 0, [(0, [])]⟩)]⟩)) := by decide

/-! ## Memory and interrupts (spec 95, B1 to B7) -/

theorem test_host_write_stores :
    seen (exec (.hostBufWrite 3 0xB4#8) idle) (fun t => (t.byte 3, t.byte 4)) = some (0xB4#8, 0xB4#8) := by decide

theorem test_host_write_faults :
    seen (exec (.hostBufWrite 8 1#8) idle) State.faults = some [.bufferOutOfBounds 8] ∧
      seen (exec (.hostBufWrite 1 1#8) draining) (fun t => (t.faults, t.byte 1)) =
        some ([.bufferWriteDuringFrame 0 1], 0x01#8) := by decide

theorem test_irq_entry_serves_low :
    seen (exec (.irqEntry 0) (low draining)) (fun t => ((t.pu 0).pendLow, (t.pu 0).ring.length)) =
      some (false, 8) := by decide

/-! ## Witnesses: for each statement with hypotheses, states and operands that meet them -/

theorem next_of_seen {α : Type} {o : Host.Outcome State Fault Refusal} {f : State → α} {a : α}
    (h : seen o f = some a) : ∃ t, o = .next t ∧ f t = a := by
  cases o with
  | next t => exact ⟨t, rfl, Option.some.inj h⟩
  | fault _ => cases h
  | refused _ => cases h

theorem pulse_at (ts : TState) (q : PulseSeq) (r : SerialSeq) :
    (inState ts q r).pulseEngine 0 (pEng ts q (some latW)) q latW := ⟨rfl, rfl⟩

theorem serial_at (ts : TState) (q : PulseSeq) (r : SerialSeq) :
    (inState ts q r).serialEngine 1 (sEng ts r (some latS)) r latS := ⟨rfl, rfl⟩

theorem legal_cfg (n : Nat) : legalCfg (.encoder { Config.exampleCfg with pixelCount := n }) = true := by
  simp [legalCfg, legalEncoderCfg, isPermutation, Config.exampleCfg, Config.identityGamma]

theorem readable_at (ts : TState) (q : PulseSeq) (r : SerialSeq) :
    (inState ts q r).sliceReadable 0 ∧ (inState ts q r).sliceReadable 1 :=
  ⟨⟨legal_cfg 2, by simp [inState, block, pDrv, State.slot, tableGet, State.reset, State.powerOn, Config.exampleBoard]⟩,
    ⟨legal_cfg 1, by simp [inState, block, sDrv, State.slot, tableGet, State.reset, State.powerOn, Config.exampleBoard]⟩⟩

theorem free (p d : DriverState) : (block p d).mainLoopFree := ⟨rfl, rfl⟩

theorem latS_legal : latS.legal := ⟨rfl, rfl⟩

theorem sDone_legal : sDone.legal latS := ⟨fun _ h => (nomatch h), fun _ => rfl, fun h => (nomatch h)⟩

theorem seqStart_legal : serialSeqStart.legal latS := ⟨fun _ h => (nomatch h), fun h => (nomatch h), fun h => (nomatch h)⟩

theorem witness_DecodeOfEncodeIsTheInstruction :
    (Instr.drvRender 255).wellFormed = true ∧ (Instr.hostBufWrite 0 0xFF#8).wellFormed = true := by decide

theorem witness_DecodedInstructionHasOneWord :
    decode ⟨0x15FF#16, [(.v, .num 1)]⟩ = .instr (.drvRender 255) ∧
      decode ⟨0x5400#16, [(.n, .num 0), (.n, .num 9)]⟩ = .instr (.timerTick 0) := by decide

theorem witness_CommandWordsRefusedAsR124Lists :
    (opOf 0x0D00#16 ∉ noSlotOps ∧ opOf 0x0D00#16 ∉ slotOps) ∧
    (opOf 0x1502#16 ∈ slotOps ∧ idle.board.numSlots ≤ slotOf 0x1502#16) ∧
    (opOf 0x0501#16 ∈ noSlotOps ∧ slotOf 0x0501#16 ≠ 0) ∧
    (opOf 0x3001#16 ∈ pulseOps ∧ slotOf 0x3001#16 < idle.board.numSlots ∧
      idle.engineKindAt (slotOf 0x3001#16) ≠ some .pulse) ∧
    (opOf 0x4000#16 ∈ serialOps ∧ slotOf 0x4000#16 < idle.board.numSlots ∧
      idle.engineKindAt (slotOf 0x4000#16) ≠ some .serial) := by decide

theorem witness_OperandChecksComeBeforeNotBegun :
    (decode ⟨0x2401#16, []⟩ = .illFormed 0x24 1 ∧ idle.hasSlot 1 ∧ 0x25 ∈ serialOps ∧
      idle.engineKindAt 1 = some .serial ∧ decode ⟨0x2501#16, []⟩ = .illFormed 0x25 1) ∧
    ((Instr.timerTick 0).operandsOk = false ∧ (Instr.drvSetConfig 1 (five ++ five)).operandsOk = false) ∧
    (State.reset.hasSlot 1 ∧ (Instr.drvRender 1).operandsOk = true ∧ issuer (.drvRender 1) = .mainLoop ∧
      State.reset.begun = false) := by
  refine ⟨⟨by decide, Nat.one_lt_two, by decide, by decide, by decide⟩, by decide, ?_, by decide⟩
  exact Nat.one_lt_two

theorem witness_StepRunsTheDecodedInstruction :
    ({ idle with schedule := [moveOf (.drvRender 0)] }.schedule = .command (encode (.drvRender 0)) :: [] ∧
      decode (encode (.drvRender 0)) = .instr (.drvRender 0) ∧ (Instr.drvRender 0).wellFormed = true) ∧
    { idle with schedule := [.renderSubstep] }.schedule = .renderSubstep :: [] ∧ idle.schedule = [] ∧
    decodeTableWord 16 0x0500 = some .mgrRender := by decide

theorem witness_DescriptorWordHoldsItsFields :
    descriptorOk 32767 ⟨1, 32767, 1, 1⟩ = true ∧ descriptorOk 32767 ⟨0, 1, 0, 32767⟩ = true := by decide

theorem witness_SplitCutsTheMostSignificantGroupFirst : 8 ∈ [1, 2, 4, 8] ∧ 3 ∉ [1, 2, 4, 8] := by decide

/-- Engines before BEGIN. -/
def unlatched : State := block (pDrv (pEng .idle pDone none) 2) (sDrv (sEng .idle sDone none) 1)

theorem witness_LookupsReturnTheLatchedEntries :
    (idle.hasSlot 0 ∧ idle.pulseEngine 0 (pEng .idle pDone (some latW)) pDone latW ∧ latW.W = 8) ∧
    (idle.hasSlot 1 ∧ idle.serialEngine 1 (sEng .idle sDone (some latS)) sDone latS ∧ latS.legal ∧
      3 < 2 ^ latS.G ∧ latS.stable[3]? = some 0x04#8 ∧ 2 ^ latS.G ≤ 4) ∧
    (unlatched.hasSlot 0 ∧ (unlatched.slot 0).eng = some (pEng .idle pDone none) ∧
      (unlatched.slot 1).eng = some (sEng .idle sDone none)) :=
  ⟨⟨Nat.zero_lt_two, pulse_at _ _ _, rfl⟩,
    ⟨Nat.one_lt_two, serial_at _ _ _, latS_legal, by decide, by decide, by decide⟩,
    ⟨Nat.zero_lt_two, rfl, rfl⟩⟩

theorem witness_BuildSerialReturnsTheTable :
    (2 ∈ [1, 2, 4, 8] ∧ 5 ≤ 2 * 5 - 2 ∧ 2 * 5 - 2 ≤ 8 ∧ 1 ≤ 1 ∧ 1 ≤ 5 - 1 ∧ 1 ≤ 4 ∧ 4 ≤ 5 - 1 ∧ 1 ≠ 4) ∧
    ¬(2 ∈ [1, 2, 4, 8] ∧ 5 ≤ 2 * 4 - 2 ∧ 2 * 4 - 2 ≤ 8 ∧ 1 ≤ 1 ∧ 1 ≤ 4 - 1 ∧ 1 ≤ 4 ∧ 4 ≤ 4 - 1 ∧ 1 ≠ 4) := by
  decide

theorem witness_BuiltEntriesSendTheProtocolWaveform :
    serialTimingOk 2 5 1 3 = true ∧ (serialTable 2 5 1 3)[3]? = some 0x8C#8 ∧
      serialTimingOk 1 7 1 6 = true ∧ ((serialTable 1 7 1 6)[0]?).isSome = true := by decide

theorem witness_UnitStartRaisesBusyOrEnd :
    (idle.pu 0).busy = false ∧ (idle.pu 0).ring = [] ∧ (draining.pu 0).busy = true ∧
    (draining.setPu 0 { draining.pu 0 with busy := false }).pu 0 = { draining.pu 0 with busy := false } ∧
    (draining.pu 0).ring ≠ [] ∧
    (idle.su 0).busy = false ∧ (idle.su 0).fifo = [] ∧ (draining.su 0).busy = true ∧
    (draining.setSu 0 { draining.su 0 with busy := false }).su 0 = { draining.su 0 with busy := false } ∧
    (draining.su 0).fifo ≠ [] ∧ (draining.slot 0).eng = some (pEng .draining pulseSeqStart (some latW)) ∧
    (draining.slot 1).eng = some (sEng .draining serialSeqStart (some latS)) := by decide

theorem witness_EmitDrivesTheHeadDescriptor :
    draining.hasSlot 0 ∧ (draining.slot 0).eng = some (pEng .draining pulseSeqStart (some latW)) ∧
    ((draining.pu 0).busy = true ∧ (draining.pu 0).ring = p1 :: [p0, p0] ∧ (draining.pu 0).pendLow = false ∧
      (draining.pu 0).pendEnd = false) ∧
    (((low draining).pu 0).busy = true ∧ ((low draining).pu 0).ring = p1 :: [] ∧
      ({ low draining with board := { idle.board with assumeTimelyIsr := false } }).board.assumeTimelyIsr = false) ∧
    ((idle.pu 0).busy = false ∧ (low draining).board.assumeTimelyIsr = true ∧ ((low draining).pu 0).pendLow = true ∧
      (pEng .draining pulseSeqStart (some latW)).enLow = true) :=
  ⟨Nat.zero_lt_two, by decide⟩

theorem witness_ShiftSendsTheInvertedFrame :
    draining.hasSlot 1 ∧ (draining.slot 1).eng = some (sEng .draining serialSeqStart (some latS)) ∧
    ((draining.su 0).busy = true ∧ (draining.su 0).fifo = 0x34#8 :: [0x04#8, 0x07#8] ∧
      (draining.su 0).pendLow = false ∧ (draining.su 0).pendEnd = false) ∧
    (((low draining).su 0).busy = true ∧ ((low draining).su 0).fifo = 0x34#8 :: [] ∧
      ({ low draining with board := { idle.board with assumeTimelyIsr := false } }).board.assumeTimelyIsr = false) ∧
    ((idle.su 0).busy = false ∧ (low draining).board.assumeTimelyIsr = true ∧ ((low draining).su 0).pendLow = true ∧
      (sEng .draining serialSeqStart (some latS)).enLow = true) :=
  ⟨Nat.one_lt_two, by decide⟩

/-- A board whose pulse constants give BIT0 and BIT1 one descriptor, and whose serial constants have a period of 0. -/
def badBoard : Board :=
  { Config.exampleBoard with
    ws2811Pulse := { Config.exampleW with ptable := { Config.exampleW.ptable with bit1 := p0 } }
    ws2811Serial := { Config.exampleS with bitPeriodNs := 0 } }

theorem witness_PulseBeginLatchesTheConstants :
    idle.hasSlot 0 ∧ (idle.slot 0).eng = some (pEng .idle pDone (some latW)) ∧
    (pulseConstantsOf idle.board (idle.slot 0).variant = some Config.exampleW ∧
      pulseConstantsOk idle.board.durationMax Config.exampleW = true) ∧
    (pulseConstantsOf badBoard (idle.slot 0).variant = some badBoard.ws2811Pulse ∧
      pulseConstantsOk badBoard.durationMax badBoard.ws2811Pulse = false) ∧
    (pEng .draining pulseSeqStart (some latW)).tstate = .draining :=
  ⟨Nat.zero_lt_two, by decide⟩

theorem witness_PulseStartFrameStagesTheFirstItems :
    (idle.hasSlot 0 ∧ idle.pulseEngine 0 (pEng .idle pDone (some latW)) pDone latW ∧ idle.sliceReadable 0) ∧
    (draining.hasSlot 0 ∧ draining.pulseEngine 0 (pEng .draining pulseSeqStart (some latW)) pulseSeqStart latW) :=
  ⟨⟨Nat.zero_lt_two, pulse_at _ _ _, (readable_at _ _ _).1⟩, Nat.zero_lt_two, rfl, rfl⟩

theorem witness_PulseNextItemReturnsTheItemsInOrder :
    ((inState .draining pulseSeqStart serialSeqStart).hasSlot 0 ∧
      (inState .draining pulseSeqStart serialSeqStart).pulseEngine 0 (pEng .draining pulseSeqStart (some latW))
        pulseSeqStart latW ∧ (inState .draining pulseSeqStart serialSeqStart).sliceReadable 0) ∧
    (inState .draining pDone sDone).pulseEngine 0 (pEng .draining pDone (some latW)) pDone latW ∧
    (idle.pulseEngine 0 (pEng .idle pDone (some latW)) pDone latW) :=
  ⟨⟨Nat.zero_lt_two, pulse_at _ _ _, (readable_at _ _ _).1⟩, pulse_at _ _ _, pulse_at _ _ _⟩

theorem witness_PulseFillStagesUpToCapacity :
    (draining.hasSlot 0 ∧ draining.pulseEngine 0 (pEng .draining pulseSeqStart (some latW)) pulseSeqStart latW ∧
      draining.sliceReadable 0) ∧ idle.pulseEngine 0 (pEng .idle pDone (some latW)) pDone latW :=
  ⟨⟨Nat.zero_lt_two, ⟨rfl, rfl⟩, legal_cfg 2, by decide⟩, pulse_at _ _ _⟩

theorem witness_PulseHandlerServesEndThenLow :
    (((ended (inState .draining pDone sDone)).pu 0).pendEnd = true ∧
      ((ended (inState .draining pDone sDone)).slot 0).eng = some (pEng .draining pDone (some latW)) ∧
      (pEng .draining pDone (some latW)).enEnd = true ∧ pDone.phase = .done) ∧
    (((ended draining).slot 0).eng = some (pEng .draining pulseSeqStart (some latW)) ∧ pulseSeqStart.phase ≠ .done) ∧
    ((draining.pu 0).pendEnd = false ∧ (draining.pu 0).pendLow = false) ∧
    (((low draining).pu 0).pendEnd = false ∧ ((low draining).pu 0).pendLow = true ∧
      ((low draining).slot 0).eng = some (pEng .draining pulseSeqStart (some latW)) ∧
      (pEng .draining pulseSeqStart (some latW)).enLow = true) ∧
    ({ pEng .filling pDone (some latW) with enLow := true }).tstate ≠ .draining ∧ (low draining).sliceReadable 0 :=
  ⟨by decide, by decide, by decide, by decide, by decide, legal_cfg 2, by decide⟩

/-- A frame that started at time 0, complete. -/
def complete (now : Nat) : State :=
  { block (pDrv { pEng .frameComplete pDone (some latW) with frameStart := some 0 } 2)
      (sDrv { sEng .frameComplete sDone (some latS) with frameStart := some 0 } 1) with now := now }

theorem witness_IdleStepFollowsTheFrameTimer :
    ((complete 300).slot 0).eng = some { pEng .frameComplete pDone (some latW) with frameStart := some 0 } ∧
    ((complete 300).minFrameDuration .ws2811Pulse ((complete 300).slot 0).cfg = 300 ∧
      (complete 300).elapsed 0 = 300) ∧
    (complete 299).elapsed 0 = 299 ∧
    ((complete 300).slot 1).eng = some { sEng .frameComplete sDone (some latS) with frameStart := some 0 } ∧
    (idle.slot 0).eng = some (pEng .idle pDone (some latW)) ∧
    ((inState .frameComplete pDone sDone).slot 0).eng = some (pEng .frameComplete pDone (some latW)) := by decide

theorem witness_PulseFrameContentsFollowR198 : latW.W = 8 := rfl

theorem witness_SerialBeginBuildsTheTable :
    idle.hasSlot 1 ∧ (idle.slot 1).eng = some (sEng .idle sDone (some latS)) ∧
    (serialConstantsOf idle.board (idle.slot 1).variant = some Config.exampleS ∧
      serialConstantsOk Config.exampleS = true) ∧
    serialTimingOk 2 4 2 2 = false ∧
    (serialConstantsOf badBoard (idle.slot 1).variant = some badBoard.ws2811Serial ∧
      serialTimingOk 2 4 1 3 = true ∧ serialConstantsOk badBoard.ws2811Serial = false) ∧
    (sEng .draining serialSeqStart (some latS)).tstate = .draining :=
  ⟨Nat.one_lt_two, by decide⟩

theorem witness_SerialStartFrameStagesTheFirstBytes :
    (idle.hasSlot 1 ∧ idle.serialEngine 1 (sEng .idle sDone (some latS)) sDone latS ∧ latS.legal ∧
      idle.sliceReadable 1) ∧
    draining.serialEngine 1 (sEng .draining serialSeqStart (some latS)) serialSeqStart latS :=
  ⟨⟨Nat.one_lt_two, serial_at _ _ _, latS_legal, (readable_at _ _ _).2⟩, rfl, rfl⟩

theorem witness_SerialNextItemReturnsTheBytesInOrder :
    (draining.hasSlot 1 ∧ draining.serialEngine 1 (sEng .draining serialSeqStart (some latS)) serialSeqStart latS ∧
      latS.legal ∧ serialSeqStart.legal latS ∧ draining.sliceReadable 1) ∧
    ((inState .draining pDone sDone).serialEngine 1 (sEng .draining sDone (some latS)) sDone latS ∧
      sDone.legal latS) ∧ idle.serialEngine 1 (sEng .idle sDone (some latS)) sDone latS :=
  ⟨⟨Nat.one_lt_two, ⟨rfl, rfl⟩, latS_legal, seqStart_legal, legal_cfg 1, by decide⟩, ⟨serial_at _ _ _, sDone_legal⟩,
    serial_at _ _ _⟩

theorem witness_SerialFillStagesUpToCapacity :
    draining.hasSlot 1 ∧ draining.serialEngine 1 (sEng .draining serialSeqStart (some latS)) serialSeqStart latS ∧
      latS.legal ∧ serialSeqStart.legal latS ∧ draining.sliceReadable 1 :=
  witness_SerialNextItemReturnsTheBytesInOrder.1

theorem witness_SerialHandlerServesEndThenLow :
    (((ended (inState .draining pDone sDone)).su 0).pendEnd = true ∧
      ((ended (inState .draining pDone sDone)).slot 1).eng = some (sEng .draining sDone (some latS)) ∧
      (sEng .draining sDone (some latS)).enEnd = true ∧ sDone.sphase = .done) ∧
    (((ended draining).slot 1).eng = some (sEng .draining serialSeqStart (some latS)) ∧
      serialSeqStart.sphase ≠ .done) ∧
    ((draining.su 0).pendEnd = false ∧ (draining.su 0).pendLow = false) ∧
    (((low draining).su 0).pendEnd = false ∧ ((low draining).su 0).pendLow = true ∧
      ((low draining).slot 1).eng = some (sEng .draining serialSeqStart (some latS)) ∧
      (sEng .draining serialSeqStart (some latS)).enLow = true) ∧
    ({ sEng .filling sDone (some latS) with enLow := true }).tstate ≠ .draining ∧ serialSeqStart.legal latS ∧
    (low draining).sliceReadable 1 :=
  ⟨by decide, by decide, by decide, by decide, by decide, seqStart_legal, legal_cfg 1, by decide⟩

theorem witness_SerialFrameContentsFollowR230 : groupWidthOk latS.G = true ∧ 1 ≤ latS.C := by decide

theorem witness_ConstructBuildsAFreshDriver :
    idle.hasSlot 0 ∧
    ((idle.slot 0).transmitting = false ∧ legalAt idle.board 0 .disabled = true ∧ engineKindOf .disabled = none) ∧
    (legalAt idle.board 0 .ucs1903Pulse = true ∧ legalCfg (defaultCfgOf idle.board .ucs1903Pulse) = true ∧
      engineKindOf .ucs1903Pulse = some .pulse ∧ unitFor .pulse (idle.periph 0) = some 0) ∧
    (draining.slot 0).transmitting = true ∧ legalAt idle.board 0 .ws2811Serial = false ∧
    legalCfg (defaultCfgOf { idle.board with defaultCfg := .const { Config.exampleCfg with groupSize := 2 } }
      .ws2811Pulse) = false :=
  ⟨Nat.zero_lt_two, by decide, by decide +kernel, by decide, by decide, by decide +kernel⟩

theorem witness_StopQuietsTheUnit :
    (State.reset.slot 0).eng = none ∧ (draining.slot 0).transmitting = true ∧
    ((idle.slot 0).transmitting = false ∧ (pEng .idle pDone (some latW)).kind = .pulse) ∧
    ((idle.slot 1).transmitting = false ∧ (sEng .idle sDone (some latS)).kind = .serial) := by decide

/-- A driver of an out-of-scope variant. -/
def dmxDrv : DriverState :=
  { pDrv (pEng .idle pDone none) 0 with variant := .dmx, cfg := .stored [("x", .nat 1)], eng := none }

/-- A board where PE_BEGIN refuses the constants, and SE_BEGIN the bit period. -/
def badIdle : State := { idle with board := badBoard }

theorem bad_begin : badIdle.engineBeginRefuses 0 .illFormedProtocolConstants ∧
    badIdle.engineBeginRefuses 1 .illFormedProtocolConstants ∧
    { idle with board := { badBoard with ws2811Serial := { Config.exampleS with H0 := 0 } } }.engineBeginRefuses 1
      .illFormedSerialTiming :=
  ⟨⟨_, rfl, .inl ⟨_, _, _, rfl, rfl, by decide, rfl⟩⟩, ⟨_, rfl, .inr ⟨_, _, _, rfl, rfl, by decide, rfl⟩⟩,
    ⟨_, rfl, .inr ⟨_, _, _, rfl, rfl, by decide, by decide⟩⟩⟩

/-- Vector E9 of spec 95, and the same through DRV_SET_CONFIG: the step is void but for the mark, its draw given back. -/
theorem test_begin_refusal_voids_the_step :
    seen (exec (.drvBegin 0) { badIdle with initAnswers := [true] }) id =
      some { badIdle with initAnswers := [true], refused := some .illFormedProtocolConstants } ∧
    seen (exec (.drvSetConfig 1 five) badIdle) id =
      some { badIdle with refused := some .illFormedProtocolConstants } := by
  decide +kernel

theorem witness_BeginDrawsAndMakesReady :
    (idle.hasSlot 0 ∧ idle.mainLoopFree) ∧ (draining.slot 0).draining = true ∧
    ((block dmxDrv dmxDrv).slot 0).draining = false ∧ isEncoder ((block dmxDrv dmxDrv).slot 0).variant = false ∧
    ((block { dmxDrv with status := .failed } dmxDrv).slot 0).status = .failed ∧
    drawPeriphInit 0 { idle with initAnswers := [false] } = .ok false idle ∧
    drawPeriphInit 0 { idle with initAnswers := [true] } = .ok true idle ∧
    drawPeriphInit 1 { idle with initAnswers := [true] } = .ok true idle ∧
    (idle.slot 0).draining = false ∧ isEncoder (idle.slot 0).variant = true ∧
    pulseConstantsOk idle.board.durationMax Config.exampleW = true ∧ serialConstantsOk Config.exampleS = true ∧
    (drawPeriphInit 0 { badIdle with initAnswers := [true] } = .ok true badIdle ∧
      { badIdle with initAnswers := [true] }.engineBeginRefuses 0 .illFormedProtocolConstants ∧
      (badIdle.slot 0).draining = false ∧ (badIdle.slot 0).status ≠ .failed) :=
  ⟨⟨Nat.zero_lt_two, free _ _⟩, by decide, by decide, by decide, by decide, rfl, rfl, rfl, by decide, by decide,
    by decide, by decide, rfl, bad_begin.1, by decide, by decide⟩

/-- The options of the drivers above. -/
def cfg2 : EncoderCfg := { Config.exampleCfg with pixelCount := 2 }

theorem witness_SetConfigStoresTheMergedOptions :
    distinctKeys five = true ∧ (draining.slot 0).draining = true ∧
    (State.reset.slot 0).variant = .disabled ∧
    (((block dmxDrv dmxDrv).slot 0).variant ≠ .disabled ∧ isEncoder ((block dmxDrv dmxDrv).slot 0).variant = false) ∧
    ((idle.slot 0).cfg = .encoder cfg2 ∧ mergeCfg cfg2 [("pixelCount", .str "x")] = none ∧
      mergeCfg cfg2 [("groupSize", .nat 2)] = some { cfg2 with groupSize := 2 } ∧
      legalEncoderCfg { cfg2 with groupSize := 2 } = false) ∧
    (mergeCfg cfg2 five = some { cfg2 with pixelCount := 5 } ∧ legalEncoderCfg { cfg2 with pixelCount := 5 } = true ∧
      (idle.slot 0).status = .ready ∧ DrvStatus.constructed ≠ .ready) ∧
    (idle.slot 0).eng = some (pEng .idle pDone (some latW)) ∧
    (idle.slot 1).eng = some (sEng .idle sDone (some latS)) ∧
    ((badIdle.slot 0).cfg = .encoder cfg2 ∧ (badIdle.slot 0).status = .ready ∧
      badIdle.engineBeginRefuses 0 .illFormedProtocolConstants) :=
  ⟨by decide, by decide, by decide, by decide, ⟨rfl, rfl, rfl, by decide +kernel⟩,
    ⟨rfl, by decide +kernel, rfl, by decide⟩, rfl, rfl, rfl, rfl, bad_begin.1⟩

theorem witness_ConfigurationRoundTrip :
    idle.hasSlot 0 ∧ ({ idle with refused := some .badSlot }).mainLoopFree ∧ distinctKeys five = true ∧
      isEncoder (idle.slot 0).variant = true ∧ (idle.slot 0).draining = false ∧
      ∃ t, exec (.drvSetConfig 0 five) { { idle with refused := some .badSlot } with refused := none } = .next t ∧
        t.refused = none :=
  ⟨Nat.zero_lt_two, ⟨rfl, rfl⟩, by decide, by decide, by decide, next_of_seen (by decide +kernel)⟩

theorem witness_DriverReadsReturnTheirValue :
    (idle.hasSlot 0 ∧ idle.mainLoopFree) ∧ (State.reset.slot 1).variant = .disabled ∧
    (((block dmxDrv dmxDrv).slot 0).variant ≠ .disabled ∧
      ((block dmxDrv dmxDrv).slot 0).cfg = .stored [("x", .nat 1)]) ∧
    (isEncoder (idle.slot 0).variant = true ∧ (idle.slot 0).cfg = .encoder cfg2) ∧
    (idle.slot 0).eng = some (pEng .idle pDone (some latW)) ∧ (State.reset.slot 0).eng = none :=
  ⟨⟨Nat.zero_lt_two, free _ _⟩, by decide, by decide, ⟨by decide, rfl⟩, rfl, rfl⟩

/-- Three channels per pixel, a slice of four bytes. -/
def partial4 (cursor : Nat) : State :=
  block { pDrv { pEng .draining pulseSeqStart (some latW) with cursor := cursor } 4 with
          cfg := .encoder { Config.exampleCfg with channelsPerPixel := 3, colorOrder := [2, 1, 0] } }
    (sDrv (sEng .idle sDone none) 0)

theorem witness_NextByteFollowsTheColourOrder :
    ((partial4 2).hasSlot 0 ∧ (partial4 2).sliceReadable 0) ∧
    (2 < ((partial4 2).slot 0).length ∧ (2 / 3 + 1) * 3 ≤ ((partial4 2).slot 0).length ∧
      [2, 1, 0][2 % 3]? = some 0) ∧
    (3 < ((partial4 3).slot 0).length ∧ ((partial4 3).slot 0).length < (3 / 3 + 1) * 3) ∧
    ((partial4 4).slot 0).length ≤ 4 :=
  ⟨⟨Nat.zero_lt_two, by decide +kernel, by decide⟩, by decide, by decide, by decide⟩

theorem witness_RenderStartsDropsOrReturns :
    (idle.hasSlot 0 ∧ idle.mainLoopFree) ∧ (State.reset.slot 0).eng = none ∧
    ((draining.slot 0).status = .ready ∧ (draining.slot 0).paused = false) ∧
    ((complete 299).elapsed 0 = 299 ∧ (complete 300).elapsed 0 = 300 ∧
      (complete 300).minFrameDuration .ws2811Serial ((complete 300).slot 1).cfg = 300) ∧
    (idle.pulseEngine 0 (pEng .idle pDone (some latW)) pDone latW ∧
      engineKindOf (idle.slot 0).variant = some .pulse ∧ idle.sliceReadable 0) ∧
    (idle.serialEngine 1 (sEng .idle sDone (some latS)) sDone latS ∧ latS.legal ∧
      engineKindOf (idle.slot 1).variant = some .serial ∧ idle.sliceReadable 1) :=
  ⟨⟨Nat.zero_lt_two, free _ _⟩, rfl, by decide, by decide,
    ⟨pulse_at _ _ _, rfl, (readable_at _ _ _).1⟩, serial_at _ _ _, latS_legal, rfl, (readable_at _ _ _).2⟩

theorem witness_SecondRenderIsDropped :
    idle.hasSlot 0 ∧ idle.mainLoopFree ∧ idle.sliceReadable 0 ∧
    idle.pulseEngine 0 (pEng .idle pDone (some latW)) pDone latW ∧
    (idle.slot 0).eng.map Engine.kind = engineKindOf (idle.slot 0).variant ∧ (idle.slot 0).status = .ready ∧
    (idle.slot 0).paused = false ∧ idle.frameDue (idle.slot 0) (pEng .idle pDone (some latW)) = true ∧
    ∃ t u : State, exec (.drvRender 0) idle = .next t ∧ u.mainLoopFree ∧ u.board = idle.board ∧
      (u.slot 0).hwErrorCount = (t.slot 0).hwErrorCount + 1 ∧ (u.slot 0).variant = (t.slot 0).variant ∧
      (u.slot 0).cfg = (t.slot 0).cfg ∧ (u.slot 0).status = (t.slot 0).status ∧
      (u.slot 0).paused = (t.slot 0).paused ∧ (u.slot 0).frameCount = (t.slot 0).frameCount ∧
      (u.slot 0).droppedCount = (t.slot 0).droppedCount ∧
      (∃ e', (u.slot 0).eng = some e' ∧ e'.frameStart = (t.slot 0).eng.bind Engine.frameStart) ∧
      u.elapsed idle.now < idle.minFrameDuration (idle.slot 0).variant (idle.slot 0).cfg := by
  refine ⟨Nat.zero_lt_two, free _ _, (readable_at _ _ _).1, pulse_at _ _ _, rfl, rfl, rfl, by decide, ?_⟩
  have h : seen (exec (.drvRender 0) idle) (fun t => (t.begun, t.renderPos, decide (t.board = idle.board),
      (t.slot 0).eng.isSome)) = some (true, none, true, true) := by decide +kernel
  obtain ⟨t, ht, hf⟩ := next_of_seen h
  simp only [Prod.mk.injEq, decide_eq_true_eq] at hf
  obtain ⟨hb, hr, hbd, he⟩ := hf
  obtain ⟨e, he⟩ := Option.isSome_iff_exists.mp he
  let d : DriverState := { t.slot 0 with hwErrorCount := (t.slot 0).hwErrorCount + 1 }
  have hd : ({ t with now := 299 }.setSlot 0 d).slot 0 = d := tableGet_put_same _ _ _ _
  refine ⟨t, { t with now := 299 }.setSlot 0 d, ht, ⟨hb, hr⟩, hbd, ?_⟩
  rw [hd]
  refine ⟨rfl, rfl, rfl, rfl, rfl, rfl, rfl, ⟨e, he, by rw [he]; rfl⟩, ?_⟩
  simp only [State.elapsed, State.timeModulus, State.setSlot, hbd]; decide

theorem witness_PauseAndSliceAreWrittenAlone :
    idle.hasSlot 1 ∧ ((idle.slot 1).transmitting = false ∧ 0 + 8 ≤ idle.board.totalBufferSize ∧
      idle.board.totalBufferSize < 1 + 8) ∧ (draining.slot 1).transmitting = true :=
  ⟨Nat.one_lt_two, by decide, by decide⟩

theorem reset_parameters : State.reset.wellFormedParameters = true ∧ baudRatesOk State.reset.board = true := by
  decide +kernel

theorem witness_BeginBindsEverySlot :
    (State.reset.begun = false ∧ State.reset.renderPos = none ∧ State.reset.wellFormedParameters = true ∧
      baudRatesOk State.reset.board = true ∧
      (∀ i, State.reset.hasSlot i → State.reset.slot i = DriverState.powerOn) ∧
      drawPersistLoad { State.reset with loadAnswers := [none] } = .ok none State.reset ∧
      drawPersistLoad { State.reset with loadAnswers := [some doc2] } = .ok (some doc2) State.reset) ∧
    idle.begun = true ∧
    ({ State.reset with board := { Config.exampleBoard with ringLowThreshold := 8 } }).wellFormedParameters =
      false ∧
    ((pulseConstantsOf badBoard .ws2811Pulse = some badBoard.ws2811Pulse ∧
      pulseConstantsOk badBoard.durationMax badBoard.ws2811Pulse = false) ∧
     (serialConstantsOf badBoard .ws2811Serial = some badBoard.ws2811Serial ∧
      badBoard.ws2811Serial.bitPeriodNs = 0)) :=
  ⟨⟨rfl, rfl, reset_parameters.1, reset_parameters.2, fun _ _ => rfl, rfl, rfl⟩, rfl, by decide +kernel,
    by decide⟩

theorem witness_RenderPassVisitsSlotsInOrder :
    (idle.mainLoopFree ∧ idle.pending = none) ∧
    (({ idle with pending := some doc2 }).mainLoopFree ∧
      ∃ t, exec .mgrReload { idle with pending := some doc2 } = .next t ∧ t.pending = none) ∧
    ({ idle with renderPos := some 0 }.begun = true ∧ idle.renderPos = none) ∧
    ({ idle with renderPos := some 1 }.board.numSlots = 1 + 1 ∧ (idle.slot 1).status = .ready ∧
      (idle.slot 1).paused = false ∧ (sEng .idle sDone (some latS)).tstate.transmitting = false ∧
      ({ idle with renderPos := some 1 }).frameDue (idle.slot 1) (sEng .idle sDone (some latS)) = true ∧
      ({ idle with renderPos := some 1 }).sliceReadable 1 ∧
      ({ idle with renderPos := some 1 }).serialEngine 1 (sEng .idle sDone (some latS)) sDone latS) ∧
    (pEng .draining pulseSeqStart (some latW)).tstate.transmitting = true :=
  ⟨⟨free _ _, rfl⟩, ⟨⟨rfl, rfl⟩, next_of_seen (by decide +kernel)⟩, ⟨rfl, rfl⟩,
    ⟨rfl, rfl, rfl, rfl, by decide, ⟨legal_cfg 1, by decide⟩, rfl, rfl⟩, rfl⟩

theorem witness_ManagerStagesReportsAndPauses : idle.mainLoopFree ∧ doc2.wellFormed = true := ⟨free _ _, by decide⟩

theorem idle_configurable (s : State) (h : s.board = idle.board) (hs : s.slots = idle.slots) : s.Configurable := by
  have hslot : ∀ i, s.slot i = idle.slot i := fun i => by unfold State.slot; rw [hs]
  have hidx : s.slotIndices = [0, 1] := by simp [State.slotIndices, h]; rfl
  refine ⟨?_, by rw [h]; decide +kernel, fun i hi => ?_, ?_⟩
  · have : s.wellFormedParameters = idle.wellFormedParameters := by
      simp [State.wellFormedParameters, legalTableOk, State.slotIndices, State.periph, h]
    rw [this]; decide +kernel
  · rw [State.hasSlot, h] at hi
    have hi : i < 2 := hi
    rw [hslot]
    interval_cases i <;> rfl
  · simp only [State.anyTransmitting, hidx, hslot]; decide

theorem witness_ReloadWaitsThenApplies :
    (({ draining with pending := some doc2 }).pending ≠ none ∧
      ({ draining with pending := some doc2 }).anyTransmitting = true) ∧
    (({ idle with pending := some doc2 }).pending = some doc2 ∧ ({ idle with pending := some doc2 }).Configurable) ∧
    idle.pending = none :=
  ⟨by decide, ⟨rfl, idle_configurable _ rfl rfl⟩, rfl⟩

theorem witness_ResolveEntryChecksInOrder :
    (idle.hasSlot 0 ∧ doc2.wellFormed = true) ∧
    (ConfigDoc.version ⟨2, []⟩ ≠ idle.board.configFormatVersion ∧ mapGet (ConfigDoc.channels ⟨1, []⟩) 0 = none) ∧
    (mapGet doc2.channels 0 = some ⟨some 1, [(1, five)]⟩ ∧ mapGet [(2, five)] 1 = none) ∧
    (∀ v, idle.board.protocolCode.at v ≠ 999) ∧
    (idle.board.protocolCode.at .ws2811Pulse = 1 ∧
      allDistinct (allVariants.map idle.board.protocolCode.at) = true ∧ legalAt idle.board 0 .ws2811Pulse = true) ∧
    (legalAt idle.board 0 .ws2811Serial = false ∧ legalAt idle.board 0 .disabled = true) ∧
    (mergeCfg cfg2 five = some { cfg2 with pixelCount := 5 } ∧ legalEncoderCfg { cfg2 with pixelCount := 5 } = true) ∧
    mergeCfg cfg2 [("gamma", .nat 3)] = none :=
  ⟨⟨Nat.zero_lt_two, by decide⟩, by decide, by decide, fun v => by cases v <;> decide, by decide, by decide,
    ⟨rfl, by decide +kernel⟩, rfl⟩

theorem witness_ApplyConfigBindsTheResolvedVariants :
    (doc2.wellFormed = true ∧ idle.Configurable) ∧ draining.anyTransmitting = true :=
  ⟨⟨by decide, idle_configurable _ rfl rfl⟩, by decide⟩

theorem witness_PartitionGrantsInSlotOrder :
    idle.anyTransmitting = false ∧ draining.anyTransmitting = true := by decide

theorem witness_HostWriteStoresOneByte :
    draining.board.totalBufferSize ≤ 8 ∧
    (1 < draining.board.totalBufferSize ∧ draining.hasSlot 0 ∧ (draining.slot 0).transmitting = true ∧
      (draining.slot 0).offset ≤ 1 ∧ 1 < (draining.slot 0).offset + (draining.slot 0).length) ∧
    (2 < draining.board.totalBufferSize ∧ (draining.slot 0).offset + (draining.slot 0).length ≤ 2 ∧
      2 < (draining.slot 1).offset ∧ draining.board.numSlots = 2) :=
  ⟨by decide, ⟨by decide, Nat.zero_lt_two, by decide, by decide, by decide⟩, by decide⟩

/-! ### A draining block meets every invariant -/

theorem draining_slot (i : Nat) :
    draining.slot i =
      if i = 0 then pDrv (pEng .draining pulseSeqStart (some latW)) 2
      else if i = 1 then sDrv (sEng .draining serialSeqStart (some latS)) 1 else DriverState.powerOn := by
  simp [draining, busyUnits, inState, block, State.slot, State.setPu, State.setSu, tableGet]

theorem draining_pu (u : Nat) :
    draining.pu u = if u = 0 then { PulseUnit.powerOn false with ring := [p1, p0, p0], busy := true }
      else PulseUnit.powerOn false := by
  by_cases h : u = 0
  · subst h; rfl
  · have hd : draining.pulseUnits = [(0, { PulseUnit.powerOn false with ring := [p1, p0, p0], busy := true })] := by
      decide
    simp [State.pu, hd, tableGet, h]

theorem draining_su (u : Nat) :
    draining.su u =
      if u = 0 then { SerialUnit.powerOn false with fifo := [0x34#8, 0x04#8, 0x07#8], busy := true, D := 6 }
      else SerialUnit.powerOn false := by
  by_cases h : u = 0
  · subst h; rfl
  · have hd : draining.serialUnits =
        [(0, { SerialUnit.powerOn false with fifo := [0x34#8, 0x04#8, 0x07#8], busy := true, D := 6 })] := by
      decide
    simp [State.su, hd, tableGet, h]

theorem draining_canonical : draining.canonical := by unfold State.canonical; decide

theorem draining_bounded : draining.Bounded := by
  refine ⟨fun u => ?_, fun u => ?_, by decide, fun i => ?_, by decide, List.nodup_nil⟩
  · rw [draining_pu]; split <;> decide
  · rw [draining_su]; split <;> decide
  · rw [draining_slot]; split
    · decide
    · split <;> decide

theorem draining_bound : draining.Bound := by
  refine ⟨fun i => ?_, fun i e => ?_, fun i => ?_, fun i e q l => ?_, fun i h => ?_, fun _ => by decide⟩
  · rw [draining_slot]; split
    · rfl
    · split <;> rfl
  · rw [draining_slot]; split
    · rename_i h; subst h; intro he; cases he; rfl
    · split
      · rename_i h; subst h; intro he; cases he; rfl
      · intro he; cases he
  · rw [draining_slot]; split
    · exact fun _ => legal_cfg 2
    · split
      · exact fun _ => legal_cfg 1
      · intro h; cases h
  · rw [draining_slot]; split
    · intro he; cases he; intro h; cases h
    · split
      · intro he; cases he; intro h; cases h; exact latS_legal
      · intro he; cases he
  · cases h

theorem draining_quiescent : draining.Quiescent := by
  refine ⟨fun i u hi hp => ?_, fun i u hi hp => ?_⟩
  · have hi : i < 2 := hi
    interval_cases i
    · cases hp; exact ⟨.inl ⟨rfl, by decide, rfl⟩, rfl, rfl⟩
    · cases hp
  · have hi : i < 2 := hi
    interval_cases i
    · cases hp
    · cases hp; exact ⟨.inl ⟨rfl, by decide, rfl⟩, rfl, rfl⟩

theorem draining_fed : draining.Fed := by
  intro i e hi he _
  have hi : i < 2 := hi
  interval_cases i
  · cases he; intro _; exact .inl (by decide)
  · cases he; intro _; exact .inl (by decide)

theorem draining_ticks : agentStep draining { draining with now := 1 } :=
  .inl ⟨.timerTick 1, by decide, rfl⟩

/-- The draining block with a move to take. -/
def drainingWith (i : Instr) : State := { draining with schedule := [moveOf i] }

theorem witness_StepKeepsTheTablesCanonical :
    (drainingWith (.puEmit 0)).canonical ∧ ∃ t, step (drainingWith (.puEmit 0)) = .next t :=
  ⟨draining_canonical, _, rfl⟩

theorem witness_StepKeepsTheBounds :
    draining.Bounded ∧ step draining = .next draining ∧
      seen (step (drainingWith (.peFill 0))) (fun t => (t.pu 0).ring.length) = some 8 :=
  ⟨draining_bounded, rfl, by decide⟩

theorem witness_StepKeepsTheEngineBinding : draining.Bound ∧ step draining = .next draining :=
  ⟨draining_bound, rfl⟩

theorem witness_NoStepEndsInAModelFault : draining.Bound := draining_bound

theorem witness_PauseBitFollowsTheManager :
    State.reset.pauseLaw ∧ ∃ t, exec .mgrNotifyCapacity State.reset = .next t :=
  ⟨fun _ _ => rfl, _, rfl⟩

theorem witness_AgentStepsKeepQuiescence :
    slotTableOk draining.board = true ∧ draining.Bound ∧ draining.Quiescent ∧
      agentStep draining { draining with now := 1 } ∧ ({ draining with now := 1 }).faults = [] :=
  ⟨by decide, draining_bound, draining_quiescent, draining_ticks, rfl⟩

theorem witness_TimelyIsrNeverUnderruns :
    draining.board.assumeTimelyIsr = true ∧ 1 ≤ draining.board.ringLowThreshold ∧
      draining.board.ringLowThreshold < draining.board.ringCapacity ∧ 1 ≤ draining.board.fifoLowThreshold ∧
      draining.board.fifoLowThreshold < draining.board.fifoCapacity ∧ slotTableOk draining.board = true ∧
      draining.Bound ∧ draining.Quiescent ∧ draining.Fed ∧ agentStep draining { draining with now := 1 } :=
  ⟨by decide, by decide, by decide, by decide, by decide, by decide, draining_bound, draining_quiescent,
    draining_fed, draining_ticks⟩

theorem witness_RefusalChangesOnlyTheMark :
    seen (step (drainingWith (.timerTick 0))) (fun t => (t.refused, t.schedule)) =
      some (some .illFormedOperand, []) ∧ draining.refused = none ∧
      ({ draining with refused := some .badSlot }).refused ≠ none := by decide

theorem witness_RecordsOnlyGrow :
    seen (step (drainingWith (.peBegin 0))) State.faults = some [.ownershipViolation 0 .peBegin] := by decide

theorem witness_OnlyTheirOwnersWrite :
    (∃ t, exec (.puEmit 0) draining = .next t) ∧
      ∃ t, stepRenderSubstep { draining with renderPos := some 0 } = .next t := ⟨⟨_, rfl⟩, _, rfl⟩

theorem witness_DrainingFramesAreProtected :
    draining.hasSlot 0 ∧ (draining.slot 0).eng = some (pEng .draining pulseSeqStart (some latW)) ∧
      step draining = .next draining ∧ ∃ t, step (drainingWith (.drvStop 0)) = .next t :=
  ⟨Nat.zero_lt_two, rfl, rfl, _, rfl⟩

theorem witness_FailureIsPermanent :
    ((block { dmxDrv with status := .failed } dmxDrv).slot 0).status = .failed ∧
      ∃ t, exec (.drvBegin 0) (block { dmxDrv with status := .failed } dmxDrv) = .next t := ⟨rfl, _, rfl⟩

/-- The drawn time base lies below 2^32 and an out-of-range draw wraps into it (R370, R49). -/
theorem test_power_on_time_base_in_range :
    (State.powerOn Config.exampleBoard ⟨2 ^ 32 + 5, [], [], []⟩).now = 5 ∧
    (State.powerOn Config.exampleBoard ⟨2 ^ 32 - 1, [0, 7], [3, 1, 3], []⟩).now = 2 ^ 32 - 1 ∧
    (State.powerOn Config.exampleBoard ⟨0, [0, 7], [3, 1, 3], []⟩).buf = [(1, 7)] := by decide

/-- Ill-formed protocol constants that no slot uses stop MGR_BEGIN (R7, R290, spec 93 section 2). -/
theorem test_mgr_begin_refuses_bad_constants :
    exec .mgrBegin { State.reset with board := badBoard } =
      .next { State.reset with board := badBoard, refused := some .illFormedParameter } := by
  unfold exec Sys2Proof.Machine.execMgrBegin
  rfl

/-- Two orders of the same parameters store one object, and a listed need is found by the map (R121, R278). -/
theorem test_opaque_objects_are_maps :
    opaqueMergeObject ["x", "y"] [] [("y", .nat 1), ("x", .nat 2), ("z", .nat 3)] =
      opaqueMergeObject ["x", "y"] [] [("x", .nat 2), ("y", .nat 1)] ∧
    mapGet (opaqueMergeObject ["x", "y"] [("x", .nat 9), ("y", .nat 8)] [("y", .nat 1)]) "x" = some (.nat 9) ∧
    cfgTableAt ⟨[((.dmx, .stored [("y", .nat 1), ("x", .nat 2)]), 40)], .const 0⟩ .dmx
      (.stored [("x", .nat 2), ("y", .nat 1)]) = 40 := by decide

/-- TIMER_TICK by 1 at the time base's last value, where it wraps, and by 0, which is refused (R184, R120). -/
theorem witness_TickAdvancesTheTimeBase :
    (1 ≤ 1 ∧ ∃ t, exec (.timerTick 1) { State.reset with now := 2 ^ 32 - 1 } = .next t ∧ t.now = 0) ∧
    ∃ t, exec (.timerTick 0) State.reset = .next t ∧ t.refused = some .illFormedOperand :=
  ⟨⟨by decide, _, rfl, by decide⟩, _, rfl, rfl⟩

end Sys2Proof.Slice0Tests
end

section
/-! SUPPORT. The decoder reads back what the encoder writes (R111, R112, R120, R125), and the step by the schedule's
head (R13, R92). -/

namespace Sys2Proof

/-! ## The fields of an instruction's word -/

theorem opOf_append (op slot : BitVec 8) : opOf (op ++ slot) = op.toNat :=
  congrArg BitVec.toNat BitVec.extractLsb'_append_eq_left

theorem slotOf_append (op slot : BitVec 8) : slotOf (op ++ slot) = slot.toNat :=
  congrArg BitVec.toNat BitVec.extractLsb'_append_eq_right

theorem Instr.opcode_lt (i : Instr) : i.opcode < 256 := by
  cases i <;> simp [Instr.opcode]

theorem Instr.slotFits_iff (i : Instr) : i.slotFits = true ↔ i.slot?.getD 0 < 256 := by
  unfold Instr.slotFits
  cases i.slot? <;> simp

/-- The op stands in `[15:8]` (R111). -/
theorem opOf_word (i : Instr) : opOf i.word = i.opcode := by
  rw [Instr.word, opOf_append, BitVec.toNat_ofNat, Nat.mod_eq_of_lt i.opcode_lt]

/-- The slot stands in `[7:0]`, with 0 where there is none (R111). -/
theorem slotOf_word {i : Instr} (h : i.slotFits = true) : slotOf i.word = i.slot?.getD 0 := by
  rw [Instr.word, slotOf_append, BitVec.toNat_ofNat, Nat.mod_eq_of_lt (i.slotFits_iff.mp h)]

/-! ## Reading an operand record (R120) -/

/-- The first entry of a record is read under its own name. -/
theorem Record.get_cons_self (f : Field) (o : Operand) (r : Record) : Record.get ((f, o) :: r) f = some o :=
  if_pos rfl

/-- A Byte operand travels as a number below 256 (R9). -/
theorem Record.getByte_of_get {r : Record} {f : Field} {b : Byte} (h : Record.get r f = some (.num b.toNat)) :
    Record.getByte r f = some b := by
  simp [Record.getByte, h, b.isLt]

/-! ## The rows of R112 -/

/-- Each instruction's row, read with its slot and its record, gives the instruction back. -/
theorem decodeRow_opcode (i : Instr) : decodeRow i.opcode (i.slot?.getD 0) i.record = .instr i := by
  cases i with
  | xlatSplit b G | xlatEncodePulse i b | xlatEncodeSerial i b =>
    simp only [Instr.opcode, decodeRow, Instr.record, Record.getByte_of_get (Record.get_cons_self ..)]
    rfl
  | hostBufWrite a v =>
    have hv : Record.getByte (Instr.hostBufWrite a v).record .v = some v := Record.getByte_of_get rfl
    simp only [Instr.opcode, decodeRow, hv]
    rfl
  | _ => rfl

/-- An instruction whose slot fits its field is read back from its encoding (R111, R112, R125). -/
theorem decode_encode {i : Instr} (h : i.slotFits = true) : decode (encode i) = .instr i := by
  unfold decode encode
  rw [opOf_word, slotOf_word h, decodeRow_opcode]

/-- A well-formed instruction's slot fits its field and its operands have the types of R120. -/
theorem Instr.wellFormed_iff (i : Instr) : i.wellFormed = true ↔ i.slotFits = true ∧ i.operandsOk = true := by
  simp [Instr.wellFormed]

/-- A table word gives an instruction exactly when its command decodes to it. -/
theorem decodeTableWord_eq_some {nbits w : Nat} {i : Instr} :
    decodeTableWord nbits w = some i ↔ decode (tableCommand nbits w) = .instr i := by
  unfold decodeTableWord
  cases decode (tableCommand nbits w) <;> simp

namespace Machine

/-! ## The step, by the schedule's head -/

theorem runCommand_of_decode {c : Command} {i : Instr} (h : decode c = .instr i) (s : State) :
    runCommand c s = exec i s := by
  simp [runCommand, h]

theorem step_of_schedule_nil {s : State} (h : s.schedule = []) : step s = .next s := by
  simp [step, h]

theorem step_of_schedule_command {s : State} {c : Command} {rest : List Move}
    (h : s.schedule = .command c :: rest) : step s = runCommand c { s with schedule := rest } := by
  simp [step, h]

theorem step_of_schedule_renderSubstep {s : State} {rest : List Move} (h : s.schedule = .renderSubstep :: rest) :
    step s = stepRenderSubstep { s with schedule := rest } := by
  simp [step, h]

/-- A command at the head runs as the instruction it decodes to, on the state without that move. -/
theorem step_of_decode {s : State} {c : Command} {rest : List Move} {i : Instr}
    (h : s.schedule = .command c :: rest) (hd : decode c = .instr i) :
    step s = exec i { s with schedule := rest } :=
  (step_of_schedule_command h).trans (runCommand_of_decode hd _)

/-- Settles O6: each clause is the step at one kind of head, with `decode_encode` for the move of an instruction. -/
theorem stepRunsTheDecodedInstruction : Obligations.StepRunsTheDecodedInstruction := by
  refine ⟨?command, ?encoded, ?substep, ?idle, ?tableWord⟩
  case command => exact fun s c rest i h hd => step_of_decode h hd
  case encoded =>
    intro s i rest hi
    obtain ⟨hslot, -⟩ := i.wellFormed_iff.mp hi
    exact step_of_decode rfl (decode_encode hslot)
  case substep => exact fun s rest h => step_of_schedule_renderSubstep h
  case idle => exact fun s h => step_of_schedule_nil h
  case tableWord =>
    intro s nbits w i hw
    exact step_of_decode (s := s.withFetchWord nbits w) rfl (decodeTableWord_eq_some.mp hw)

end Machine

end Sys2Proof
end

section
/-! SUPPORT. What a step writes and how it ends, said once for every operation, sharper than Laws/Writes.lean: which
writes every operation keeps to (`Wrote`), the writes only their owners make (`ownWrite`), that a fault ends the step
(R330), and that the model's own stop needs a table without its entry. -/

namespace Sys2Proof.Machine

variable {α β : Type}

/-! ## The writes -/

/-- `t` is `s` with the driver of slot `i` replaced, its slice as before or inside the buffer. -/
structure SlotWrite (s t : State) (i : Nat) : Prop where
  frame : t = { s with slots := t.slots }
  other : ∀ j, j ≠ i → t.slot j = s.slot j
  slice : ((t.slot i).offset = (s.slot i).offset ∧ (t.slot i).length = (s.slot i).length) ∨
    (t.slot i).offset + (t.slot i).length ≤ s.board.totalBufferSize

/-- `t` is `s` with other records: the manager's fields, the log and the model's own bookkeeping. `begun` is not
cleared, the log only grows, and a new total lies in the buffer. -/
structure RecordWrite (s t : State) : Prop where
  frame : t = { s with
    begun := t.begun, pending := t.pending, userPaused := t.userPaused, reloadPaused := t.reloadPaused,
    totalUsed := t.totalUsed, diag := t.diag, capacity := t.capacity, renderPos := t.renderPos,
    persisted := t.persisted, reply := t.reply, initAnswers := t.initAnswers, loadAnswers := t.loadAnswers,
    drawCount := t.drawCount }
  begun : s.begun = true → t.begun = true
  diag : s.diag <+: t.diag
  used : t.totalUsed = s.totalUsed ∨ t.totalUsed ≤ s.board.totalBufferSize

/-- `t` is reached from `s` by writes that any operation may make: slots, units but for their traces, and records. A
queue grows only within its capacity. -/
inductive Wrote : State → State → Prop
  | refl (s : State) : Wrote s s
  | trans {s t u : State} : Wrote s t → Wrote t u → Wrote s u
  | slot {s t : State} {i : Nat} : SlotWrite s t i → Wrote s t
  | record {s t : State} : RecordWrite s t → Wrote s t
  | pu (s : State) (u : Nat) (p : PulseUnit) : p.trace = (s.pu u).trace →
      p.ring.length ≤ (s.pu u).ring.length ∨ p.ring.length ≤ s.board.ringCapacity → Wrote s (s.setPu u p)
  | su (s : State) (u : Nat) (p : SerialUnit) : p.trace = (s.su u).trace →
      p.fifo.length ≤ (s.su u).fifo.length ∨ p.fifo.length ≤ s.board.fifoCapacity → Wrote s (s.setSu u p)

/-- The write that only instruction `i` makes: a buffer byte (R94), the time base (R184), a trace (R172, R175). -/
def ownWrite (i : Instr) (s t : State) : Prop :=
  match i with
  | .hostBufWrite a v => t = s.setByte a v
  | .timerTick n => t = { s with now := (s.now + n) % s.timeModulus }
  | .puEmit _ => ∃ u p, t = s.setPu u p ∧ (s.pu u).trace <+: p.trace ∧ p.ring.length ≤ (s.pu u).ring.length
  | .suShift _ => ∃ u p, t = s.setSu u p ∧ (s.su u).trace <+: p.trace ∧ p.fifo.length ≤ (s.su u).fifo.length
  | _ => False

theorem EngStep.slotWrite {s t : State} {i : Nat} {e : Engine} (h : EngStep s t i e) : SlotWrite s t i :=
  ⟨h.frame, h.other, .inl (by rw [h.here]; exact ⟨rfl, rfl⟩)⟩

theorem SlotWrite.setSlot (s : State) (i : Nat) (d : DriverState)
    (h : (d.offset = (s.slot i).offset ∧ d.length = (s.slot i).length) ∨
      d.offset + d.length ≤ s.board.totalBufferSize) : SlotWrite s (s.setSlot i d) i :=
  ⟨rfl, fun _ hj => setSlot_slot_other s i d hj, by rwa [setSlot_slot_same]⟩

/-- What no write of `Wrote` touches, and what only grows. -/
structure Kept (s t : State) : Prop where
  board : t.board = s.board
  buf : t.buf = s.buf
  now : t.now = s.now
  faults : t.faults = s.faults
  begun : s.begun = true → t.begun = true
  diag : s.diag <+: t.diag
  pulseTrace : ∀ u, (t.pu u).trace = (s.pu u).trace
  serialTrace : ∀ u, (t.su u).trace = (s.su u).trace

theorem Kept.trans {s t u : State} (h : Kept s t) (h' : Kept t u) : Kept s u where
  board := h'.board.trans h.board
  buf := h'.buf.trans h.buf
  now := h'.now.trans h.now
  faults := h'.faults.trans h.faults
  begun := h'.begun ∘ h.begun
  diag := h.diag.trans h'.diag
  pulseTrace w := (h'.pulseTrace w).trans (h.pulseTrace w)
  serialTrace w := (h'.serialTrace w).trans (h.serialTrace w)

/-- Replacing units without touching a trace keeps everything of `Kept`. -/
theorem Kept.of_units {s t : State} (h : t = { s with pulseUnits := t.pulseUnits, serialUnits := t.serialUnits })
    (hp : ∀ u, (t.pu u).trace = (s.pu u).trace) (hs : ∀ u, (t.su u).trace = (s.su u).trace) : Kept s t where
  board := by rw [h]
  buf := by rw [h]
  now := by rw [h]
  faults := by rw [h]
  begun := by rw [h]; exact id
  diag := by rw [h]
  pulseTrace := hp
  serialTrace := hs

theorem Wrote.kept {s t : State} (h : Wrote s t) : Kept s t := by
  induction h with
  | refl s => exact .of_units rfl (fun _ => rfl) fun _ => rfl
  | trans _ _ ih ih' => exact ih.trans ih'
  | @slot s t i h =>
    rw [h.frame]
    exact ⟨rfl, rfl, rfl, rfl, id, List.prefix_rfl, fun _ => rfl, fun _ => rfl⟩
  | @record s t h =>
    have hpu : t.pulseUnits = s.pulseUnits := by rw [h.frame]
    have hsu : t.serialUnits = s.serialUnits := by rw [h.frame]
    exact ⟨by rw [h.frame], by rw [h.frame], by rw [h.frame], by rw [h.frame], h.begun, h.diag,
      fun u => by rw [State.pu, hpu]; rfl, fun u => by rw [State.su, hsu]; rfl⟩
  | pu s u p ht _ =>
    refine .of_units rfl (fun w => ?_) fun _ => rfl
    rw [setPu_pu]
    split
    · subst w; exact ht
    · rfl
  | su s u p ht _ =>
    refine .of_units rfl (fun _ => rfl) fun w => ?_
    rw [setSu_su]
    split
    · subst w; exact ht
    · rfl

/-! ## How an operation ends -/

/-- An operation finished as `ok` says, raised a fault as `raised` says, or came to the model's own stop where `stops`
holds. A refusal and a false guard leave nothing behind (R337, R12). -/
def Ends (ok : α → State → Prop) (raised : State → Prop) (stops : Prop) : EStateM.Result Exc State α → Prop
  | .ok a t => ok a t
  | .error .raised t => raised t
  | .error (.refused _) _ => True
  | .error (.disabled _) _ => True
  | .error (.stopped _) _ => stops

/-- After the writes of `Wrote`, one fault is raised (R330). -/
def Faulted (s t : State) : Prop := ∃ u f, Wrote s u ∧ t = u.addFault f

/-- An operation that began in `s` left the writes of `Wrote`, and at most a fault as the last of them. -/
def Leaves (stops : Prop) (s : State) (r : EStateM.Result Exc State α) : Prop :=
  Ends (fun _ t => Wrote s t) (Faulted s) stops r

/-- The tables the spec calls total are so in every slot with an engine: gamma and colour order (R37), and the latched
serial table (R117). -/
def State.TablesTotal (s : State) : Prop :=
  ∀ i e, (s.slot i).eng = some e →
    legalCfg (s.slot i).cfg = true ∧ ∀ q l, e.core = .serial q (some l) → l.legal

/-- The operation only reads, and comes to the model's own stop only from a state where `stops` holds. -/
def Op.Reads (stops : State → Prop) (x : Op α) : Prop :=
  ∀ s, Ends (fun _ t => t = s) (fun _ => False) (stops s) (x s)

/-- The operation makes the writes of `Wrote`, raises at most one fault, as its end, and comes to the model's own stop
only from a state where `stops` holds. -/
def Op.Does (stops : State → Prop) (x : Op α) : Prop := ∀ s, Leaves (stops s) s (x s)

/-- `Op.Does`, and the operation never comes to the model's own stop. -/
abbrev Op.Quiet (x : Op α) : Prop := x.Does fun _ => False

/-- Some table that the spec calls total is not: where the model's own stop is possible at all. -/
abbrev lacksEntry (s : State) : Prop := ¬s.TablesTotal

section combine

variable {ok ok' : α → State → Prop} {okb : β → State → Prop} {raised raised' : State → Prop} {stops stops' : Prop}
  {P : State → Prop} {x : Op α} {f : α → Op β} {s : State}

theorem Ends.mono {r : EStateM.Result Exc State α} (h : Ends ok raised stops r) (hok : ∀ a t, ok a t → ok' a t)
    (hraised : ∀ t, raised t → raised' t) (hstops : stops → stops') : Ends ok' raised' stops' r := by
  cases r with
  | ok a t => exact hok a t h
  | error e t =>
    cases e with
    | raised => exact hraised t h
    | refused _ => trivial
    | disabled _ => trivial
    | stopped _ => exact hstops h

theorem Ends.bind (hx : Ends ok raised stops (x s)) (hf : ∀ a t, ok a t → Ends okb raised stops (f a t)) :
    Ends okb raised stops ((x >>= f) s) := by
  rw [op_bind]
  cases h : x s with
  | ok a t => rw [h] at hx; exact hf a t hx
  | error e t => rw [h] at hx; cases e <;> exact hx

theorem Faulted.after {s t u : State} (h : Faulted t u) (hw : Wrote s t) : Faulted s u := by
  obtain ⟨v, f, hv, rfl⟩ := h
  exact ⟨v, f, hw.trans hv, rfl⟩

/-- What follows the writes to `t` counts from `s` on. -/
theorem Leaves.after {t : State} {r : EStateM.Result Exc State α} (h : Leaves stops t r) (hw : Wrote s t)
    (hstops : stops → stops') : Leaves stops' s r :=
  Ends.mono h (fun _ _ h => hw.trans h) (fun _ h => h.after hw) hstops

theorem Op.Does.mono {P' : State → Prop} (h : x.Does P) (hP : ∀ s, P s → P' s) : x.Does P' := fun s =>
  Leaves.after (h s) (.refl s) (hP s)

/-- An operation that never stops may stand where one may stop. -/
theorem Op.Quiet.does (h : x.Quiet) : x.Does P := h.mono fun _ => False.elim

theorem Op.Does.bind (hx : x.Does P) (hf : ∀ a, (f a).Quiet) : (x >>= f).Does P := fun s =>
  Ends.bind (hx s) fun a t ht => (hf a t).after ht False.elim

theorem Op.Quiet.bind (hx : x.Quiet) (hf : ∀ a, (f a).Quiet) : (x >>= f).Quiet := Op.Does.bind hx hf

theorem Op.Reads.does (h : x.Reads P) : x.Does P := fun s =>
  (h s).mono (fun _ _ e => e ▸ .refl s) (fun _ => False.elim) id

theorem Op.Reads.bind (hx : x.Reads P) (hf : ∀ a, (f a).Reads P) : (x >>= f).Reads P := fun s =>
  Ends.bind (hx s) fun a _ e => e ▸ hf a s

/-- After an operation that only reads, the next one begins in the same state. -/
theorem Op.Reads.seq (hx : x.Reads P) (hf : ∀ a, (f a).Does P) : (x >>= f).Does P := fun s =>
  Ends.bind ((hx s).mono (fun _ _ => id) (fun _ => False.elim) id) fun a _ e => e ▸ hf a s

theorem Op.Reads.ite {c : Prop} [Decidable c] {x y : Op α} (hx : x.Reads P) (hy : y.Reads P) :
    (if c then x else y).Reads P := by split <;> assumption

theorem Op.Does.ite {c : Prop} [Decidable c] {x y : Op α} (hx : x.Does P) (hy : y.Does P) :
    (if c then x else y).Does P := by split <;> assumption

end combine

/-! ## Operations that only read -/

section reads

variable {P raised : State → Prop} {stops : Prop}

theorem pure_reads (a : α) : (pure a : Op α).Reads P := fun _ => rfl

theorem getState_ends (s : State) : Ends (fun a t => a = s ∧ t = s) raised stops (getState s) := ⟨rfl, rfl⟩

theorem getState_reads : getState.Reads P := fun _ => rfl

theorem refuse_reads (r : RefusalReason) : (refuse r : Op α).Reads P := fun _ => trivial

theorem disabled_reads (m : String) : (fail (.disabled m) : Op α).Reads P := fun _ => trivial

theorem refuseIf_reads (c : Bool) (r : RefusalReason) : (refuseIf c r).Reads P :=
  .ite (refuse_reads r) (pure_reads ())

theorem refuseIf_ends (c : Bool) (r : RefusalReason) (s : State) :
    Ends (fun _ t => t = s ∧ c = false) raised stops (refuseIf c r s) := by
  cases c with
  | false => exact ⟨rfl, rfl⟩
  | true => trivial

theorem guardStep_reads (c : Bool) (m : String) : (guardStep c m).Reads P := .ite (pure_reads ()) (disabled_reads m)

theorem latched_reads (l : Option α) (m : String) : (latched l m).Reads P := by
  cases l with
  | none => exact disabled_reads m
  | some p => exact pure_reads p

theorem engineOf_reads (i : Nat) (m : String) : (engineOf i m).Reads P := by
  intro s
  unfold engineOf
  split
  · rfl
  · trivial

theorem pulseEngineOf_ends (i : Nat) (s : State) :
    Ends (fun a t => t = s ∧ (s.slot i).eng = some a.1 ∧ a.1.core = .pulse a.2.1 a.2.2) raised stops
      (pulseEngineOf i s) := by
  unfold pulseEngineOf
  split
  · rename_i e he
    split
    · rename_i q l hc; exact ⟨rfl, he, hc⟩
    · trivial
  · trivial

theorem serialEngineOf_ends (i : Nat) (s : State) :
    Ends (fun a t => t = s ∧ (s.slot i).eng = some a.1 ∧ a.1.core = .serial a.2.1 a.2.2) raised stops
      (serialEngineOf i s) := by
  unfold serialEngineOf
  split
  · rename_i e he
    split
    · rename_i q l hc; exact ⟨rfl, he, hc⟩
    · trivial
  · trivial

theorem pulseEngineOf_reads (i : Nat) : (pulseEngineOf i).Reads P := fun s =>
  (pulseEngineOf_ends i s).mono (fun _ _ ⟨ht, _⟩ => ht) (fun _ => id) id

theorem serialEngineOf_reads (i : Nat) : (serialEngineOf i).Reads P := fun s =>
  (serialEngineOf_ends i s).mono (fun _ _ ⟨ht, _⟩ => ht) (fun _ => id) id

theorem admitSlot_reads (i : Nat) : (admitSlot i).Reads P := by
  intro s
  unfold admitSlot
  split
  · trivial
  · rfl

theorem admitKind_reads (i : Nat) (k : EngineKind) : (admitKind i k).Reads P := by
  intro s
  unfold admitKind
  split
  · split
    · rfl
    · trivial
  · trivial

theorem admitOperands_reads (c : Bool) : (admitOperands c).Reads P := refuseIf_reads _ _

theorem admitBegun_reads : admitBegun.Reads P := by
  intro s
  unfold admitBegun
  split
  · rfl
  · trivial

theorem admitTurn_reads (m : String) : (admitTurn m).Reads P := by
  intro s
  unfold admitTurn
  split
  · rfl
  · trivial

/-- The checks of an operation the main loop issues (R337, R294). -/
theorem mainLoop_does {m : String} {x : Op Unit} (hx : x.Does P) : (do admitBegun; admitTurn m; x).Does P :=
  admitBegun_reads.seq fun _ => (admitTurn_reads m).seq fun _ => hx

/-- The checks of an operation on the pulse engine of slot `i`, with its guard (R124, R12). -/
theorem onPulseEngine_does {i : Nat} {c : Engine × PulseSeq × Option PulseLatch → Bool} {m : String}
    {f : Engine × PulseSeq × Option PulseLatch → Op α} (hf : ∀ a, (f a).Does P) :
    (do admitSlot i; let a ← pulseEngineOf i; guardStep (c a) m; f a).Does P :=
  (admitSlot_reads i).seq fun _ => (pulseEngineOf_reads i).seq fun a => (guardStep_reads _ _).seq fun _ => hf a

/-- The checks of an operation on the serial engine of slot `i`, with its guard (R124, R12). -/
theorem onSerialEngine_does {i : Nat} {c : Engine × SerialSeq × Option SerialLatch → Bool} {m : String}
    {f : Engine × SerialSeq × Option SerialLatch → Op α} (hf : ∀ a, (f a).Does P) :
    (do admitSlot i; let a ← serialEngineOf i; guardStep (c a) m; f a).Does P :=
  (admitSlot_reads i).seq fun _ => (serialEngineOf_reads i).seq fun a => (guardStep_reads _ _).seq fun _ => hf a

/-- The checks of a translation on slot `i` (R124). -/
theorem onKind_does {i : Nat} {k : EngineKind} {x : Op α} (hx : x.Does P) :
    (do admitSlot i; admitKind i k; x).Does P :=
  (admitSlot_reads i).seq fun _ => (admitKind_reads i k).seq fun _ => hx

theorem refuseRecord_reads (op slot : Nat) : (refuseRecord op slot).Reads P := by
  refine .bind (.ite (pure_reads ()) (admitSlot_reads slot)) fun _ => .bind ?_ fun _ => refuse_reads _
  unfold admitOpKind
  split
  · exact admitKind_reads _ _
  · exact pure_reads ()

theorem drvMoreData_reads (i : Nat) : (drvMoreData i).Reads P :=
  .bind (engineOf_reads i _) fun _ => .bind getState_reads fun _ => pure_reads _

theorem xlatSplit_reads (b : Byte) (G : Nat) : (xlatSplit b G).Reads P :=
  .bind (refuseIf_reads _ _) fun _ => pure_reads _

theorem xlatLookupPulse_reads (i : Nat) (x : Symbol) : (xlatLookupPulse i x).Reads P :=
  .bind (pulseEngineOf_reads i) fun _ => .bind (latched_reads _ _) fun _ => pure_reads _

theorem xlatLookupPulseCode_reads (i code : Nat) : (xlatLookupPulseCode i code).Reads P :=
  .bind (pulseEngineOf_reads i) fun _ => .bind (latched_reads _ _) fun _ => by
    cases symbolOfCode code with
    | none => exact refuse_reads _
    | some x => exact xlatLookupPulse_reads i x

theorem xlatBuildSerial_reads (G S H0 H1 : Nat) : (xlatBuildSerial G S H0 H1).Reads P :=
  .bind (refuseIf_reads _ _) fun _ => pure_reads _

theorem lookupBits_reads (i : Nat) : ∀ xs, (lookupBits i xs).Reads P
  | [] => pure_reads _
  | _ :: rest => .bind (xlatLookupPulse_reads i _) fun _ => .bind (lookupBits_reads i rest) fun _ => pure_reads _

theorem xlatEncodePulse_reads (i : Nat) (b : Byte) : (xlatEncodePulse i b).Reads P :=
  .bind (pulseEngineOf_reads i) fun _ => .bind (latched_reads _ _) fun _ => .bind (guardStep_reads _ _) fun _ =>
    .bind (xlatSplit_reads _ _) fun _ => lookupBits_reads i _

end reads

/-- A read of a table stops exactly where the entry is missing. -/
theorem entryOf_ends {raised : State → Prop} (xs : List α) (k : Nat) (s : State) :
    Ends (fun _ t => t = s) raised (xs[k]? = none) (entryOf xs k s) := by
  cases h : xs[k]? with
  | none => rw [entryOf_none h]; rfl
  | some x => rw [entryOf_some h]; rfl

/-- R153: within its range, a lookup stops only where the latched table is not total. -/
theorem xlatLookupSerial_reads (i g : Nat) : (xlatLookupSerial i g).Reads lacksEntry := by
  intro s
  refine (serialEngineOf_ends i s).bind ?_
  rintro ⟨e, q, l⟩ _ ⟨rfl, he, hc⟩
  cases l with
  | none => trivial
  | some l =>
    simp only [latched_some, op_bind, op_pure, refuseIf_run]
    by_cases hg : 2 ^ l.G ≤ g
    · simp [hg, Ends]
    · simp only [hg, decide_false, Bool.false_eq_true, if_false]
      refine (entryOf_ends l.stable g _).mono (fun _ _ => id) (fun _ => id) fun hnone htotal => ?_
      obtain ⟨-, hlegal⟩ := htotal i e he
      rw [stable_entry (hlegal q l hc) (Nat.lt_of_not_le hg)] at hnone
      cases hnone

theorem lookupGroups_reads (i : Nat) : ∀ xs, (lookupGroups i xs).Reads lacksEntry
  | [] => pure_reads _
  | _ :: rest => .bind (xlatLookupSerial_reads i _) fun _ => .bind (lookupGroups_reads i rest) fun _ => pure_reads _

theorem xlatEncodeSerial_reads (i : Nat) (b : Byte) : (xlatEncodeSerial i b).Reads lacksEntry :=
  .bind (serialEngineOf_reads i) fun _ => .bind (latched_reads _ _) fun _ => .bind (xlatSplit_reads _ _) fun _ =>
    lookupGroups_reads i _

/-! ## The primitive writes -/

theorem Faulted.addFault (s : State) (f : FaultRecord) : Faulted s (s.addFault f) := ⟨s, f, .refl s, rfl⟩

theorem raise_quiet (f : FaultRecord) : (raise f : Op α).Quiet := fun s => .addFault s f

theorem raiseIf_ends {stops : Prop} (c : Bool) (f : FaultRecord) (s : State) :
    Ends (fun _ t => t = s ∧ c = false) (Faulted s) stops (raiseIf c f s) := by
  cases c with
  | false => exact ⟨rfl, rfl⟩
  | true => exact .addFault s f

theorem raiseIf_quiet (c : Bool) (f : FaultRecord) : (raiseIf c f).Quiet := .ite (raise_quiet f) (pure_reads ()).does

theorem modState_quiet {f : State → State} (h : ∀ s, Wrote s (f s)) : (modState f).Quiet := h

/-- A write of records, the fields it does not name as before. -/
theorem record_quiet {f : State → State} (h : ∀ s, RecordWrite s (f s)) : (modState f).Quiet :=
  modState_quiet fun s => .record (h s)

theorem answer_quiet (r : Reply) : (answer r).Quiet := record_quiet fun _ => ⟨rfl, id, List.prefix_rfl, .inl rfl⟩

theorem logDiag_quiet (i : Nat) (d : DiagDetail) : (logDiag i d).Quiet :=
  record_quiet fun _ => ⟨rfl, id, List.prefix_append _ _, .inl rfl⟩

theorem drawPeriphInit_quiet (i : Nat) : (drawPeriphInit i).Quiet := by
  intro s
  unfold drawPeriphInit
  split <;> exact .record ⟨rfl, id, List.prefix_rfl, .inl rfl⟩

theorem drawPersistLoad_quiet : drawPersistLoad.Quiet := by
  intro s
  unfold drawPersistLoad
  split <;> exact .record ⟨rfl, id, List.prefix_rfl, .inl rfl⟩

/-- An update of a driver that keeps its slice. -/
theorem modSlot_quiet (i : Nat) (f : DriverState → DriverState)
    (h : ∀ d, (f d).offset = d.offset ∧ (f d).length = d.length) : (modSlot i f).Quiet := fun s =>
  .slot (.setSlot s i _ (.inl (h _)))

theorem modEngine_quiet (i : Nat) (f : Engine → Engine) : (modEngine i f).Quiet :=
  modSlot_quiet i _ fun _ => ⟨rfl, rfl⟩

/-- An update of a pulse unit that keeps its trace and does not lengthen its ring. -/
theorem modPu_quiet (u : Nat) (f : PulseUnit → PulseUnit) (ht : ∀ p, (f p).trace = p.trace)
    (hr : ∀ p, (f p).ring.length ≤ p.ring.length) : (modPu u f).Quiet := fun s => .pu s u _ (ht _) (.inl (hr _))

/-- An update of a serial unit that keeps its trace and does not lengthen its queue. -/
theorem modSu_quiet (u : Nat) (f : SerialUnit → SerialUnit) (ht : ∀ p, (f p).trace = p.trace)
    (hr : ∀ p, (f p).fifo.length ≤ p.fifo.length) : (modSu u f).Quiet := fun s => .su s u _ (ht _) (.inl (hr _))

theorem forEach_quiet {f : Nat → Op Unit} (hf : ∀ i, (f i).Quiet) : ∀ xs, (forEach f xs).Quiet
  | [] => (pure_reads ()).does
  | i :: rest => (hf i).bind fun _ => forEach_quiet hf rest

end Sys2Proof.Machine
end

section
/-! SUPPORT. The sequencers of PE_NEXT_ITEM (R194) and SE_NEXT_ITEM (R226) from any state: they replace the engine of
their slot at most, raise BufferOutOfBounds at most, and return within their passes while the tables are total. -/

namespace Sys2Proof.Machine

variable {α : Type}

theorem legalEncoderCfg_of_encoderCfg {d : DriverConfig} {c : EncoderCfg} (hc : encoderCfg d = some c)
    (h : legalCfg d = true) : legalEncoderCfg c = true := by
  cases d with
  | encoder c' => cases hc; exact h
  | empty => cases hc
  | stored p => cases hc

theorem sourceIndex_ends {raised : State → Prop} (c : EncoderCfg) (k n : Nat) (s : State) :
    Ends (fun _ t => t = s) raised (¬legalEncoderCfg c = true) (sourceIndex c k n s) := by
  by_cases h : legalEncoderCfg c = true
  · rw [sourceIndex_run h]; rfl
  · unfold sourceIndex
    split
    · refine ((entryOf_ends _ _ s).mono (fun _ _ => id) (fun _ => id) fun _ => h).bind ?_
      rintro j _ rfl
      rfl
    · rfl

/-- DRV_NEXT_BYTE (R264) moves the cursor, raises BufferOutOfBounds, or stops for want of a table entry. -/
theorem drvNextByte_ends {s : State} {i : Nat} {e : Engine} (he : (s.slot i).eng = some e) :
    Ends (fun _ t => t = s.withEng i { e with cursor := e.cursor + 1 }) (Faulted s) (lacksEntry s)
      (drvNextByte i s) := by
  have hlegal : ∀ {c}, encoderCfg (s.slot i).cfg = some c → ¬legalEncoderCfg c = true → lacksEntry s :=
    fun hc hn ht => hn (legalEncoderCfg_of_encoderCfg hc (ht i e he).1)
  simp only [drvNextByte, op_bind, engineOf_some he, getState_run]
  cases hc : encoderCfg (s.slot i).cfg with
  | none =>
    intro ht
    obtain ⟨c, hcfg, -⟩ := legalCfg_encoder (ht i e he).1
    rw [hcfg] at hc
    cases hc
  | some c =>
    refine ((sourceIndex_ends c _ _ s).mono (fun _ _ => id) (fun _ => id) (hlegal hc)).bind ?_
    rintro src t rfl
    rw [op_bind, bufRead_run]
    by_cases ha : t.board.totalBufferSize ≤ (t.slot i).offset + src
    · simp only [ha, if_true]
      exact .addFault t _
    · simp only [ha, if_false, op_bind, modEngine_withEng he]
      refine (entryOf_ends c.gamma _ _).mono (fun _ _ => id) (fun _ => id) fun hnone => hlegal hc fun hleg => ?_
      rw [gamma_entry hleg] at hnone
      cases hnone

/-- Two engines hold the same serial table, if any. -/
def Engine.keepsTable (e e' : Engine) : Prop :=
  ∀ q l, e'.core = .serial q (some l) → ∃ q', e.core = .serial q' (some l)

/-- Writes that leave slot `i` its configuration and its serial table keep the tables total. -/
theorem tablesTotal_of_slot {s t : State} {i : Nat} (hother : ∀ j, j ≠ i → t.slot j = s.slot j)
    (hcfg : (t.slot i).cfg = (s.slot i).cfg)
    (heng : ∀ e', (t.slot i).eng = some e' → ∃ e, (s.slot i).eng = some e ∧ e.keepsTable e') (ht : s.TablesTotal) :
    t.TablesTotal := by
  intro j e' he'
  by_cases hj : j = i
  · subst hj
    obtain ⟨e, he, hkeeps⟩ := heng e' he'
    obtain ⟨hlegal, htable⟩ := ht j e he
    refine ⟨by rwa [hcfg], fun q l hc => ?_⟩
    obtain ⟨q', hc'⟩ := hkeeps q l hc
    exact htable q' l hc'
  · rw [hother j hj] at he' ⊢
    exact ht j e' he'

theorem EngStep.tablesTotal {s t : State} {i : Nat} {e e' : Engine} (h : EngStep s t i e')
    (he : (s.slot i).eng = some e) (hkeeps : e.keepsTable e') (ht : s.TablesTotal) : t.TablesTotal :=
  tablesTotal_of_slot h.other (by rw [h.here])
    (fun _ hf => ⟨e, he, Option.some.inj (h.eng.symm.trans hf) ▸ hkeeps⟩) ht

/-- The passes of PE_NEXT_ITEM's loop before the one that returns, at most (R194). -/
def PulseSeq.detours (q : PulseSeq) : Nat :=
  match q.phase, q.curByte with
  | .preIdle, _ => 2
  | .data, none => 1
  | .data, some _ => 0
  | .gap, _ => 0
  | .postIdle, _ => 0
  | .done, _ => 0

theorem PulseSeq.detours_lt (q : PulseSeq) : q.detours < 3 := by
  unfold PulseSeq.detours
  split <;> decide

/-- After a pass on slot `i` with engine `e` the slot's pulse engine has the same latched parameters. -/
def pulseAfter (s t : State) (i : Nat) (e : Engine) (l : PulseLatch) (q : PulseSeq) : Prop :=
  ∃ k, EngStep s t i { e with cursor := k, core := .pulse q (some l) }

/-- One pass of PE_NEXT_ITEM (R194): a pass that goes on has a detour fewer before it. -/
theorem pePass_ends {s : State} {i : Nat} {e : Engine} {q : PulseSeq} {l : PulseLatch} (h : s.pulseEngine i e q l) :
    Ends (fun r t => ∃ q', pulseAfter s t i e l q' ∧ (r = none → q'.detours < q.detours)) (Faulted s) (lacksEntry s)
      (pePass i s) := by
  obtain ⟨he, hc⟩ := h
  have hset : ∀ q' : PulseSeq, pulseAfter s (s.withEng i { e with core := .pulse q' (some l) }) i e l q' := fun q' =>
    ⟨e.cursor, .withEng s i _⟩
  have hlookup : ∀ (q' : PulseSeq) x, xlatLookupPulse i x (s.withEng i { e with core := .pulse q' (some l) }) =
      .ok (descriptorAt l.ptable x) (s.withEng i { e with core := .pulse q' (some l) }) := fun q' x =>
    xlatLookupPulse_run (q := q') ⟨(EngStep.withEng s i _).eng, rfl⟩ x
  simp only [pePass, op_bind, pulseEngineOf_some he hc, latched_some, op_pure]
  cases hp : q.phase with
  | preIdle =>
    by_cases hi : q.idleIdx < l.preIdle
    · simp only [hi, if_true, op_bind, setPulseSeq_run he hc, hlookup]
      exact ⟨_, hset _, nofun⟩
    · simp only [hi, if_false, op_bind, setPulseSeq_run he hc]
      refine ⟨_, hset _, fun _ => ?_⟩
      cases hb : q.curByte <;> simp [PulseSeq.detours, hp, hb]
  | data =>
    cases hb : q.curByte with
    | some b =>
      simp only [op_bind, peEmitBit_run ⟨he, hc⟩]
      exact ⟨_, hset _, nofun⟩
    | none =>
      simp only [op_bind, drvMoreData_run he]
      split
      · refine (drvNextByte_ends he).bind ?_
        rintro b _ rfl
        have hstep := EngStep.withEng s i { e with cursor := e.cursor + 1 }
        simp only [op_bind, peEmitBit_run ⟨hstep.eng, hc⟩]
        exact ⟨_, ⟨_, hstep.trans (.withEng _ i _)⟩, nofun⟩
      · simp only [op_bind, setPulseSeq_run he hc]
        exact ⟨_, hset _, fun _ => by simp [PulseSeq.detours, hp, hb]⟩
  | gap =>
    simp only [op_bind, setPulseSeq_run he hc, hlookup]
    exact ⟨_, hset _, nofun⟩
  | postIdle =>
    by_cases hi : q.idleIdx < l.postIdle
    · simp only [hi, if_true, op_bind, setPulseSeq_run he hc, hlookup]
      exact ⟨_, hset _, nofun⟩
    · simp only [hi, if_false, op_bind, setPulseSeq_run he hc]
      exact ⟨_, hset _, nofun⟩
  | done => exact ⟨q, ⟨e.cursor, .self (by rw [he, ← hc])⟩, nofun⟩

/-- The passes of SE_NEXT_ITEM's loop before the one that returns, at most, `more` saying that data is left (R226). -/
def SerialSeq.detours (q : SerialSeq) (more : Bool) : Nat :=
  match q.curByte, q.sphase with
  | some _, _ => 0
  | none, .framePrefix => if more then 3 else 2
  | none, .pixelPrefix => if more then 2 else 4
  | none, .pixelData => if more then 1 else 3
  | none, .pixelSuffix => if more then 3 else 2
  | none, .frameSuffix => 1
  | none, .done => 0

theorem SerialSeq.detours_lt (q : SerialSeq) (more : Bool) : q.detours more < 5 := by
  unfold SerialSeq.detours
  cases more <;> split <;> decide

/-- A pass through a fixed sequence has fewer detours after it than `n` when the next phase has. -/
theorem SerialSeq.detours_fixed {q : SerialSeq} {xs : List Byte} {next : SPhase} {more : Bool} {n : Nat}
    (h : SerialSeq.detours { q with seqIdx := 0, sphase := next } more < n) : (q.fixed xs next).detours more < n := by
  unfold SerialSeq.fixed
  cases xs[q.seqIdx]? with
  | none => exact h
  | some x => exact Nat.zero_lt_of_lt h

/-- After a pass on slot `i` with engine `e` the slot's serial engine has the same latched parameters and is at cursor
`k`. -/
def serialAfter (s t : State) (i : Nat) (e : Engine) (l : SerialLatch) (q : SerialSeq) (k : Nat) : Prop :=
  EngStep s t i { e with cursor := k, core := .serial q (some l) }

/-- One pass of SE_NEXT_ITEM (R226): a pass that goes on has a detour fewer before it. -/
theorem sePass_ends {s : State} {i : Nat} {e : Engine} {q : SerialSeq} {l : SerialLatch}
    (h : s.serialEngine i e q l) :
    Ends (fun r t => ∃ q' k, serialAfter s t i e l q' k ∧
        (r = none → q'.detours (decide (k < (s.slot i).length)) < q.detours (decide (e.cursor < (s.slot i).length))))
      (Faulted s) (lacksEntry s) (sePass i s) := by
  obtain ⟨he, hc⟩ := h
  have hset : ∀ q' : SerialSeq,
      serialAfter s (s.withEng i { e with core := .serial q' (some l) }) i e l q' e.cursor := fun _ => .withEng s i _
  simp only [sePass, op_bind, serialEngineOf_some he hc, latched_some, op_pure]
  cases hb : q.curByte with
  | some b =>
    have hlookup : ∀ q' : SerialSeq,
        Ends (fun _ t => t = s.withEng i { e with core := .serial q' (some l) }) (Faulted s) (lacksEntry s)
          (xlatLookupSerial i (group b q.groupIdx l.G) (s.withEng i { e with core := .serial q' (some l) })) :=
      fun q' => (xlatLookupSerial_reads i _ _).mono (fun _ _ => id) (fun _ => False.elim) fun hlacks htotal =>
        hlacks ((hset q').tablesTotal he (fun _ _ h => by cases h; exact ⟨q, hc⟩) htotal)
    simp only
    split
    · rw [op_bind_ok (setSerialSeq_run he hc _)]
      exact (hlookup _).bind fun _ _ ht => ht ▸ ⟨_, _, hset _, nofun⟩
    · rw [op_bind_ok (setSerialSeq_run he hc _)]
      exact (hlookup _).bind fun _ _ ht => ht ▸ ⟨_, _, hset _, nofun⟩
  | none =>
    cases hp : q.sphase with
    | framePrefix =>
      simp only [op_bind, drvMoreData_run he, seFixed_run he hc]
      refine ⟨_, _, hset _, fun _ => SerialSeq.detours_fixed ?_⟩
      by_cases hm : e.cursor < (s.slot i).length <;> simp [SerialSeq.detours, hp, hb, hm]
    | pixelPrefix =>
      simp only [op_bind, seFixed_run he hc]
      refine ⟨_, _, hset _, fun _ => SerialSeq.detours_fixed ?_⟩
      simp only [SerialSeq.detours, hp, hb]
      split <;> decide
    | pixelData =>
      simp only [op_bind, drvMoreData_run he]
      split
      · rename_i hm
        refine (drvNextByte_ends he).bind ?_
        rintro b _ rfl
        have hstep := EngStep.withEng s i { e with cursor := e.cursor + 1 }
        simp only [op_bind, serialEngineOf_some hstep.eng hc, drvMoreData_run hstep.eng,
          setSerialSeq_run hstep.eng hc]
        exact ⟨_, _, hstep.trans (.withEng _ i _), fun _ => by simp [SerialSeq.detours, SerialSeq.load, hp, hb, hm]⟩
      · rename_i hm
        simp only [op_bind, setSerialSeq_run he hc]
        exact ⟨_, _, hset _, fun _ => by simp [SerialSeq.detours, hp, hb, hm]⟩
    | pixelSuffix =>
      simp only [op_bind, drvMoreData_run he, seFixed_run he hc]
      refine ⟨_, _, hset _, fun _ => SerialSeq.detours_fixed ?_⟩
      by_cases hm : e.cursor < (s.slot i).length <;> simp [SerialSeq.detours, hp, hb, hm]
    | frameSuffix =>
      cases hf : l.FS[q.seqIdx]? with
      | some x =>
        simp only [op_bind, setSerialSeq_run he hc]
        exact ⟨_, _, hset _, fun _ => by simp [SerialSeq.detours, SerialSeq.load, hp, hb]⟩
      | none =>
        simp only [op_bind, setSerialSeq_run he hc]
        exact ⟨_, _, hset _, nofun⟩
    | done => exact ⟨q, e.cursor, .self (by rw [he, ← hc]), nofun⟩

/-- The loop of PE_NEXT_ITEM and of SE_NEXT_ITEM (R194, R226): `pass` until it returns, within a bound. -/
def passLoop (pass : Op (Option (Option α))) : Nat → Op (Option α)
  | 0 => fail (.stopped .loopBound)
  | n + 1 => do
    let r ← pass
    match r with
    | some p => pure p
    | none => passLoop pass n

theorem peLoop_eq (i n : Nat) : peLoop i n = passLoop (pePass i) n := by
  induction n with
  | zero => rfl
  | succ n ih =>
    refine congrArg (pePass i >>= ·) (funext fun r => ?_)
    cases r with
    | none => exact ih
    | some p => rfl

theorem seLoop_eq (i n : Nat) : seLoop i n = passLoop (sePass i) n := by
  induction n with
  | zero => rfl
  | succ n ih =>
    refine congrArg (sePass i >>= ·) (funext fun r => ?_)
    cases r with
    | none => exact ih
    | some p => rfl

/-- A loop whose passes each use up a detour returns when its bound is above the detours ahead. -/
theorem passLoop_ends {pass : Op (Option (Option α))} {I : State → Nat → Prop} {raised : State → Prop} {stops : Prop}
    (hpass : ∀ t m, I t m → Ends (fun r u => ∃ m', I u m' ∧ (r = none → m' < m)) raised stops (pass t)) :
    ∀ n t m, I t m → m < n → Ends (fun _ u => ∃ m, I u m) raised stops (passLoop pass n t)
  | 0, _, _, _, h => absurd h (Nat.not_lt_zero _)
  | n + 1, t, m, hI, h => by
    refine (hpass t m hI).bind ?_
    rintro r u ⟨m', hI', hlt⟩
    cases r with
    | some p => exact ⟨m', hI'⟩
    | none => exact passLoop_ends hpass n u m' hI' (Nat.lt_of_lt_of_le (hlt rfl) (Nat.le_of_lt_succ h))

/-- A NEXT_ITEM on slot `i` replaced the slot's engine at most, its tables as total as before. -/
structure Advanced (s t : State) (i : Nat) : Prop where
  engine : ∃ e, EngStep s t i e
  total : s.TablesTotal → t.TablesTotal

theorem Advanced.wrote {s t : State} {i : Nat} (h : Advanced s t i) : Wrote s t := by
  obtain ⟨e, he⟩ := h.engine
  exact .slot he.slotWrite

theorem Advanced.of_engStep {s t : State} {i : Nat} {e e' : Engine} (h : EngStep s t i e')
    (he : (s.slot i).eng = some e) (hkeeps : e.keepsTable e') : Advanced s t i :=
  ⟨⟨e', h⟩, h.tablesTotal he hkeeps⟩

/-- What an operation does after `Advanced` counts from before it. -/
theorem Ends.after_advanced {s t : State} {i : Nat} {ok : α → State → Prop} {r : EStateM.Result Exc State α}
    (h : Ends ok (Faulted t) (lacksEntry t) r) (ha : Advanced s t i) : Ends ok (Faulted s) (lacksEntry s) r :=
  h.mono (fun _ _ => id) (fun _ hf => hf.after ha.wrote) fun hp ht => hp (ha.total ht)

/-- Without a latched pulse engine there is no pass. -/
theorem pePass_absent {s : State} {i : Nat} {raised : State → Prop} {stops : Prop}
    (h : ¬∃ e q l, s.pulseEngine i e q l) : Ends (fun _ _ => False) raised stops (pePass i s) := by
  refine (pulseEngineOf_ends i s).bind ?_
  rintro ⟨e, q, l⟩ _ ⟨rfl, he, hc⟩
  cases l with
  | none => trivial
  | some l => exact absurd ⟨e, q, l, he, hc⟩ h

/-- PE_NEXT_ITEM returns within its three passes (R194). -/
theorem peNextItem_ends (i : Nat) (s : State) :
    Ends (fun _ t => Advanced s t i) (Faulted s) (lacksEntry s) (peNextItem i s) := by
  by_cases h : ∃ e q l, s.pulseEngine i e q l
  · obtain ⟨e, q, l, he, hc⟩ := h
    have hadv : ∀ {t q'}, pulseAfter s t i e l q' → Advanced s t i := fun ⟨_, hstep⟩ => .of_engStep hstep he nofun
    unfold peNextItem
    rw [peLoop_eq]
    refine Ends.mono (passLoop_ends (I := fun t m => ∃ q', pulseAfter s t i e l q' ∧ q'.detours = m) ?_ 3 s _
      ⟨q, ⟨e.cursor, .self (by rw [he, ← hc])⟩, rfl⟩ q.detours_lt)
      (fun _ _ ⟨_, _, ha, _⟩ => hadv ha) (fun _ => id) id
    rintro t _ ⟨q', ⟨k, hstep⟩, rfl⟩
    refine Ends.after_advanced ?_ (hadv ⟨k, hstep⟩)
    refine (pePass_ends ⟨hstep.eng, rfl⟩).mono ?_ (fun _ => id) id
    rintro r u ⟨q'', ⟨k', hstep'⟩, hlt⟩
    exact ⟨_, ⟨q'', ⟨k', hstep.trans hstep'⟩, rfl⟩, hlt⟩
  · exact (pePass_absent h).bind fun _ _ => False.elim

/-- Without a latched serial engine there is no pass. -/
theorem sePass_absent {s : State} {i : Nat} {raised : State → Prop} {stops : Prop}
    (h : ¬∃ e q l, s.serialEngine i e q l) : Ends (fun _ _ => False) raised stops (sePass i s) := by
  refine (serialEngineOf_ends i s).bind ?_
  rintro ⟨e, q, l⟩ _ ⟨rfl, he, hc⟩
  cases l with
  | none => trivial
  | some l => exact absurd ⟨e, q, l, he, hc⟩ h

/-- SE_NEXT_ITEM returns within its five passes (R226). -/
theorem seNextItem_ends (i : Nat) (s : State) :
    Ends (fun _ t => Advanced s t i) (Faulted s) (lacksEntry s) (seNextItem i s) := by
  by_cases h : ∃ e q l, s.serialEngine i e q l
  · obtain ⟨e, q, l, he, hc⟩ := h
    have hadv : ∀ {t q' k}, serialAfter s t i e l q' k → Advanced s t i := fun hstep =>
      .of_engStep hstep he fun _ _ hl => by cases hl; exact ⟨q, hc⟩
    unfold seNextItem
    rw [seLoop_eq]
    refine Ends.mono (passLoop_ends
      (I := fun t m => ∃ q' k, serialAfter s t i e l q' k ∧ q'.detours (decide (k < (s.slot i).length)) = m) ?_ 5 s _
      ⟨q, e.cursor, .self (by rw [he, ← hc]), rfl⟩ (q.detours_lt _))
      (fun _ _ ⟨_, _, _, ha, _⟩ => hadv ha) (fun _ => id) id
    rintro t _ ⟨q', k, hstep, rfl⟩
    refine Ends.after_advanced ?_ (hadv hstep)
    refine (sePass_ends ⟨hstep.eng, rfl⟩).mono ?_ (fun _ => id) id
    rintro r u ⟨q'', k', hstep', hlt⟩
    rw [hstep.length] at hlt
    exact ⟨_, ⟨q'', k', hstep.trans hstep', rfl⟩, hlt⟩
  · exact (sePass_absent h).bind fun _ _ => False.elim

theorem Leaves.after_total {s t : State} {r : EStateM.Result Exc State α} (h : Leaves (lacksEntry t) t r)
    (hw : Wrote s t) (ht : s.TablesTotal → t.TablesTotal) : Leaves (lacksEntry s) s r :=
  h.after hw fun hp hs => hp (ht hs)

theorem peNextItem_does (i : Nat) : (peNextItem i).Does lacksEntry := fun s =>
  (peNextItem_ends i s).mono (fun _ _ ha => ha.wrote) (fun _ => id) id

theorem seNextItem_does (i : Nat) : (seNextItem i).Does lacksEntry := fun s =>
  (seNextItem_ends i s).mono (fun _ _ ha => ha.wrote) (fun _ => id) id

/-- PE_FILL pushes only into a ring below its capacity (R195). -/
theorem peFillLoop_does (i : Nat) : ∀ n, (peFillLoop i n).Does lacksEntry
  | 0 => (pure_reads ()).does
  | n + 1 => fun s => by
    refine (pulseEngineOf_ends i s).bind ?_
    rintro ⟨e, q, l⟩ _ ⟨rfl, -, -⟩
    simp only [op_bind, getState_run]
    split
    · rename_i hroom
      refine (peNextItem_ends i _).bind fun r t ha => ?_
      have hpu : (t.pu e.unit).ring.length < t.board.ringCapacity := by
        obtain ⟨e', hstep⟩ := ha.engine
        rw [hstep.pu, hstep.board]
        exact hroom.1
      cases r with
      | none => exact Leaves.after_total (peFillLoop_does i n t) ha.wrote ha.total
      | some p =>
        exact Leaves.after_total (peFillLoop_does i n _)
          (ha.wrote.trans (.pu t e.unit _ rfl (.inr (by simpa using hpu)))) ha.total
    · exact .refl _

/-- SE_FILL pushes only into a queue below its capacity (R227). -/
theorem seFillLoop_does (i : Nat) : ∀ n, (seFillLoop i n).Does lacksEntry
  | 0 => (pure_reads ()).does
  | n + 1 => fun s => by
    refine (serialEngineOf_ends i s).bind ?_
    rintro ⟨e, q, l⟩ _ ⟨rfl, -, -⟩
    simp only [op_bind, getState_run]
    split
    · rename_i hroom
      refine (seNextItem_ends i _).bind fun r t ha => ?_
      have hsu : (t.su e.unit).fifo.length < t.board.fifoCapacity := by
        obtain ⟨e', hstep⟩ := ha.engine
        rw [hstep.su, hstep.board]
        exact hroom.1
      cases r with
      | none => exact Leaves.after_total (seFillLoop_does i n t) ha.wrote ha.total
      | some x =>
        exact Leaves.after_total (seFillLoop_does i n _)
          (ha.wrote.trans (.su t e.unit _ rfl (.inr (by simpa using hsu)))) ha.total
    · exact .refl _

theorem peFill_does (i : Nat) : (peFill i).Does lacksEntry := getState_reads.seq fun _ => peFillLoop_does i _

theorem seFill_does (i : Nat) : (seFill i).Does lacksEntry := getState_reads.seq fun _ => seFillLoop_does i _

end Sys2Proof.Machine
end

section
/-! SUPPORT. What each operation of the units, the engines, the driver and the manager writes and how it ends, said
once per operation: the `_quiet` lemmas for those that never come to the model's own stop, the `_does` lemmas for those
that run a sequencer. -/

namespace Sys2Proof.Machine

variable {α : Type}

/-! ## The units and the engines -/

theorem puStart_quiet (u : Nat) : (puStart u).Quiet :=
  modPu_quiet u _ (fun p => by split <;> rfl) fun p => by split <;> exact Nat.le_refl _

theorem suStart_quiet (u : Nat) : (suStart u).Quiet :=
  modSu_quiet u _ (fun p => by split <;> rfl) fun p => by split <;> exact Nat.le_refl _

/-- After a write to a pulse unit the tables are as total as before. -/
theorem modPu_seq {u : Nat} {f : PulseUnit → PulseUnit} {g : Unit → Op α} (ht : ∀ p, (f p).trace = p.trace)
    (hr : ∀ p, (f p).ring.length ≤ p.ring.length) (hg : (g ()).Does lacksEntry) :
    (modPu u f >>= g).Does lacksEntry := fun s => Leaves.after_total (hg _) (modPu_quiet u f ht hr s) id

/-- After a write to a serial unit the tables are as total as before. -/
theorem modSu_seq {u : Nat} {f : SerialUnit → SerialUnit} {g : Unit → Op α} (ht : ∀ p, (f p).trace = p.trace)
    (hr : ∀ p, (f p).fifo.length ≤ p.fifo.length) (hg : (g ()).Does lacksEntry) :
    (modSu u f >>= g).Does lacksEntry := fun s => Leaves.after_total (hg _) (modSu_quiet u f ht hr s) id

theorem peBegin_quiet (i : Nat) : (peBegin i).Quiet :=
  (pulseEngineOf_reads i).seq fun _ => getState_reads.seq fun s => (raiseIf_quiet _ _).bind fun _ => by
    cases pulseConstantsOf s.board (s.slot i).variant with
    | none => exact (refuse_reads _).does
    | some pc =>
      exact (refuseIf_reads _ _).seq fun _ => (modEngine_quiet i _).bind fun _ =>
        modPu_quiet _ _ (fun _ => rfl) fun _ => Nat.le_refl _

theorem seBegin_quiet (i : Nat) : (seBegin i).Quiet :=
  (serialEngineOf_reads i).seq fun _ => getState_reads.seq fun s => (raiseIf_quiet _ _).bind fun _ => by
    cases serialConstantsOf s.board (s.slot i).variant with
    | none => exact (refuse_reads _).does
    | some pc =>
      exact (xlatBuildSerial_reads _ _ _ _).seq fun _ => (refuseIf_reads _ _).seq fun _ =>
        (refuseIf_reads _ _).seq fun _ => (modEngine_quiet i _).bind fun _ =>
          modSu_quiet _ _ (fun _ => rfl) fun _ => Nat.le_refl _

/-- Marking a frame's start in slot `i` keeps the slice and the latched parameters (R193, R225). -/
theorem frameStart_seq {i : Nat} {f : State → Engine → Engine} {g : Unit → Op α}
    (hf : ∀ s (e : Engine), e.keepsTable (f s e)) (hg : (g ()).Does lacksEntry) :
    ((modState fun s => s.setSlot i
      { (s.slot i).mapEng (f s) with frameCount := countUp (s.slot i).frameCount }) >>= g).Does lacksEntry := by
  intro s
  refine Leaves.after_total (hg _) (.slot (.setSlot s i _ (.inl ⟨rfl, rfl⟩))) ?_
  refine tablesTotal_of_slot (fun _ hj => setSlot_slot_other s i _ hj) (by simp) fun e' he' => ?_
  rw [setSlot_slot_same, mapEng_eng] at he'
  obtain ⟨e, he, rfl⟩ := Option.map_eq_some_iff.mp he'
  exact ⟨e, he, hf s e⟩

theorem withPulseSeq_keepsTable (e : Engine) (q : PulseSeq) : e.keepsTable (e.withPulseSeq q) := by
  intro q' l h
  unfold Engine.withPulseSeq at h
  split at h
  · cases h
  · exact ⟨q', h⟩

theorem withSerialSeq_keepsTable (e : Engine) (q : SerialSeq) : e.keepsTable (e.withSerialSeq q) := by
  intro q' l h
  unfold Engine.withSerialSeq at h
  split at h
  · cases h; exact ⟨_, ‹_›⟩
  · exact ⟨q', h⟩

theorem peStartFrame_does (i : Nat) : (peStartFrame i).Does lacksEntry :=
  (pulseEngineOf_reads i).seq fun _ =>
    frameStart_seq (f := fun s e => (e.filling s.now).withPulseSeq pulseSeqStart)
      (fun s e => withPulseSeq_keepsTable (e.filling s.now) _)
      (modPu_seq (fun _ => rfl) (fun _ => Nat.zero_le _)
        ((peFill_does i).bind fun _ => (modEngine_quiet i _).bind fun _ => puStart_quiet _))

theorem seStartFrame_does (i : Nat) : (seStartFrame i).Does lacksEntry :=
  (serialEngineOf_reads i).seq fun _ =>
    frameStart_seq (f := fun s e => (e.filling s.now).withSerialSeq serialSeqStart)
      (fun s e => withSerialSeq_keepsTable (e.filling s.now) _)
      (modSu_seq (fun _ => rfl) (fun _ => Nat.zero_le _)
        ((seFill_does i).bind fun _ => (modEngine_quiet i _).bind fun _ => suStart_quiet _))

theorem peIsr_does (i : Nat) : (peIsr i).Does lacksEntry :=
  (pulseEngineOf_reads i).seq fun _ => getState_reads.seq fun _ =>
    .ite
      (modPu_seq (fun _ => rfl) (fun _ => Nat.le_refl _)
        (.ite (modEngine_quiet i _).does
          (Op.Quiet.does (.bind (modSlot_quiet i _ fun _ => ⟨rfl, rfl⟩) fun _ =>
            .bind (modPu_quiet _ _ (fun _ => rfl) fun _ => Nat.zero_le _) fun _ => raise_quiet _))))
      (.ite
        (modPu_seq (fun _ => rfl) (fun _ => Nat.le_refl _) (.ite (peFill_does i) (pure_reads ()).does))
        (pure_reads ()).does)

theorem seIsr_does (i : Nat) : (seIsr i).Does lacksEntry :=
  (serialEngineOf_reads i).seq fun _ => getState_reads.seq fun _ =>
    .ite
      (modSu_seq (fun _ => rfl) (fun _ => Nat.le_refl _)
        (.ite (modEngine_quiet i _).does
          (Op.Quiet.does (.bind (modSlot_quiet i _ fun _ => ⟨rfl, rfl⟩) fun _ =>
            .bind (modSu_quiet _ _ (fun _ => rfl) fun _ => Nat.zero_le _) fun _ => raise_quiet _))))
      (.ite
        (modSu_seq (fun _ => rfl) (fun _ => Nat.le_refl _) (.ite (seFill_does i) (pure_reads ()).does))
        (pure_reads ()).does)

theorem peIdle_quiet (i : Nat) : (peIdle i).Quiet :=
  (pulseEngineOf_reads i).seq fun _ => getState_reads.seq fun _ => (guardStep_reads _ _).seq fun _ =>
    modEngine_quiet i _

theorem seIdle_quiet (i : Nat) : (seIdle i).Quiet :=
  (serialEngineOf_reads i).seq fun _ => getState_reads.seq fun _ => (guardStep_reads _ _).seq fun _ =>
    modEngine_quiet i _

theorem drvNextByte_does (i : Nat) : (drvNextByte i).Does lacksEntry := fun s => by
  cases he : (s.slot i).eng with
  | none => simp [drvNextByte, op_bind, engineOf, he, Leaves, Ends]
  | some e =>
    refine (drvNextByte_ends he).mono (fun _ t ht => ?_) (fun _ => id) id
    rw [ht]
    exact .slot (EngStep.withEng s i _).slotWrite

/-! ## The driver -/

theorem drvConstruct_quiet (i : Nat) (v : Variant) : (drvConstruct i v).Quiet :=
  getState_reads.seq fun s => (raiseIf_quiet _ _).bind fun _ => (refuseIf_reads _ _).seq fun _ =>
    (refuseIf_reads _ _).seq fun _ => by
      cases engineFor v (s.periph i) with
      | none => exact (refuse_reads _).does
      | some eng => exact modState_quiet fun t => .slot (.setSlot t i _ (.inr (Nat.zero_le _)))

theorem quietUnit_quiet (e : Engine) : (quietUnit e).Quiet := by
  unfold quietUnit
  cases e.kind with
  | pulse => exact modPu_quiet _ _ (fun _ => rfl) fun _ => Nat.zero_le _
  | serial => exact modSu_quiet _ _ (fun _ => rfl) fun _ => Nat.zero_le _

theorem drvStop_quiet (i : Nat) : (drvStop i).Quiet :=
  getState_reads.seq fun s => by
    cases (s.slot i).eng with
    | none => exact (pure_reads ()).does
    | some e => exact (raiseIf_quiet _ _).bind fun _ => (modEngine_quiet i _).bind fun _ => quietUnit_quiet e

theorem engineBegin_quiet (i : Nat) : (engineBegin i).Quiet :=
  getState_reads.seq fun s => by
    cases engineKindOf (s.slot i).variant with
    | none => exact (pure_reads ()).does
    | some k =>
      cases k with
      | pulse => exact peBegin_quiet i
      | serial => exact seBegin_quiet i

theorem startFrame_does (i : Nat) : (startFrame i).Does lacksEntry :=
  getState_reads.seq fun s => by
    cases engineKindOf (s.slot i).variant with
    | none => exact (pure_reads ()).does
    | some k =>
      cases k with
      | pulse => exact peStartFrame_does i
      | serial => exact seStartFrame_does i

theorem drvBegin_quiet (i : Nat) : (drvBegin i).Quiet :=
  getState_reads.seq fun _ => (raiseIf_quiet _ _).bind fun _ =>
    .ite (pure_reads ()).does
      (.ite
        ((drawPeriphInit_quiet i).bind fun _ =>
          .ite ((engineBegin_quiet i).bind fun _ => modSlot_quiet i _ fun _ => ⟨rfl, rfl⟩)
            (.bind (modSlot_quiet i _ fun _ => ⟨rfl, rfl⟩) fun _ => logDiag_quiet i _))
        (modSlot_quiet i _ fun _ => ⟨rfl, rfl⟩))

theorem drvSetConfig_quiet (i : Nat) (params : ParamObject) : (drvSetConfig i params).Quiet :=
  getState_reads.seq fun s => (raiseIf_quiet _ _).bind fun _ =>
    .ite (pure_reads ()).does
      (.ite
        (by
          cases mergeDriverCfg (s.slot i).cfg params with
          | none => exact (refuse_reads _).does
          | some c =>
            exact (refuseIf_reads _ _).seq fun _ => Op.Quiet.bind (modSlot_quiet i _ fun _ => ⟨rfl, rfl⟩) fun _ =>
              .ite (engineBegin_quiet i) (pure_reads ()).does)
        (modSlot_quiet i _ fun _ => ⟨rfl, rfl⟩))

theorem drvRender_does (i : Nat) : (drvRender i).Does lacksEntry :=
  getState_reads.seq fun s => by
    cases (s.slot i).eng with
    | none => exact (pure_reads ()).does
    | some e =>
      exact .ite (pure_reads ()).does
        (.ite (Op.Quiet.does (modSlot_quiet i _ fun _ => ⟨rfl, rfl⟩)) (startFrame_does i))

theorem drvPause_quiet (i : Nat) : (drvPause i).Quiet := modSlot_quiet i _ fun _ => ⟨rfl, rfl⟩

theorem drvResume_quiet (i : Nat) : (drvResume i).Quiet :=
  getState_reads.seq fun _ => modSlot_quiet i _ fun _ => ⟨rfl, rfl⟩

/-- R262: the slice is written only after the check that it lies in the buffer. -/
theorem drvSetBuffer_quiet (i offset length : Nat) : (drvSetBuffer i offset length).Quiet := fun s => by
  rw [drvSetBuffer, op_bind_ok (getState_run s)]
  refine (raiseIf_ends _ _ s).bind ?_
  rintro _ s ⟨rfl, -⟩
  refine (refuseIf_ends _ _ s).bind ?_
  rintro _ s ⟨rfl, hfits⟩
  exact .slot (.setSlot s i _ (.inr (Nat.le_of_not_lt (of_decide_eq_false hfits))))

/-! ## The manager -/

theorem mgrResolveEntry_quiet (i : Nat) (doc : ConfigDoc) : (mgrResolveEntry i doc).Quiet :=
  getState_reads.seq fun s => by
    cases resolve s i doc with
    | bind v p => exact (pure_reads _).does
    | bad r => exact (logDiag_quiet i _).bind fun _ => (pure_reads _).does

theorem applySlot_quiet (doc : ConfigDoc) (i : Nat) : (applySlot doc i).Quiet :=
  (mgrResolveEntry_quiet i doc).bind fun _ => getState_reads.seq fun _ =>
    .ite (drvSetConfig_quiet i _)
      ((drvStop_quiet i).bind fun _ => (drvConstruct_quiet i _).bind fun _ =>
        (drvSetConfig_quiet i _).bind fun _ => drvBegin_quiet i)

theorem mgrApplyConfig_quiet (doc : ConfigDoc) : (mgrApplyConfig doc).Quiet :=
  getState_reads.seq fun _ => forEach_quiet (applySlot_quiet doc) _

theorem mgrNotifyCapacity_quiet : mgrNotifyCapacity.Quiet :=
  record_quiet fun _ => ⟨rfl, id, List.prefix_rfl, .inl rfl⟩

/-- R300: the next offset is in the buffer when this one is. -/
theorem partitionSlot_ends (i off : Nat) (s : State) (h : off ≤ s.board.totalBufferSize) :
    Ends (fun next t => Wrote s t ∧ next ≤ s.board.totalBufferSize) (Faulted s) False (partitionSlot i off s) := by
  have hslice : ∀ t, Wrote s t → Ends (fun next u => Wrote s u ∧ next ≤ s.board.totalBufferSize) (Faulted s) False
      ((do drvSetBuffer i off (min (drvNeededOf s i) (s.board.totalBufferSize - off))
           pure (off + min (drvNeededOf s i) (s.board.totalBufferSize - off))) t) := fun t hw =>
    Ends.bind ((drvSetBuffer_quiet i off _ t).after hw id) fun _ _ hw' => ⟨hw', by omega⟩
  rw [partitionSlot, op_bind_ok (getState_run s)]
  simp only
  split
  · exact (logDiag_quiet i _ s).bind fun _ t hw => hslice t hw
  · exact hslice s (.refl s)

theorem partitionFrom_ends : ∀ (xs : List Nat) (off : Nat) (s : State), off ≤ s.board.totalBufferSize →
    Ends (fun next t => Wrote s t ∧ next ≤ s.board.totalBufferSize) (Faulted s) False (partitionFrom off xs s)
  | [], _, s, h => ⟨.refl s, h⟩
  | i :: rest, off, s, h => by
    refine (partitionSlot_ends i off s h).bind ?_
    rintro next t ⟨hw, hnext⟩
    rw [← hw.kept.board] at hnext ⊢
    exact (partitionFrom_ends rest next t hnext).mono (fun _ _ ⟨hw', hle⟩ => ⟨hw.trans hw', hle⟩)
      (fun _ hf => hf.after hw) id

theorem mgrUpdatePartition_quiet : mgrUpdatePartition.Quiet := fun s => by
  rw [mgrUpdatePartition, op_bind_ok (getState_run s)]
  refine (partitionFrom_ends _ 0 s (Nat.zero_le _)).bind ?_
  rintro off t ⟨hw, hoff⟩
  rw [← hw.kept.board] at hoff
  rw [op_bind_ok (modState_run _ t)]
  exact (mgrNotifyCapacity_quiet _).after (hw.trans (.record ⟨rfl, id, List.prefix_rfl, .inr hoff⟩)) id

theorem initSlot_quiet (i : Nat) : (initSlot i).Quiet := (drvConstruct_quiet i _).bind fun _ => drvBegin_quiet i

theorem loadDoc_quiet : loadDoc.Quiet :=
  drawPersistLoad_quiet.bind fun r => getState_reads.seq fun _ => by
    cases r with
    | some doc => exact (pure_reads doc).does
    | none =>
      exact Op.Quiet.bind (record_quiet fun _ => ⟨rfl, id, List.prefix_rfl, .inl rfl⟩) fun _ => (pure_reads _).does

theorem mgrBegin_quiet : mgrBegin.Quiet :=
  getState_reads.seq fun _ => .ite (pure_reads ()).does
    ((refuseIf_reads _ _).seq fun _ => (forEach_quiet initSlot_quiet _).bind fun _ => loadDoc_quiet.bind fun doc =>
      (mgrApplyConfig_quiet doc).bind fun _ => mgrUpdatePartition_quiet.bind fun _ =>
        record_quiet fun _ => ⟨rfl, fun _ => rfl, List.prefix_rfl, .inl rfl⟩)

theorem mgrReload_quiet : mgrReload.Quiet :=
  Op.Quiet.bind (record_quiet fun _ => ⟨rfl, id, List.prefix_rfl, .inl rfl⟩) fun _ => getState_reads.seq fun s =>
    (forEach_quiet drvPause_quiet _).bind fun _ => .ite (pure_reads ()).does (by
      cases s.pending with
      | none => exact (disabled_reads _).does
      | some doc =>
        exact (mgrApplyConfig_quiet doc).bind fun _ => mgrUpdatePartition_quiet.bind fun _ =>
          Op.Quiet.bind (record_quiet fun _ => ⟨rfl, id, List.prefix_rfl, .inl rfl⟩) fun _ =>
            forEach_quiet drvResume_quiet _)

theorem mgrRender_quiet : mgrRender.Quiet :=
  have hopen : (do
      let t ← getState
      if t.pending ≠ none ∨ t.userPaused = true then pure ()
      else modState fun s => { s with renderPos := some 0 }).Quiet :=
    getState_reads.seq fun _ => .ite (pure_reads ()).does
      (record_quiet fun _ => ⟨rfl, id, List.prefix_rfl, .inl rfl⟩)
  getState_reads.seq fun _ => .ite (mgrReload_quiet.bind fun _ => hopen) hopen

theorem renderSubstep_does : renderSubstep.Does lacksEntry :=
  getState_reads.seq fun s => by
    cases s.renderPos with
    | none => exact (disabled_reads _).does
    | some i => exact (drvRender_does i).bind fun _ => record_quiet fun _ => ⟨rfl, id, List.prefix_rfl, .inl rfl⟩

theorem mgrPause_quiet : mgrPause.Quiet :=
  Op.Quiet.bind (record_quiet fun _ => ⟨rfl, id, List.prefix_rfl, .inl rfl⟩) fun _ => getState_reads.seq fun _ =>
    forEach_quiet drvPause_quiet _

theorem mgrResume_quiet : mgrResume.Quiet :=
  Op.Quiet.bind (record_quiet fun _ => ⟨rfl, id, List.prefix_rfl, .inl rfl⟩) fun _ => getState_reads.seq fun _ =>
    forEach_quiet drvResume_quiet _

theorem irqEntry_does (i : Nat) : (irqEntry i).Does lacksEntry :=
  getState_reads.seq fun s => by
    cases (s.slot i).eng with
    | none => exact (disabled_reads _).does
    | some e =>
      refine (guardStep_reads _ _).seq fun _ => ?_
      cases e.kind with
      | pulse => exact peIsr_does i
      | serial => exact seIsr_does i

end Sys2Proof.Machine
end

section
/-! SUPPORT. What each instruction and each step writes and how it ends, and what follows: the bounds, no model fault,
the records that only grow, and the fields with an owner. -/

namespace Sys2Proof.Machine

/-! ## The outcome of a step -/

/-- A step from `s` ends in a state that meets `w`, in one with one fault more (R330), or in `s` with the refusal mark
(R337); or there is no such step; or it comes to the model's own stop where `stops` holds. -/
def Answers (w : State → Prop) (stops : Prop) (s : State) : Host.Outcome State Fault Refusal → Prop
  | .next t => (∃ u, w u ∧ (t = u ∨ ∃ f, t = u.addFault f)) ∨ ∃ r, t = { s with refused := some r }
  | .fault _ => stops
  | .refused _ => True

theorem runStep_answers {w : State → Prop} {stops : Prop} {s : State} {x : Op Unit}
    (h : Ends (fun _ => w) (fun t => ∃ u f, w u ∧ t = u.addFault f) stops (x s)) :
    Answers w stops s (runStep s x) := by
  unfold runStep
  cases hx : x s with
  | ok a t => rw [hx] at h; exact .inl ⟨t, h, .inl rfl⟩
  | error e t =>
    rw [hx] at h
    cases e with
    | raised => obtain ⟨u, f, hw, ht⟩ := h; exact .inl ⟨u, hw, .inr ⟨f, ht⟩⟩
    | refused r => exact .inr ⟨r, rfl⟩
    | disabled m => trivial
    | stopped g => exact h

/-- What instruction `i` may write from `s` on. -/
def mayWrite (i : Instr) (s t : State) : Prop := Wrote s t ∨ ownWrite i s t

/-- The outcome of an operation whose writes are those of `Wrote`. -/
theorem does_answers {i : Instr} {x : Op Unit} (s : State) (h : x.Does lacksEntry) :
    Answers (mayWrite i s) (lacksEntry s) s (runStep s x) :=
  runStep_answers (Ends.mono (h s) (fun _ _ hw => .inl hw) (fun _ ⟨u, f, hw, ht⟩ => ⟨u, f, .inl hw, ht⟩) id)

theorem quiet_answers {i : Instr} {x : Op Unit} (s : State) (h : x.Quiet) :
    Answers (mayWrite i s) (lacksEntry s) s (runStep s x) := does_answers s h.does

/-- The outcome of an operation that makes its instruction's own write. -/
theorem own_answers {i : Instr} {x : Op Unit} {s : State}
    (h : Ends (fun _ t => ownWrite i s t) (Faulted s) (lacksEntry s) (x s)) :
    Answers (mayWrite i s) (lacksEntry s) s (runStep s x) :=
  runStep_answers (h.mono (fun _ _ => .inr) (fun _ ⟨u, f, hw, ht⟩ => ⟨u, f, .inl hw, ht⟩) id)

/-- An operation may read before its own write. -/
theorem Op.Reads.own {i : Instr} {x : Op α} {f : α → Op Unit} {s : State} (hx : x.Reads lacksEntry)
    (hf : ∀ a, Ends (fun _ t => ownWrite i s t) (Faulted s) (lacksEntry s) (f a s)) :
    Ends (fun _ t => ownWrite i s t) (Faulted s) (lacksEntry s) ((x >>= f) s) :=
  Ends.bind ((hx s).mono (fun _ _ => id) (fun _ => False.elim) id) fun a _ ht => ht ▸ hf a

theorem puEmit_ends (i : Nat) (s : State) :
    Ends (fun _ t => ownWrite (.puEmit i) s t) (Faulted s) (lacksEntry s) (puEmit i s) := by
  refine (pulseEngineOf_reads i).own fun a => (getState_ends s).bind ?_
  rintro _ s ⟨rfl, rfl⟩
  refine (guardStep_reads _ _).own fun _ => ?_
  cases hring : (s.pu a.1.unit).ring with
  | nil => trivial
  | cons d rest => exact ⟨_, _, rfl, List.prefix_append _ _, by simp [hring, PulseUnit.emit]⟩

theorem suShift_ends (i : Nat) (s : State) :
    Ends (fun _ t => ownWrite (.suShift i) s t) (Faulted s) (lacksEntry s) (suShift i s) := by
  refine (serialEngineOf_reads i).own fun a => (getState_ends s).bind ?_
  rintro _ s ⟨rfl, rfl⟩
  refine (guardStep_reads _ _).own fun _ => ?_
  cases hfifo : (s.su a.1.unit).fifo with
  | nil => trivial
  | cons x rest => exact ⟨_, _, rfl, List.prefix_append _ _, by simp [hfifo, SerialUnit.shift]⟩

theorem hostBufWrite_ends (a : Nat) (v : Byte) (s : State) :
    Ends (fun _ t => ownWrite (.hostBufWrite a v) s t) (Faulted s) (lacksEntry s) (hostBufWrite a v s) := by
  rw [hostBufWrite, op_bind_ok (getState_run s)]
  refine (raiseIf_ends _ _ s).bind ?_
  rintro _ s ⟨rfl, -⟩
  cases s.slotIndices.find? (fun i => (s.slot i).ownsDuringFrame a) with
  | none => rfl
  | some i => exact .addFault s _

/-- What each instruction writes and how it ends. -/
theorem exec_answers (i : Instr) (s : State) : Answers (mayWrite i s) (lacksEntry s) s (exec i s) := by
  cases i with
  | mgrBegin => exact quiet_answers s ((admitTurn_reads _).seq fun _ => mgrBegin_quiet)
  | mgrSetConfig doc =>
    exact quiet_answers s ((admitOperands_reads _).seq fun _ =>
      mainLoop_does (record_quiet fun _ => ⟨rfl, id, List.prefix_rfl, .inl rfl⟩))
  | mgrGetConfig => exact quiet_answers s (mainLoop_does (answer_quiet _))
  | mgrGetStatus => exact quiet_answers s (mainLoop_does (answer_quiet _))
  | mgrRender => exact quiet_answers s (mainLoop_does mgrRender_quiet)
  | mgrPause => exact quiet_answers s (mainLoop_does mgrPause_quiet)
  | mgrResume => exact quiet_answers s (mainLoop_does mgrResume_quiet)
  | mgrReload => exact quiet_answers s ((guardStep_reads _ _).seq fun _ => mgrReload_quiet)
  | mgrApplyConfig doc =>
    exact quiet_answers s ((admitOperands_reads _).seq fun _ => (guardStep_reads _ _).seq fun _ =>
      mgrApplyConfig_quiet doc)
  | mgrResolveEntry i doc =>
    exact quiet_answers s ((admitSlot_reads i).seq fun _ => (admitOperands_reads _).seq fun _ =>
      (mgrResolveEntry_quiet i doc).bind fun _ => answer_quiet _)
  | mgrUpdatePartition => exact quiet_answers s ((guardStep_reads _ _).seq fun _ => mgrUpdatePartition_quiet)
  | mgrNotifyCapacity => exact quiet_answers s mgrNotifyCapacity_quiet
  | drvConstruct i v => exact quiet_answers s ((admitSlot_reads i).seq fun _ => drvConstruct_quiet i v)
  | drvStop i => exact quiet_answers s ((admitSlot_reads i).seq fun _ => drvStop_quiet i)
  | drvBegin i =>
    exact quiet_answers s ((admitSlot_reads i).seq fun _ => mainLoop_does (drvBegin_quiet i))
  | drvSetConfig i p =>
    exact quiet_answers s ((admitSlot_reads i).seq fun _ => (admitOperands_reads _).seq fun _ =>
      mainLoop_does (drvSetConfig_quiet i p))
  | drvGetConfig i =>
    exact quiet_answers s ((admitSlot_reads i).seq fun _ => mainLoop_does (answer_quiet _))
  | drvRender i =>
    exact does_answers s ((admitSlot_reads i).seq fun _ => mainLoop_does (drvRender_does i))
  | drvGetStatus i =>
    exact quiet_answers s ((admitSlot_reads i).seq fun _ => mainLoop_does (answer_quiet _))
  | drvPause i => exact quiet_answers s ((admitSlot_reads i).seq fun _ => drvPause_quiet i)
  | drvResume i => exact quiet_answers s ((admitSlot_reads i).seq fun _ => drvResume_quiet i)
  | drvSetBuffer i o n => exact quiet_answers s ((admitSlot_reads i).seq fun _ => drvSetBuffer_quiet i o n)
  | drvMoreData i =>
    exact quiet_answers s ((admitSlot_reads i).seq fun _ => (drvMoreData_reads i).seq fun _ => answer_quiet _)
  | drvNextByte i =>
    exact does_answers s ((admitSlot_reads i).seq fun _ => (drvMoreData_reads i).seq fun _ =>
      (guardStep_reads _ _).seq fun _ => (drvNextByte_does i).bind fun _ => answer_quiet _)
  | drvNeeded i => exact quiet_answers s ((admitSlot_reads i).seq fun _ => answer_quiet _)
  | xlatSplit b G => exact quiet_answers s ((xlatSplit_reads b G).seq fun _ => answer_quiet _)
  | xlatLookupPulse i c =>
    exact quiet_answers s (onKind_does ((xlatLookupPulseCode_reads i c).seq fun _ => answer_quiet _))
  | xlatLookupSerial i g =>
    exact does_answers s (onKind_does ((xlatLookupSerial_reads i g).seq fun _ => (answer_quiet _).does))
  | xlatBuildSerial G S H0 H1 => exact quiet_answers s ((xlatBuildSerial_reads G S H0 H1).seq fun _ => answer_quiet _)
  | xlatEncodePulse i b =>
    exact quiet_answers s (onKind_does ((xlatEncodePulse_reads i b).seq fun _ => answer_quiet _))
  | xlatEncodeSerial i b =>
    exact does_answers s (onKind_does ((xlatEncodeSerial_reads i b).seq fun _ => (answer_quiet _).does))
  | peBegin i => exact quiet_answers s ((admitSlot_reads i).seq fun _ => peBegin_quiet i)
  | peStartFrame i => exact does_answers s (onPulseEngine_does fun _ => peStartFrame_does i)
  | peNextItem i =>
    exact does_answers s (onPulseEngine_does fun _ => (peNextItem_does i).bind fun _ => answer_quiet _)
  | peFill i => exact does_answers s (onPulseEngine_does fun _ => peFill_does i)
  | peIsr i => exact does_answers s (onPulseEngine_does fun _ => peIsr_does i)
  | peIdle i => exact quiet_answers s ((admitSlot_reads i).seq fun _ => peIdle_quiet i)
  | seBegin i => exact quiet_answers s ((admitSlot_reads i).seq fun _ => seBegin_quiet i)
  | seStartFrame i => exact does_answers s (onSerialEngine_does fun _ => seStartFrame_does i)
  | seNextItem i =>
    exact does_answers s (onSerialEngine_does fun _ => (seNextItem_does i).bind fun _ => answer_quiet _)
  | seFill i => exact does_answers s (onSerialEngine_does fun _ => seFill_does i)
  | seIsr i => exact does_answers s (onSerialEngine_does fun _ => seIsr_does i)
  | seIdle i => exact quiet_answers s ((admitSlot_reads i).seq fun _ => seIdle_quiet i)
  | puStart i => exact quiet_answers s (onPulseEngine_does fun _ => puStart_quiet _)
  | puEmit i => exact own_answers ((admitSlot_reads i).own fun _ => puEmit_ends i s)
  | suStart i => exact quiet_answers s (onSerialEngine_does fun _ => suStart_quiet _)
  | suShift i => exact own_answers ((admitSlot_reads i).own fun _ => suShift_ends i s)
  | timerTick n => exact own_answers ((admitOperands_reads _).own fun _ => rfl)
  | irqEntry i => exact does_answers s ((admitSlot_reads i).seq fun _ => irqEntry_does i)
  | hostBufWrite a v => exact own_answers (hostBufWrite_ends a v s)

/-- A render sub-step (R294). -/
theorem stepRenderSubstep_answers (s : State) : Answers (Wrote s) (lacksEntry s) s (stepRenderSubstep s) :=
  runStep_answers (renderSubstep_does s)

/-- What any step may write from `s` on. -/
def stepWrite (s t : State) : Prop := Wrote s t ∨ ∃ i, ownWrite i s t

theorem Answers.mono {w w' : State → Prop} {stops : Prop} {s : State} {o : Host.Outcome State Fault Refusal}
    (h : Answers w stops s o) (hw : ∀ u, w u → w' u) : Answers w' stops s o := by
  cases o with
  | next t => exact h.imp_left fun ⟨u, hu, ht⟩ => ⟨u, hw u hu, ht⟩
  | fault f => exact h
  | refused r => trivial

theorem runCommand_answers (c : Command) (s : State) : Answers (stepWrite s) (lacksEntry s) s (runCommand c s) := by
  have hrefuse : ∀ {x : Op Unit}, x.Quiet → Answers (stepWrite s) (lacksEntry s) s (runStep s x) := fun hx =>
    (runStep_answers (hx.does s)).mono fun _ => .inl
  unfold runCommand
  cases decode c with
  | instr i => exact (exec_answers i s).mono fun _ hw => hw.imp_right fun h => ⟨i, h⟩
  | unassigned => exact hrefuse (refuse_reads _).does
  | badSlot => exact hrefuse (refuse_reads _).does
  | illFormed op slot => exact hrefuse (refuseRecord_reads op slot).does

/-- A step takes the schedule's first move, if there is one, then makes the writes of its instruction or of the
sub-step (R13, R294). -/
theorem step_answers (s : State) : ∃ moves,
    Answers (stepWrite { s with schedule := moves }) (lacksEntry { s with schedule := moves })
      { s with schedule := moves } (step s) := by
  cases hs : s.schedule with
  | nil =>
    rw [step_of_schedule_nil hs]
    refine ⟨s.schedule, .inl ⟨s, .inl (.refl s), .inl rfl⟩⟩
  | cons m rest =>
    refine ⟨rest, ?_⟩
    cases m with
    | command c => rw [step_of_schedule_command hs]; exact runCommand_answers c _
    | renderSubstep =>
      rw [step_of_schedule_renderSubstep hs]
      exact (stepRenderSubstep_answers _).mono fun _ => .inl

/-! ## The invariants -/

theorem State.Bound.tablesTotal {s : State} (h : s.Bound) : s.TablesTotal := by
  intro i e he
  refine ⟨h.cfg i ?_, fun q l hc => h.latch i e q l he hc⟩
  have hkind := h.kind i
  rw [he] at hkind
  rw [isEncoder, ← hkind]
  rfl

theorem State.Bounded.setPu {s : State} {u : Nat} {p : PulseUnit} (hb : s.Bounded)
    (h : p.ring.length ≤ s.board.ringCapacity) : (s.setPu u p).Bounded where
  ring w := by
    rw [setPu_pu]
    split
    · exact h
    · exact hb.ring w
  fifo := hb.fifo
  now := hb.now
  slice := hb.slice
  used := hb.used
  faults := hb.faults

theorem State.Bounded.setSu {s : State} {u : Nat} {p : SerialUnit} (hb : s.Bounded)
    (h : p.fifo.length ≤ s.board.fifoCapacity) : (s.setSu u p).Bounded where
  ring := hb.ring
  fifo w := by
    rw [setSu_su]
    split
    · exact h
    · exact hb.fifo w
  now := hb.now
  slice := hb.slice
  used := hb.used
  faults := hb.faults

theorem Wrote.bounded {s t : State} (h : Wrote s t) : s.Bounded → t.Bounded := by
  induction h with
  | refl s => exact id
  | trans _ _ ih ih' => exact ih' ∘ ih
  | @slot s t i h =>
    intro hb
    have hslice : ∀ j, (t.slot j).offset + (t.slot j).length ≤ s.board.totalBufferSize := fun j => by
      by_cases hj : j = i
      · subst hj
        rcases h.slice with ⟨ho, hn⟩ | hin
        · rw [ho, hn]; exact hb.slice j
        · exact hin
      · rw [h.other j hj]; exact hb.slice j
    rw [h.frame] at hslice ⊢
    exact ⟨hb.ring, hb.fifo, hb.now, hslice, hb.used, hb.faults⟩
  | @record s t h =>
    intro hb
    have hused : t.totalUsed ≤ s.board.totalBufferSize := h.used.elim (fun he => he ▸ hb.used) id
    rw [h.frame]
    exact ⟨hb.ring, hb.fifo, hb.now, hb.slice, hused, hb.faults⟩
  | pu s u p _ hr => exact fun hb => hb.setPu (hr.elim (fun hle => hle.trans (hb.ring u)) id)
  | su s u p _ hr => exact fun hb => hb.setSu (hr.elim (fun hle => hle.trans (hb.fifo u)) id)

theorem ownWrite_bounded {i : Instr} {s t : State} (h : ownWrite i s t) (hb : s.Bounded) : t.Bounded := by
  unfold ownWrite at h
  split at h
  · subst h; exact ⟨hb.ring, hb.fifo, hb.now, hb.slice, hb.used, hb.faults⟩
  · subst h
    exact ⟨hb.ring, hb.fifo, Nat.mod_lt _ (Nat.two_pow_pos _), hb.slice, hb.used, hb.faults⟩
  · obtain ⟨u, p, rfl, -, hr⟩ := h
    exact hb.setPu (hr.trans (hb.ring u))
  · obtain ⟨u, p, rfl, -, hr⟩ := h
    exact hb.setSu (hr.trans (hb.fifo u))
  · exact h.elim

/-- R330: the fault set stays without repeats. -/
theorem State.Bounded.addFault {s : State} (hb : s.Bounded) (f : FaultRecord) : (s.addFault f).Bounded := by
  unfold State.addFault
  split
  · exact hb
  · rename_i hf
    exact ⟨hb.ring, hb.fifo, hb.now, hb.slice, hb.used,
      hb.faults.append (List.nodup_singleton f) (by simpa using hf)⟩

/-- Settles O50: every write of a step keeps the bounds. -/
theorem stepKeepsTheBounds : Obligations.StepKeepsTheBounds := by
  intro s t hb h
  obtain ⟨moves, ha⟩ := step_answers s
  have hb' : State.Bounded { s with schedule := moves } :=
    ⟨hb.ring, hb.fifo, hb.now, hb.slice, hb.used, hb.faults⟩
  rw [h] at ha
  rcases ha with ⟨u, hw, ht⟩ | ⟨r, rfl⟩
  · have hu : u.Bounded := hw.elim (fun hw => hw.bounded hb') fun ⟨_, ho⟩ => ownWrite_bounded ho hb'
    rcases ht with rfl | ⟨f, rfl⟩
    · exact hu
    · exact hu.addFault f
  · exact ⟨hb.ring, hb.fifo, hb.now, hb.slice, hb.used, hb.faults⟩

/-- Settles O52: a step comes to the model's own stop only where a table is not total, and a bound state has every
table total. -/
theorem noStepEndsInAModelFault : Obligations.NoStepEndsInAModelFault := by
  intro s f hb h
  obtain ⟨moves, ha⟩ := step_answers s
  rw [h] at ha
  exact ha hb.tablesTotal

/-- An own write leaves every record of the block alone. -/
theorem ownWrite_frame {i : Instr} {s t : State} (h : ownWrite i s t) :
    t = { s with buf := t.buf, now := t.now, pulseUnits := t.pulseUnits, serialUnits := t.serialUnits } := by
  unfold ownWrite at h
  split at h
  · subst h; rfl
  · subst h; rfl
  · obtain ⟨u, p, rfl, -, -⟩ := h; rfl
  · obtain ⟨u, p, rfl, -, -⟩ := h; rfl
  · exact h.elim

/-- A trace only grows under the write of the instruction that owns it. -/
theorem ownWrite_traces {i : Instr} {s t : State} (h : ownWrite i s t) :
    (∀ u, (s.pu u).trace <+: (t.pu u).trace) ∧ ∀ u, (s.su u).trace <+: (t.su u).trace := by
  unfold ownWrite at h
  split at h
  · subst h; exact ⟨fun _ => List.prefix_rfl, fun _ => List.prefix_rfl⟩
  · subst h; exact ⟨fun _ => List.prefix_rfl, fun _ => List.prefix_rfl⟩
  · obtain ⟨u, p, rfl, ht, -⟩ := h
    refine ⟨fun w => ?_, fun _ => List.prefix_rfl⟩
    rw [setPu_pu]
    split
    · subst w; exact ht
    · exact List.prefix_rfl
  · obtain ⟨u, p, rfl, ht, -⟩ := h
    refine ⟨fun _ => List.prefix_rfl, fun w => ?_⟩
    rw [setSu_su]
    split
    · subst w; exact ht
    · exact List.prefix_rfl
  · exact h.elim

/-- What a step's writes keep of the records before any fault is raised. -/
structure Grown (s t : State) : Prop where
  board : t.board = s.board
  faults : t.faults = s.faults
  begun : s.begun = true → t.begun = true
  diag : s.diag <+: t.diag
  pulseTrace : ∀ u, (s.pu u).trace <+: (t.pu u).trace
  serialTrace : ∀ u, (s.su u).trace <+: (t.su u).trace

theorem stepWrite.grown {s t : State} (h : stepWrite s t) : Grown s t := by
  rcases h with h | ⟨i, h⟩
  · have hk := h.kept
    exact ⟨hk.board, hk.faults, hk.begun, hk.diag, fun u => by rw [hk.pulseTrace u],
      fun u => by rw [hk.serialTrace u]⟩
  · have hf := ownWrite_frame h
    obtain ⟨hp, hs⟩ := ownWrite_traces h
    exact ⟨by rw [hf], by rw [hf], by rw [hf]; exact id, by rw [hf], hp, hs⟩

/-- Settles O57: the writes of a step only grow the records, and the one fault it may raise comes last. -/
theorem recordsOnlyGrow : Obligations.RecordsOnlyGrow := by
  intro s t h
  obtain ⟨moves, ha⟩ := step_answers s
  rw [h] at ha
  rcases ha with ⟨u, hw, ht⟩ | ⟨r, rfl⟩
  · have hg := stepWrite.grown hw
    rcases ht with rfl | ⟨f, rfl⟩
    · exact ⟨.inl hg.faults, hg.board, hg.begun, hg.diag, hg.pulseTrace, hg.serialTrace⟩
    · refine ⟨?_, by simpa using hg.board, by simpa using hg.begun, by simpa using hg.diag,
        by simpa using hg.pulseTrace, by simpa using hg.serialTrace⟩
      rw [addFault_faults, hg.faults]
      split
      · exact .inl rfl
      · exact .inr ⟨f, ‹_›, rfl⟩
  · exact ⟨.inl rfl, rfl, id, List.prefix_rfl, fun _ => List.prefix_rfl, fun _ => List.prefix_rfl⟩

/-- The four fields with an owner are as in `s`, but for that of instruction `i`. -/
structure OnlyOwn (i : Instr) (s t : State) : Prop where
  buf : (∀ a v, i ≠ .hostBufWrite a v) → t.buf = s.buf
  now : (∀ n, i ≠ .timerTick n) → t.now = s.now
  pulseTrace : (∀ k, i ≠ .puEmit k) → ∀ u, (t.pu u).trace = (s.pu u).trace
  serialTrace : (∀ k, i ≠ .suShift k) → ∀ u, (t.su u).trace = (s.su u).trace

theorem ownWrite_onlyOwn {i : Instr} {s t : State} (h : ownWrite i s t) : OnlyOwn i s t := by
  unfold ownWrite at h
  split at h
  · subst h; exact ⟨fun hi => absurd rfl (hi _ _), fun _ => rfl, fun _ _ => rfl, fun _ _ => rfl⟩
  · subst h; exact ⟨fun _ => rfl, fun hi => absurd rfl (hi _), fun _ _ => rfl, fun _ _ => rfl⟩
  · obtain ⟨u, p, rfl, -, -⟩ := h
    exact ⟨fun _ => rfl, fun _ => rfl, fun hi => absurd rfl (hi _), fun _ _ => rfl⟩
  · obtain ⟨u, p, rfl, -, -⟩ := h
    exact ⟨fun _ => rfl, fun _ => rfl, fun _ _ => rfl, fun hi => absurd rfl (hi _)⟩
  · exact h.elim

theorem mayWrite.onlyOwn {i : Instr} {s t : State} (h : mayWrite i s t) : OnlyOwn i s t := by
  rcases h with h | h
  · have hk := h.kept
    exact ⟨fun _ => hk.buf, fun _ => hk.now, fun _ => hk.pulseTrace, fun _ => hk.serialTrace⟩
  · exact ownWrite_onlyOwn h

/-- Settles O58: what an instruction writes of the four fields is its own write, and a sub-step makes none. -/
theorem onlyTheirOwnersWrite : Obligations.OnlyTheirOwnersWrite := by
  constructor
  · intro i s t h
    have ha := exec_answers i s
    rw [h] at ha
    rcases ha with ⟨u, hw, ht⟩ | ⟨r, rfl⟩
    · obtain ⟨hbuf, hnow, hpu, hsu⟩ := mayWrite.onlyOwn hw
      rcases ht with rfl | ⟨f, rfl⟩
      · exact ⟨hbuf, hnow, hpu, hsu⟩
      · simpa using ⟨hbuf, hnow, hpu, hsu⟩
    · exact ⟨fun _ => rfl, fun _ => rfl, fun _ _ => rfl, fun _ _ => rfl⟩
  · intro s t h
    have ha := stepRenderSubstep_answers s
    rw [h] at ha
    rcases ha with ⟨u, hw, ht⟩ | ⟨r, rfl⟩
    · have hk := hw.kept
      rcases ht with rfl | ⟨f, rfl⟩
      · exact ⟨hk.buf, hk.now, hk.pulseTrace, hk.serialTrace⟩
      · simpa using And.intro hk.buf (And.intro hk.now (And.intro hk.pulseTrace hk.serialTrace))
    · exact ⟨rfl, rfl, fun _ => rfl, fun _ => rfl⟩

end Sys2Proof.Machine
end

section
/-! SUPPORT. The buffer memory and the canonical form: HOST_BUF_WRITE in its three cases (R94, R332), and that every
write of a step keeps the tables canonical. -/

namespace Sys2Proof.Machine

/-! ## The canonical form -/

/-- From a state in canonical form only a state in canonical form is reached. -/
def KeepsCanonical (s t : State) : Prop := s.canonical → t.canonical

/-- The canonical form speaks of the four tables alone: a write at a key keeps the form of its table, and every other
write leaves all four as they are. -/
theorem keepsCanonical_stepWrites : StepWrites KeepsCanonical where
  refl _ := id
  trans h h' := h' ∘ h
  slot _ i d := fun ⟨hbuf, hslots, hpu, hsu⟩ => ⟨hbuf, tableWf_put _ i d hslots, hpu, hsu⟩
  pu _ u p _ := fun ⟨hbuf, hslots, hpu, hsu⟩ => ⟨hbuf, hslots, tableWf_put _ u p hpu, hsu⟩
  su _ u p _ := fun ⟨hbuf, hslots, hpu, hsu⟩ => ⟨hbuf, hslots, hpu, tableWf_put _ u p hsu⟩
  byte s a v := fun ⟨hbuf, hslots, hpu, hsu⟩ => ⟨Memory.wf_setByte s a v hbuf, hslots, hpu, hsu⟩
  fault _ _ hs := by simpa [State.canonical] using hs
  diag _ _ := id
  reply _ _ := id
  initAnswers _ _ := id
  loadAnswers _ _ := id
  drawCount _ _ := id
  now _ _ := id
  begun _ := id
  pending _ _ := id
  userPaused _ _ := id
  reloadPaused _ _ := id
  totalUsed _ _ := id
  capacity _ _ := id
  renderPos _ _ := id
  persisted _ _ := id

/-- Settles O49: the canonical form is closed under the writes of a step; the refusal mark and the schedule stand in no
table. -/
theorem stepKeepsTheTablesCanonical : Obligations.StepKeepsTheTablesCanonical := fun _ _ hs h =>
  step_writes keepsCanonical_stepWrites (fun _ _ => id) (fun _ _ => id) h hs

/-! ## HOST_BUF_WRITE -/

theorem DriverState.ownsDuringFrame_iff (d : DriverState) (a : Nat) :
    d.ownsDuringFrame a = true ↔ d.transmitting = true ∧ d.offset ≤ a ∧ a < d.offset + d.length := by
  simp [DriverState.ownsDuringFrame]

theorem DriverState.not_ownsDuringFrame_iff (d : DriverState) (a : Nat) :
    d.ownsDuringFrame a = false ↔ d.transmitting = false ∨ a < d.offset ∨ d.offset + d.length ≤ a := by
  simp [DriverState.ownsDuringFrame, imp_iff_or_not, or_comm]

/-- The slot a store at `a` is checked against: the lowest whose engine transmits from `a` (R94, R332). -/
def State.frameOwner (s : State) (a : Nat) : Option Nat :=
  s.slotIndices.find? fun i => (s.slot i).ownsDuringFrame a

theorem frameOwner_eq_some {s : State} {a i : Nat} :
    s.frameOwner a = some i ↔ s.hasSlot i ∧ (s.slot i).ownsDuringFrame a = true ∧
      ∀ j, j < i → (s.slot j).ownsDuringFrame a = false := by
  simp [State.frameOwner, State.slotIndices, State.hasSlot, List.find?_range_eq_some, and_left_comm]

theorem frameOwner_eq_none {s : State} {a : Nat} :
    s.frameOwner a = none ↔ ∀ j, s.hasSlot j → (s.slot j).ownsDuringFrame a = false := by
  simp [State.frameOwner, State.slotIndices, State.hasSlot]

/-- Above the buffer's end: the fault, and no store. -/
theorem hostBufWrite_outside {s : State} {a : Nat} (v : Byte) (ha : s.board.totalBufferSize ≤ a) :
    hostBufWrite a v s = .error .raised (s.addFault (.bufferOutOfBounds a)) := by
  rw [hostBufWrite, op_bind_ok (getState_run s), decide_eq_true ha, op_bind_error (raiseIf_true _ s)]

/-- Inside the buffer the owner of the address decides. -/
theorem hostBufWrite_inside {s : State} {a : Nat} (v : Byte) (ha : a < s.board.totalBufferSize) :
    hostBufWrite a v s = match s.frameOwner a with
      | some i => .error .raised (s.addFault (.bufferWriteDuringFrame i a))
      | none => .ok () (s.setByte a v) := by
  rw [hostBufWrite, op_bind_ok (getState_run s), decide_eq_false (Nat.not_le.mpr ha),
    op_bind_ok (raiseIf_false _ s), ← State.frameOwner]
  cases s.frameOwner a with
  | some i => rfl
  | none => rfl

theorem exec_hostBufWrite (a : Nat) (v : Byte) (s : State) :
    exec (.hostBufWrite a v) s = runStep s (hostBufWrite a v) := rfl

/-- Settles O48: the bound is checked first, then the owner of the address, and a byte that passes both is stored. -/
theorem hostWriteStoresOneByte : Obligations.HostWriteStoresOneByte := by
  intro s a v
  rw [exec_hostBufWrite]
  refine ⟨fun ha => ?outside, fun i ha hi ht hlo hhi hbelow => ?owned, fun ha hfree => ?free⟩
  case outside => exact runStep_raised (hostBufWrite_outside v ha)
  case owned =>
    have howner : s.frameOwner a = some i :=
      frameOwner_eq_some.mpr ⟨hi, (DriverState.ownsDuringFrame_iff _ a).mpr ⟨ht, hlo, hhi⟩, fun j hj =>
        (DriverState.not_ownsDuringFrame_iff _ a).mpr (hbelow j hj)⟩
    exact runStep_raised (by rw [hostBufWrite_inside v ha, howner])
  case free =>
    have howner : s.frameOwner a = none :=
      frameOwner_eq_none.mpr fun j hj => (DriverState.not_ownsDuringFrame_iff _ a).mpr (hfree j hj)
    exact ⟨s.setByte a v, runStep_ok (by rw [hostBufWrite_inside v ha, howner]), rfl, setByte_byte s a v⟩

end Sys2Proof.Machine
end

section
/-! SUPPORT. What the decoder answers on any word and record (R111, R112, R120, R124, R125), said once for its rows:
an instruction that the word and the record carry, or one of the three refusals and when. -/

namespace Sys2Proof

open Machine

/-! ## The fields of a word -/

/-- A command word is its op field above its slot field (R111). -/
theorem op_append_slot (w : Cmd16) : BitVec.ofNat 8 (opOf w) ++ BitVec.ofNat 8 (slotOf w) = w := by
  simp only [opOf, slotOf, BitVec.ofNat_toNat, BitVec.setWidth_eq]
  calc w.extractLsb' 8 8 ++ w.extractLsb' 0 8 = w.extractLsb' 0 16 :=
        BitVec.extractLsb'_append_extractLsb'_eq_extractLsb' rfl
    _ = w := BitVec.extractLsb'_eq_self

theorem slotOf_lt (w : Cmd16) : slotOf w < 256 := (w.extractLsb' 0 8).isLt

/-! ## The fields of a record (R120) -/

theorem Record.getNat_eq_some {r : Record} {f : Field} {n : Nat} :
    Record.getNat r f = some n ↔ Record.get r f = some (.num n) := by
  unfold Record.getNat; split <;> simp_all

theorem Record.getVariant_eq_some {r : Record} {f : Field} {v : Variant} :
    Record.getVariant r f = some v ↔ Record.get r f = some (.variant v) := by
  unfold Record.getVariant; split <;> simp_all

theorem Record.getDoc_eq_some {r : Record} {f : Field} {d : ConfigDoc} :
    Record.getDoc r f = some d ↔ Record.get r f = some (.doc d) := by
  unfold Record.getDoc; split <;> simp_all

theorem Record.getParams_eq_some {r : Record} {f : Field} {p : ParamObject} :
    Record.getParams r f = some p ↔ Record.get r f = some (.params p) := by
  unfold Record.getParams; split <;> simp_all

/-- A Byte is read from the number it travels as, and from no other. -/
theorem Record.getByte_eq_some {r : Record} {f : Field} {b : Byte} :
    Record.getByte r f = some b ↔ Record.get r f = some (.num b.toNat) := by
  refine ⟨fun h => ?_, Record.getByte_of_get⟩
  unfold Record.getByte at h
  split at h
  case h_1 n hn =>
    obtain ⟨hlt, hb⟩ := Option.ite_none_right_eq_some.mp h
    have hval : b.toNat = n := by
      rw [← Option.some.inj hb, BitVec.toNat_ofNat, Nat.mod_eq_of_lt hlt]
    rw [hn, hval]
  case h_2 => cases h

/-- The record `r` gives every field of `xs` its value (R120). -/
def Record.Holds (r xs : Record) : Prop := ∀ f o, (f, o) ∈ xs → Record.get r f = some o

theorem Record.holds_nil (r : Record) : r.Holds [] := fun _ _ h => nomatch h

theorem Record.Holds.cons {r xs : Record} {f : Field} {o : Operand} (h : Record.get r f = some o) (hxs : r.Holds xs) :
    r.Holds ((f, o) :: xs) := by
  intro k p hk
  cases hk with
  | head => exact h
  | tail _ hk => exact hxs k p hk

/-! ## The marks of R112 -/

theorem Instr.opcode_mem_noSlotOps {i : Instr} (h : i.slot? = none) : i.opcode ∈ noSlotOps := by
  cases i
  all_goals cases h
  all_goals simp [Instr.opcode, noSlotOps]

theorem Instr.opcode_mem_slotOps {i : Instr} {k : Nat} (h : i.slot? = some k) : i.opcode ∈ slotOps := by
  cases i
  all_goals cases h
  all_goals simp [Instr.opcode, slotOps]

theorem noSlotOps_disjoint_slotOps : ∀ op ∈ noSlotOps, op ∉ slotOps := by decide

theorem Instr.slot?_eq_none {i : Instr} (h : i.opcode ∈ noSlotOps) : i.slot? = none := by
  cases hk : i.slot? with
  | none => rfl
  | some k => exact absurd (Instr.opcode_mem_slotOps hk) (noSlotOps_disjoint_slotOps _ h)

/-- An instruction whose op is marked "slot" carries its slot. -/
theorem Instr.slot?_eq_some {i : Instr} (h : i.opcode ∈ slotOps) : i.slot? = some (i.slot?.getD 0) := by
  cases hk : i.slot? with
  | none => exact absurd h (noSlotOps_disjoint_slotOps _ (Instr.opcode_mem_noSlotOps hk))
  | some k => rfl

theorem noSlotOps_of_recordWithoutSlot {op : Nat} (h : recordWithoutSlot op = true) : op ∈ noSlotOps := by
  simp only [recordWithoutSlot, Bool.or_eq_true, beq_iff_eq] at h
  simp only [noSlotOps, List.mem_cons]
  omega

theorem recordWithoutSlot_of_slotOps : ∀ op ∈ slotOps, recordWithoutSlot op = false := by decide

/-- The slot operations that need an engine of kind `k` (R124). -/
def kindOps : EngineKind → List Nat
  | .pulse => pulseOps
  | .serial => serialOps

theorem mem_kindOps_of_engineNeed {op : Nat} {k : EngineKind} (h : engineNeed op = some k) : op ∈ kindOps k := by
  unfold engineNeed at h
  split at h
  all_goals cases h
  all_goals decide

theorem engineNeed_of_mem_kindOps : ∀ k, ∀ op ∈ kindOps k, engineNeed op = some k
  | .pulse => by decide
  | .serial => by decide

theorem slotOps_of_mem_kindOps : ∀ k, ∀ op ∈ kindOps k, op ∈ slotOps
  | .pulse => by decide
  | .serial => by decide

/-! ## The rows of R112 -/

/-- An instruction that the row of R112 at an op may read from a slot field and a record. -/
def ReadFrom (op slot : Nat) (r : Record) (i : Instr) : Prop :=
  i.opcode = op ∧ i.slot?.getD 0 = slot ∧ r.Holds i.record

/-- What the row of R112 at an op answers on a slot field and a record (R120, R124, R125). -/
inductive RowAnswer (op slot : Nat) (r : Record) : Decoded → Prop
  | instr {i : Instr} (h : ReadFrom op slot r i) : RowAnswer op slot r (.instr i)
  | unassigned (hno : op ∉ noSlotOps) (hop : op ∉ slotOps) : RowAnswer op slot r .unassigned
  | badSlot (hop : op ∈ noSlotOps) (hslot : slot ≠ 0) : RowAnswer op slot r .badSlot
  | illFormed (hop : recordWithoutSlot op = true ∧ slot = 0 ∨ op ∈ slotOps) : RowAnswer op slot r (.illFormed op slot)

namespace RowAnswer

variable {op slot : Nat} {r : Record}

theorem ofNoSlot {d : Decoded} (hop : op ∈ noSlotOps) (hd : slot = 0 → RowAnswer op slot r d) :
    RowAnswer op slot r (noSlot slot d) := by
  unfold noSlot
  split
  case isTrue h => exact hd h
  case isFalse h => exact .badSlot hop h

theorem ofRecord {o : Option Instr} (hop : recordWithoutSlot op = true ∧ slot = 0 ∨ op ∈ slotOps)
    (ho : ∀ i, o = some i → ReadFrom op slot r i) : RowAnswer op slot r (fromRecord op slot o) := by
  cases o with
  | none => exact .illFormed hop
  | some i => exact .instr (ho i rfl)

/-- A row whose record is one field. -/
theorem ofField {α : Type} {o : Option α} {mk : α → Instr}
    (hop : recordWithoutSlot op = true ∧ slot = 0 ∨ op ∈ slotOps)
    (ho : ∀ a, o = some a → ReadFrom op slot r (mk a)) : RowAnswer op slot r (fromRecord op slot (o.map mk)) :=
  ofRecord hop fun i hi => by
    obtain ⟨a, ha, rfl⟩ := Option.map_eq_some_iff.mp hi
    exact ho a ha

variable {d : Decoded}

theorem readFrom {i : Instr} (h : RowAnswer op slot r (.instr i)) : ReadFrom op slot r i := by
  cases h with
  | instr hi => exact hi

/-- A record is ill-formed only on an op that has operands, once the slot field of a "no slot" one is right. -/
theorem hasRecord {op' slot' : Nat} (h : RowAnswer op slot r (.illFormed op' slot')) :
    recordWithoutSlot op' = true ∨ op' ∈ slotOps := by
  cases h with
  | illFormed hop => exact hop.imp_left And.left

/-- An op of neither list is one that no row of R112 lists. -/
theorem eq_unassigned (h : RowAnswer op slot r d) (hno : op ∉ noSlotOps) (hop : op ∉ slotOps) : d = .unassigned := by
  cases h with
  | @instr i hi =>
    obtain ⟨rfl, -, -⟩ := hi
    cases hk : i.slot? with
    | none => exact absurd (Instr.opcode_mem_noSlotOps hk) hno
    | some k => exact absurd (Instr.opcode_mem_slotOps hk) hop
  | unassigned => rfl
  | badSlot h => exact absurd h hno
  | illFormed h =>
    obtain ⟨h, -⟩ | h := h
    · exact absurd (noSlotOps_of_recordWithoutSlot h) hno
    · exact absurd h hop

/-- A "no slot" operation answers a nonzero slot field with BadSlot, whatever its record (R124). -/
theorem eq_badSlot (h : RowAnswer op slot r d) (hop : op ∈ noSlotOps) (hslot : slot ≠ 0) : d = .badSlot := by
  cases h with
  | instr hi =>
    obtain ⟨rfl, hk, -⟩ := hi
    rw [Instr.slot?_eq_none hop] at hk
    exact absurd hk.symm hslot
  | unassigned hno => exact absurd hop hno
  | badSlot => rfl
  | illFormed h =>
    obtain ⟨-, h⟩ | h := h
    · exact absurd h hslot
    · exact absurd h (noSlotOps_disjoint_slotOps _ hop)

/-- A slot operation is read as an instruction on its slot, or its record is ill-formed. -/
theorem of_slotOp (h : RowAnswer op slot r d) (hop : op ∈ slotOps) :
    d = .illFormed op slot ∨ ∃ i : Instr, d = .instr i ∧ i.opcode = op ∧ i.slot? = some slot := by
  cases h with
  | instr hi =>
    obtain ⟨rfl, rfl, -⟩ := hi
    exact .inr ⟨_, rfl, rfl, Instr.slot?_eq_some hop⟩
  | unassigned _ h => exact absurd hop h
  | badSlot h => exact absurd hop (noSlotOps_disjoint_slotOps _ h)
  | illFormed => exact .inl rfl

end RowAnswer

/-- Each row of R112 answers as its marks and its operand list say: a "no slot" row tests its slot field first, then a
row with operands reads its record. -/
theorem decodeRow_answer (op slot : Nat) (r : Record) : RowAnswer op slot r (decodeRow op slot r) := by
  unfold decodeRow
  split
  -- MGR_SET_CONFIG, MGR_APPLY_CONFIG, MGR_RESOLVE_ENTRY
  case h_2 | h_9 =>
    exact .ofNoSlot (by decide) fun h0 => .ofField (.inl ⟨rfl, h0⟩) fun d hd =>
      ⟨rfl, h0.symm, .cons (Record.getDoc_eq_some.mp hd) r.holds_nil⟩
  case h_10 =>
    exact .ofField (.inr (by decide)) fun d hd => ⟨rfl, rfl, .cons (Record.getDoc_eq_some.mp hd) r.holds_nil⟩
  -- DRV_CONSTRUCT, DRV_SET_CONFIG, DRV_SET_BUFFER
  case h_13 =>
    exact .ofField (.inr (by decide)) fun v hv => ⟨rfl, rfl, .cons (Record.getVariant_eq_some.mp hv) r.holds_nil⟩
  case h_16 =>
    exact .ofField (.inr (by decide)) fun p hp => ⟨rfl, rfl, .cons (Record.getParams_eq_some.mp hp) r.holds_nil⟩
  case h_22 =>
    refine .ofRecord (.inr (by decide)) fun i hi => ?_
    simp only [Option.bind_eq_some_iff, Record.getNat_eq_some, Option.some.injEq] at hi
    obtain ⟨offset, ho, length, hl, rfl⟩ := hi
    exact ⟨rfl, rfl, .cons ho (.cons hl r.holds_nil)⟩
  -- XLAT_SPLIT, XLAT_BUILD_SERIAL
  case h_26 =>
    refine .ofNoSlot (by decide) fun h0 => .ofRecord (.inl ⟨rfl, h0⟩) fun i hi => ?_
    simp only [Option.bind_eq_some_iff, Record.getByte_eq_some, Record.getNat_eq_some, Option.some.injEq] at hi
    obtain ⟨b, hb, G, hG, rfl⟩ := hi
    exact ⟨rfl, h0.symm, .cons hb (.cons hG r.holds_nil)⟩
  case h_29 =>
    refine .ofNoSlot (by decide) fun h0 => .ofRecord (.inl ⟨rfl, h0⟩) fun i hi => ?_
    simp only [Option.bind_eq_some_iff, Record.getNat_eq_some, Option.some.injEq] at hi
    obtain ⟨G, hG, S, hS, H0, hH0, H1, hH1, rfl⟩ := hi
    exact ⟨rfl, h0.symm, .cons hG (.cons hS (.cons hH0 (.cons hH1 r.holds_nil)))⟩
  -- XLAT_LOOKUP_PULSE, XLAT_LOOKUP_SERIAL, XLAT_ENCODE_PULSE, XLAT_ENCODE_SERIAL
  case h_27 | h_28 =>
    exact .ofField (.inr (by decide)) fun n hn => ⟨rfl, rfl, .cons (Record.getNat_eq_some.mp hn) r.holds_nil⟩
  case h_30 | h_31 =>
    exact .ofField (.inr (by decide)) fun b hb => ⟨rfl, rfl, .cons (Record.getByte_eq_some.mp hb) r.holds_nil⟩
  -- TIMER_TICK, HOST_BUF_WRITE
  case h_48 =>
    exact .ofNoSlot (by decide) fun h0 => .ofField (.inl ⟨rfl, h0⟩) fun n hn =>
      ⟨rfl, h0.symm, .cons (Record.getNat_eq_some.mp hn) r.holds_nil⟩
  case h_50 =>
    refine .ofNoSlot (by decide) fun h0 => .ofRecord (.inl ⟨rfl, h0⟩) fun i hi => ?_
    simp only [Option.bind_eq_some_iff, Record.getByte_eq_some, Record.getNat_eq_some, Option.some.injEq] at hi
    obtain ⟨a, ha, v, hv, rfl⟩ := hi
    exact ⟨rfl, h0.symm, .cons ha (.cons hv r.holds_nil)⟩
  -- the other "no slot" rows of MGR_
  case h_1 | h_3 | h_4 | h_5 | h_6 | h_7 | h_8 | h_11 | h_12 =>
    exact .ofNoSlot (by decide) fun h0 => .instr ⟨rfl, h0.symm, r.holds_nil⟩
  -- an op that no row lists
  case h_51 => exact .unassigned (by simp_all [noSlotOps]) (by simp_all [slotOps])
  -- the slot operations without a record
  all_goals exact .instr ⟨rfl, rfl, r.holds_nil⟩

/-- What a command decodes to is an answer of its op's row. -/
theorem decode_answer (c : Command) : RowAnswer (opOf c.word) (slotOf c.word) c.record (decode c) :=
  decodeRow_answer ..

end Sys2Proof
end

section
/-! SUPPORT. The encodings (R111, R112, R125), the refusals that stand before an operation (R124, R337, R338), and the
descriptor word (R114). -/

namespace Sys2Proof.Machine

/-! ## Encodings -/

/-- Settles O1, by `decode_encode` and the two fields of the word. -/
theorem decodeOfEncodeIsTheInstruction : Obligations.DecodeOfEncodeIsTheInstruction := by
  intro i hi
  obtain ⟨hslot, -⟩ := i.wellFormed_iff.mp hi
  exact ⟨decode_encode hslot, opOf_word i, slotOf_word hslot⟩

/-- Settles O2: the row that answered an instruction gives its op, its slot and its operands, and the two fields are
the whole word. -/
theorem decodedInstructionHasOneWord : Obligations.DecodedInstructionHasOneWord := by
  intro c i h
  obtain ⟨hop, hslot, hrec⟩ := (h ▸ decode_answer c).readFrom
  refine ⟨?word, ?fits, hrec⟩
  case word =>
    calc c.word = BitVec.ofNat 8 (opOf c.word) ++ BitVec.ofNat 8 (slotOf c.word) := (op_append_slot c.word).symm
      _ = (encode i).word := by rw [← hop, ← hslot]; rfl
  case fits => exact i.slotFits_iff.mpr (hslot ▸ slotOf_lt c.word)

/-- Settles O3: eleven words are the encodings of their instructions, one names an op that no row lists, and one a slot
on a "no slot" operation. -/
theorem writtenOutWordsDecode : Obligations.WrittenOutWordsDecode :=
  ⟨decode_encode (i := .mgrBegin) rfl, decode_encode (i := .mgrRender) rfl, decode_encode (i := .drvRender 1) rfl,
    decode_encode (i := .drvSetBuffer 255 512 3) rfl, decode_encode (i := .xlatSplit 0xB4#8 2) rfl,
    decode_encode (i := .peStartFrame 0) rfl, decode_encode (i := .seIsr 2) rfl, decode_encode (i := .puEmit 0) rfl,
    decode_encode (i := .timerTick 50) rfl, decode_encode (i := .irqEntry 1) rfl,
    decode_encode (i := .hostBufWrite 3 0xB4#8) rfl, (decode_answer _).eq_unassigned (by decide) (by decide),
    (decode_answer _).eq_badSlot (by decide) (by decide)⟩

/-! ## The refusals of R337 that stand before an operation -/

theorem admitBegun_refused {s : State} (h : s.begun = false) : admitBegun s = .error (.refused .notBegun) s := by
  simp [admitBegun, h]

theorem admitKind_refused {i : Nat} {k : EngineKind} {s : State} (h : s.engineKindAt i ≠ some k) :
    admitKind i k s = .error (.refused .wrongEngineKind) s := by
  unfold admitKind
  cases he : (s.slot i).eng with
  | none => rfl
  | some e => exact if_neg fun hk => h (by simp [State.engineKindAt, he, hk])

theorem admitKind_of_kindAt {i : Nat} {k : EngineKind} {s : State} (h : s.engineKindAt i = some k) :
    admitKind i k s = .ok () s := by
  obtain ⟨e, he, hk⟩ := Option.map_eq_some_iff.mp h
  exact admitKind_ok he hk

theorem pulseEngineOf_refused {i : Nat} {s : State} (h : s.engineKindAt i ≠ some .pulse) :
    pulseEngineOf i s = .error (.refused .wrongEngineKind) s := by
  cases he : (s.slot i).eng with
  | none => simp [pulseEngineOf, he]
  | some e =>
    cases hc : e.core with
    | serial q l => simp [pulseEngineOf, he, hc]
    | pulse q l => exact absurd (by simp [State.engineKindAt, he, kind_pulse hc]) h

theorem serialEngineOf_refused {i : Nat} {s : State} (h : s.engineKindAt i ≠ some .serial) :
    serialEngineOf i s = .error (.refused .wrongEngineKind) s := by
  cases he : (s.slot i).eng with
  | none => simp [serialEngineOf, he]
  | some e =>
    cases hc : e.core with
    | pulse q l => simp [serialEngineOf, he, hc]
    | serial q l => exact absurd (by simp [State.engineKindAt, he, kind_serial hc]) h

theorem admitOperands_refused {ok : Bool} {s : State} (h : ok = false) :
    admitOperands ok s = .error (.refused .illFormedOperand) s := by subst h; rfl

theorem admitOperands_ok {ok : Bool} {s : State} (h : ok = true) : admitOperands ok s = .ok () s := by
  subst h; rfl

/-- A slot operation tests its slot before anything else (R338). -/
theorem exec_slotOp {i : Instr} {k : Nat} (hk : i.slot? = some k) (s : State) :
    ∃ body : Unit → Op Unit, exec i s = runStep s (admitSlot k >>= body) := by
  cases i
  all_goals cases hk
  all_goals exact ⟨_, rfl⟩

/-- The operation after the slot check of an op that needs an engine kind starts with the test of that kind (R338). -/
theorem exec_kindOp {i : Instr} {j : Nat} {k : EngineKind} {s : State} (hneed : engineNeed i.opcode = some k)
    (hj : i.slot? = some j) (h : s.engineKindAt j ≠ some k) :
    ∃ body : Unit → Op Unit, exec i s = runStep s (admitSlot j >>= body) ∧
      body () s = .error (.refused .wrongEngineKind) s := by
  cases i with
  | xlatLookupPulse _ _ | xlatEncodePulse _ _ | xlatLookupSerial _ _ | xlatEncodeSerial _ _ =>
    cases hj; cases hneed
    exact ⟨_, rfl, op_bind_error (admitKind_refused h)⟩
  | peBegin _ | peStartFrame _ | peNextItem _ | peFill _ | peIsr _ | peIdle _ | puStart _ | puEmit _ =>
    cases hj; cases hneed
    exact ⟨_, rfl, op_bind_error (pulseEngineOf_refused h)⟩
  | seBegin _ | seStartFrame _ | seNextItem _ | seFill _ | seIsr _ | seIdle _ | suStart _ | suShift _ =>
    cases hj; cases hneed
    exact ⟨_, rfl, op_bind_error (serialEngineOf_refused h)⟩
  | _ => cases hneed

/-- After the slot and before NotBegun, an instruction's operands are tested (R338). -/
theorem exec_illFormedOperands {i : Instr} {s : State} (hslot : ∀ k, i.slot? = some k → s.hasSlot k)
    (h : i.operandsOk = false) : exec i s = .next { s with refused := some .illFormedOperand } := by
  cases i with
  | mgrSetConfig _ | mgrApplyConfig _ | timerTick _ => exact runStep_refused (op_bind_error (admitOperands_refused h))
  | mgrResolveEntry k _ | drvSetConfig k _ =>
    exact runStep_refused
      ((op_bind_ok (admitSlot_ok (hslot k rfl))).trans (op_bind_error (admitOperands_refused h)))
  | _ => cases h

/-- After the slot and the operands, the main loop's operations but MGR_BEGIN are refused before MGR_BEGIN (R338). -/
theorem exec_notBegun {i : Instr} {s : State} (hslot : ∀ k, i.slot? = some k → s.hasSlot k)
    (hok : i.operandsOk = true) (hmain : issuer i = .mainLoop) (hne : i ≠ .mgrBegin) (h : s.begun = false) :
    exec i s = .next { s with refused := some .notBegun } := by
  cases i with
  | mgrBegin => exact absurd rfl hne
  | mgrSetConfig _ =>
    exact runStep_refused ((op_bind_ok (admitOperands_ok hok)).trans (op_bind_error (admitBegun_refused h)))
  | mgrGetConfig | mgrGetStatus | mgrRender | mgrPause | mgrResume =>
    exact runStep_refused (op_bind_error (admitBegun_refused h))
  | drvBegin k | drvGetConfig k | drvRender k | drvGetStatus k =>
    exact runStep_refused ((op_bind_ok (admitSlot_ok (hslot k rfl))).trans (op_bind_error (admitBegun_refused h)))
  | drvSetConfig k _ =>
    exact runStep_refused ((op_bind_ok (admitSlot_ok (hslot k rfl))).trans
      ((op_bind_ok (admitOperands_ok hok)).trans (op_bind_error (admitBegun_refused h))))
  | _ => cases hmain

/-! ## Command words that are refused (R124, R338) -/

theorem runCommand_of_unassigned {c : Command} (h : decode c = .unassigned) (s : State) :
    runCommand c s = .next { s with refused := some .unassignedOp } := by
  rw [runCommand, h]
  exact runStep_refused (refuse_run _ s)

theorem runCommand_of_badSlot {c : Command} (h : decode c = .badSlot) (s : State) :
    runCommand c s = .next { s with refused := some .badSlot } := by
  rw [runCommand, h]
  exact runStep_refused (refuse_run _ s)

theorem runCommand_of_illFormed {c : Command} {op slot : Nat} (h : decode c = .illFormed op slot) (s : State) :
    runCommand c s = runStep s (refuseRecord op slot) := by rw [runCommand, h]

/-- The slot check of a slot operation whose record is ill-formed is that of R124. -/
theorem admitOpSlot_of_mem {op slot : Nat} (h : op ∈ slotOps) : admitOpSlot op slot = admitSlot slot := by
  simp [admitOpSlot, recordWithoutSlot_of_slotOps op h]

theorem admitOpKind_of_need {op slot : Nat} {k : EngineKind} (h : engineNeed op = some k) :
    admitOpKind op slot = admitKind slot k := by simp [admitOpKind, h]

theorem runCommand_badSlot {c : Command} {s : State} (hop : opOf c.word ∈ slotOps)
    (h : s.board.numSlots ≤ slotOf c.word) : runCommand c s = .next { s with refused := some .badSlot } := by
  obtain hd | ⟨i, hd, -, hk⟩ := (decode_answer c).of_slotOp hop
  · rw [runCommand_of_illFormed hd, refuseRecord, admitOpSlot_of_mem hop]
    exact runStep_refused (op_bind_error (admitSlot_bad h))
  · obtain ⟨body, hexec⟩ := exec_slotOp hk s
    rw [runCommand_of_decode hd, hexec]
    exact runStep_refused (op_bind_error (admitSlot_bad h))

theorem runCommand_wrongKind {c : Command} {s : State} {k : EngineKind} (hop : opOf c.word ∈ kindOps k)
    (hslot : s.hasSlot (slotOf c.word)) (h : s.engineKindAt (slotOf c.word) ≠ some k) :
    runCommand c s = .next { s with refused := some .wrongEngineKind } := by
  have hneed := engineNeed_of_mem_kindOps k _ hop
  have hmem := slotOps_of_mem_kindOps k _ hop
  obtain hd | ⟨i, hd, hi, hk⟩ := (decode_answer c).of_slotOp hmem
  · rw [runCommand_of_illFormed hd, refuseRecord, admitOpSlot_of_mem hmem, admitOpKind_of_need hneed]
    exact runStep_refused ((op_bind_ok (admitSlot_ok hslot)).trans (op_bind_error (admitKind_refused h)))
  · obtain ⟨body, hexec, hbody⟩ := exec_kindOp (hi ▸ hneed) hk h
    rw [runCommand_of_decode hd, hexec]
    exact runStep_refused ((op_bind_ok (admitSlot_ok hslot)).trans hbody)

theorem admitOpSlot_ok {op slot : Nat} {s : State} (hop : recordWithoutSlot op = true ∨ op ∈ slotOps)
    (h : op ∈ slotOps → s.hasSlot slot) : admitOpSlot op slot s = .ok () s := by
  obtain hop | hop := hop
  · simp [admitOpSlot, hop]
  · rw [admitOpSlot_of_mem hop, admitSlot_ok (h hop)]

theorem admitOpKind_ok {op slot : Nat} {s : State} (h : ∀ k, op ∈ kindOps k → s.engineKindAt slot = some k) :
    admitOpKind op slot s = .ok () s := by
  cases hneed : engineNeed op with
  | none => simp [admitOpKind, hneed]
  | some k => rw [admitOpKind_of_need hneed, admitKind_of_kindAt (h k (mem_kindOps_of_engineNeed hneed))]

/-- Settles O4: the decoder answers an unassigned op and a slot on a "no slot" operation; a slot operation tests its
slot first and its engine kind next, read as an instruction or not. -/
theorem commandWordsRefusedAsR124Lists : Obligations.CommandWordsRefusedAsR124Lists := by
  intro c s
  refine ⟨?unassigned, ?noSuchSlot, ?slotOfNoSlot, ?pulse, ?serial⟩
  case unassigned => exact fun hno hop => runCommand_of_unassigned ((decode_answer c).eq_unassigned hno hop) s
  case noSuchSlot => exact runCommand_badSlot
  case slotOfNoSlot => exact fun hop h => runCommand_of_badSlot ((decode_answer c).eq_badSlot hop h) s
  case pulse => exact runCommand_wrongKind (k := .pulse)
  case serial => exact runCommand_wrongKind (k := .serial)

/-- Settles O5, one lemma for each check of R338 that stands after the slot. -/
theorem operandChecksComeBeforeNotBegun : Obligations.OperandChecksComeBeforeNotBegun := by
  refine ⟨?record, fun i s => exec_illFormedOperands, fun i s => exec_notBegun⟩
  case record =>
    intro c s op slot hd hslot hpulse hserial
    have hkind : ∀ k, op ∈ kindOps k → s.engineKindAt slot = some k
      | .pulse => hpulse
      | .serial => hserial
    have hop : recordWithoutSlot op = true ∨ op ∈ slotOps := (hd ▸ decode_answer c).hasRecord
    rw [runCommand_of_illFormed hd, refuseRecord]
    refine runStep_refused (r := .illFormedOperand) (t := s) ?_
    rw [op_bind_ok (admitOpSlot_ok hop hslot), op_bind_ok (admitOpKind_ok hkind), refuse_run]

/-! ## The descriptor word (R114) -/

/-- The fields of an appended word add up at their places. -/
theorem toNat_append_eq_add {m n : Nat} (x : BitVec m) (y : BitVec n) :
    (x ++ y).toNat = 2 ^ n * x.toNat + y.toNat := by
  rw [BitVec.toNat_append, ← Nat.shiftLeft_add_eq_or_of_lt y.isLt, Nat.shiftLeft_eq, Nat.mul_comm]

theorem descriptorOk_iff {n : Nat} {p : PulseDescriptor} :
    descriptorOk n p = true ↔
      p.level0 ≤ 1 ∧ p.level1 ≤ 1 ∧ (1 ≤ p.dur0 ∧ p.dur0 ≤ n) ∧ 1 ≤ p.dur1 ∧ p.dur1 ≤ n := by
  simp [descriptorOk, and_assoc]

theorem descriptorWord_toNat {p : PulseDescriptor} (h : descriptorOk 32767 p = true) :
    (descriptorWord p).toNat = p.dur0 + 2 ^ 15 * p.level0 + 2 ^ 16 * p.dur1 + 2 ^ 31 * p.level1 := by
  obtain ⟨hl0, hl1, ⟨-, hd0⟩, -, hd1⟩ := descriptorOk_iff.mp h
  simp only [descriptorWord, toNat_append_eq_add, BitVec.toNat_ofNat]
  omega

/-- Settles O7: the word's value is the sum of its fields at their places, and each field is cut out of that sum. -/
theorem descriptorWordHoldsItsFields : Obligations.DescriptorWordHoldsItsFields := by
  intro p h
  obtain ⟨hl0, hl1, ⟨-, hd0⟩, -, hd1⟩ := descriptorOk_iff.mp h
  have hword := descriptorWord_toNat h
  refine ⟨?_, hword⟩
  change descriptorOfWord (descriptorWord p) = ⟨p.level0, p.dur0, p.level1, p.dur1⟩
  simp only [descriptorOfWord, BitVec.extractLsb'_toNat, Nat.shiftRight_eq_div_pow, hword,
    PulseDescriptor.mk.injEq]
  omega

end Sys2Proof.Machine
end

section
/-! SUPPORT. The translation tables (spec 40): what a split, a lookup and an encoding of a byte return (R151 to R157),
and the serial table whose inverted frames are the protocol's waveforms (R154, R158, R159). -/

namespace Sys2Proof.Machine

variable {α : Type}

/-! ## Operations that only answer -/

theorem runStep_answer {s : State} {x : Op α} {a : α} (h : x s = .ok a s) (r : α → Reply) :
    runStep s (x >>= fun a => answer (r a)) = .next { s with reply := some (r a) } :=
  runStep_ok ((op_bind_ok h).trans (answer_run _ s))

/-- A slot with an engine of the wanted kind passes both checks that stand before a lookup (R124). -/
theorem runStep_admitted {s : State} {i : Nat} {e : Engine} {k : EngineKind} (hi : s.hasSlot i)
    (he : (s.slot i).eng = some e) (hk : e.kind = k) (x : Op Unit) :
    runStep s (do admitSlot i; admitKind i k; x) = runStep s x := by
  have hrun : (do admitSlot i; admitKind i k; x) s = x s :=
    (op_bind_ok (admitSlot_ok hi)).trans (op_bind_ok (admitKind_ok he hk))
  rw [runStep, runStep, hrun]

/-! ## XLAT_SPLIT (R119, R151) -/

theorem groupWidthOk_iff {G : Nat} : groupWidthOk G = true ↔ G ∈ [1, 2, 4, 8] := by
  simp [groupWidthOk, or_assoc]

theorem group_eq_extractLsb' (b : Byte) (j G : Nat) :
    group b j G = (b.extractLsb' (8 - G * (j + 1)) G).toNat := (BitVec.extractLsb'_toNat ..).symm

theorem xlatSplit_ok {G : Nat} (h : groupWidthOk G = true) (b : Byte) (s : State) :
    xlatSplit b G s = .ok (groups b G) s := by simp [xlatSplit, op_bind, h]

theorem xlatSplit_refused {G : Nat} (h : groupWidthOk G = false) (b : Byte) (s : State) :
    xlatSplit b G s = .error (.refused .illFormedGroupWidth) s := by simp [xlatSplit, op_bind, h]

/-- Settles O10: the width is tested first, and each group of R119 is a slice of the byte's bits. -/
theorem splitCutsTheMostSignificantGroupFirst : Obligations.SplitCutsTheMostSignificantGroupFirst := by
  intro b G s
  refine ⟨fun hG => ?_, fun hG => ?_⟩
  · simp only [← group_eq_extractLsb']
    exact runStep_answer (xlatSplit_ok (groupWidthOk_iff.mpr hG) b s) .groups
  · have hbad : groupWidthOk G = false := Bool.eq_false_iff.mpr (mt groupWidthOk_iff.mp hG)
    exact runStep_refused (op_bind_error (xlatSplit_refused hbad b s))

/-! ## The pulse table (R152, R155) -/

/-- A group of width 1 is one bit, the most significant first (R119, R194). -/
theorem group_one (b : Byte) {j : Nat} (h : j < 8) : group b j 1 = (b.getLsbD (7 - j)).toNat := by
  have hpos : 8 - 1 * (j + 1) = 7 - j := by omega
  rw [BitVec.getLsbD, Nat.toNat_testBit, group, hpos, Nat.shiftRight_eq_div_pow, Nat.pow_one]

section pulse

variable {s : State} {i : Nat} {e : Engine} {q : PulseSeq}

theorem exec_xlatLookupPulse {l : Option PulseLatch} (hi : s.hasSlot i) (he : (s.slot i).eng = some e)
    (hc : e.core = .pulse q l) (c : Nat) :
    exec (.xlatLookupPulse i c) s = runStep s (xlatLookupPulseCode i c >>= fun p => answer (.descriptor p)) :=
  runStep_admitted hi he (kind_pulse hc) _

theorem exec_xlatEncodePulse {l : Option PulseLatch} (hi : s.hasSlot i) (he : (s.slot i).eng = some e)
    (hc : e.core = .pulse q l) (b : Byte) :
    exec (.xlatEncodePulse i b) s = runStep s (xlatEncodePulse i b >>= fun ps => answer (.descriptors ps)) :=
  runStep_admitted hi he (kind_pulse hc) _

theorem xlatLookupPulseCode_symbol {l : PulseLatch} (h : s.pulseEngine i e q l) {c : Nat} {x : Symbol}
    (hx : symbolOfCode c = some x) : xlatLookupPulseCode i c s = .ok (descriptorAt l.ptable x) s := by
  obtain ⟨he, hc⟩ := h
  simp [xlatLookupPulseCode, op_bind, pulseEngineOf_some he hc, hx, xlatLookupPulse_run ⟨he, hc⟩]

theorem xlatLookupPulseCode_refused {l : PulseLatch} (h : s.pulseEngine i e q l) {c : Nat}
    (hx : symbolOfCode c = none) : xlatLookupPulseCode i c s = .error (.refused .notASymbol) s := by
  obtain ⟨he, hc⟩ := h
  simp [xlatLookupPulseCode, op_bind, pulseEngineOf_some he hc, hx]

theorem symbolOfCode_of_le {c : Nat} (h : 4 ≤ c) : symbolOfCode c = none := by
  obtain ⟨n, rfl⟩ := Nat.exists_eq_add_of_le' h
  rfl

theorem lookupBits_run {l : PulseLatch} (h : s.pulseEngine i e q l) (xs : List Nat) :
    lookupBits i xs s = .ok (xs.map fun x => descriptorAt l.ptable (symbolOfBit (decide (x = 1)))) s := by
  induction xs with
  | nil => rfl
  | cons x rest ih => simp [lookupBits, op_bind, op_map, xlatLookupPulse_run h, ih]

theorem xlatEncodePulse_run {l : PulseLatch} (h : s.pulseEngine i e q l) (hW : l.W = 8) (b : Byte) :
    xlatEncodePulse i b s =
      .ok ((groups b 1).map fun x => descriptorAt l.ptable (symbolOfBit (decide (x = 1)))) s := by
  obtain ⟨he, hc⟩ := h
  simp [xlatEncodePulse, op_bind, pulseEngineOf_some he hc, hW,
    xlatSplit_ok (G := 1) rfl b s, lookupBits_run ⟨he, hc⟩]

/-- The descriptors of R155, bit 7 first. -/
theorem map_groups_one (t : PulseTable) (b : Byte) :
    ((groups b 1).map fun x => descriptorAt t (symbolOfBit (decide (x = 1)))) =
      (List.range 8).map fun j => if b.getLsbD (7 - j) then t.bit1 else t.bit0 := by
  rw [groups, List.map_map]
  refine List.map_congr_left fun j hj => ?_
  rw [Function.comp_apply, group_one b (List.mem_range.mp hj)]
  cases b.getLsbD (7 - j) <;> rfl

theorem xlatLookupPulseCode_unset (he : (s.slot i).eng = some e) (hc : e.core = .pulse q none) (c : Nat) :
    xlatLookupPulseCode i c s = .error (.disabled "XLAT_LOOKUP_PULSE") s := by
  simp [xlatLookupPulseCode, op_bind, pulseEngineOf_some he hc]

theorem xlatEncodePulse_unset (he : (s.slot i).eng = some e) (hc : e.core = .pulse q none) (b : Byte) :
    xlatEncodePulse i b s = .error (.disabled "XLAT_ENCODE_PULSE") s := by
  simp [xlatEncodePulse, op_bind, pulseEngineOf_some he hc]

end pulse

/-! ## The serial table (R153, R156) -/

theorem groupItems_zero (l : SerialLatch) (b : Byte) :
    groupItems l b 0 = (groups b l.G).map fun g => l.stable.getD g 0 := by
  rw [groupItems, List.drop_zero, groups, List.map_map]
  rfl

theorem lt_of_mem_groups {b : Byte} {G g : Nat} (h : g ∈ groups b G) : g < 2 ^ G := by
  obtain ⟨j, -, rfl⟩ := List.mem_map.mp h
  exact group_lt b j G

section serial

variable {s : State} {i : Nat} {e : Engine} {q : SerialSeq}

theorem exec_xlatLookupSerial {l : Option SerialLatch} (hi : s.hasSlot i) (he : (s.slot i).eng = some e)
    (hc : e.core = .serial q l) (g : Nat) :
    exec (.xlatLookupSerial i g) s = runStep s (xlatLookupSerial i g >>= fun x => answer (.byte x)) :=
  runStep_admitted hi he (kind_serial hc) _

theorem exec_xlatEncodeSerial {l : Option SerialLatch} (hi : s.hasSlot i) (he : (s.slot i).eng = some e)
    (hc : e.core = .serial q l) (b : Byte) :
    exec (.xlatEncodeSerial i b) s = runStep s (xlatEncodeSerial i b >>= fun xs => answer (.bytes xs)) :=
  runStep_admitted hi he (kind_serial hc) _

theorem xlatLookupSerial_refused {l : SerialLatch} (h : s.serialEngine i e q l) {g : Nat} (hg : 2 ^ l.G ≤ g) :
    xlatLookupSerial i g s = .error (.refused .groupOutOfRange) s := by
  obtain ⟨he, hc⟩ := h
  simp [xlatLookupSerial, op_bind, serialEngineOf_some he hc, hg]

theorem lookupGroups_run {l : SerialLatch} (h : s.serialEngine i e q l) (hl : l.legal) {xs : List Nat}
    (hxs : ∀ g ∈ xs, g < 2 ^ l.G) : lookupGroups i xs s = .ok (xs.map fun g => l.stable.getD g 0) s := by
  induction xs with
  | nil => rfl
  | cons g rest ih =>
    obtain ⟨hg, hrest⟩ := List.forall_mem_cons.mp hxs
    simp [lookupGroups, op_bind, op_map, xlatLookupSerial_run h hl hg, ih hrest]

theorem xlatEncodeSerial_run {l : SerialLatch} (h : s.serialEngine i e q l) (hl : l.legal) (b : Byte) :
    xlatEncodeSerial i b s = .ok (groupItems l b 0) s := by
  obtain ⟨he, hc⟩ := h
  simp [xlatEncodeSerial, op_bind, serialEngineOf_some he hc, xlatSplit_ok hl.1 b s,
    lookupGroups_run ⟨he, hc⟩ hl fun _ => lt_of_mem_groups, groupItems_zero]

theorem xlatLookupSerial_unset (he : (s.slot i).eng = some e) (hc : e.core = .serial q none) (g : Nat) :
    xlatLookupSerial i g s = .error (.disabled "XLAT_LOOKUP_SERIAL") s := by
  simp [xlatLookupSerial, op_bind, serialEngineOf_some he hc]

theorem xlatEncodeSerial_unset (he : (s.slot i).eng = some e) (hc : e.core = .serial q none) (b : Byte) :
    xlatEncodeSerial i b s = .error (.disabled "XLAT_ENCODE_SERIAL") s := by
  simp [xlatEncodeSerial, op_bind, serialEngineOf_some he hc]

end serial

/-- Settles O11: a latched table answers each key it holds and refuses the others; an unset one leaves no step. -/
theorem lookupsReturnTheLatchedEntries : Obligations.LookupsReturnTheLatchedEntries := by
  refine ⟨?pulse, ?serial, ?pulseUnset, ?serialUnset⟩
  case pulse =>
    intro s i e q l hi h
    have hlookup := exec_xlatLookupPulse hi h.1 h.2
    have hanswer : ∀ c x, symbolOfCode c = some x →
        exec (.xlatLookupPulse i c) s = .next { s with reply := some (.descriptor (descriptorAt l.ptable x)) } :=
      fun c x hx => (hlookup c).trans (runStep_answer (xlatLookupPulseCode_symbol h hx) .descriptor)
    refine ⟨hanswer 0 .bit0 rfl, hanswer 1 .bit1 rfl, hanswer 2 .idle rfl, hanswer 3 .gap rfl, fun c hc => ?_,
      fun b hW => ?_⟩
    · exact (hlookup c).trans
        (runStep_refused (op_bind_error (xlatLookupPulseCode_refused h (symbolOfCode_of_le hc))))
    · rw [exec_xlatEncodePulse hi h.1 h.2, ← map_groups_one]
      exact runStep_answer (xlatEncodePulse_run h hW b) .descriptors
  case serial =>
    intro s i e q l hi h hl
    have hlookup := exec_xlatLookupSerial hi h.1 h.2
    refine ⟨fun g x hg hx => ?_, fun g hg => ?_, fun b => ?_⟩
    · obtain rfl : l.stable.getD g 0 = x := Option.some.inj ((stable_entry hl hg).symm.trans hx)
      exact (hlookup g).trans (runStep_answer (xlatLookupSerial_run h hl hg) .byte)
    · exact (hlookup g).trans (runStep_refused (op_bind_error (xlatLookupSerial_refused h hg)))
    · exact (exec_xlatEncodeSerial hi h.1 h.2 b).trans (runStep_answer (xlatEncodeSerial_run h hl b) .bytes)
  case pulseUnset =>
    intro s i e q hi he hc
    exact ⟨fun c => (exec_xlatLookupPulse hi he hc c).trans
        (runStep_disabled (op_bind_error (xlatLookupPulseCode_unset he hc c))),
      fun b => (exec_xlatEncodePulse hi he hc b).trans
        (runStep_disabled (op_bind_error (xlatEncodePulse_unset he hc b)))⟩
  case serialUnset =>
    intro s i e q hi he hc
    exact ⟨fun g => (exec_xlatLookupSerial hi he hc g).trans
        (runStep_disabled (op_bind_error (xlatLookupSerial_unset he hc g))),
      fun b => (exec_xlatEncodeSerial hi he hc b).trans
        (runStep_disabled (op_bind_error (xlatEncodeSerial_unset he hc b)))⟩

/-! ## Building the serial table (R154, R158) -/

/-- The four tests of R154, in its order. -/
theorem serialTimingOk_iff {G S H0 H1 : Nat} :
    serialTimingOk G S H0 H1 = true ↔
      G ∈ [1, 2, 4, 8] ∧ 5 ≤ G * S - 2 ∧ G * S - 2 ≤ 8 ∧ 1 ≤ H0 ∧ H0 ≤ S - 1 ∧ 1 ≤ H1 ∧ H1 ≤ S - 1 ∧ H0 ≠ H1 := by
  simp only [serialTimingOk, Bool.and_eq_true, decide_eq_true_eq, ← groupWidthOk_iff, and_assoc]
  rfl

theorem serialTable_length (G S H0 H1 : Nat) : (serialTable G S H0 H1).length = 2 ^ G := by simp [serialTable]

theorem xlatBuildSerial_ok {G S H0 H1 : Nat} (h : serialTimingOk G S H0 H1 = true) (s : State) :
    xlatBuildSerial G S H0 H1 s = .ok (serialTable G S H0 H1, G * S - 2) s := by
  simp [xlatBuildSerial, op_bind, h, dataBits]

theorem xlatBuildSerial_refused {G S H0 H1 : Nat} (h : serialTimingOk G S H0 H1 = false) (s : State) :
    xlatBuildSerial G S H0 H1 s = .error (.refused .illFormedSerialTiming) s := by
  simp [xlatBuildSerial, op_bind, h]

/-- Settles O12: the timing test is R154's, and the table of R158 is evaluated. -/
theorem buildSerialReturnsTheTable : Obligations.BuildSerialReturnsTheTable := by
  intro G S H0 H1 s
  rw [← serialTimingOk_iff]
  refine ⟨fun h => ⟨?_, serialTable_length G S H0 H1⟩, fun h => ?_, by decide⟩
  · exact runStep_answer (xlatBuildSerial_ok h s) fun p => .serialTable p.1 p.2
  · exact runStep_refused (op_bind_error (xlatBuildSerial_refused (Bool.eq_false_iff.mpr h) s))

/-! ## The waveform law (R118, R159) -/

theorem sum_bits_lt (p : Nat → Prop) [DecidablePred p] (n : Nat) :
    ((List.range n).map fun t => if p t then 0 else 2 ^ t).sum < 2 ^ n := by
  induction n with
  | zero => simp
  | succ n ih => rw [List.sum_range_succ, Nat.pow_succ]; split <;> omega

/-- A sum of distinct powers of two has exactly the chosen bits. -/
theorem testBit_sum_bits (p : Nat → Prop) [DecidablePred p] {n i : Nat} (h : i < n) :
    ((List.range n).map fun t => if p t then 0 else 2 ^ t).sum.testBit i = !decide (p i) := by
  induction n with
  | zero => cases h
  | succ n ih =>
    have hsum : ((List.range (n + 1)).map fun t => if p t then 0 else 2 ^ t).sum =
        2 ^ n * (!decide (p n)).toNat + ((List.range n).map fun t => if p t then 0 else 2 ^ t).sum := by
      rw [List.sum_range_succ, Nat.add_comm]
      by_cases hp : p n <;> simp [hp]
    rw [hsum, Nat.testBit_two_pow_mul_add _ (sum_bits_lt p n)]
    obtain hlt | rfl := Nat.lt_succ_iff_lt_or_eq.mp h
    · rw [if_pos hlt, ih hlt]
    · by_cases hp : p i <;> simp [hp]

/-- Bit `t` of an entry is the complement of the level that data bit `t` has to send (R154). -/
theorem getLsbD_serialEntry {M : List Level} (hM : M.length ≤ 8) {t : Nat} (ht : t < M.length) :
    (serialEntry (true :: (M ++ [false])) M.length).getLsbD t = !M[t] := by
  have ht8 : t < 8 := by omega
  have hlevel : (true :: (M ++ [false]))[1 + t]? = some M[t] := by
    rw [Nat.add_comm, List.getElem?_cons_succ, List.getElem?_append_left ht, List.getElem?_eq_getElem ht]
  rw [serialEntry, BitVec.getLsbD_ofNat, testBit_sum_bits _ ht, hlevel]
  simp [ht8]

/-- The entry of a line that starts active and ends idle sends that line: the start and the stop bit are its ends. -/
theorem invertedFrame_serialEntry {M : List Level} (hM : M.length ≤ 8) :
    invertedFrame (serialEntry (true :: (M ++ [false])) M.length) M.length = true :: (M ++ [false]) := by
  have hdata : ((List.range M.length).map fun t =>
      !(serialEntry (true :: (M ++ [false])) M.length).getLsbD t) = M :=
    List.ext_getElem (by simp) fun t _ ht => by simp [getLsbD_serialEntry hM ht]
  rw [invertedFrame, hdata]
  rfl

theorem exists_eq_cons_concat {L : List α} {a b : α} (hhead : L.head? = some a) (hlast : L.getLast? = some b)
    (hne : a ≠ b) : ∃ M, L = a :: (M ++ [b]) := by
  obtain ⟨tail, rfl⟩ := List.head?_eq_some_iff.mp hhead
  obtain rfl | ⟨M, c, rfl⟩ := List.eq_nil_or_concat' tail
  · exact absurd (Option.some.inj hlast) hne
  · rw [← List.cons_append, List.getLast?_concat] at hlast
    exact ⟨M, by rw [Option.some.inj hlast]⟩

theorem wave_length {S H : Nat} (h : H ≤ S) : (wave S H).length = S := by simp [wave, h]

theorem wave_head? {S H : Nat} (h : 1 ≤ H) : (wave S H).head? = some true := by
  obtain ⟨n, rfl⟩ := Nat.exists_eq_add_of_le' h
  rfl

theorem wave_getLast? {S H : Nat} (h : H < S) : (wave S H).getLast? = some false := by
  obtain ⟨n, hn⟩ := Nat.exists_eq_add_of_lt h
  have : S - H = n + 1 := by omega
  rw [wave, this, List.replicate_succ', ← List.append_assoc, List.getLast?_concat]

theorem waveLine_length {G S H0 H1 : Nat} (h0 : H0 ≤ S) (h1 : H1 ≤ S) (v : Nat) :
    (waveLine G S H0 H1 v).length = G * S := by
  have hwave : ∀ p : Bool, (wave S (if p then H1 else H0)).length = S
    | true => wave_length h1
    | false => wave_length h0
  simp [waveLine, List.length_flatMap, hwave]

theorem waveLine_head? {G S H0 H1 : Nat} (hG : 1 ≤ G) (h0 : 1 ≤ H0) (h1 : 1 ≤ H1) (v : Nat) :
    (waveLine G S H0 H1 v).head? = some true := by
  have hwave : ∀ p : Bool, (wave S (if p then H1 else H0)).head? = some true
    | true => wave_head? h1
    | false => wave_head? h0
  obtain ⟨n, rfl⟩ := Nat.exists_eq_add_of_le' hG
  rw [waveLine, List.head?_flatMap, List.range_succ_eq_map, List.findSome?_cons, hwave]

theorem waveLine_getLast? {G S H0 H1 : Nat} (hG : 1 ≤ G) (h0 : H0 < S) (h1 : H1 < S) (v : Nat) :
    (waveLine G S H0 H1 v).getLast? = some false := by
  have hwave : ∀ p : Bool, (wave S (if p then H1 else H0)).getLast? = some false
    | true => wave_getLast? h1
    | false => wave_getLast? h0
  obtain ⟨n, rfl⟩ := Nat.exists_eq_add_of_le' hG
  rw [waveLine, List.getLast?_flatMap, List.range_succ, List.reverse_concat, List.findSome?_cons, hwave]

/-- The line of a group under a legal timing has an active start, an idle end and `D` bit-times between (R154). -/
theorem waveLine_framed {G S H0 H1 : Nat} (h : serialTimingOk G S H0 H1 = true) (v : Nat) :
    ∃ M, waveLine G S H0 H1 v = true :: (M ++ [false]) ∧ M.length = G * S - 2 := by
  obtain ⟨-, hD, -, h0, h0S, h1, h1S, -⟩ := serialTimingOk_iff.mp h
  have hG : 1 ≤ G := Nat.pos_of_ne_zero fun hzero => by simp [hzero] at hD
  obtain ⟨M, hM⟩ := exists_eq_cons_concat (waveLine_head? (S := S) hG h0 h1 v)
    (waveLine_getLast? hG (by omega) (by omega) v) Bool.noConfusion
  have hlen := waveLine_length (G := G) (S := S) (H0 := H0) (H1 := H1) (by omega) (by omega) v
  rw [hM, List.length_cons, List.length_append, List.length_singleton] at hlen
  exact ⟨M, hM, by omega⟩

theorem serialTable_getElem? {G S H0 H1 v : Nat} {x : Byte} (h : (serialTable G S H0 H1)[v]? = some x) :
    x = serialEntry (waveLine G S H0 H1 v) (dataBits G S) := by
  rw [serialTable, List.getElem?_map, Option.map_eq_some_iff] at h
  obtain ⟨w, hw, rfl⟩ := h
  obtain ⟨-, rfl⟩ := List.getElem?_eq_some_iff.mp hw
  rw [List.getElem_range]

/-- The law of R159: the inverted frame of group `v`'s entry is `v`'s waveform. -/
theorem invertedFrame_serialTable {G S H0 H1 v : Nat} {x : Byte} (h : serialTimingOk G S H0 H1 = true)
    (hx : (serialTable G S H0 H1)[v]? = some x) : invertedFrame x (G * S - 2) = waveLine G S H0 H1 v := by
  obtain ⟨M, hline, hlen⟩ := waveLine_framed h v
  obtain ⟨-, -, hD, -⟩ := serialTimingOk_iff.mp h
  rw [serialTable_getElem? hx, dataBits, hline, ← hlen]
  exact invertedFrame_serialEntry (hlen.trans_le hD)

theorem invertedFrame_eq_map_not (x : Byte) (D : Nat) : invertedFrame x D = (standardFrame x D).map fun l => !l := by
  simp [invertedFrame, standardFrame, Function.comp_def]

/-- Settles O13: the waveform law of R159, and the complement of each bit of the frame. -/
theorem builtEntriesSendTheProtocolWaveform : Obligations.BuiltEntriesSendTheProtocolWaveform :=
  ⟨fun _ _ _ _ _ _ h hx => invertedFrame_serialTable h hx, invertedFrame_eq_map_not⟩

end Sys2Proof.Machine
end

section
/-! SUPPORT. The units and the time base (spec 41): the commands PU_START, PU_EMIT, SU_START, SU_SHIFT and TIMER_TICK
(R171 to R176, R184, R185). -/

namespace Sys2Proof.Machine

variable {α : Type}

/-! ## A step whose first operation only reads -/

theorem runStep_bind_ok {s : State} {x : Op α} {a : α} (h : x s = .ok a s) (f : α → Op Unit) :
    runStep s (x >>= f) = runStep s (f a) := by rw [runStep, runStep, op_bind_ok h]

theorem runStep_guardStep_true {s : State} {c : Bool} (h : c = true) (m : String) (x : Op Unit) :
    runStep s (do guardStep c m; x) = runStep s x := by
  subst h
  exact runStep_bind_ok (guardStep_true m s) _

theorem runStep_guardStep_false {s : State} {c : Bool} (h : c = false) (m : String) (x : Op Unit) :
    runStep s (do guardStep c m; x) = .refused (.notEnabled m) := by
  subst h
  exact runStep_disabled (op_bind_error (guardStep_false m s))

/-- An operation that has no step of its own has none behind a guard either, true or false. -/
theorem runStep_guardStep_of_disabled {s : State} {m : String} {x : Op Unit} (h : x s = .error (.disabled m) s)
    (c : Bool) : runStep s (do guardStep c m; x) = .refused (.notEnabled m) := by
  cases c with
  | false => exact runStep_guardStep_false rfl m x
  | true => exact (runStep_guardStep_true rfl m x).trans (runStep_disabled h)

/-! ## The interrupt request and the hold (R176) -/

theorem irqRequest_eq_true_iff {pendLow pendEnd : Bool} {e : Engine} :
    irqRequest pendLow pendEnd e = true ↔
      (pendLow = true ∧ e.enLow = true) ∨ (pendEnd = true ∧ e.enEnd = true) := by simp [irqRequest]

theorem irqRequest_eq_false_iff {pendLow pendEnd : Bool} {e : Engine} :
    irqRequest pendLow pendEnd e = false ↔
      (pendLow = false ∨ e.enLow = false) ∧ (pendEnd = false ∨ e.enEnd = false) := by
  rw [irqRequest, Bool.or_eq_false_iff, Bool.and_eq_false_iff, Bool.and_eq_false_iff]

theorem irqRequested_pulse {s : State} {e : Engine} {q : PulseSeq} {l : Option PulseLatch}
    (hc : e.core = .pulse q l) :
    s.irqRequested e = irqRequest (s.pu e.unit).pendLow (s.pu e.unit).pendEnd e := by
  rw [State.irqRequested, kind_pulse hc]

theorem irqRequested_serial {s : State} {e : Engine} {q : SerialSeq} {l : Option SerialLatch}
    (hc : e.core = .serial q l) :
    s.irqRequested e = irqRequest (s.su e.unit).pendLow (s.su e.unit).pendEnd e := by
  rw [State.irqRequested, kind_serial hc]

/-- The guard of PU_EMIT and SU_SHIFT for a unit with the flags `busy`, `pendLow` and `pendEnd` (R172, R175). -/
theorem emissionGuard_eq_true {s : State} {e : Engine} {busy pendLow pendEnd : Bool}
    (hreq : s.irqRequested e = irqRequest pendLow pendEnd e) (hbusy : busy = true)
    (hirq : s.board.assumeTimelyIsr = true →
      (pendLow = false ∨ e.enLow = false) ∧ (pendEnd = false ∨ e.enEnd = false)) :
    (busy && !s.held e) = true := by
  have hheld : s.held e = false := by
    rw [State.held, hreq, Bool.and_eq_false_imp]
    exact fun htimely => irqRequest_eq_false_iff.mpr (hirq htimely)
  rw [hbusy, hheld]
  rfl

theorem emissionGuard_eq_false {s : State} {e : Engine} {busy pendLow pendEnd : Bool}
    (hreq : s.irqRequested e = irqRequest pendLow pendEnd e)
    (h : busy = false ∨ (s.board.assumeTimelyIsr = true ∧
      ((pendLow = true ∧ e.enLow = true) ∨ (pendEnd = true ∧ e.enEnd = true)))) :
    (busy && !s.held e) = false := by
  obtain hbusy | ⟨htimely, hirq⟩ := h
  · rw [hbusy, Bool.false_and]
  · have hheld : s.held e = true := by
      rw [State.held, hreq, htimely, irqRequest_eq_true_iff.mpr hirq, Bool.and_true]
    rw [hheld, Bool.not_true, Bool.and_false]

/-! ## The pulse unit -/

theorem phys_false (invert : Bool) : phys invert false = invert := Bool.false_xor invert

/-- A unit that emits is busy, so PU_EMIT leaves it busy exactly when descriptors are left (R172). -/
theorem PulseUnit.emit_of_busy {p : PulseUnit} (hbusy : p.busy = true) (low : Nat) (d : PulseDescriptor)
    (rest : List PulseDescriptor) :
    p.emit low d rest =
      { p with
        ring := rest
        trace := p.trace ++
          [(xor (decide (d.level0 ≠ 0)) p.invert, d.dur0), (xor (decide (d.level1 ≠ 0)) p.invert, d.dur1)]
        line := if rest = [] then p.invert else xor (decide (d.level1 ≠ 0)) p.invert
        pendLow := if rest.length ≤ low then true else p.pendLow
        busy := if rest = [] then false else true
        pendEnd := if rest = [] then true else p.pendEnd } := by
  rw [PulseUnit.emit, phys_false, hbusy]
  simp only [List.isEmpty_iff, Bool.if_true_left, Bool.or_comm]
  cases rest <;> rfl

section pulse

variable {s : State} {i : Nat} {e : Engine} {q : PulseSeq} {l : Option PulseLatch}

theorem exec_puStart (hi : s.hasSlot i) (he : (s.slot i).eng = some e) (hc : e.core = .pulse q l) :
    exec (.puStart i) s = runStep s (do guardStep (!(s.pu e.unit).busy) "PU_START"; puStart e.unit) :=
  (runStep_bind_ok (admitSlot_ok hi) _).trans (runStep_bind_ok (pulseEngineOf_some he hc) _)

theorem puStart_staged {u : Nat} (h : (s.pu u).ring ≠ []) :
    puStart u s = .ok () (s.setPu u { s.pu u with busy := true }) := by simp [puStart, h]

theorem puStart_empty {u : Nat} (h : (s.pu u).ring = []) :
    puStart u s = .ok () (s.setPu u { s.pu u with pendEnd := true }) := by simp [puStart, h]

/-- PU_EMIT behind its guard. -/
def popDescriptor (s : State) (e : Engine) : Op Unit :=
  match (s.pu e.unit).ring with
  | [] => fail (.disabled "PU_EMIT")
  | d :: rest => modPu e.unit fun p => p.emit s.board.ringLowThreshold d rest

theorem exec_puEmit (hi : s.hasSlot i) (he : (s.slot i).eng = some e) (hc : e.core = .pulse q l) :
    exec (.puEmit i) s =
      runStep s (do guardStep ((s.pu e.unit).busy && !s.held e) "PU_EMIT"; popDescriptor s e) :=
  (runStep_bind_ok (admitSlot_ok hi) _).trans
    ((runStep_bind_ok (pulseEngineOf_some he hc) _).trans (runStep_bind_ok (getState_run s) _))

theorem popDescriptor_cons {d : PulseDescriptor} {rest : List PulseDescriptor} (h : (s.pu e.unit).ring = d :: rest) :
    popDescriptor s e s = .ok () (s.setPu e.unit ((s.pu e.unit).emit s.board.ringLowThreshold d rest)) := by
  simp [popDescriptor, h]

theorem popDescriptor_nil (h : (s.pu e.unit).ring = []) :
    popDescriptor s e s = .error (.disabled "PU_EMIT") s := by simp [popDescriptor, h]

end pulse

/-- Settles O15: behind the guard (busy and not held) the head of the ring is popped, and an empty ring has no step. -/
theorem emitDrivesTheHeadDescriptor : Obligations.EmitDrivesTheHeadDescriptor := by
  intro s i e q l hi he hc
  rw [exec_puEmit hi he hc]
  refine ⟨fun d rest hbusy hring hirq => ?pops, ?noStep⟩
  case pops =>
    rw [runStep_guardStep_true (emissionGuard_eq_true (irqRequested_pulse hc) hbusy hirq),
      runStep_ok (popDescriptor_cons hring), PulseUnit.emit_of_busy hbusy]
  case noStep =>
    rintro (hbusy | hring | hirq)
    · exact runStep_guardStep_false (emissionGuard_eq_false (irqRequested_pulse hc) (.inl hbusy)) _ _
    · exact runStep_guardStep_of_disabled (popDescriptor_nil hring) _
    · exact runStep_guardStep_false (emissionGuard_eq_false (irqRequested_pulse hc) (.inr hirq)) _ _

/-! ## The serial unit -/

/-- A unit that shifts is busy, so SU_SHIFT leaves it busy exactly when bytes are left (R175). -/
theorem SerialUnit.shift_of_busy {p : SerialUnit} (hbusy : p.busy = true) (low : Nat) (x : Byte)
    (rest : List Byte) :
    p.shift low x rest =
      { p with
        fifo := rest
        trace := p.trace ++
          ([true] ++ (List.range p.D).map (fun t => !x.getLsbD t) ++ [false]).map fun l => xor l p.invert
        line := p.invert
        pendLow := if rest.length ≤ low then true else p.pendLow
        busy := if rest = [] then false else true
        pendEnd := if rest = [] then true else p.pendEnd } := by
  rw [SerialUnit.shift, phys_false, hbusy]
  simp only [List.isEmpty_iff, Bool.if_true_left, Bool.or_comm]
  cases rest <;> rfl

section serial

variable {s : State} {i : Nat} {e : Engine} {q : SerialSeq} {l : Option SerialLatch}

theorem exec_suStart (hi : s.hasSlot i) (he : (s.slot i).eng = some e) (hc : e.core = .serial q l) :
    exec (.suStart i) s = runStep s (do guardStep (!(s.su e.unit).busy) "SU_START"; suStart e.unit) :=
  (runStep_bind_ok (admitSlot_ok hi) _).trans (runStep_bind_ok (serialEngineOf_some he hc) _)

theorem suStart_staged {u : Nat} (h : (s.su u).fifo ≠ []) :
    suStart u s = .ok () (s.setSu u { s.su u with busy := true }) := by simp [suStart, h]

theorem suStart_empty {u : Nat} (h : (s.su u).fifo = []) :
    suStart u s = .ok () (s.setSu u { s.su u with pendEnd := true }) := by simp [suStart, h]

/-- SU_SHIFT behind its guard. -/
def popByte (s : State) (e : Engine) : Op Unit :=
  match (s.su e.unit).fifo with
  | [] => fail (.disabled "SU_SHIFT")
  | x :: rest => modSu e.unit fun p => p.shift s.board.fifoLowThreshold x rest

theorem exec_suShift (hi : s.hasSlot i) (he : (s.slot i).eng = some e) (hc : e.core = .serial q l) :
    exec (.suShift i) s =
      runStep s (do guardStep ((s.su e.unit).busy && !s.held e) "SU_SHIFT"; popByte s e) :=
  (runStep_bind_ok (admitSlot_ok hi) _).trans
    ((runStep_bind_ok (serialEngineOf_some he hc) _).trans (runStep_bind_ok (getState_run s) _))

theorem popByte_cons {x : Byte} {rest : List Byte} (h : (s.su e.unit).fifo = x :: rest) :
    popByte s e s = .ok () (s.setSu e.unit ((s.su e.unit).shift s.board.fifoLowThreshold x rest)) := by
  simp [popByte, h]

theorem popByte_nil (h : (s.su e.unit).fifo = []) :
    popByte s e s = .error (.disabled "SU_SHIFT") s := by simp [popByte, h]

end serial

/-- Settles O16: behind the guard (busy and not held) the head of the FIFO is popped, and an empty FIFO has no step. -/
theorem shiftSendsTheInvertedFrame : Obligations.ShiftSendsTheInvertedFrame := by
  intro s i e q l hi he hc
  rw [exec_suShift hi he hc]
  refine ⟨fun x rest hbusy hfifo hirq => ?pops, ?noStep⟩
  case pops =>
    rw [runStep_guardStep_true (emissionGuard_eq_true (irqRequested_serial hc) hbusy hirq),
      runStep_ok (popByte_cons hfifo), SerialUnit.shift_of_busy hbusy]
  case noStep =>
    rintro (hbusy | hfifo | hirq)
    · exact runStep_guardStep_false (emissionGuard_eq_false (irqRequested_serial hc) (.inl hbusy)) _ _
    · exact runStep_guardStep_of_disabled (popByte_nil hfifo) _
    · exact runStep_guardStep_false (emissionGuard_eq_false (irqRequested_serial hc) (.inr hirq)) _ _

/-! ## The starts -/

/-- Settles O14, by what a start writes on a staged and on an empty queue, behind the guard "not busy". -/
theorem unitStartRaisesBusyOrEnd : Obligations.UnitStartRaisesBusyOrEnd := by
  refine ⟨?pulse, ?serial⟩
  case pulse =>
    intro s i e q l hi he hc
    rw [exec_puStart hi he hc]
    refine ⟨fun hidle hring => ?_, fun hidle hring => ?_, fun hbusy => ?_⟩
    · rw [runStep_guardStep_true (by simp [hidle]), runStep_ok (puStart_staged hring)]
    · rw [runStep_guardStep_true (by simp [hidle]), runStep_ok (puStart_empty hring)]
    · rw [runStep_guardStep_false (by simp [hbusy])]
  case serial =>
    intro s i e q l hi he hc
    rw [exec_suStart hi he hc]
    refine ⟨fun hidle hfifo => ?_, fun hidle hfifo => ?_, fun hbusy => ?_⟩
    · rw [runStep_guardStep_true (by simp [hidle]), runStep_ok (suStart_staged hfifo)]
    · rw [runStep_guardStep_true (by simp [hidle]), runStep_ok (suStart_empty hfifo)]
    · rw [runStep_guardStep_false (by simp [hbusy])]

/-! ## The time base -/

theorem exec_timerTick {n : Nat} (h : 1 ≤ n) (s : State) :
    exec (.timerTick n) s = .next { s with now := (s.now + n) % s.timeModulus } :=
  runStep_ok (op_bind_ok (admitOperands_ok (decide_eq_true h)))

/-- What has elapsed since a time, after the time base went on by `n` from there, is `n` modulo `2^TimeBits`. -/
theorem elapsed_tick (s : State) (n : Nat) :
    ({ s with now := (s.now + n) % s.timeModulus } : State).elapsed s.now = n % s.timeModulus := by
  have hlt : s.now % s.timeModulus < s.timeModulus := Nat.mod_lt _ (Nat.two_pow_pos _)
  have hdiv := Nat.div_add_mod s.now s.timeModulus
  have hsum : s.now + n + (s.timeModulus - s.now % s.timeModulus) =
      n + s.timeModulus * (s.now / s.timeModulus + 1) := by
    rw [Nat.mul_succ]
    omega
  calc ((s.now + n) % s.timeModulus + (s.timeModulus - s.now % s.timeModulus)) % s.timeModulus
      = (s.now + n + (s.timeModulus - s.now % s.timeModulus)) % s.timeModulus := Nat.mod_add_mod ..
    _ = n % s.timeModulus := by rw [hsum, Nat.add_mul_mod_self_left]

/-- Settles O17: the tick's next state and the time elapsed in it; the operand 0 is refused. -/
theorem tickAdvancesTheTimeBase : Obligations.TickAdvancesTheTimeBase := by
  refine fun s n => ⟨fun hn => ⟨exec_timerTick hn s, fun t ht => ?elapsed⟩, ?zero⟩
  case elapsed =>
    obtain rfl := Host.Outcome.next.inj ((exec_timerTick hn s).symm.trans ht)
    exact elapsed_tick s n
  case zero =>
    rintro rfl
    exact exec_illFormedOperands (fun _ h => nomatch h) rfl

end Sys2Proof.Machine
end

section
/-! SUPPORT. The pulse engine's items (R194, R198): R198's list in closed form, and that PE_NEXT_ITEM gives the items a
sequencer has left one by one, whatever passes its loop makes before it returns. -/

namespace Sys2Proof.Machine

/-! ## The contents of a frame (R198) -/

/-- The eight items of a byte are its descriptors of R155, bit 7 first. -/
theorem bitItems_seven (l : PulseLatch) (b : Byte) :
    bitItems l b 7 = (groups b 1).map fun x => descriptorAt l.ptable (symbolOfBit (decide (x = 1))) := by
  rw [map_groups_one]
  have hrev : (List.range 8).reverse = (List.range 8).map fun j => 7 - j := by decide
  rw [bitItems, hrev, List.map_map]
  refine List.map_congr_left fun j _ => ?_
  simp only [Function.comp_apply]
  cases b.getLsbD (7 - j) <;> rfl

theorem bitItems_length (l : PulseLatch) (b : Byte) (k : Nat) : (bitItems l b k).length = k + 1 := by simp [bitItems]

/-- The items of the bytes, each with its GAP, in the index form of R198. -/
theorem dataItems_eq_flatMap {l : PulseLatch} (hW : l.W = 8) (bs : List Byte) :
    dataItems l bs = (List.range bs.length).flatMap fun k =>
      ((groups (bs.getD k 0) 1).map fun x => descriptorAt l.ptable (symbolOfBit (decide (x = 1)))) ++
        (if l.gapFlag && decide (k + 1 < bs.length) then [l.ptable.gap] else []) := by
  induction bs with
  | nil => rfl
  | cons b rest ih =>
    have hgap : gapItems l rest =
        if l.gapFlag && decide (0 + 1 < (b :: rest).length) then [l.ptable.gap] else [] := by
      cases rest <;> simp [gapItems]
    rw [dataItems, ih, hgap, hW, bitItems_seven, List.length_cons, List.range_succ_eq_map, List.flatMap_cons,
      List.flatMap_map]
    simp

theorem dataItems_length {l : PulseLatch} (hW : l.W = 8) (bs : List Byte) :
    (dataItems l bs).length = 8 * bs.length + if l.gapFlag then bs.length - 1 else 0 := by
  induction bs with
  | nil => simp [dataItems]
  | cons b rest ih =>
    simp only [dataItems, List.length_append, ih, hW, bitItems_length, List.length_cons]
    cases rest with
    | nil => simp [gapItems]
    | cons c rest =>
      cases hg : l.gapFlag <;> simp [gapItems, hg] <;> omega

/-- Settles O24: from the start the items left are the idles, the items of the bytes, and the idles. -/
theorem pulseFrameContentsFollowR198 : Obligations.PulseFrameContentsFollowR198 := by
  intro l bs hW
  have hstart : pulseItemsLeft l pulseSeqStart bs =
      List.replicate l.preIdle l.ptable.idle ++ dataItems l bs ++ List.replicate l.postIdle l.ptable.idle := rfl
  rw [hstart]
  refine ⟨?list, ?count⟩
  case list => rw [dataItems_eq_flatMap hW, pulseFrameItems]
  case count =>
    simp only [List.length_append, List.length_replicate, dataItems_length hW]
    omega

/-! ## One pass and the items left (R194) -/

/-- The bytes left after a pass that took one or none. -/
def bytesAfter (took : Bool) (rest : List Byte) : List Byte := if took then rest.tail else rest

/-- What a pass returned, `sent` being the items left before it and `left` those after it: nothing yet, all items
still to come; or the first of them, the sequencer being Done exactly when there was none. -/
def PassGives (sent left : List PulseDescriptor) (q' : PulseSeq) : Option (Option PulseDescriptor) → Prop
  | none => left = sent
  | some r => r = sent.head? ∧ left = sent.tail ∧ (q'.phase = .done ↔ sent = [])

theorem bitItems_succ (l : PulseLatch) (b : Byte) (k : Nat) :
    bitItems l b (k + 1) = descriptorAt l.ptable (symbolOfBit (b.getLsbD (k + 1))) :: bitItems l b k := by
  simp [bitItems, List.range_succ]

theorem bitItems_zero (l : PulseLatch) (b : Byte) :
    bitItems l b 0 = [descriptorAt l.ptable (symbolOfBit (b.getLsbD 0))] := rfl

/-- Emitting a bit gives the first item of the byte under way and leaves the others (R194). -/
theorem emitBit_gives (l : PulseLatch) (q : PulseSeq) (b : Byte) (rest : List Byte) (hp : q.phase = .data)
    (hb : q.curByte = some b) :
    PassGives (pulseItemsLeft l q rest) (pulseItemsLeft l (q.emitBit l b (!rest.isEmpty)).2 rest)
      (q.emitBit l b (!rest.isEmpty)).2 (some (some (q.emitBit l b (!rest.isEmpty)).1)) := by
  cases hk : q.bitIdx with
  | zero =>
    cases hg : l.gapFlag && !rest.isEmpty <;>
      simp [PassGives, PulseSeq.emitBit, pulseItemsLeft, currentItems, gapItems, bitItems_zero, hp, hb, hk, hg]
  | succ k => simp [PassGives, PulseSeq.emitBit, pulseItemsLeft, currentItems, bitItems_succ, hp, hb, hk]

/-- A pass that goes on leaves all items to come; one that returns gives the first of them (R194). -/
theorem pass_gives (l : PulseLatch) (q : PulseSeq) (rest : List Byte) :
    PassGives (pulseItemsLeft l q rest) (pulseItemsLeft l (q.pass l rest).2.1 (bytesAfter (q.pass l rest).2.2 rest))
      (q.pass l rest).2.1 (q.pass l rest).1 := by
  cases hp : q.phase with
  | preIdle =>
    by_cases hi : q.idleIdx < l.preIdle
    · obtain ⟨n, hn⟩ : ∃ n, l.preIdle - q.idleIdx = n + 1 := ⟨l.preIdle - q.idleIdx - 1, by omega⟩
      have hn' : l.preIdle - (q.idleIdx + 1) = n := by omega
      simp [PulseSeq.pass, hp, hi, PassGives, pulseItemsLeft, currentItems, bytesAfter, hn, hn', List.replicate_succ]
    · simp [PulseSeq.pass, hp, hi, PassGives, pulseItemsLeft, currentItems, bytesAfter,
        Nat.sub_eq_zero_of_le (Nat.le_of_not_lt hi)]
  | data =>
    cases hb : q.curByte with
    | some b => simpa [PulseSeq.pass, hp, hb, bytesAfter] using emitBit_gives l q b rest hp hb
    | none =>
      cases rest with
      | nil => simp [PulseSeq.pass, hp, hb, PassGives, pulseItemsLeft, currentItems, dataItems]
      | cons b rest =>
        have hload : pulseItemsLeft l q (b :: rest) =
            pulseItemsLeft l { q with curByte := some b, bitIdx := l.W - 1 } rest := by
          simp [pulseItemsLeft, hp, currentItems, hb, dataItems]
        rw [hload]
        simpa [PulseSeq.pass, hp, hb, bytesAfter] using
          emitBit_gives l { q with curByte := some b, bitIdx := l.W - 1 } b rest hp rfl
  | gap => simp [PulseSeq.pass, hp, PassGives, pulseItemsLeft, currentItems, bytesAfter]
  | postIdle =>
    by_cases hi : q.idleIdx < l.postIdle
    · obtain ⟨n, hn⟩ : ∃ n, l.postIdle - q.idleIdx = n + 1 := ⟨l.postIdle - q.idleIdx - 1, by omega⟩
      have hn' : l.postIdle - (q.idleIdx + 1) = n := by omega
      simp [PulseSeq.pass, hp, hi, PassGives, pulseItemsLeft, hn, hn', List.replicate_succ]
    · simp [PulseSeq.pass, hp, hi, PassGives, pulseItemsLeft,
        Nat.sub_eq_zero_of_le (Nat.le_of_not_lt hi)]
  | done => simp [PulseSeq.pass, hp, PassGives, pulseItemsLeft]

/-- A pass that goes on has a detour fewer before it. -/
theorem detours_pass {l : PulseLatch} {q : PulseSeq} {rest : List Byte} (h : (q.pass l rest).1 = none) :
    (q.pass l rest).2.1.detours < q.detours := by
  cases hp : q.phase with
  | preIdle =>
    by_cases hi : q.idleIdx < l.preIdle
    · simp [PulseSeq.pass, hp, hi] at h
    · cases hb : q.curByte <;> simp [PulseSeq.pass, PulseSeq.detours, hp, hi, hb]
  | data =>
    cases hb : q.curByte with
    | some b => simp [PulseSeq.pass, hp, hb] at h
    | none =>
      cases rest with
      | nil => simp [PulseSeq.pass, PulseSeq.detours, hp, hb]
      | cons b rest => simp [PulseSeq.pass, hp, hb] at h
  | gap => simp [PulseSeq.pass, hp] at h
  | postIdle => by_cases hi : q.idleIdx < l.postIdle <;> simp [PulseSeq.pass, hp, hi] at h
  | done => simp [PulseSeq.pass, hp] at h

/-! ## PE_NEXT_ITEM (R194) -/

theorem dataFrom_tail (s : State) (i k : Nat) : (s.dataFrom i k).tail = s.dataFrom i (k + 1) := by
  by_cases h : k < (s.slot i).length
  · rw [dataFrom_cons h, List.tail_cons]
  · rw [dataFrom_nil (Nat.le_of_not_lt h), dataFrom_nil (by omega), List.tail_nil]

/-- The bytes after a pass are those from the cursor after it. -/
theorem bytesAfter_dataFrom (took : Bool) (s : State) (i k : Nat) :
    bytesAfter took (s.dataFrom i k) = s.dataFrom i (if took then k + 1 else k) := by
  cases took
  · rfl
  · exact dataFrom_tail s i k

/-- `t` is `s` after slot `i`'s pulse engine `e` gave items: the cursor at `k`, the sequencer `q`, and `left` the items
still to give. -/
structure GaveItems (s t : State) (i : Nat) (e : Engine) (l : PulseLatch) (q : PulseSeq) (k : Nat)
    (left : List PulseDescriptor) : Prop where
  step : EngStep s t i { e with cursor := k, core := .pulse q (some l) }
  left : pulseItemsLeft l q (s.dataFrom i k) = left

/-- The loop of PE_NEXT_ITEM returns the first item left, once its bound is above the detours ahead. -/
theorem peLoop_run {i : Nat} {l : PulseLatch} (n : Nat) {s : State} {e : Engine} {q : PulseSeq}
    (h : s.pulseEngine i e q l) (hs : s.sliceReadable i) (hn : q.detours < n) :
    ∃ t q' k, peLoop i n s = .ok (pulseItemsLeft l q (s.dataFrom i e.cursor)).head? t ∧
      GaveItems s t i e l q' k (pulseItemsLeft l q (s.dataFrom i e.cursor)).tail ∧
      (q'.phase = .done ↔ pulseItemsLeft l q (s.dataFrom i e.cursor) = []) := by
  induction n generalizing s e q with
  | zero => exact absurd hn (Nat.not_lt_zero _)
  | succ n ih =>
    obtain ⟨t, hrun, hstep⟩ := pePass_run h hs
    have hgives := pass_gives l q (s.dataFrom i e.cursor)
    rw [bytesAfter_dataFrom] at hgives
    rw [peLoop, op_bind_ok hrun]
    cases hr : (q.pass l (s.dataFrom i e.cursor)).1 with
    | some r =>
      rw [hr] at hgives
      obtain ⟨rfl, hleft, hdone⟩ := hgives
      exact ⟨t, _, _, rfl, ⟨hstep, hleft⟩, hdone⟩
    | none =>
      rw [hr] at hgives
      have hlt := detours_pass hr
      obtain ⟨u, q', k, hu, hgave, hdone⟩ :=
        ih (e := { e with cursor := _, core := _ }) ⟨hstep.eng, rfl⟩ (hstep.sliceReadable.mpr hs) (by omega)
      obtain ⟨hstep', hleft⟩ := hgave
      rw [hstep.dataFrom] at hu hleft hdone
      rw [hstep.dataFrom, hgives] at hleft
      rw [hgives] at hu hdone
      exact ⟨u, q', k, hu, ⟨hstep.trans hstep', hleft⟩, hdone⟩

theorem peNextItem_run {s : State} {i : Nat} {e : Engine} {q : PulseSeq} {l : PulseLatch}
    (h : s.pulseEngine i e q l) (hs : s.sliceReadable i) :
    ∃ t q' k, peNextItem i s = .ok (pulseItemsLeft l q (s.dataFrom i e.cursor)).head? t ∧
      GaveItems s t i e l q' k (pulseItemsLeft l q (s.dataFrom i e.cursor)).tail ∧
      (q'.phase = .done ↔ pulseItemsLeft l q (s.dataFrom i e.cursor) = []) :=
  peLoop_run 3 h hs q.detours_lt

/-! ## The commands on a slot's pulse engine, behind their guards -/

theorem transmitting_of {ts : TState} (h : ts = .filling ∨ ts = .draining) : ts.transmitting = true := by
  obtain rfl | rfl := h <;> rfl

theorem not_transmitting_of {ts : TState} (h : ts = .idle ∨ ts = .frameComplete) : ts.transmitting = false := by
  obtain rfl | rfl := h <;> rfl

section commands

variable {s : State} {i : Nat} {e : Engine} {q : PulseSeq} {l : Option PulseLatch}

theorem runStep_pulseCommand (hi : s.hasSlot i) (he : (s.slot i).eng = some e) (hc : e.core = .pulse q l)
    (f : Engine × PulseSeq × Option PulseLatch → Op Unit) :
    runStep s (do admitSlot i; let a ← pulseEngineOf i; f a) = runStep s (f (e, q, l)) :=
  (runStep_bind_ok (admitSlot_ok hi) _).trans (runStep_bind_ok (pulseEngineOf_some he hc) _)

theorem exec_peNextItem (hi : s.hasSlot i) (he : (s.slot i).eng = some e) (hc : e.core = .pulse q l) :
    exec (.peNextItem i) s = runStep s (do
      guardStep e.tstate.transmitting "PE_NEXT_ITEM"
      let r ← peNextItem i
      answer (.pulseItem r)) := runStep_pulseCommand hi he hc _

theorem exec_peFill (hi : s.hasSlot i) (he : (s.slot i).eng = some e) (hc : e.core = .pulse q l) :
    exec (.peFill i) s = runStep s (do guardStep e.tstate.transmitting "PE_FILL"; peFill i) :=
  runStep_pulseCommand hi he hc _

theorem exec_peStartFrame (hi : s.hasSlot i) (he : (s.slot i).eng = some e) (hc : e.core = .pulse q l) :
    exec (.peStartFrame i) s = runStep s (do guardStep (!e.tstate.transmitting) "PE_START_FRAME"; peStartFrame i) :=
  runStep_pulseCommand hi he hc _

end commands

theorem EngStep.frame_reply {s t : State} {i : Nat} {e : Engine} (h : EngStep s t i e) (r : Option Reply) :
    { t with reply := r } = { s with slots := t.slots, reply := r } :=
  congrArg (fun u : State => { u with slots := t.slots, reply := r }) h.frame

/-- Settles O20: the items come from `peNextItem_run`, and the reply is the one write after it. -/
theorem pulseNextItemReturnsTheItemsInOrder : Obligations.PulseNextItemReturnsTheItemsInOrder := by
  refine ⟨?gives, ?noStep⟩
  case gives =>
    rintro s i e q l hi ⟨he, hc⟩ hts hs
    obtain ⟨t, q', k, hrun, ⟨hstep, hleft⟩, hdone⟩ := peNextItem_run ⟨he, hc⟩ hs
    have hexec : exec (.peNextItem i) s = .next { t with
        reply := some (.pulseItem (pulseItemsLeft l q (s.dataFrom i e.cursor)).head?) } := by
      rw [exec_peNextItem hi he hc, runStep_guardStep_true (transmitting_of hts)]
      exact runStep_ok ((op_bind_ok hrun).trans (answer_run _ t))
    exact ⟨_, q', k, hexec, hstep.frame_reply _,
      hstep.other, hstep.byte, hstep.here, (congrArg _ (hstep.dataFrom k)).trans hleft, hdone⟩
  case noStep =>
    intro s i e q l hi he hc hts
    rw [exec_peNextItem hi he hc, runStep_guardStep_false (not_transmitting_of hts)]

end Sys2Proof.Machine
end

section
/-! SUPPORT. The pulse engine's commands (spec 42): PE_BEGIN (R192), PE_START_FRAME (R193), PE_FILL (R195), the
interrupt handler by PE_ISR and IRQ_ENTRY (R196, R340), and the frame timer's step on both engines (R197, R229). -/

namespace Sys2Proof.Machine

theorem runStep_congr {s : State} {x y : Op Unit} (h : x s = y s) : runStep s x = runStep s y := by
  rw [runStep, h, runStep]

/-! ## PE_FILL (R195) -/

theorem onlyPulse_trans {s t u : State} {i w : Nat} (h : s.onlyPulse t i w) (h' : t.onlyPulse u i w) :
    s.onlyPulse u i w := by
  obtain ⟨hframe, hslot, hpu, hbyte⟩ := h
  obtain ⟨hframe', hslot', hpu', hbyte'⟩ := h'
  refine ⟨?_, fun j hj => (hslot' j hj).trans (hslot j hj), fun v hv => (hpu' v hv).trans (hpu v hv),
    fun a => (hbyte' a).trans (hbyte a)⟩
  exact hframe'.trans (congrArg (fun v : State => { v with slots := u.slots, pulseUnits := u.pulseUnits }) hframe)

theorem EngStep.onlyPulse {s t : State} {i : Nat} {e : Engine} (h : EngStep s t i e) (w : Nat) :
    s.onlyPulse t i w := by
  refine ⟨?_, h.other, fun v _ => h.pu v, h.byte⟩
  have hpu : t.pulseUnits = s.pulseUnits := by rw [h.frame]
  rw [hpu]
  exact h.frame

theorem onlyPulse_setPu (s : State) (i u : Nat) (p : PulseUnit) : s.onlyPulse (s.setPu u p) i u :=
  ⟨rfl, fun _ _ => rfl, fun _ hw => setPu_pu_other s u p hw, fun _ => rfl⟩

theorem onlyPulse_setSlot (s : State) (i u : Nat) (d : DriverState) : s.onlyPulse (s.setSlot i d) i u :=
  ⟨rfl, fun _ hj => setSlot_slot_other s i d hj, fun _ _ => rfl, fun _ => rfl⟩

/-- The bytes left in a slice are those of any state with the same slice and the same buffer. -/
theorem dataFrom_congr {s t : State} {i : Nat} (hcfg : (t.slot i).cfg = (s.slot i).cfg)
    (hoff : (t.slot i).offset = (s.slot i).offset) (hlen : (t.slot i).length = (s.slot i).length)
    (hbyte : ∀ a, t.byte a = s.byte a) (k : Nat) : t.dataFrom i k = s.dataFrom i k := by
  simp only [State.dataFrom, hlen]
  refine List.map_congr_left fun j _ => ?_
  simp only [State.dataByte, hcfg, hoff, hlen, hbyte]

theorem sliceReadable_congr {s t : State} {i : Nat} (hboard : t.board = s.board)
    (hcfg : (t.slot i).cfg = (s.slot i).cfg) (hoff : (t.slot i).offset = (s.slot i).offset)
    (hlen : (t.slot i).length = (s.slot i).length) : t.sliceReadable i ↔ s.sliceReadable i := by
  simp only [State.sliceReadable, hboard, hcfg, hoff, hlen]

/-- `t` is `s` after slot `i`'s pulse engine `e`, with the items `sent` to give, put the first `room` of them at its
ring's tail: the others are left, and the sequencer is Done if it was, `done`, or if there was room to spare. -/
structure Staged (s t : State) (i : Nat) (e : Engine) (l : PulseLatch) (q : PulseSeq) (k : Nat)
    (sent : List PulseDescriptor) (room : Nat) (done : Prop) : Prop where
  only : s.onlyPulse t i e.unit
  slot : t.slot i = { s.slot i with eng := some { e with cursor := k, core := .pulse q (some l) } }
  pu : t.pu e.unit = { s.pu e.unit with ring := (s.pu e.unit).ring ++ sent.take room }
  left : pulseItemsLeft l q (s.dataFrom i k) = sent.drop room
  done : q.phase = .done ↔ done ∨ sent.length < room

theorem Staged.dataFrom {s t : State} {i : Nat} {e : Engine} {l : PulseLatch} {q : PulseSeq} {k : Nat}
    {sent : List PulseDescriptor} {room : Nat} {done : Prop} (h : Staged s t i e l q k sent room done) (j : Nat) :
    t.dataFrom i j = s.dataFrom i j := by
  obtain ⟨-, -, -, hbyte⟩ := h.only
  exact dataFrom_congr (by rw [h.slot]) (by rw [h.slot]) (by rw [h.slot]) hbyte j

theorem pulseItemsLeft_done (l : PulseLatch) {q : PulseSeq} (h : q.phase = .done) (rest : List Byte) :
    pulseItemsLeft l q rest = [] := by simp [pulseItemsLeft, h]

/-- A ring without room, or a frame that is Done, is filled. -/
theorem staged_self {s : State} {i : Nat} {e : Engine} {q : PulseSeq} {l : PulseLatch} (h : s.pulseEngine i e q l)
    (hstop : q.phase = .done ∨ s.board.ringCapacity ≤ (s.pu e.unit).ring.length) :
    Staged s s i e l q e.cursor (pulseItemsLeft l q (s.dataFrom i e.cursor))
      (s.board.ringCapacity - (s.pu e.unit).ring.length) (q.phase = .done) := by
  obtain ⟨he, hc⟩ := h
  have hself : EngStep s s i { e with core := .pulse q (some l) } := .self (by rw [he, ← hc])
  obtain hdone | hfull := hstop
  · exact ⟨hself.onlyPulse _, hself.here, by simp [pulseItemsLeft_done l hdone],
      by simp [pulseItemsLeft_done l hdone], by simp [hdone]⟩
  · have hroom := Nat.sub_eq_zero_of_le hfull
    exact ⟨hself.onlyPulse _, hself.here, by simp [hroom], by simp [hroom], by simp [hroom]⟩

/-- The ring with one more descriptor at its tail. -/
def PulseUnit.push (p : PulseUnit) (d : PulseDescriptor) : PulseUnit := { p with ring := p.ring ++ [d] }

@[simp] theorem push_length (p : PulseUnit) (d : PulseDescriptor) : (p.push d).ring.length = p.ring.length + 1 := by
  simp [PulseUnit.push]

section fillLoop

variable {s : State} {i : Nat} {e : Engine} {q : PulseSeq} {l : Option PulseLatch}

theorem peFillLoop_stops (n : Nat) (he : (s.slot i).eng = some e) (hc : e.core = .pulse q l)
    (hstop : q.phase = .done ∨ s.board.ringCapacity ≤ (s.pu e.unit).ring.length) :
    peFillLoop i n s = .ok () s := by
  cases n with
  | zero => rfl
  | succ n =>
    have hstop' : ¬((s.pu e.unit).ring.length < s.board.ringCapacity ∧ q.phase ≠ .done) := fun ⟨hlt, hne⟩ =>
      hstop.elim hne fun hle => absurd hlt (Nat.not_lt.mpr hle)
    simp only [peFillLoop, op_bind, pulseEngineOf_some he hc, getState_run, hstop', if_false, op_pure]

/-- With room in the ring the loop goes on with the next item, and pushes it if there is one. -/
theorem peFillLoop_goes (n : Nat) (he : (s.slot i).eng = some e) (hc : e.core = .pulse q l)
    (hroom : (s.pu e.unit).ring.length < s.board.ringCapacity) (hne : q.phase ≠ .done) :
    peFillLoop i (n + 1) s = (do
      let r ← peNextItem i
      match r with
      | some p => do modPu e.unit fun u => u.push p; peFillLoop i n
      | none => peFillLoop i n) s := by
  have hgo : (s.pu e.unit).ring.length < s.board.ringCapacity ∧ q.phase ≠ .done := ⟨hroom, hne⟩
  simp only [peFillLoop, op_bind, pulseEngineOf_some he hc, getState_run]
  rw [if_pos hgo, op_bind]
  cases peNextItem i s with
  | error x t => rfl
  | ok r t => cases r <;> rfl

end fillLoop

/-- Staging after the first item was pushed. -/
theorem Staged.push {s t u : State} {i : Nat} {e : Engine} {l : PulseLatch} {q q' : PulseSeq} {k k' : Nat}
    {p : PulseDescriptor} {rest : List PulseDescriptor} {room : Nat} {done done' : Prop}
    (hgave : EngStep s t i { e with cursor := k, core := .pulse q (some l) })
    (h : Staged (t.setPu e.unit ((t.pu e.unit).push p)) u i { e with cursor := k, core := .pulse q (some l) } l q' k'
      rest room done) (hnot : ¬done) (hnot' : ¬done') : Staged s u i e l q' k' (p :: rest) (room + 1) done' where
  only := onlyPulse_trans (onlyPulse_trans (hgave.onlyPulse _) (onlyPulse_setPu t i _ _)) h.only
  slot := by rw [h.slot, setPu_slot, hgave.here]
  pu := by rw [h.pu, setPu_pu_same, PulseUnit.push, hgave.pu]; simp
  left := by
    rw [List.drop_succ_cons, ← h.left, ← hgave.dataFrom]
    rfl
  done := by simp [h.done, hnot, hnot']

/-- The loop of PE_FILL stages what the ring has room for, once its bound is above the room or the frame is Done. -/
theorem peFillLoop_run {i : Nat} {l : PulseLatch} (n : Nat) {s : State} {e : Engine} {q : PulseSeq}
    (h : s.pulseEngine i e q l) (hs : s.sliceReadable i)
    (hn : q.phase = .done ∨ s.board.ringCapacity - (s.pu e.unit).ring.length < n) :
    ∃ t q' k, peFillLoop i n s = .ok () t ∧
      Staged s t i e l q' k (pulseItemsLeft l q (s.dataFrom i e.cursor))
        (s.board.ringCapacity - (s.pu e.unit).ring.length) (q.phase = .done) := by
  induction n generalizing s e q with
  | zero =>
    have hdone := hn.resolve_right (Nat.not_lt_zero _)
    exact ⟨s, q, e.cursor, rfl, staged_self h (.inl hdone)⟩
  | succ n ih =>
    have hstop := staged_self h
    obtain ⟨he, hc⟩ := h
    by_cases hdone : q.phase = .done
    · exact ⟨s, q, e.cursor, peFillLoop_stops _ he hc (.inl hdone), hstop (.inl hdone)⟩
    obtain hroom | hfull := Nat.lt_or_ge (s.pu e.unit).ring.length s.board.ringCapacity
    case inr =>
      exact ⟨s, q, e.cursor, peFillLoop_stops _ he hc (.inr hfull), hstop (.inr hfull)⟩
    have hbound := hn.resolve_left hdone
    obtain ⟨t, q', k, hrun, ⟨hstep, hleft⟩, hempty⟩ := peNextItem_run ⟨he, hc⟩ hs
    rw [peFillLoop_goes n he hc hroom hdone, op_bind_ok hrun]
    cases hsent : pulseItemsLeft l q (s.dataFrom i e.cursor) with
    | nil =>
      rw [hsent] at hleft
      have hdone' := hempty.mpr hsent
      refine ⟨t, q', k, peFillLoop_stops n hstep.eng rfl (.inl hdone'), hstep.onlyPulse _, hstep.here, ?_, ?_, ?_⟩
      · simp [hstep.pu]
      · simpa using hleft
      · simpa [hdone'] using .inr hroom
    | cons p rest =>
      rw [hsent] at hleft hempty
      have hdone' : q'.phase ≠ .done := by simp [hempty]
      obtain ⟨u, q'', k', hu, hstaged⟩ := ih (s := t.setPu e.unit ((t.pu e.unit).push p))
        (e := { e with cursor := k, core := .pulse q' (some l) }) ⟨hstep.eng, rfl⟩ (hstep.sliceReadable.mpr hs)
        (.inr (by simp [hstep.board, hstep.pu]; omega))
      have hdata : (t.setPu e.unit ((t.pu e.unit).push p)).dataFrom i k = s.dataFrom i k := hstep.dataFrom k
      have hroom' : s.board.ringCapacity - (s.pu e.unit).ring.length =
          s.board.ringCapacity - ((s.pu e.unit).ring.length + 1) + 1 := by omega
      rw [hroom']
      refine ⟨u, q'', k', hu, Staged.push hstep ?_ hdone' hdone⟩
      rw [hdata, hleft] at hstaged
      simpa [hstep.board, hstep.pu] using hstaged

theorem peFill_run {s : State} {i : Nat} {e : Engine} {q : PulseSeq} {l : PulseLatch} (h : s.pulseEngine i e q l)
    (hs : s.sliceReadable i) :
    ∃ t q' k, peFill i s = .ok () t ∧
      Staged s t i e l q' k (pulseItemsLeft l q (s.dataFrom i e.cursor))
        (s.board.ringCapacity - (s.pu e.unit).ring.length) (q.phase = .done) :=
  peFillLoop_run _ h hs (.inr (by omega))

/-- Settles O21: behind its guard PE_FILL is `peFill_run`. -/
theorem pulseFillStagesUpToCapacity : Obligations.PulseFillStagesUpToCapacity := by
  refine ⟨?fills, ?noStep⟩
  case fills =>
    rintro s i e q l hi ⟨he, hc⟩ hts hs
    obtain ⟨t, q', k, hrun, hst⟩ := peFill_run ⟨he, hc⟩ hs
    refine ⟨t, q', k, ?_, hst.only, hst.slot, hst.pu, (congrArg _ (hst.dataFrom k)).trans hst.left, hst.done⟩
    rw [exec_peFill hi he hc, runStep_guardStep_true (transmitting_of hts), runStep_ok hrun]
  case noStep =>
    intro s i e q l hi he hc hts
    rw [exec_peFill hi he hc, runStep_guardStep_false (not_transmitting_of hts)]

/-! ## PE_START_FRAME (R193) -/

/-- The state in which PE_START_FRAME fills the ring: the frame counted and stamped, the sequencer at its start, the
ring empty and no request pending. -/
def State.frameOpened (s : State) (i : Nat) (e : Engine) (l : Option PulseLatch) : State :=
  (s.setSlot i
    { s.slot i with
      frameCount := countUp (s.slot i).frameCount
      eng := some { e.filling s.now with core := .pulse pulseSeqStart l } }).setPu e.unit
    { s.pu e.unit with pendLow := false, pendEnd := false, ring := [] }

/-- PE_START_FRAME after its fill: the engine Draining, the unit started. -/
def finishStart (i u : Nat) : Op Unit := do
  modEngine i Engine.draining
  puStart u

theorem peStartFrame_eq {s : State} {i : Nat} {e : Engine} {q : PulseSeq} {l : Option PulseLatch}
    (he : (s.slot i).eng = some e) (hc : e.core = .pulse q l) :
    peStartFrame i s = (do peFill i; finishStart i e.unit) (s.frameOpened i e l) := by
  have hseq : (e.filling s.now).withPulseSeq pulseSeqStart =
      { e.filling s.now with core := .pulse pulseSeqStart l } := by
    simp [Engine.withPulseSeq, Engine.filling, hc]
  refine (op_bind_ok (pulseEngineOf_some he hc)).trans ((op_bind_ok (modState_run _ s)).trans
    ((op_bind_ok (modPu_run _ _ _)).trans (congrArg (fun u => (do peFill i; finishStart i e.unit) u) ?_)))
  rw [mapEng_some he, hseq]
  rfl

/-- A pulse unit after PU_START (R171). -/
def PulseUnit.started (p : PulseUnit) : PulseUnit :=
  if p.ring.isEmpty then { p with pendEnd := true } else { p with busy := true }

theorem finishStart_run {s : State} {i : Nat} {e : Engine} (he : (s.slot i).eng = some e) (u : Nat) :
    finishStart i u s = .ok () ((s.withEng i e.draining).setPu u (s.pu u).started) :=
  (op_bind_ok (modEngine_withEng he _)).trans (modPu_run _ _ _)

theorem started_eq {p : PulseUnit} (h : p.pendEnd = false) :
    p.started = { p with pendEnd := p.ring.isEmpty, busy := p.busy || !p.ring.isEmpty } := by
  cases hr : p.ring.isEmpty <;> simp [PulseUnit.started, hr, h]

section frameOpened

variable (s : State) (i : Nat) (e : Engine) (l : Option PulseLatch)

@[simp] theorem frameOpened_slot : (s.frameOpened i e l).slot i =
    { s.slot i with
      frameCount := countUp (s.slot i).frameCount
      eng := some { e.filling s.now with core := .pulse pulseSeqStart l } } := by simp [State.frameOpened]

@[simp] theorem frameOpened_pu : (s.frameOpened i e l).pu e.unit =
    { s.pu e.unit with pendLow := false, pendEnd := false, ring := [] } := by simp [State.frameOpened]

@[simp] theorem frameOpened_board : (s.frameOpened i e l).board = s.board := rfl

@[simp] theorem filling_unit (n : Nat) : (e.filling n).unit = e.unit := rfl

theorem onlyPulse_frameOpened : s.onlyPulse (s.frameOpened i e l) i e.unit :=
  onlyPulse_trans (onlyPulse_setSlot s i _ _) (onlyPulse_setPu _ i _ _)

end frameOpened

/-- PE_START_FRAME stages the frame's first items (R193, R195). -/
theorem peStartFrame_run {s : State} {i : Nat} {e : Engine} {q : PulseSeq} {l : PulseLatch}
    (h : s.pulseEngine i e q l) (hs : s.sliceReadable i) :
    ∃ t q' k, peStartFrame i s = .ok () ((t.withEng i
        { e.filling s.now with
          tstate := .draining, enLow := true, enEnd := true, cursor := k, core := .pulse q' (some l) }).setPu e.unit
          (t.pu e.unit).started) ∧
      Staged (s.frameOpened i e (some l)) t i { e.filling s.now with core := .pulse pulseSeqStart (some l) } l q' k
        (pulseItemsLeft l pulseSeqStart (s.dataFrom i 0)) s.board.ringCapacity False := by
  obtain ⟨he, hc⟩ := h
  obtain ⟨-, -, -, hbyte⟩ := onlyPulse_frameOpened s i e (some l)
  have hdata : (s.frameOpened i e (some l)).dataFrom i 0 = s.dataFrom i 0 :=
    dataFrom_congr (by simp) (by simp) (by simp) hbyte 0
  have hread : (s.frameOpened i e (some l)).sliceReadable i :=
    (sliceReadable_congr (frameOpened_board s i e _) (by simp) (by simp) (by simp)).mpr hs
  have hlatch : (s.frameOpened i e (some l)).pulseEngine i
      { e.filling s.now with core := .pulse pulseSeqStart (some l) } pulseSeqStart l := ⟨by simp, rfl⟩
  obtain ⟨t, q', k, hrun, hst⟩ := peFill_run hlatch hread
  refine ⟨t, q', k, ?_, ?_⟩
  · rw [peStartFrame_eq he hc, op_bind_ok hrun, finishStart_run (by rw [hst.slot])]
    rfl
  · simpa [Engine.filling, hdata, pulseSeqStart] using hst

/-- Settles O19: the fill of `peFill_run` on an empty ring, from the sequencer's start, between the frame's opening and
the unit's start. -/
theorem pulseStartFrameStagesTheFirstItems : Obligations.PulseStartFrameStagesTheFirstItems := by
  refine ⟨?starts, ?noStep⟩
  case starts =>
    rintro s i e q l hi ⟨he, hc⟩ hts hs
    obtain ⟨t, q', k, hrun, hst⟩ := peStartFrame_run ⟨he, hc⟩ hs
    have hpu : t.pu e.unit = { s.pu e.unit with
        pendLow := false, pendEnd := false,
        ring := (pulseItemsLeft l pulseSeqStart (s.dataFrom i 0)).take s.board.ringCapacity } := by
      simpa using hst.pu
    have hslot := hst.slot
    have hexec := (exec_peStartFrame hi he hc).trans
      ((runStep_guardStep_true (by simp [not_transmitting_of hts]) _ _).trans (runStep_ok hrun))
    refine ⟨_, q', k, hexec, ?_, ?_, ?_, ?_, ?_⟩
    · exact onlyPulse_trans (onlyPulse_trans (onlyPulse_frameOpened s i e (some l)) hst.only)
        (onlyPulse_trans (onlyPulse_setSlot t i _ _) (onlyPulse_setPu _ i _ _))
    · simp [hslot, Engine.filling, countUp]
    · rw [setPu_pu_same, hpu, started_eq rfl]
    · rw [← hst.left]
      exact congrArg _ ((withEng_dataFrom t i _ k).trans (hst.dataFrom k))
    · simpa using hst.done
  case noStep =>
    intro s i e q l hi he hc hts
    rw [exec_peStartFrame hi he hc, runStep_guardStep_false (by simp [transmitting_of hts])]

/-! ## The interrupt handler (R196, R340) -/

section handler

variable {s : State} {i : Nat} {e : Engine} {q : PulseSeq} {l : Option PulseLatch}

theorem exec_peIsr (hi : s.hasSlot i) (he : (s.slot i).eng = some e) (hc : e.core = .pulse q l) :
    exec (.peIsr i) s = runStep s (do guardStep (s.irqRequested e) "PE_ISR"; peIsr i) :=
  runStep_pulseCommand hi he hc _

/-- IRQ_ENTRY behind its guard: the handler of the engine's kind (R340). -/
def handlerOf (i : Nat) (e : Engine) : Op Unit :=
  match e.kind with
  | .pulse => peIsr i
  | .serial => seIsr i

theorem irqEntry_eq (he : (s.slot i).eng = some e) :
    irqEntry i s = (do guardStep (s.irqRequested e) "IRQ_ENTRY"; handlerOf i e) s := by
  rw [irqEntry, op_bind_ok (getState_run s), he]
  rfl

theorem exec_irqEntry (hi : s.hasSlot i) (he : (s.slot i).eng = some e) :
    exec (.irqEntry i) s = runStep s (do guardStep (s.irqRequested e) "IRQ_ENTRY"; handlerOf i e) :=
  (runStep_bind_ok (admitSlot_ok hi) _).trans (runStep_congr (irqEntry_eq he))

/-- Both entries to the pulse handler run it when the unit requests an interrupt. -/
theorem exec_pulseHandler (hi : s.hasSlot i) (he : (s.slot i).eng = some e) (hc : e.core = .pulse q l)
    (hreq : irqRequest (s.pu e.unit).pendLow (s.pu e.unit).pendEnd e = true) {h : Instr}
    (hh : h = .peIsr i ∨ h = .irqEntry i) : exec h s = runStep s (peIsr i) := by
  have hguard : s.irqRequested e = true := (irqRequested_pulse hc).trans hreq
  obtain rfl | rfl := hh
  · rw [exec_peIsr hi he hc, runStep_guardStep_true hguard]
  · rw [exec_irqEntry hi he, runStep_guardStep_true hguard, handlerOf, kind_pulse hc]

/-- END on a Done sequencer: the frame is complete (R196). -/
theorem peIsr_complete (he : (s.slot i).eng = some e) (hc : e.core = .pulse q l)
    (hend : (s.pu e.unit).pendEnd = true) (hen : e.enEnd = true) (hdone : q.phase = .done) :
    peIsr i s = .ok () ((s.setPu e.unit { s.pu e.unit with pendEnd := false, pendLow := false }).withEng i e.ended) := by
  have hrun := modEngine_withEng (s := s.setPu e.unit { s.pu e.unit with pendEnd := false, pendLow := false })
    (i := i) he Engine.ended
  simpa only [peIsr, op_bind, pulseEngineOf_some he hc, getState_run, hend, hen, Bool.and_true, if_true, modPu_run,
    hdone] using hrun

/-- The last of two writes to a unit stands when it empties what the first wrote. -/
theorem setPu_setPu_emptied (s : State) (u : Nat) (p : PulseUnit) :
    (s.setPu u p).setPu u { p with ring := [] } = s.setPu u { p with ring := [] } := by
  simp only [State.setPu]
  congr 1
  refine tablePut_put _ _ _ _ _ (Decidable.or_iff_not_imp_left.mpr fun hp => ?_)
  rw [Decidable.not_not.mp hp]
  rfl

/-- END before the frame is staged: an error is counted and the frame aborted (R196). -/
theorem peIsr_underrun (he : (s.slot i).eng = some e) (hc : e.core = .pulse q l)
    (hend : (s.pu e.unit).pendEnd = true) (hen : e.enEnd = true) (hdone : q.phase ≠ .done) :
    peIsr i s = .error .raised (((s.setPu e.unit
      { s.pu e.unit with pendEnd := false, pendLow := false, ring := [] }).setSlot i
        { s.slot i with
          hwErrorCount := countUp (s.slot i).hwErrorCount
          eng := some { e.ended with core := .pulse { q with phase := .done, curByte := none } l } }).addFault
        (.underrun i)) := by
  have hdriver : ({ (s.slot i).mapEng fun e => e.ended.withPulseSeq { q with phase := .done, curByte := none } with
        hwErrorCount := countUp (s.slot i).hwErrorCount } : DriverState) =
      { s.slot i with
        hwErrorCount := countUp (s.slot i).hwErrorCount
        eng := some { e.ended with core := .pulse { q with phase := .done, curByte := none } l } } := by
    rw [mapEng_some he]
    simp [Engine.withPulseSeq, Engine.ended, hc]
  rw [← hdriver, ← setPu_setPu_emptied s e.unit { s.pu e.unit with pendEnd := false, pendLow := false }]
  simp only [peIsr, op_bind, pulseEngineOf_some he hc, getState_run, hend, hen, Bool.and_true, if_true, modPu_run,
    hdone, if_false, modSlot_run, raise_run, setPu_slot, setSlot_pu, setPu_pu_same]
  rfl

/-- LOW without END: LOW is cleared and a Draining engine's ring refilled (R196). -/
theorem peIsr_low (he : (s.slot i).eng = some e) (hc : e.core = .pulse q l)
    (hend : (s.pu e.unit).pendEnd = false ∨ e.enEnd = false) (hlow : (s.pu e.unit).pendLow = true)
    (hen : e.enLow = true) :
    peIsr i s = (if e.tstate = .draining then peFill i else pure ())
      (s.setPu e.unit { s.pu e.unit with pendLow := false }) := by
  have hend' : ((s.pu e.unit).pendEnd && e.enEnd) = false := Bool.and_eq_false_iff.mpr hend
  simp only [peIsr, op_bind, pulseEngineOf_some he hc, getState_run, hend', hlow, hen, Bool.and_true, if_true,
    Bool.false_eq_true, if_false, modPu_run]

end handler

/-- Settles O22: a request enters the handler by either command; END is served first, and LOW refills by
`peFill_run`. -/
theorem pulseHandlerServesEndThenLow : Obligations.PulseHandlerServesEndThenLow := by
  intro s i e q l hi he hc
  have hreqEnd : (s.pu e.unit).pendEnd = true → e.enEnd = true →
      irqRequest (s.pu e.unit).pendLow (s.pu e.unit).pendEnd e = true := fun hend hen =>
    irqRequest_eq_true_iff.mpr (.inr ⟨hend, hen⟩)
  refine ⟨?complete, ?underrun, ?noStep, ?low⟩
  case complete =>
    intro hend hen hdone h hh
    rw [exec_pulseHandler hi he hc (hreqEnd hend hen) hh, runStep_ok (peIsr_complete he hc hend hen hdone)]
    rfl
  case underrun =>
    intro hend hen hdone h hh
    rw [exec_pulseHandler hi he hc (hreqEnd hend hen) hh, runStep_raised (peIsr_underrun he hc hend hen hdone)]
    rfl
  case noStep =>
    intro hend hlow
    have hguard : s.irqRequested e = false :=
      (irqRequested_pulse hc).trans (irqRequest_eq_false_iff.mpr ⟨hlow, hend⟩)
    rw [exec_peIsr hi he hc, exec_irqEntry hi he]
    exact ⟨runStep_guardStep_false hguard _ _, runStep_guardStep_false hguard _ _⟩
  case low =>
    intro hend hlow hen h hh
    have hexec := exec_pulseHandler hi he hc (irqRequest_eq_true_iff.mpr (.inl ⟨hlow, hen⟩)) hh
    have hrun := peIsr_low he hc hend hlow hen
    refine ⟨fun hts => ?other, fun l' hl hts hs => ?refill⟩
    case other =>
      rw [if_neg hts] at hrun
      rw [hexec, runStep_ok hrun]
    case refill =>
      subst hl
      rw [if_pos hts] at hrun
      have hlatch : (s.setPu e.unit { s.pu e.unit with pendLow := false }).pulseEngine i e q l' := ⟨he, hc⟩
      obtain ⟨t, q', k, hfill, hst⟩ := peFill_run hlatch hs
      have hroom : (s.setPu e.unit { s.pu e.unit with pendLow := false }).board.ringCapacity -
          ((s.setPu e.unit { s.pu e.unit with pendLow := false }).pu e.unit).ring.length =
          s.board.ringCapacity - (s.pu e.unit).ring.length := by simp
      rw [hroom] at hst
      refine ⟨t, q', k, ?_, onlyPulse_trans (onlyPulse_setPu s i _ _) hst.only, hst.slot, ?_,
        (congrArg _ (hst.dataFrom k)).trans hst.left, hst.done⟩
      · rw [hexec, runStep_ok (hrun.trans hfill)]
      · rw [hst.pu, setPu_pu_same]
        rfl

/-! ## PE_BEGIN (R192) -/

section begins

variable {s : State} {i : Nat} {e : Engine} {q : PulseSeq} {l : Option PulseLatch}

/-- PE_BEGIN after the ownership check (R192). -/
def latchPulse (s : State) (i : Nat) (e : Engine) : Op Unit :=
  match pulseConstantsOf s.board (s.slot i).variant with
  | none => refuse .illFormedProtocolConstants
  | some pc => do
    refuseIf (!pulseConstantsOk s.board.durationMax pc) .illFormedProtocolConstants
    modEngine i fun e => e.withPulseLatch (pulseLatchOf pc)
    modPu e.unit fun p => p.configured (cfgInvert (s.slot i).cfg)

theorem peBegin_eq (he : (s.slot i).eng = some e) (hc : e.core = .pulse q l) :
    peBegin i s = (do
      raiseIf (decide (e.tstate = TState.draining)) (.ownershipViolation i .peBegin)
      latchPulse s i e) s :=
  (op_bind_ok (pulseEngineOf_some he hc)).trans (op_bind_ok (getState_run s))

theorem peBegin_draining (he : (s.slot i).eng = some e) (hc : e.core = .pulse q l) (hts : e.tstate = .draining) :
    peBegin i s = .error .raised (s.addFault (.ownershipViolation i .peBegin)) := by
  rw [peBegin_eq he hc, decide_eq_true hts, op_bind_error (raiseIf_true _ s)]

theorem peBegin_idle (he : (s.slot i).eng = some e) (hc : e.core = .pulse q l) (hts : e.tstate ≠ .draining) :
    peBegin i s = latchPulse s i e s := by
  rw [peBegin_eq he hc, decide_eq_false hts, op_bind_ok (raiseIf_false _ s)]

theorem latchPulse_bad {pc : PulseConstants} (hpc : pulseConstantsOf s.board (s.slot i).variant = some pc)
    (hok : pulseConstantsOk s.board.durationMax pc = false) :
    latchPulse s i e s = .error (.refused .illFormedProtocolConstants) s := by
  simp [latchPulse, hpc, hok, op_bind]

theorem latchPulse_good {pc : PulseConstants} (he : (s.slot i).eng = some e) (hc : e.core = .pulse q l)
    (hpc : pulseConstantsOf s.board (s.slot i).variant = some pc)
    (hok : pulseConstantsOk s.board.durationMax pc = true) :
    latchPulse s i e s = .ok () (s.pulseLatched i e q pc) := by
  simp only [latchPulse, hpc, hok, Bool.not_true, op_bind, refuseIf_false, modEngine_withEng he, modPu_run,
    Engine.withPulseLatch, hc]
  rfl

end begins

/-- Settles O18: the ownership check, then the constants' check, then the latch and the unit. -/
theorem pulseBeginLatchesTheConstants : Obligations.PulseBeginLatchesTheConstants := by
  intro s i e q l hi he hc
  have hexec : exec (.peBegin i) s = runStep s (peBegin i) := runStep_bind_ok (admitSlot_ok hi) _
  rw [hexec]
  refine ⟨fun pc hts hpc hok => ?_, fun pc hts hpc hok => ?_, fun hts => ?_⟩
  · rw [runStep_ok ((peBegin_idle he hc hts).trans (latchPulse_good he hc hpc hok))]
  · rw [runStep_refused ((peBegin_idle he hc hts).trans (latchPulse_bad hpc hok))]
  · rw [runStep_raised (peBegin_draining he hc hts)]

/-! ## PE_IDLE and SE_IDLE (R197, R229) -/

section idle

variable {s : State} {i : Nat} {e : Engine}

/-- The expiry step of an engine, behind its guard (R197, R229). -/
def expire (s : State) (i : Nat) (e : Engine) (m : String) : Op Unit := do
  guardStep (decide (e.tstate = .frameComplete) && s.frameDue (s.slot i) e) m
  modEngine i fun e => { e with tstate := .idle }

theorem peIdle_eq {q : PulseSeq} {l : Option PulseLatch} (he : (s.slot i).eng = some e) (hc : e.core = .pulse q l) :
    peIdle i s = expire s i e "PE_IDLE" s :=
  (op_bind_ok (pulseEngineOf_some he hc)).trans (op_bind_ok (getState_run s))

theorem seIdle_eq {q : SerialSeq} {l : Option SerialLatch} (he : (s.slot i).eng = some e)
    (hc : e.core = .serial q l) : seIdle i s = expire s i e "SE_IDLE" s :=
  (op_bind_ok (serialEngineOf_some he hc)).trans (op_bind_ok (getState_run s))

/-- The command of the engine's kind is the expiry step. -/
theorem exec_idle (hi : s.hasSlot i) (he : (s.slot i).eng = some e) :
    exec (if e.kind = .pulse then .peIdle i else .seIdle i) s =
      runStep s (expire s i e (if e.kind = .pulse then "PE_IDLE" else "SE_IDLE")) := by
  have hadmit : ∀ x : Op Unit, runStep s (do admitSlot i; x) = runStep s x := fun x =>
    runStep_bind_ok (admitSlot_ok hi) _
  cases hc : e.core with
  | pulse q l =>
    rw [if_pos (kind_pulse hc), if_pos (kind_pulse hc)]
    exact (hadmit (peIdle i)).trans (runStep_congr (peIdle_eq he hc))
  | serial q l =>
    have hk : e.kind ≠ .pulse := by simp [kind_serial hc]
    rw [if_neg hk, if_neg hk]
    exact (hadmit (seIdle i)).trans (runStep_congr (seIdle_eq he hc))

theorem frameDue_iff {d : DriverState} : s.frameDue d e = true ↔
    e.frameStart = none ∨ ∃ t, e.frameStart = some t ∧ s.minFrameDuration d.variant d.cfg ≤ s.elapsed t := by
  unfold State.frameDue
  cases e.frameStart <;> simp

theorem frameDue_false_iff {d : DriverState} : s.frameDue d e = false ↔
    ∃ t, e.frameStart = some t ∧ s.elapsed t < s.minFrameDuration d.variant d.cfg := by
  unfold State.frameDue
  cases e.frameStart <;> simp

end idle

/-- Settles O23: the guard of the expiry step is FrameComplete with the frame timer run out (R266). -/
theorem idleStepFollowsTheFrameTimer : Obligations.IdleStepFollowsTheFrameTimer := by
  intro s i e hi he
  rw [exec_idle hi he, expire]
  refine ⟨fun hts hdue => ?expires, fun h => ?noStep⟩
  case expires =>
    rw [runStep_guardStep_true (by simp [hts, frameDue_iff.mpr hdue]), runStep_ok (modEngine_withEng he _)]
    rfl
  case noStep =>
    refine runStep_guardStep_false ?_ _ _
    obtain hts | hdue := h
    · simp [hts]
    · simp [frameDue_false_iff.mpr hdue]

end Sys2Proof.Machine
end

section
/-! SUPPORT. The invariants of R199, R201, R231 and R233, slot by slot: what they read of an engine and of the unit its
slot names (a view), what each write does to the views, and the one invariant they come to. -/

namespace Sys2Proof.Machine

/-! ## Views -/

/-- What the invariants read of an engine; `staged` says that its sequencer is Done. -/
structure EngineView where
  kind : EngineKind
  unit : Nat
  tstate : TState
  enLow : Bool
  enEnd : Bool
  staged : Bool

/-- What the invariants read of a unit, pulse or serial: how much its queue holds, and its flags. -/
structure QueueView where
  queued : Nat
  busy : Bool
  pendLow : Bool
  pendEnd : Bool

/-- A slot's engine, if it has one, and the unit the slot names. -/
structure SlotView where
  eng : Option EngineView
  queue : QueueView

/-- The engine's sequencer is Done: the frame's items are all staged (R42, R43). -/
def Engine.staged (e : Engine) : Bool :=
  match e.core with
  | .pulse q _ => decide (q.phase = .done)
  | .serial q _ => decide (q.sphase = .done)

def Engine.view (e : Engine) : EngineView :=
  { kind := e.kind, unit := e.unit, tstate := e.tstate, enLow := e.enLow, enEnd := e.enEnd, staged := e.staged }

def PulseUnit.view (p : PulseUnit) : QueueView :=
  { queued := p.ring.length, busy := p.busy, pendLow := p.pendLow, pendEnd := p.pendEnd }

def SerialUnit.view (p : SerialUnit) : QueueView :=
  { queued := p.fifo.length, busy := p.busy, pendLow := p.pendLow, pendEnd := p.pendEnd }

/-- The unit a peripheral names; one that is no unit is seen as a unit at rest. -/
def State.queueView (s : State) : Periph → QueueView
  | .pulseUnit u => (s.pu u).view
  | .serialUnit u => (s.su u).view
  | _ => { queued := 0, busy := false, pendLow := false, pendEnd := false }

def State.view (s : State) (i : Nat) : SlotView :=
  { eng := (s.slot i).eng.map Engine.view, queue := s.queueView (s.periph i) }

/-! ## Distinct units (R31) -/

theorem allDistinct_iff {xs : List Nat} : allDistinct xs = true ↔ xs.Nodup := by
  induction xs with
  | nil => simp [allDistinct]
  | cons x rest ih => simp [allDistinct, ih]

/-- Two entries of a list without repeats, at different places, are different. -/
theorem index_unique {α β : Type} {f : α → Option β} {xs : List α} (h : (xs.filterMap f).Nodup) {i j : Nat} {a b : α}
    {u : β} (hi : xs[i]? = some a) (hj : xs[j]? = some b) (ha : f a = some u) (hb : f b = some u) : i = j := by
  have hpair : xs.Pairwise fun x y => ∀ v, f x = some v → ∀ w, f y = some w → v ≠ w :=
    List.pairwise_filterMap.mp h
  rw [List.pairwise_iff_getElem] at hpair
  obtain ⟨hil, rfl⟩ := List.getElem?_eq_some_iff.mp hi
  obtain ⟨hjl, rfl⟩ := List.getElem?_eq_some_iff.mp hj
  rcases Nat.lt_trichotomy i j with hlt | heq | hgt
  · exact absurd rfl (hpair i j hil hjl hlt u ha u hb)
  · exact heq
  · exact absurd rfl (hpair j i hjl hil hgt u hb u ha)

theorem slotTableOk_iff {b : Board} : slotTableOk b = true ↔
    b.slotTable.length = b.numSlots ∧ b.slotTable.map SlotDesc.index = List.range b.numSlots ∧
      (pulseUnitIds b.slotTable).Nodup ∧ (serialUnitIds b.slotTable).Nodup := by
  simp [slotTableOk, allDistinct_iff, and_assoc]

theorem periph_of_unit {s : State} {k : EngineKind} {i u : Nat} (h : unitFor k (s.periph i) = some u) :
    ∃ d, s.board.slotTable[i]? = some d ∧ unitFor k d.periph = some u := by
  unfold State.periph at h
  cases hd : s.board.slotTable[i]? with
  | none => rw [hd] at h; cases k <;> cases h
  | some d => rw [hd] at h; exact ⟨d, rfl, h⟩

/-- No two slots name the same unit (R31). -/
theorem unit_unique {s : State} (hb : slotTableOk s.board = true) {k : EngineKind} {i j u : Nat}
    (hi : unitFor k (s.periph i) = some u) (hj : unitFor k (s.periph j) = some u) : i = j := by
  obtain ⟨-, -, hpulse, hserial⟩ := slotTableOk_iff.mp hb
  obtain ⟨d, hd, hdu⟩ := periph_of_unit hi
  obtain ⟨d', hd', hdu'⟩ := periph_of_unit hj
  cases k with
  | pulse => exact index_unique hpulse hd hd' hdu hdu'
  | serial => exact index_unique hserial hd hd' hdu hdu'

/-- Only the block's slots name a unit. -/
theorem hasSlot_of_unit {s : State} (hb : slotTableOk s.board = true) {k : EngineKind} {i u : Nat}
    (hi : unitFor k (s.periph i) = some u) : s.hasSlot i := by
  obtain ⟨hlen, -⟩ := slotTableOk_iff.mp hb
  obtain ⟨d, hd, -⟩ := periph_of_unit hi
  obtain ⟨hlt, -⟩ := List.getElem?_eq_some_iff.mp hd
  exact Nat.lt_of_lt_of_eq hlt hlen

theorem unitFor_pulse {p : Periph} {u : Nat} : unitFor .pulse p = some u ↔ p = .pulseUnit u := by
  cases p <;> simp [unitFor]

theorem unitFor_serial {p : Periph} {u : Nat} : unitFor .serial p = some u ↔ p = .serialUnit u := by
  cases p <;> simp [unitFor]

/-! ## What a write does to the views -/

theorem view_setSlot (s : State) (i : Nat) (d : DriverState) :
    (s.setSlot i d).view = Function.update s.view i { s.view i with eng := d.eng.map Engine.view } := by
  funext j
  by_cases hj : j = i
  · subst hj
    simp only [State.view, setSlot_slot_same, Function.update_self]
    rfl
  · rw [Function.update_of_ne hj]
    simp only [State.view, setSlot_slot_other s i d hj]
    rfl

theorem queueView_setPu_other (s : State) {u : Nat} (p : PulseUnit) {x : Periph} (h : x ≠ .pulseUnit u) :
    (s.setPu u p).queueView x = s.queueView x := by
  cases x with
  | pulseUnit w => exact congrArg PulseUnit.view (setPu_pu_other s u p fun hw => h (hw ▸ rfl))
  | serialUnit _ | spiCapable | relayCapable | none => rfl

theorem queueView_setSu_other (s : State) {u : Nat} (p : SerialUnit) {x : Periph} (h : x ≠ .serialUnit u) :
    (s.setSu u p).queueView x = s.queueView x := by
  cases x with
  | serialUnit w => exact congrArg SerialUnit.view (setSu_su_other s u p fun hw => h (hw ▸ rfl))
  | pulseUnit _ | spiCapable | relayCapable | none => rfl

/-- A write to the pulse unit that slot `i` names is seen in slot `i` alone. -/
theorem view_setPu {s : State} (hb : slotTableOk s.board = true) {i u : Nat} (hi : s.periph i = .pulseUnit u)
    (p : PulseUnit) : (s.setPu u p).view = Function.update s.view i { s.view i with queue := p.view } := by
  funext j
  by_cases hj : j = i
  · subst hj
    simp only [State.view, setPu_periph, hi, State.queueView, setPu_pu_same, Function.update_self]
    rfl
  · have hne : s.periph j ≠ .pulseUnit u := fun hju => hj (unit_unique hb (k := .pulse)
      (unitFor_pulse.mpr hju) (unitFor_pulse.mpr hi))
    rw [Function.update_of_ne hj]
    simp only [State.view, setPu_periph, queueView_setPu_other s p hne]
    rfl

/-- A write to the serial unit that slot `i` names is seen in slot `i` alone. -/
theorem view_setSu {s : State} (hb : slotTableOk s.board = true) {i u : Nat} (hi : s.periph i = .serialUnit u)
    (p : SerialUnit) : (s.setSu u p).view = Function.update s.view i { s.view i with queue := p.view } := by
  funext j
  by_cases hj : j = i
  · subst hj
    simp only [State.view, setSu_periph, hi, State.queueView, setSu_su_same, Function.update_self]
    rfl
  · have hne : s.periph j ≠ .serialUnit u := fun hju => hj (unit_unique hb (k := .serial)
      (unitFor_serial.mpr hju) (unitFor_serial.mpr hi))
    rw [Function.update_of_ne hj]
    simp only [State.view, setSu_periph, queueView_setSu_other s p hne]
    rfl

/-- A write to a pulse unit that does not change its view is not seen. -/
theorem view_setPu_same {s : State} {u : Nat} {p : PulseUnit} (h : p.view = (s.pu u).view) :
    (s.setPu u p).view = s.view := by
  funext i
  by_cases hi : s.periph i = .pulseUnit u
  · simp only [State.view, setPu_periph, hi, State.queueView, setPu_pu_same, h]
    rfl
  · simp only [State.view, setPu_periph, queueView_setPu_other s p hi]
    rfl

/-- A write to a serial unit that does not change its view is not seen. -/
theorem view_setSu_same {s : State} {u : Nat} {p : SerialUnit} (h : p.view = (s.su u).view) :
    (s.setSu u p).view = s.view := by
  funext i
  by_cases hi : s.periph i = .serialUnit u
  · simp only [State.view, setSu_periph, hi, State.queueView, setSu_su_same, h]
    rfl
  · simp only [State.view, setSu_periph, queueView_setSu_other s p hi]
    rfl

theorem view_setSlot_same {s : State} {i : Nat} {d : DriverState}
    (h : d.eng.map Engine.view = (s.slot i).eng.map Engine.view) : (s.setSlot i d).view = s.view := by
  rw [view_setSlot, h]
  exact Function.update_eq_self i s.view

/-- `t` is seen as `s` but for slot `i`, seen as `v`, with the same board and the same faults. -/
structure ViewStep (s t : State) (i : Nat) (v : SlotView) : Prop where
  board : t.board = s.board
  faults : t.faults = s.faults
  view : t.view = Function.update s.view i v

namespace ViewStep

variable {s t u : State} {i : Nat} {v w : SlotView}

theorem self (s : State) (i : Nat) : ViewStep s s i (s.view i) := ⟨rfl, rfl, (Function.update_eq_self i s.view).symm⟩

theorem trans (h : ViewStep s t i v) (h' : ViewStep t u i w) : ViewStep s u i w :=
  ⟨h'.board.trans h.board, h'.faults.trans h.faults, by rw [h'.view, h.view, Function.update_idem]⟩

theorem here (h : ViewStep s t i v) : t.view i = v := by rw [h.view, Function.update_self]

theorem periph (h : ViewStep s t i v) (j : Nat) : t.periph j = s.periph j := by
  unfold State.periph
  rw [h.board]

theorem setSlot (s : State) (i : Nat) (d : DriverState) :
    ViewStep s (s.setSlot i d) i { s.view i with eng := d.eng.map Engine.view } := ⟨rfl, rfl, view_setSlot s i d⟩

theorem setPu (hb : slotTableOk s.board = true) {x : Nat} (hi : s.periph i = .pulseUnit x) (p : PulseUnit) :
    ViewStep s (s.setPu x p) i { s.view i with queue := p.view } := ⟨rfl, rfl, view_setPu hb hi p⟩

theorem setSu (hb : slotTableOk s.board = true) {x : Nat} (hi : s.periph i = .serialUnit x) (p : SerialUnit) :
    ViewStep s (s.setSu x p) i { s.view i with queue := p.view } := ⟨rfl, rfl, view_setSu hb hi p⟩

end ViewStep

/-! ## The invariant -/

/-- A unit at rest (R199, R231). -/
def QueueView.atRest (w : QueueView) : Prop :=
  w.queued = 0 ∧ w.busy = false ∧ w.pendLow = false ∧ w.pendEnd = false

/-- A draining unit transmits, or has run empty and reports END. -/
def QueueView.sending (w : QueueView) : Prop :=
  (w.busy = true ∧ w.queued ≠ 0 ∧ w.pendEnd = false) ∨ (w.busy = false ∧ w.queued = 0 ∧ w.pendEnd = true)

/-- The queue stands above the low threshold, or LOW is pending before the queue is empty (R201, R233). -/
def QueueView.fed (w : QueueView) (low : Nat) : Prop := low < w.queued ∨ (w.pendLow = true ∧ w.queued ≠ 0)

/-- R199 and R231 for one engine and its unit, and where `F` holds also R201 and R233. -/
def EngineView.inOrder (F : Prop) (low : Nat) (e : EngineView) (w : QueueView) : Prop :=
  match e.tstate with
  | .idle => w.atRest ∧ e.enLow = false ∧ e.enEnd = false
  | .frameComplete => w.atRest ∧ e.enLow = false ∧ e.enEnd = false
  | .draining => w.sending ∧ e.enLow = true ∧ e.enEnd = true ∧ (F → e.staged = false → w.fed low)
  | .filling => False

/-- The low threshold of the unit a peripheral names. -/
def lowAt (b : Board) : Periph → Nat
  | .pulseUnit _ => b.ringLowThreshold
  | .serialUnit _ => b.fifoLowThreshold
  | _ => 0

/-- A slot is in order: its engine is bound to the unit it names (R191, R221) and in order with it; the unit of a slot
without an engine is at rest. -/
def SlotView.inOrder (F : Prop) (b : Board) (p : Periph) (v : SlotView) : Prop :=
  match v.eng with
  | none => v.queue.atRest
  | some e => unitFor e.kind p = some e.unit ∧ e.inOrder F (lowAt b p) v.queue

/-- What R201 and R233 ask of the board: a timely ISR, and thresholds at least 1 and below the capacities. -/
structure TimelyBoard (b : Board) : Prop where
  isr : b.assumeTimelyIsr = true
  ringLow : 1 ≤ b.ringLowThreshold
  ringCapacity : b.ringLowThreshold < b.ringCapacity
  fifoLow : 1 ≤ b.fifoLowThreshold
  fifoCapacity : b.fifoLowThreshold < b.fifoCapacity

/-- The quiescence invariant with the engines' binding, over distinct units; where `F` holds, with a timely board and
its queues fed. -/
structure State.Orderly (F : Prop) (s : State) : Prop where
  units : slotTableOk s.board = true
  timely : F → TimelyBoard s.board
  slots : ∀ i, (s.view i).inOrder F s.board (s.periph i)

variable {F : Prop}

theorem State.Orderly.of_view {s t : State} (h : s.Orderly F) (hb : t.board = s.board) (hv : t.view = s.view) :
    t.Orderly F := by
  have hp : t.periph = s.periph := funext fun i => by unfold State.periph; rw [hb]
  refine ⟨hb ▸ h.units, hb ▸ h.timely, fun i => ?_⟩
  rw [hv, hp, hb]
  exact h.slots i

/-- After a step seen in slot `i` alone, only slot `i` has to be checked. -/
theorem State.Orderly.of_step {s t : State} (h : s.Orderly F) {i : Nat} {v : SlotView} (hst : ViewStep s t i v)
    (hv : v.inOrder F s.board (s.periph i)) : t.Orderly F := by
  refine ⟨hst.board ▸ h.units, hst.board ▸ h.timely, fun j => ?_⟩
  rw [hst.periph, hst.board, hst.view]
  by_cases hj : j = i
  · subst hj
    rwa [Function.update_self]
  · rw [Function.update_of_ne hj]
    exact h.slots j

/-- In an orderly state an engine is bound to its slot's unit and in order with it. -/
theorem State.Orderly.engine {s : State} (h : s.Orderly F) {i : Nat} {e : Engine} (he : (s.slot i).eng = some e) :
    unitFor e.kind (s.periph i) = some e.unit ∧
      e.view.inOrder F (lowAt s.board (s.periph i)) (s.queueView (s.periph i)) := by
  have hi := h.slots i
  simp only [State.view, he, Option.map_some, SlotView.inOrder] at hi
  exact hi

theorem State.Orderly.pulse {s : State} (h : s.Orderly F) {i : Nat} {e : Engine} {q : PulseSeq}
    {l : Option PulseLatch} (he : (s.slot i).eng = some e) (hc : e.core = .pulse q l) :
    s.periph i = .pulseUnit e.unit ∧ e.view.inOrder F s.board.ringLowThreshold (s.pu e.unit).view := by
  obtain ⟨hunit, hord⟩ := h.engine he
  rw [kind_pulse hc] at hunit
  have hp := unitFor_pulse.mp hunit
  rw [hp] at hord
  exact ⟨hp, hord⟩

theorem State.Orderly.serial {s : State} (h : s.Orderly F) {i : Nat} {e : Engine} {q : SerialSeq}
    {l : Option SerialLatch} (he : (s.slot i).eng = some e) (hc : e.core = .serial q l) :
    s.periph i = .serialUnit e.unit ∧ e.view.inOrder F s.board.fifoLowThreshold (s.su e.unit).view := by
  obtain ⟨hunit, hord⟩ := h.engine he
  rw [kind_serial hc] at hunit
  have hp := unitFor_serial.mp hunit
  rw [hp] at hord
  exact ⟨hp, hord⟩

/-! ## The invariant and the statements' terms -/

theorem atRest_pulse {p : PulseUnit} : p.view.atRest ↔ p.atRest := by
  simp [QueueView.atRest, PulseUnit.view, PulseUnit.atRest]

theorem atRest_serial {p : SerialUnit} : p.view.atRest ↔ p.atRest := by
  simp [QueueView.atRest, SerialUnit.view, SerialUnit.atRest]

theorem sending_pulse {p : PulseUnit} : p.view.sending ↔ p.sending := by
  simp [QueueView.sending, PulseUnit.view, PulseUnit.sending]

theorem sending_serial {p : SerialUnit} : p.view.sending ↔ p.sending := by
  simp [QueueView.sending, SerialUnit.view, SerialUnit.sending]

/-- An engine is in order exactly when it is as R199 and R231 say, and fed where `F` holds. -/
theorem inOrder_iff {low : Nat} {e : Engine} {w : QueueView} : e.view.inOrder F low w ↔
    e.inOrder w.atRest w.sending ∧ (F → e.tstate = .draining → e.staged = false → w.fed low) := by
  cases hts : e.tstate <;> simp [EngineView.inOrder, Engine.inOrder, Engine.view, hts, and_assoc]

theorem slotInOrder_iff {b : Board} {p : Periph} {o : Option Engine} {w : QueueView} :
    SlotView.inOrder F b p { eng := o.map Engine.view, queue := w } ↔
      match o with
      | none => w.atRest
      | some e => unitFor e.kind p = some e.unit ∧ e.inOrder w.atRest w.sending ∧
          (F → e.tstate = .draining → e.staged = false → w.fed (lowAt b p)) := by
  cases o with
  | none => rfl
  | some e => exact and_congr_right fun _ => inOrder_iff

theorem fed_pulse {p : PulseUnit} {low : Nat} :
    p.view.fed low ↔ low < p.ring.length ∨ (p.pendLow = true ∧ p.ring ≠ []) := by
  simp [QueueView.fed, PulseUnit.view]

theorem fed_serial {p : SerialUnit} {low : Nat} :
    p.view.fed low ↔ low < p.fifo.length ∨ (p.pendLow = true ∧ p.fifo ≠ []) := by
  simp [QueueView.fed, SerialUnit.view]

theorem State.Orderly.quiescent {s : State} (h : s.Orderly F) : s.Quiescent := by
  refine ⟨fun i u _ hp => ?_, fun i u _ hp => ?_⟩
  · have hi := slotInOrder_iff.mp (h.slots i)
    rw [hp, State.queueView, atRest_pulse, sending_pulse] at hi
    cases he : (s.slot i).eng with
    | none => rw [he] at hi; exact hi
    | some e => rw [he] at hi; exact hi.2.1
  · have hi := slotInOrder_iff.mp (h.slots i)
    rw [hp, State.queueView, atRest_serial, sending_serial] at hi
    cases he : (s.slot i).eng with
    | none => rw [he] at hi; exact hi
    | some e => rw [he] at hi; exact hi.2.1

/-- `Fed` says of an engine in its slot's unit what the invariant does. -/
theorem State.Orderly.isFed {s : State} (h : s.Orderly F) (hF : F) : s.Fed := by
  intro i e _ he hts
  cases hc : e.core with
  | pulse q l =>
    obtain ⟨-, hord⟩ := h.pulse he hc
    obtain ⟨-, hfed⟩ := inOrder_iff.mp hord
    exact fun hq => fed_pulse.mp (hfed hF hts (by simpa [Engine.staged, hc] using hq))
  | serial q l =>
    obtain ⟨-, hord⟩ := h.serial he hc
    obtain ⟨-, hfed⟩ := inOrder_iff.mp hord
    exact fun hq => fed_serial.mp (hfed hF hts (by simpa [Engine.staged, hc] using hq))

/-- `Fed` in the views' terms. -/
theorem State.Fed.view {s : State} (h : s.Fed) (hbound : s.Bound) {i : Nat} {e : Engine} (hi : s.hasSlot i)
    (he : (s.slot i).eng = some e) (hts : e.tstate = .draining) (hst : e.staged = false) :
    (s.queueView (s.periph i)).fed (lowAt s.board (s.periph i)) := by
  have hunit := hbound.unit i e he
  have hfed := h i e hi he hts
  cases hc : e.core with
  | pulse q l =>
    rw [kind_pulse hc] at hunit
    rw [hc] at hfed
    rw [unitFor_pulse.mp hunit]
    exact fed_pulse.mpr (hfed (by simpa [Engine.staged, hc] using hst))
  | serial q l =>
    rw [kind_serial hc] at hunit
    rw [hc] at hfed
    rw [unitFor_serial.mp hunit]
    exact fed_serial.mpr (hfed (by simpa [Engine.staged, hc] using hst))

/-- A bound and quiescent state over distinct units is orderly, and where `F` holds a fed one over a timely board. -/
theorem orderly_of_quiescent {s : State} (hb : slotTableOk s.board = true) (hbound : s.Bound) (hq : s.Quiescent)
    (htimely : F → TimelyBoard s.board) (hfed : F → s.Fed) : s.Orderly F := by
  refine ⟨hb, htimely, fun i => slotInOrder_iff.mpr ?_⟩
  have hfed' : ∀ e, (s.slot i).eng = some e → F → e.tstate = .draining → e.staged = false →
      (s.queueView (s.periph i)).fed (lowAt s.board (s.periph i)) := fun e he hF =>
    (hfed hF).view hbound (hasSlot_of_unit hb (hbound.unit i e he)) he
  have hquiet : match (s.slot i).eng with
      | none => (s.queueView (s.periph i)).atRest
      | some e => e.inOrder (s.queueView (s.periph i)).atRest (s.queueView (s.periph i)).sending := by
    have hunit := hbound.unit i
    cases hp : s.periph i with
    | pulseUnit u =>
      rw [State.queueView, atRest_pulse, sending_pulse]
      exact hq.pulse i u (hasSlot_of_unit hb (unitFor_pulse.mpr hp)) hp
    | serialUnit u =>
      rw [State.queueView, atRest_serial, sending_serial]
      exact hq.serial i u (hasSlot_of_unit hb (unitFor_serial.mpr hp)) hp
    | spiCapable | relayCapable | none =>
      rw [hp] at hunit
      cases he : (s.slot i).eng with
      | none => exact ⟨rfl, rfl, rfl, rfl⟩
      | some e =>
        have := hunit e he
        cases hk : e.kind <;> simp [hk, unitFor] at this
  cases he : (s.slot i).eng with
  | none => rw [he] at hquiet; exact hquiet
  | some e => rw [he] at hquiet; exact ⟨hbound.unit i e he, hquiet, hfed' e he⟩

end Sys2Proof.Machine
end

section
/-! SUPPORT. The engines' fills as the invariants see them (R195, R227), from any state: an item changes at most whether
the slot's sequencer is Done, no item means that it is Done, and a fill ends with a full queue or a Done sequencer. -/

namespace Sys2Proof.Machine

variable {α β : Type} {F : Prop}

/-! ## Faults that are no Underrun -/

/-- A fault was raised, and where `F` holds it is no Underrun. -/
def OtherFault (F : Prop) (s t : State) : Prop :=
  t.faults ≠ [] ∧ (F → ∀ i, FaultRecord.underrun i ∈ t.faults → FaultRecord.underrun i ∈ s.faults)

theorem OtherFault.addFault (s : State) {f : FaultRecord} (h : ∀ i, f ≠ .underrun i) : OtherFault F s (s.addFault f) :=
  ⟨addFault_ne_nil s f, fun _ i hi => ((mem_addFault s f _).mp hi).resolve_left fun he => h i he.symm⟩

theorem OtherFault.after {s t u : State} (h : OtherFault F t u) (hf : t.faults = s.faults) : OtherFault F s u := by
  obtain ⟨hne, hu⟩ := h
  exact ⟨hne, hf ▸ hu⟩

theorem Ends.any (r : EStateM.Result Exc State α) : Ends (fun _ _ => True) (fun _ => True) True r := by
  cases r with
  | ok a t => trivial
  | error e t => cases e <;> trivial

theorem Ends.and {ok ok' : α → State → Prop} {raised : State → Prop} {stops : Prop} {r : EStateM.Result Exc State α}
    (h : Ends ok raised stops r) (h' : Ends ok' (fun _ => True) True r) :
    Ends (fun a t => ok a t ∧ ok' a t) raised stops r := by
  cases r with
  | ok a t => exact ⟨h, h'⟩
  | error e t => cases e <;> exact h

/-! ## The sequencers -/

/-- The view with the sequencer Done or not. -/
def SlotView.stage (v : SlotView) (d : Bool) : SlotView := { v with eng := v.eng.map fun e => { e with staged := d } }

theorem SlotView.stage_stage (v : SlotView) (d d' : Bool) : (v.stage d).stage d' = v.stage d' := by
  cases h : v.eng <;> simp [SlotView.stage, h]

theorem SlotView.exists_stage_self (v : SlotView) : ∃ d, v.stage d = v := by
  cases v with
  | mk eng queue =>
    cases eng with
    | none => exact ⟨false, rfl⟩
    | some e => exact ⟨e.staged, rfl⟩

/-- Seen from outside, at most whether slot `i`'s sequencer is Done changed. -/
def Sequenced (s t : State) (i : Nat) : Prop := ∃ d, ViewStep s t i ((s.view i).stage d)

theorem Sequenced.refl (s : State) (i : Nat) : Sequenced s s i := by
  obtain ⟨d, hd⟩ := (s.view i).exists_stage_self
  exact ⟨d, by rw [hd]; exact .self s i⟩

theorem Sequenced.trans {s t u : State} {i : Nat} (h : Sequenced s t i) (h' : Sequenced t u i) : Sequenced s u i := by
  obtain ⟨d, h⟩ := h
  obtain ⟨d', h'⟩ := h'
  rw [h.here, SlotView.stage_stage] at h'
  exact ⟨d', h.trans h'⟩

theorem Sequenced.faults {s t : State} {i : Nat} (h : Sequenced s t i) : t.faults = s.faults := by
  obtain ⟨d, h⟩ := h
  exact h.faults

/-- The operation changes at most whether slot `i`'s sequencer is Done, and raises no Underrun. -/
def Op.Sequences (F : Prop) (i : Nat) (x : Op α) : Prop :=
  ∀ s, Ends (fun _ t => Sequenced s t i) (OtherFault F s) True (x s)

theorem Op.Sequences.bind {i : Nat} {x : Op α} {f : α → Op β} (hx : x.Sequences F i) (hf : ∀ a, (f a).Sequences F i) :
    (x >>= f).Sequences F i := fun s =>
  Ends.bind (hx s) fun a t ht => (hf a t).mono (fun _ _ h => ht.trans h) (fun _ h => h.after ht.faults) id

theorem Op.Reads.sequences {i : Nat} {x : Op α} (h : x.Reads fun _ => True) : x.Sequences F i := fun s =>
  (h s).mono (fun _ _ ht => ht ▸ .refl s i) (fun _ => False.elim) fun _ => trivial

theorem Op.Sequences.ite {i : Nat} {c : Prop} [Decidable c] {x y : Op α} (hx : x.Sequences F i)
    (hy : y.Sequences F i) : (if c then x else y).Sequences F i := by split <;> assumption

/-- An update of an engine that is seen at most in whether its sequencer is Done. -/
theorem modEngine_sequences (i : Nat) {f : Engine → Engine} (h : ∀ e, ∃ d, (f e).view = { e.view with staged := d }) :
    (modEngine i f).Sequences F i := by
  intro s
  have hst := ViewStep.setSlot s i ((s.slot i).mapEng f)
  cases he : (s.slot i).eng with
  | none =>
    refine ⟨false, ?_⟩
    simpa [State.view, SlotView.stage, he] using hst
  | some e =>
    obtain ⟨d, hd⟩ := h e
    refine ⟨d, ?_⟩
    simpa [State.view, SlotView.stage, he, hd] using hst

theorem pure_sequences (i : Nat) (a : α) : (pure a : Op α).Sequences F i :=
  Op.Reads.sequences (pure_reads a)

theorem drvMoreData_sequences (i : Nat) : (drvMoreData i).Sequences F i :=
  Op.Reads.sequences (drvMoreData_reads i)

theorem entryOf_sequences (i : Nat) (xs : List α) (k : Nat) : (entryOf xs k).Sequences F i := fun s =>
  (entryOf_ends xs k s).mono (fun _ _ ht => ht ▸ .refl s i) (fun _ => id) fun _ => trivial

/-- R84: outside the buffer the fault is BufferOutOfBounds. -/
theorem bufRead_sequences (i a : Nat) : (bufRead a).Sequences F i := by
  intro s
  rw [bufRead_run]
  split
  · exact .addFault s (by simp)
  · exact .refl s i

theorem drvNextByte_sequences (i : Nat) : (drvNextByte i).Sequences F i :=
  .bind (Op.Reads.sequences (engineOf_reads i _)) fun _ =>
    .bind (Op.Reads.sequences getState_reads) fun s => by
      cases encoderCfg (s.slot i).cfg with
      | none => exact fun _ => trivial
      | some c =>
        refine .bind ?_ fun _ => .bind (bufRead_sequences i _) fun _ =>
          .bind (modEngine_sequences i fun e => ⟨e.staged, rfl⟩) fun _ => entryOf_sequences i _ _
        unfold sourceIndex
        exact .ite (.bind (entryOf_sequences i _ _) fun _ => pure_sequences i _) (pure_sequences i _)

/-- Slot `i`'s sequencer is Done. -/
def StagedAt (t : State) (i : Nat) : Prop := ∃ e, (t.slot i).eng = some e ∧ e.staged = true

theorem stagedAt_withEng (s : State) (i : Nat) {e : Engine} (h : e.staged = true) : StagedAt (s.withEng i e) i :=
  ⟨e, by simp, h⟩

theorem staged_pulse {e : Engine} {q : PulseSeq} {l : Option PulseLatch} (hc : e.core = .pulse q l) :
    e.staged = decide (q.phase = .done) := by simp [Engine.staged, hc]

theorem staged_serial {e : Engine} {q : SerialSeq} {l : Option SerialLatch} (hc : e.core = .serial q l) :
    e.staged = decide (q.sphase = .done) := by simp [Engine.staged, hc]

/-! ### The pulse sequencer -/

theorem setPulseSeq_sequences (i : Nat) (q : PulseSeq) : (setPulseSeq i q).Sequences F i :=
  modEngine_sequences i fun e => by
    cases hc : e.core with
    | pulse q' l =>
      exact ⟨decide (q.phase = .done), by simp [Engine.withPulseSeq, Engine.view, Engine.staged, Engine.kind, hc]⟩
    | serial q' l => exact ⟨e.staged, by simp [Engine.withPulseSeq, hc, Engine.view]⟩

theorem xlatLookupPulse_sequences (i : Nat) (x : Symbol) : (xlatLookupPulse i x).Sequences F i :=
  Op.Reads.sequences (xlatLookupPulse_reads i x)

theorem peEmitBit_sequences (i : Nat) (l : PulseLatch) (q : PulseSeq) (b : Byte) :
    (peEmitBit i l q b).Sequences F i := by
  refine .bind (xlatLookupPulse_sequences i _) fun p => ?_
  split
  · exact .bind (drvMoreData_sequences i) fun _ => .bind (setPulseSeq_sequences i _) fun _ => pure_sequences i _
  · exact .bind (setPulseSeq_sequences i _) fun _ => pure_sequences i _

theorem pePass_sequences (i : Nat) : (pePass i).Sequences F i :=
  .bind (Op.Reads.sequences (pulseEngineOf_reads i)) fun ⟨_, q, l⟩ =>
    .bind (Op.Reads.sequences (latched_reads l _)) fun l => by
      have hidle : ∀ q' s, (do setPulseSeq i q'; let p ← xlatLookupPulse i s; pure (some (some p))).Sequences F i :=
        fun q' s => .bind (setPulseSeq_sequences i q') fun _ => .bind (xlatLookupPulse_sequences i s) fun _ =>
          pure_sequences i _
      have hmove : ∀ q' (r : Option (Option PulseDescriptor)), (do setPulseSeq i q'; pure r).Sequences F i :=
        fun q' r => .bind (setPulseSeq_sequences i q') fun _ => pure_sequences i r
      cases q.phase with
      | preIdle => exact .ite (hidle _ _) (hmove _ _)
      | data =>
        cases q.curByte with
        | some b => exact .bind (peEmitBit_sequences i l q b) fun _ => pure_sequences i _
        | none =>
          exact .bind (drvMoreData_sequences i) fun _ => .ite
            (.bind (drvNextByte_sequences i) fun b => .bind (peEmitBit_sequences i l _ b) fun _ => pure_sequences i _)
            (hmove _ _)
      | gap => exact hidle _ _
      | postIdle => exact .ite (hidle _ _) (hmove _ _)
      | done => exact pure_sequences i _

/-- The pass returns no item only with slot `i`'s sequencer Done. -/
def Op.ReturnsStaged (i : Nat) (x : Op (Option (Option β))) : Prop :=
  ∀ s, Ends (fun r t => r = some none → StagedAt t i) (fun _ => True) True (x s)

theorem Op.ReturnsStaged.ite {i : Nat} {c : Prop} [Decidable c] {x y : Op (Option (Option β))}
    (hx : x.ReturnsStaged i) (hy : y.ReturnsStaged i) : (if c then x else y).ReturnsStaged i := by split <;> assumption

theorem Op.ReturnsStaged.after {i : Nat} (x : Op α) {f : α → Op (Option (Option β))}
    (h : ∀ a, (f a).ReturnsStaged i) : (x >>= f).ReturnsStaged i := fun _ =>
  Ends.bind (.any _) fun a t _ => h a t

theorem pure_item_returns (i : Nat) (p : β) : (pure (some (some p)) : Op (Option (Option β))).ReturnsStaged i :=
  fun _ => nofun

theorem pure_none_returns (i : Nat) : (pure none : Op (Option (Option β))).ReturnsStaged i := fun _ => nofun

/-- Returning without an item on a sequencer that was made Done just before. -/
theorem setPulseSeq_returns (i : Nat) (q : PulseSeq) (hq : q.phase = .done) {s : State} {e : Engine} {q' : PulseSeq}
    {l : Option PulseLatch} (he : (s.slot i).eng = some e) (hc : e.core = .pulse q' l) :
    Ends (fun r t => r = some none → StagedAt t i) (fun _ => True) True
      ((do setPulseSeq i q; pure (some none) : Op (Option (Option PulseDescriptor))) s) := by
  rw [op_bind_ok (setPulseSeq_run he hc q)]
  exact fun _ => stagedAt_withEng s i (by simp [Engine.staged, hq])

/-- PE_NEXT_ITEM returns no item only with its sequencer Done (R194). -/
theorem pePass_returns (i : Nat) : (pePass i).ReturnsStaged i := by
  intro s
  refine (pulseEngineOf_ends i s).bind ?_
  rintro ⟨e, q, l⟩ s ⟨rfl, he, hc⟩
  refine Ends.bind ((latched_reads (P := fun _ => True) l _ s).mono (fun _ _ => id) (fun _ _ => trivial) id) ?_
  rintro l _ rfl
  have hitem : ∀ {α : Type} (x : Op α) (y : α → Op PulseDescriptor),
      (do let a ← x; let p ← y a; pure (some (some p))).ReturnsStaged i := fun x y =>
    .after x fun a => .after (y a) fun p => pure_item_returns i p
  have hmove : ∀ q', (do setPulseSeq i q'; pure none : Op (Option (Option PulseDescriptor))).ReturnsStaged i :=
    fun q' => .after _ fun _ => pure_none_returns i
  cases hp : q.phase with
  | preIdle => exact Op.ReturnsStaged.ite (hitem _ _) (hmove _) _
  | data =>
    cases hb : q.curByte with
    | some b => exact Op.ReturnsStaged.after _ (fun p => pure_item_returns i p) _
    | none => exact Op.ReturnsStaged.after _ (fun _ => .ite (hitem _ _) (hmove _)) _
  | gap => exact hitem _ _ _
  | postIdle =>
    simp only [op_ite]
    split
    · exact hitem _ _ _
    · exact setPulseSeq_returns i _ rfl he hc
  | done => exact fun _ => ⟨e, he, by simp [staged_pulse hc, hp]⟩

/-! ### The serial sequencer -/

theorem setSerialSeq_sequences (i : Nat) (q : SerialSeq) : (setSerialSeq i q).Sequences F i :=
  modEngine_sequences i fun e => by
    cases hc : e.core with
    | pulse q' l => exact ⟨e.staged, by simp [Engine.withSerialSeq, hc, Engine.view]⟩
    | serial q' l =>
      exact ⟨decide (q.sphase = .done), by simp [Engine.withSerialSeq, Engine.view, Engine.staged, Engine.kind, hc]⟩

theorem seFixed_sequences (i : Nat) (q : SerialSeq) (xs : List Byte) (next : SPhase) :
    (seFixed i q xs next).Sequences F i := by
  unfold seFixed
  split <;> exact setSerialSeq_sequences i _

theorem xlatLookupSerial_sequences (i g : Nat) : (xlatLookupSerial i g).Sequences F i :=
  .bind (Op.Reads.sequences (serialEngineOf_reads i)) fun _ => .bind (Op.Reads.sequences (latched_reads _ _)) fun _ =>
    .bind (Op.Reads.sequences (refuseIf_reads _ _)) fun _ => entryOf_sequences i _ _

theorem sePass_sequences (i : Nat) : (sePass i).Sequences F i :=
  .bind (Op.Reads.sequences (serialEngineOf_reads i)) fun ⟨_, q, l⟩ =>
    .bind (Op.Reads.sequences (latched_reads l _)) fun l => by
      have hmove : ∀ q' (r : Option (Option Byte)), (do setSerialSeq i q'; pure r).Sequences F i :=
        fun q' r => .bind (setSerialSeq_sequences i q') fun _ => pure_sequences i r
      have hfixed : ∀ xs next, (do seFixed i q xs next; pure none : Op (Option (Option Byte))).Sequences F i :=
        fun xs next => .bind (seFixed_sequences i q xs next) fun _ => pure_sequences i _
      cases q.curByte with
      | some b =>
        have hlook : ∀ q' : SerialSeq, (do
            setSerialSeq i q'
            let x ← xlatLookupSerial i (group b q.groupIdx l.G)
            pure (some (some x))).Sequences F i := fun q' =>
          .bind (setSerialSeq_sequences i q') fun _ => .bind (xlatLookupSerial_sequences i _) fun _ => pure_sequences i _
        exact .ite (hlook _) (hlook _)
      | none =>
        cases q.sphase with
        | framePrefix => exact .bind (drvMoreData_sequences i) fun _ => hfixed _ _
        | pixelPrefix => exact hfixed _ _
        | pixelData =>
          exact .bind (drvMoreData_sequences i) fun _ => .ite
            (.bind (drvNextByte_sequences i) fun _ => .bind (Op.Reads.sequences (serialEngineOf_reads i)) fun _ =>
              .bind (drvMoreData_sequences i) fun _ => hmove _ _)
            (hmove _ _)
        | pixelSuffix => exact .bind (drvMoreData_sequences i) fun _ => hfixed _ _
        | frameSuffix =>
          simp only
          split <;> exact hmove _ _
        | done => exact pure_sequences i _

/-- SE_NEXT_ITEM returns no item only with its sequencer Done (R226). -/
theorem sePass_returns (i : Nat) : (sePass i).ReturnsStaged i := by
  intro s
  refine (serialEngineOf_ends i s).bind ?_
  rintro ⟨e, q, l⟩ s ⟨rfl, he, hc⟩
  refine Ends.bind ((latched_reads (P := fun _ => True) l _ s).mono (fun _ _ => id) (fun _ _ => trivial) id) ?_
  rintro l _ rfl
  have hmove : ∀ x : Op Unit, (do x; pure none : Op (Option (Option Byte))).ReturnsStaged i :=
    fun x => .after x fun _ => pure_none_returns i
  cases hb : q.curByte with
  | some b =>
    have hlook : ∀ q' : SerialSeq, (do
        setSerialSeq i q'
        let x ← xlatLookupSerial i (group b q.groupIdx l.G)
        pure (some (some x))).ReturnsStaged i := fun q' => .after _ fun _ => .after _ fun x => pure_item_returns i x
    exact Op.ReturnsStaged.ite (hlook _) (hlook _) _
  | none =>
    cases hp : q.sphase with
    | framePrefix => exact Op.ReturnsStaged.after _ (fun _ => hmove _) _
    | pixelPrefix => exact hmove _ _
    | pixelData =>
      exact Op.ReturnsStaged.after _ (fun _ => .ite (.after _ fun _ => .after _ fun _ => .after _ fun _ => hmove _)
        (hmove _)) _
    | pixelSuffix => exact Op.ReturnsStaged.after _ (fun _ => hmove _) _
    | frameSuffix =>
      cases hf : l.FS[q.seqIdx]? with
      | some x => exact hmove _ _
      | none =>
        simp only [op_bind_ok (setSerialSeq_run he hc _)]
        exact fun _ => stagedAt_withEng _ i (by simp [Engine.staged])
    | done => exact fun _ => ⟨e, he, by simp [staged_serial hc, hp]⟩

/-! ### Whole items -/

/-- What PE_NEXT_ITEM and SE_NEXT_ITEM leave, from what each of their passes does. -/
theorem passLoop_stages {pass : Op (Option (Option β))} {i : Nat} (hseq : pass.Sequences F i)
    (hret : pass.ReturnsStaged i) : ∀ n s, Ends (fun r t => Sequenced s t i ∧ (r = none → StagedAt t i))
      (OtherFault F s) True (passLoop pass n s)
  | 0, _ => trivial
  | n + 1, s => by
    refine ((hseq s).and (hret s)).bind ?_
    rintro r t ⟨hst, hnone⟩
    cases r with
    | some p => exact ⟨hst, fun hp => hnone (congrArg some hp)⟩
    | none =>
      exact (passLoop_stages hseq hret n t).mono (fun _ _ ⟨h, hd⟩ => ⟨hst.trans h, hd⟩)
        (fun _ h => h.after hst.faults) id

/-- The item, if there is one, left slot `i`'s engine `e` and its unit `w` as seen, but for a Done sequencer. -/
theorem Sequenced.engine {s t : State} {i : Nat} {e : EngineView} {w : QueueView} (h : Sequenced s t i)
    (hv : s.view i = ⟨some e, w⟩) :
    ∃ d, ViewStep s t i ⟨some { e with staged := d }, w⟩ ∧ (StagedAt t i → d = true) := by
  obtain ⟨d, h⟩ := h
  rw [hv] at h
  refine ⟨d, h, fun ⟨e', he', hst⟩ => ?_⟩
  have hhere : (t.view i).eng = some { e with staged := d } := by rw [h.here]; rfl
  simp only [State.view, he', Option.map_some, Option.some.injEq] at hhere
  rw [← hst]
  exact (congrArg EngineView.staged hhere).symm

/-! ## The fills -/

/-- In a fill: seen as before, but for a queue of `k` items and a sequencer Done or not (`d`). -/
def FillAt (s : State) (i : Nat) (e : EngineView) (w : QueueView) (k : Nat) (d : Bool) (t : State) : Prop :=
  ViewStep s t i ⟨some { e with staged := d }, { w with queued := k }⟩

theorem fillAt_start {s : State} {i : Nat} {e : EngineView} {w : QueueView} (hv : s.view i = ⟨some e, w⟩) :
    FillAt s i e w w.queued e.staged s := by
  have hself := ViewStep.self s i
  rwa [hv] at hself

/-- A fill is over: the queue did not shrink, and holds `cap` items or the sequencer is Done. -/
def Filled (s t : State) (i : Nat) (e : EngineView) (w : QueueView) (cap : Nat) : Prop :=
  ∃ k d, w.queued ≤ k ∧ FillAt s i e w k d t ∧ (d = true ∨ cap ≤ k)

/-- A fill's way on from its next item: push it, if there is one, and go on. -/
def pushThen (push : β → Op Unit) (go : Op Unit) : Option β → Op Unit
  | some p => do push p; go
  | none => go

/-- The loop of PE_FILL and of SE_FILL (R195, R227), its bound above the room: it ends with a full queue or a Done
sequencer. -/
theorem fillLoop_fills {s : State} {i : Nat} {e : EngineView} {w : QueueView} {loop : Nat → Op Unit}
    {next : Op (Option β)} {push : β → Op Unit} {cap : Nat}
    (hstop : ∀ n k d t, FillAt s i e w k d t → d = true ∨ cap ≤ k → loop n t = .ok () t)
    (hgo : ∀ n k t, FillAt s i e w k false t → k < cap →
      loop (n + 1) t = (do let r ← next; pushThen push (loop n) r) t)
    (hnext : ∀ t, Ends (fun r u => Sequenced t u i ∧ (r = none → StagedAt u i)) (OtherFault F t) True (next t))
    (hpush : ∀ k d t p, FillAt s i e w k d t → ∃ u, push p t = .ok () u ∧ FillAt s i e w (k + 1) d u) :
    ∀ n k d t, w.queued ≤ k → FillAt s i e w k d t → d = true ∨ cap - k < n →
      Ends (fun _ u => Filled s u i e w cap) (OtherFault F s) True (loop n t) := by
  intro n
  induction n with
  | zero =>
    intro k d t hle hI hn
    have hd : d = true := hn.resolve_right (Nat.not_lt_zero _)
    rw [hstop 0 k d t hI (.inl hd)]
    exact ⟨k, d, hle, hI, .inl hd⟩
  | succ n ih =>
    intro k d t hle hI hn
    by_cases hover : d = true ∨ cap ≤ k
    · rw [hstop _ k d t hI hover]
      exact ⟨k, d, hle, hI, hover⟩
    · obtain ⟨hd, hroom⟩ := not_or.mp hover
      obtain rfl := Bool.eq_false_iff.mpr hd
      rw [hgo n k t hI (Nat.lt_of_not_le hroom)]
      refine ((hnext t).mono (fun _ _ => id) (fun _ h => h.after hI.faults) id).bind ?_
      rintro r u ⟨hst, hnone⟩
      obtain ⟨d', hstep, hdone⟩ := hst.engine hI.here
      have hI' : FillAt s i e w k d' u := hI.trans hstep
      cases r with
      | none => exact ih k d' u hle hI' (.inl (hdone (hnone rfl)))
      | some p =>
        obtain ⟨u', hrun, hI''⟩ := hpush k d' u p hI'
        have hbound : cap - (k + 1) < n := by simp at hn; omega
        rw [pushThen, op_bind_ok hrun]
        exact ih (k + 1) d' u' (Nat.le_succ_of_le hle) hI'' (.inr hbound)

theorem core_of_kind_pulse {e : Engine} (h : e.kind = .pulse) : ∃ q l, e.core = .pulse q l := by
  cases hc : e.core with
  | pulse q l => exact ⟨q, l, rfl⟩
  | serial q l => rw [kind_serial hc] at h; cases h

theorem core_of_kind_serial {e : Engine} (h : e.kind = .serial) : ∃ q l, e.core = .serial q l := by
  cases hc : e.core with
  | serial q l => exact ⟨q, l, rfl⟩
  | pulse q l => rw [kind_pulse hc] at h; cases h

/-- A pulse engine seen in a slot, in the state's terms. -/
theorem pulse_of_view {t : State} {i : Nat} {e : EngineView} {w : QueueView} (h : t.view i = ⟨some e, w⟩)
    (hk : e.kind = .pulse) (hp : t.periph i = .pulseUnit e.unit) :
    ∃ e' q l, (t.slot i).eng = some e' ∧ e'.core = .pulse q l ∧ e'.view = e ∧ (t.pu e'.unit).view = w := by
  simp only [State.view, SlotView.mk.injEq, Option.map_eq_some_iff, hp, State.queueView] at h
  obtain ⟨⟨e', he, rfl⟩, hw⟩ := h
  obtain ⟨q, l, hc⟩ := core_of_kind_pulse hk
  exact ⟨e', q, l, he, hc, rfl, hw⟩

/-- A serial engine seen in a slot, in the state's terms. -/
theorem serial_of_view {t : State} {i : Nat} {e : EngineView} {w : QueueView} (h : t.view i = ⟨some e, w⟩)
    (hk : e.kind = .serial) (hp : t.periph i = .serialUnit e.unit) :
    ∃ e' q l, (t.slot i).eng = some e' ∧ e'.core = .serial q l ∧ e'.view = e ∧ (t.su e'.unit).view = w := by
  simp only [State.view, SlotView.mk.injEq, Option.map_eq_some_iff, hp, State.queueView] at h
  obtain ⟨⟨e', he, rfl⟩, hw⟩ := h
  obtain ⟨q, l, hc⟩ := core_of_kind_serial hk
  exact ⟨e', q, l, he, hc, rfl, hw⟩

theorem push_view (p : PulseUnit) (x : PulseDescriptor) :
    (p.push x).view = { p.view with queued := p.view.queued + 1 } := by simp [PulseUnit.view, PulseUnit.push]

/-- PE_FILL as the invariants see it (R195). -/
theorem peFill_fills {s : State} (hb : slotTableOk s.board = true) {i : Nat} {e : EngineView} {w : QueueView}
    (hv : s.view i = ⟨some e, w⟩) (hk : e.kind = .pulse) (hp : s.periph i = .pulseUnit e.unit) :
    Ends (fun _ t => Filled s t i e w s.board.ringCapacity) (OtherFault F s) True (peFill i s) := by
  have hread : ∀ {k d t}, FillAt s i e w k d t → ∃ e' q l, (t.slot i).eng = some e' ∧ e'.core = .pulse q l ∧
      decide (q.phase = .done) = d ∧ e'.unit = e.unit ∧ (t.pu e.unit).view = { w with queued := k } := by
    intro k d t hI
    obtain ⟨e', q, l, he, hc, hview, hunit⟩ := pulse_of_view hI.here hk ((hI.periph i).trans hp)
    have hu : e'.unit = e.unit := congrArg EngineView.unit hview
    exact ⟨e', q, l, he, hc, (staged_pulse hc).symm.trans (congrArg EngineView.staged hview), hu, hu ▸ hunit⟩
  rw [peFill, op_bind_ok (getState_run s)]
  refine fillLoop_fills (next := peNextItem i) (push := fun p => modPu e.unit fun u => u.push p) ?_ ?_ ?_ ?_ _ _ _ s
    le_rfl (fillAt_start hv) (.inr (Nat.lt_succ_of_le (Nat.sub_le _ _)))
  case refine_1 =>
    intro n k d t hI hover
    obtain ⟨e', q, l, he, hc, rfl, hu, hunit⟩ := hread hI
    have hlen : (t.pu e.unit).ring.length = k := congrArg QueueView.queued hunit
    exact peFillLoop_stops n he hc (by simpa [hI.board, hu, hlen] using hover)
  case refine_2 =>
    intro n k t hI hroom
    obtain ⟨e', q, l, he, hc, hd, hu, hunit⟩ := hread hI
    have hlen : (t.pu e.unit).ring.length = k := congrArg QueueView.queued hunit
    rw [peFillLoop_goes n he hc (by simpa [hI.board, hu, hlen] using hroom) (by simpa using hd), hu]
    exact congrFun (congrArg (peNextItem i >>= ·) (funext fun r => by cases r <;> rfl)) t
  case refine_3 =>
    rw [show peNextItem i = passLoop (pePass i) 3 from peLoop_eq i 3]
    exact passLoop_stages (pePass_sequences i) (pePass_returns i) 3
  case refine_4 =>
    intro k d t p hI
    obtain ⟨e', q, l, he, hc, hd, hu, hunit⟩ := hread hI
    have hset := ViewStep.setPu (s := t) (hI.board ▸ hb) ((hI.periph i).trans hp) ((t.pu e.unit).push p)
    rw [hI.here, push_view, hunit] at hset
    exact ⟨_, modPu_run _ _ _, hI.trans hset⟩

/-- The FIFO with one more byte at its tail. -/
def SerialUnit.push (p : SerialUnit) (x : Byte) : SerialUnit := { p with fifo := p.fifo ++ [x] }

theorem serial_push_view (p : SerialUnit) (x : Byte) :
    (p.push x).view = { p.view with queued := p.view.queued + 1 } := by simp [SerialUnit.view, SerialUnit.push]

section serialFillLoop

variable {s : State} {i : Nat} {e : Engine} {q : SerialSeq} {l : Option SerialLatch}

theorem seFillLoop_stops (n : Nat) (he : (s.slot i).eng = some e) (hc : e.core = .serial q l)
    (hstop : q.sphase = .done ∨ s.board.fifoCapacity ≤ (s.su e.unit).fifo.length) :
    seFillLoop i n s = .ok () s := by
  cases n with
  | zero => rfl
  | succ n =>
    have hstop' : ¬((s.su e.unit).fifo.length < s.board.fifoCapacity ∧ q.sphase ≠ .done) := fun ⟨hlt, hne⟩ =>
      hstop.elim hne fun hle => absurd hlt (Nat.not_lt.mpr hle)
    simp only [seFillLoop, op_bind, serialEngineOf_some he hc, getState_run, hstop', if_false, op_pure]

/-- With room in the FIFO the loop goes on with the next byte, and pushes it if there is one. -/
theorem seFillLoop_goes (n : Nat) (he : (s.slot i).eng = some e) (hc : e.core = .serial q l)
    (hroom : (s.su e.unit).fifo.length < s.board.fifoCapacity) (hne : q.sphase ≠ .done) :
    seFillLoop i (n + 1) s =
      (do let r ← seNextItem i; pushThen (fun x => modSu e.unit fun u => u.push x) (seFillLoop i n) r) s := by
  have hgo : (s.su e.unit).fifo.length < s.board.fifoCapacity ∧ q.sphase ≠ .done := ⟨hroom, hne⟩
  simp only [seFillLoop, op_bind, serialEngineOf_some he hc, getState_run]
  rw [if_pos hgo, op_bind]
  cases seNextItem i s with
  | error x t => rfl
  | ok r t => cases r <;> rfl

end serialFillLoop

/-- SE_FILL as the invariants see it (R227). -/
theorem seFill_fills {s : State} (hb : slotTableOk s.board = true) {i : Nat} {e : EngineView} {w : QueueView}
    (hv : s.view i = ⟨some e, w⟩) (hk : e.kind = .serial) (hp : s.periph i = .serialUnit e.unit) :
    Ends (fun _ t => Filled s t i e w s.board.fifoCapacity) (OtherFault F s) True (seFill i s) := by
  have hread : ∀ {k d t}, FillAt s i e w k d t → ∃ e' q l, (t.slot i).eng = some e' ∧ e'.core = .serial q l ∧
      decide (q.sphase = .done) = d ∧ e'.unit = e.unit ∧ (t.su e.unit).view = { w with queued := k } := by
    intro k d t hI
    obtain ⟨e', q, l, he, hc, hview, hunit⟩ := serial_of_view hI.here hk ((hI.periph i).trans hp)
    have hu : e'.unit = e.unit := congrArg EngineView.unit hview
    exact ⟨e', q, l, he, hc, (staged_serial hc).symm.trans (congrArg EngineView.staged hview), hu, hu ▸ hunit⟩
  rw [seFill, op_bind_ok (getState_run s)]
  refine fillLoop_fills (next := seNextItem i) (push := fun p => modSu e.unit fun u => u.push p) ?_ ?_ ?_ ?_ _ _ _ s
    le_rfl (fillAt_start hv) (.inr (Nat.lt_succ_of_le (Nat.sub_le _ _)))
  case refine_1 =>
    intro n k d t hI hover
    obtain ⟨e', q, l, he, hc, rfl, hu, hunit⟩ := hread hI
    have hlen : (t.su e.unit).fifo.length = k := congrArg QueueView.queued hunit
    exact seFillLoop_stops n he hc (by simpa [hI.board, hu, hlen] using hover)
  case refine_2 =>
    intro n k t hI hroom
    obtain ⟨e', q, l, he, hc, hd, hu, hunit⟩ := hread hI
    have hlen : (t.su e.unit).fifo.length = k := congrArg QueueView.queued hunit
    rw [seFillLoop_goes n he hc (by simpa [hI.board, hu, hlen] using hroom) (by simpa using hd), hu]
  case refine_3 =>
    rw [show seNextItem i = passLoop (sePass i) 5 from seLoop_eq i 5]
    exact passLoop_stages (sePass_sequences i) (sePass_returns i) 5
  case refine_4 =>
    intro k d t p hI
    obtain ⟨e', q, l, he, hc, hd, hu, hunit⟩ := hread hI
    have hset := ViewStep.setSu (s := t) (hI.board ▸ hb) ((hI.periph i).trans hp) ((t.su e.unit).push p)
    rw [hI.here, serial_push_view, hunit] at hset
    exact ⟨_, modSu_run _ _ _, hI.trans hset⟩

end Sys2Proof.Machine
end

section
/-! SUPPORT. The engines and units keep the invariants of R199, R201, R231 and R233: what each of their operations does
to a slot's view, and that the slot stays in order. -/

namespace Sys2Proof.Machine

variable {α β : Type} {F : Prop}

/-! ## Operations that keep the invariants -/

/-- From an orderly state the operation finishes in one without raising a fault, or raises one that is no Underrun where
`F` holds. -/
def Op.Keeps (F : Prop) (x : Op α) : Prop :=
  ∀ s, s.Orderly F → Ends (fun _ t => t.Orderly F ∧ t.faults = s.faults) (OtherFault F s) True (x s)

theorem Op.Keeps.after {x : Op α} (hx : x.Keeps F) {s t : State} (h : t.Orderly F ∧ t.faults = s.faults) :
    Ends (fun _ u => u.Orderly F ∧ u.faults = s.faults) (OtherFault F s) True (x t) :=
  (hx t h.1).mono (fun _ _ hu => ⟨hu.1, hu.2.trans h.2⟩) (fun _ hu => hu.after h.2) id

theorem Op.Keeps.bind {x : Op α} {f : α → Op β} (hx : x.Keeps F) (hf : ∀ a, (f a).Keeps F) : (x >>= f).Keeps F :=
  fun s h => (hx s h).bind fun a _ ht => (hf a).after ht

theorem Op.Keeps.ite {c : Prop} [Decidable c] {x y : Op α} (hx : x.Keeps F) (hy : y.Keeps F) :
    (if c then x else y).Keeps F := by split <;> assumption

theorem Op.Reads.keeps {x : Op α} (h : x.Reads fun _ => True) : x.Keeps F := fun s hs =>
  (h s).mono (by rintro _ _ rfl; exact ⟨hs, rfl⟩) (fun _ => False.elim) fun _ => trivial

theorem raise_keeps {f : FaultRecord} (hf : ∀ i, f ≠ .underrun i) : (raise f : Op α).Keeps F := fun s _ =>
  .addFault s hf

theorem raiseIf_keeps (c : Bool) {f : FaultRecord} (hf : ∀ i, f ≠ .underrun i) : (raiseIf c f).Keeps F :=
  .ite (raise_keeps hf) (pure_reads ()).keeps

/-- What follows a fault's guard may use that the guard let it pass. -/
theorem raiseIf_ends_keeps (c : Bool) {f : FaultRecord} (hf : ∀ i, f ≠ .underrun i) (s : State) :
    Ends (fun _ t => t = s ∧ c = false) (OtherFault F s) True (raiseIf c f s) := by
  cases c with
  | false => exact ⟨rfl, rfl⟩
  | true => exact .addFault s hf

/-- A write that leaves board, faults and views. -/
theorem modState_keeps {f : State → State}
    (h : ∀ s, (f s).board = s.board ∧ (f s).faults = s.faults ∧ (f s).view = s.view) : (modState f).Keeps F :=
  fun s hs => by
    obtain ⟨hboard, hfaults, hview⟩ := h s
    exact ⟨hs.of_view hboard hview, hfaults⟩

theorem modSlot_keeps (i : Nat) {f : DriverState → DriverState}
    (h : ∀ d, (f d).eng.map Engine.view = d.eng.map Engine.view) : (modSlot i f).Keeps F :=
  modState_keeps fun _ => ⟨rfl, rfl, view_setSlot_same (h _)⟩

theorem modEngine_keeps (i : Nat) {f : Engine → Engine} (h : ∀ e, (f e).view = e.view) : (modEngine i f).Keeps F :=
  modSlot_keeps i fun d => by simp [h, Function.comp_def]

theorem modPu_keeps (u : Nat) {f : PulseUnit → PulseUnit} (h : ∀ p, (f p).view = p.view) : (modPu u f).Keeps F :=
  modState_keeps fun _ => ⟨rfl, rfl, view_setPu_same (h _)⟩

theorem modSu_keeps (u : Nat) {f : SerialUnit → SerialUnit} (h : ∀ p, (f p).view = p.view) : (modSu u f).Keeps F :=
  modState_keeps fun _ => ⟨rfl, rfl, view_setSu_same (h _)⟩

theorem answer_keeps (r : Reply) : (answer r).Keeps F := modState_keeps fun _ => ⟨rfl, rfl, rfl⟩

theorem logDiag_keeps (i : Nat) (d : DiagDetail) : (logDiag i d).Keeps F := modState_keeps fun _ => ⟨rfl, rfl, rfl⟩

theorem drawPeriphInit_keeps (i : Nat) : (drawPeriphInit i).Keeps F := by
  intro s h
  unfold drawPeriphInit
  split <;> exact ⟨h.of_view rfl rfl, rfl⟩

theorem drawPersistLoad_keeps : drawPersistLoad.Keeps F := by
  intro s h
  unfold drawPersistLoad
  split <;> exact ⟨h.of_view rfl rfl, rfl⟩

theorem forEach_keeps {f : Nat → Op Unit} (hf : ∀ i, (f i).Keeps F) : ∀ xs, (forEach f xs).Keeps F
  | [] => (pure_reads ()).keeps
  | i :: rest => (hf i).bind fun _ => forEach_keeps hf rest

/-- A step seen in one slot, in order after it. -/
theorem State.Orderly.keeps_step {s t : State} (h : s.Orderly F) {i : Nat} {v : SlotView} (hst : ViewStep s t i v)
    (hv : v.inOrder F s.board (s.periph i)) : t.Orderly F ∧ t.faults = s.faults := ⟨h.of_step hst hv, hst.faults⟩

/-! ## What the invariant says of an engine -/

/-- An engine that is not transmitting is at rest, its interrupts disabled. -/
theorem EngineView.inOrder.resting {low : Nat} {e : EngineView} {w : QueueView} (h : e.inOrder F low w)
    (hts : e.tstate.transmitting = false) : w.atRest ∧ e.enLow = false ∧ e.enEnd = false := by
  cases hs : e.tstate <;> simp_all [EngineView.inOrder, TState.transmitting]

/-- A unit that is busy or has a request pending is a Draining engine's. -/
theorem EngineView.inOrder.draining {low : Nat} {e : EngineView} {w : QueueView} (h : e.inOrder F low w)
    (hw : ¬w.atRest) : e.tstate = .draining ∧ w.sending ∧ e.enLow = true ∧ e.enEnd = true ∧
      (F → e.staged = false → w.fed low) := by
  unfold EngineView.inOrder at h
  split at h
  · exact absurd h.1 hw
  · exact absurd h.1 hw
  · exact ⟨‹_›, h⟩
  · exact h.elim

/-- The unit of a slot whose engine is not transmitting is at rest. -/
theorem State.Orderly.atRest {s : State} (h : s.Orderly F) {i : Nat} (hts : (s.slot i).transmitting = false) :
    (s.view i).queue.atRest := by
  have hi := h.slots i
  unfold DriverState.transmitting at hts
  cases he : (s.slot i).eng with
  | none => simpa [State.view, SlotView.inOrder, he] using hi
  | some e =>
    obtain ⟨-, hord⟩ := h.engine he
    obtain ⟨hrest, -⟩ := hord.resting (by rw [he] at hts; exact hts)
    exact hrest

/-- The view of a pulse engine's slot. -/
theorem State.Orderly.pulse_view {s : State} {i : Nat} {e : Engine} {q : PulseSeq} {l : Option PulseLatch}
    (h : s.Orderly F) (he : (s.slot i).eng = some e) (hc : e.core = .pulse q l) :
    s.view i = ⟨some e.view, (s.pu e.unit).view⟩ := by
  obtain ⟨hp, -⟩ := h.pulse he hc
  simp [State.view, he, hp, State.queueView]

/-- The view of a serial engine's slot. -/
theorem State.Orderly.serial_view {s : State} {i : Nat} {e : Engine} {q : SerialSeq} {l : Option SerialLatch}
    (h : s.Orderly F) (he : (s.slot i).eng = some e) (hc : e.core = .serial q l) :
    s.view i = ⟨some e.view, (s.su e.unit).view⟩ := by
  obtain ⟨hp, -⟩ := h.serial he hc
  simp [State.view, he, hp, State.queueView]

/-- A pulse engine's slot is in order with a new view of its engine and unit, if these are. -/
theorem inOrder_pulse {b : Board} {p : Periph} {e : EngineView} {w : QueueView} (hk : e.kind = .pulse)
    (hp : p = .pulseUnit e.unit) (h : e.inOrder F b.ringLowThreshold w) : SlotView.inOrder F b p ⟨some e, w⟩ := by
  subst hp
  exact ⟨by rw [hk]; rfl, h⟩

/-- A serial engine's slot is in order with a new view of its engine and unit, if these are. -/
theorem inOrder_serial {b : Board} {p : Periph} {e : EngineView} {w : QueueView} (hk : e.kind = .serial)
    (hp : p = .serialUnit e.unit) (h : e.inOrder F b.fifoLowThreshold w) : SlotView.inOrder F b p ⟨some e, w⟩ := by
  subst hp
  exact ⟨by rw [hk]; rfl, h⟩

/-- A new engine in slot `i` and a new state of the pulse unit it names, seen in slot `i` alone. -/
theorem ViewStep.pulse {s : State} (hb : slotTableOk s.board = true) {i u : Nat} (hp : s.periph i = .pulseUnit u)
    {d : DriverState} {e : EngineView} (hd : d.eng.map Engine.view = some e) (p : PulseUnit) :
    ViewStep s ((s.setSlot i d).setPu u p) i ⟨some e, p.view⟩ := by
  have hst := (ViewStep.setSlot s i d).trans (.setPu (s := s.setSlot i d) hb hp p)
  rwa [view_setSlot, Function.update_self, hd] at hst

/-- A new engine in slot `i` and a new state of the serial unit it names, seen in slot `i` alone. -/
theorem ViewStep.serial {s : State} (hb : slotTableOk s.board = true) {i u : Nat} (hp : s.periph i = .serialUnit u)
    {d : DriverState} {e : EngineView} (hd : d.eng.map Engine.view = some e) (p : SerialUnit) :
    ViewStep s ((s.setSlot i d).setSu u p) i ⟨some e, p.view⟩ := by
  have hst := (ViewStep.setSlot s i d).trans (.setSu (s := s.setSlot i d) hb hp p)
  rwa [view_setSlot, Function.update_self, hd] at hst

/-! ## PE_START_FRAME and SE_START_FRAME (R193, R225) -/

/-- A unit as PU_START and SU_START leave it (R171, R174). -/
def QueueView.started (w : QueueView) : QueueView :=
  if w.queued = 0 then { w with pendEnd := true } else { w with busy := true }

/-- A frame's start on a unit at rest leaves the slot in order: the fill ends Done or with a full queue. -/
theorem inOrder_started {e : EngineView} {w : QueueView} {low cap k : Nat} {d : Bool} (hw : w.atRest)
    (hlow : F → low < cap) (hover : d = true ∨ cap ≤ k) :
    EngineView.inOrder F low { e with tstate := .draining, enLow := true, enEnd := true, staged := d }
      (QueueView.started { w with queued := k }) := by
  obtain ⟨-, hbusy, -, hend⟩ := hw
  have hfed : ∀ w' : QueueView, w'.queued = k → F → d = false → w'.fed low := fun w' hk hF hd => by
    have hfull := hover.resolve_left (by simp [hd])
    exact .inl (by rw [hk]; exact Nat.lt_of_lt_of_le (hlow hF) hfull)
  unfold QueueView.started
  by_cases hk : k = 0
  · simp only [hk, if_true]
    exact ⟨.inr ⟨hbusy, rfl, rfl⟩, rfl, rfl, hfed _ hk.symm⟩
  · simp only [hk, if_false]
    exact ⟨.inl ⟨rfl, hk, hend⟩, rfl, rfl, hfed _ rfl⟩

theorem started_view (p : PulseUnit) : p.started.view = p.view.started := by
  cases hr : p.ring <;> simp [PulseUnit.started, QueueView.started, PulseUnit.view, hr]

/-- An operation on a slot's pulse engine has no step without one. -/
theorem ends_pulse {x : Op α} {s : State} {i : Nat} {f : Engine × PulseSeq × Option PulseLatch → Op α}
    {ok : α → State → Prop} {raised : State → Prop} {stops : Prop} (hx : x = pulseEngineOf i >>= f)
    (h : ∀ e q l, (s.slot i).eng = some e → e.core = .pulse q l → Ends ok raised stops (x s)) :
    Ends ok raised stops (x s) := by
  subst hx
  refine (pulseEngineOf_ends i s).bind ?_
  rintro ⟨e, q, l⟩ s ⟨rfl, he, hc⟩
  have hrun := h e q l he hc
  rwa [op_bind_ok (pulseEngineOf_some he hc)] at hrun

/-- An operation on a slot's serial engine has no step without one. -/
theorem ends_serial {x : Op α} {s : State} {i : Nat} {f : Engine × SerialSeq × Option SerialLatch → Op α}
    {ok : α → State → Prop} {raised : State → Prop} {stops : Prop} (hx : x = serialEngineOf i >>= f)
    (h : ∀ e q l, (s.slot i).eng = some e → e.core = .serial q l → Ends ok raised stops (x s)) :
    Ends ok raised stops (x s) := by
  subst hx
  refine (serialEngineOf_ends i s).bind ?_
  rintro ⟨e, q, l⟩ s ⟨rfl, he, hc⟩
  have hrun := h e q l he hc
  rwa [op_bind_ok (serialEngineOf_some he hc)] at hrun

/-- An engine at a frame's start, its sequencer Done or not. -/
def EngineView.opened (e : EngineView) (d : Bool) : EngineView := { e with tstate := .filling, staged := d }

/-- The unit of an engine at a frame's start. -/
def QueueView.opened (w : QueueView) : QueueView := { w with queued := 0, pendLow := false, pendEnd := false }

theorem QueueView.atRest.opened {w : QueueView} (h : w.atRest) : w.opened.atRest := by
  obtain ⟨-, hbusy, -⟩ := h
  exact ⟨rfl, hbusy, rfl, rfl⟩

theorem frameOpened_step {s : State} (hb : slotTableOk s.board = true) {i : Nat} {e : Engine} {q : PulseSeq}
    {l : Option PulseLatch} (hc : e.core = .pulse q l) (hp : s.periph i = .pulseUnit e.unit) :
    ViewStep s (s.frameOpened i e l) i ⟨some (e.view.opened false), (s.pu e.unit).view.opened⟩ :=
  .pulse hb hp (by simp [Engine.view, EngineView.opened, Engine.filling, Engine.staged, pulseSeqStart, Engine.kind, hc])
    _

/-- PE_START_FRAME on an engine that is not transmitting (R193). -/
theorem peStartFrame_ends {s : State} {i : Nat} (h : s.Orderly F) (hts : (s.slot i).transmitting = false) :
    Ends (fun _ t => t.Orderly F ∧ t.faults = s.faults) (OtherFault F s) True (peStartFrame i s) := by
  refine ends_pulse rfl fun e q l he hc => ?_
  obtain ⟨hp, -⟩ := h.pulse he hc
  have hrest := h.atRest hts
  rw [h.pulse_view he hc] at hrest
  have hopen := frameOpened_step h.units hc hp
  rw [peStartFrame_eq he hc]
  refine ((peFill_fills (hopen.board ▸ h.units) hopen.here (kind_pulse hc) ((hopen.periph i).trans hp)).mono
    (fun _ _ => id) (fun _ hf => hf.after hopen.faults) id).bind ?_
  rintro _ t ⟨k, d, -, hfill, hover⟩
  have hfill := hopen.trans hfill
  have hpt := (hfill.periph i).trans hp
  obtain ⟨e', q', l', he', hc', hview, hunit⟩ := pulse_of_view hfill.here (kind_pulse hc) hpt
  have hu : e'.unit = e.unit := congrArg EngineView.unit hview
  rw [finishStart_run he']
  have hlast := hfill.trans (.pulse (hfill.board ▸ h.units) hpt (d := { t.slot i with eng := some e'.draining }) rfl
    (t.pu e.unit).started)
  rw [started_view, ← hu, hunit] at hlast
  rw [← hu]
  refine h.keeps_step hlast (inOrder_pulse (kind_pulse hc') (hp.trans (hu ▸ rfl)) ?_)
  have hord := inOrder_started (e := e'.view) hrest.opened (fun hF => (h.timely hF).ringCapacity) hover
  rw [← show e'.view.staged = d from congrArg EngineView.staged hview] at hord
  exact hord

/-- The state in which SE_START_FRAME fills the FIFO: the frame counted and stamped, the sequencer at its start, the
FIFO empty and no request pending. -/
def State.serialOpened (s : State) (i : Nat) (e : Engine) (l : Option SerialLatch) : State :=
  (s.setSlot i
    { s.slot i with
      frameCount := countUp (s.slot i).frameCount
      eng := some { e.filling s.now with core := .serial serialSeqStart l } }).setSu e.unit
    { s.su e.unit with pendLow := false, pendEnd := false, fifo := [] }

/-- SE_START_FRAME after its fill: the engine Draining, the unit started. -/
def finishSerialStart (i u : Nat) : Op Unit := do
  modEngine i Engine.draining
  suStart u

theorem seStartFrame_eq {s : State} {i : Nat} {e : Engine} {q : SerialSeq} {l : Option SerialLatch}
    (he : (s.slot i).eng = some e) (hc : e.core = .serial q l) :
    seStartFrame i s = (do seFill i; finishSerialStart i e.unit) (s.serialOpened i e l) := by
  have hseq : (e.filling s.now).withSerialSeq serialSeqStart =
      { e.filling s.now with core := .serial serialSeqStart l } := by
    simp [Engine.withSerialSeq, Engine.filling, hc]
  refine (op_bind_ok (serialEngineOf_some he hc)).trans ((op_bind_ok (modState_run _ s)).trans
    ((op_bind_ok (modSu_run _ _ _)).trans (congrArg (fun u => (do seFill i; finishSerialStart i e.unit) u) ?_)))
  rw [mapEng_some he, hseq]
  rfl

/-- A serial unit after SU_START (R174). -/
def SerialUnit.started (p : SerialUnit) : SerialUnit :=
  if p.fifo.isEmpty then { p with pendEnd := true } else { p with busy := true }

theorem finishSerialStart_run {s : State} {i : Nat} {e : Engine} (he : (s.slot i).eng = some e) (u : Nat) :
    finishSerialStart i u s = .ok () ((s.withEng i e.draining).setSu u (s.su u).started) :=
  (op_bind_ok (modEngine_withEng he _)).trans (modSu_run _ _ _)

theorem serial_started_view (p : SerialUnit) : p.started.view = p.view.started := by
  cases hr : p.fifo <;> simp [SerialUnit.started, QueueView.started, SerialUnit.view, hr]

theorem serialOpened_step {s : State} (hb : slotTableOk s.board = true) {i : Nat} {e : Engine} {q : SerialSeq}
    {l : Option SerialLatch} (hc : e.core = .serial q l) (hp : s.periph i = .serialUnit e.unit) :
    ViewStep s (s.serialOpened i e l) i ⟨some (e.view.opened false), (s.su e.unit).view.opened⟩ :=
  .serial hb hp
    (by simp [Engine.view, EngineView.opened, Engine.filling, Engine.staged, serialSeqStart, Engine.kind, hc]) _

/-- SE_START_FRAME on an engine that is not transmitting (R225). -/
theorem seStartFrame_ends {s : State} {i : Nat} (h : s.Orderly F) (hts : (s.slot i).transmitting = false) :
    Ends (fun _ t => t.Orderly F ∧ t.faults = s.faults) (OtherFault F s) True (seStartFrame i s) := by
  refine ends_serial rfl fun e q l he hc => ?_
  obtain ⟨hp, -⟩ := h.serial he hc
  have hrest := h.atRest hts
  rw [h.serial_view he hc] at hrest
  have hopen := serialOpened_step h.units hc hp
  rw [seStartFrame_eq he hc]
  refine ((seFill_fills (hopen.board ▸ h.units) hopen.here (kind_serial hc) ((hopen.periph i).trans hp)).mono
    (fun _ _ => id) (fun _ hf => hf.after hopen.faults) id).bind ?_
  rintro _ t ⟨k, d, -, hfill, hover⟩
  have hfill := hopen.trans hfill
  have hpt := (hfill.periph i).trans hp
  obtain ⟨e', q', l', he', hc', hview, hunit⟩ := serial_of_view hfill.here (kind_serial hc) hpt
  have hu : e'.unit = e.unit := congrArg EngineView.unit hview
  rw [finishSerialStart_run he']
  have hlast := hfill.trans (.serial (hfill.board ▸ h.units) hpt (d := { t.slot i with eng := some e'.draining }) rfl
    (t.su e.unit).started)
  rw [serial_started_view, ← hu, hunit] at hlast
  rw [← hu]
  refine h.keeps_step hlast (inOrder_serial (kind_serial hc') (hp.trans (hu ▸ rfl)) ?_)
  have hord := inOrder_started (e := e'.view) hrest.opened (fun hF => (h.timely hF).fifoCapacity) hover
  rw [← show e'.view.staged = d from congrArg EngineView.staged hview] at hord
  exact hord

theorem startFrame_ends {s : State} {i : Nat} (h : s.Orderly F) (hts : (s.slot i).transmitting = false) :
    Ends (fun _ t => t.Orderly F ∧ t.faults = s.faults) (OtherFault F s) True (startFrame i s) := by
  rw [startFrame, op_bind_ok (getState_run s)]
  cases engineKindOf (s.slot i).variant with
  | none => exact ⟨h, rfl⟩
  | some k =>
    cases k with
    | pulse => exact peStartFrame_ends h hts
    | serial => exact seStartFrame_ends h hts

/-! ## PU_EMIT and SU_SHIFT (R172, R175) -/

/-- A unit after its queue's head was popped. -/
def QueueView.popped (w : QueueView) (low : Nat) : QueueView :=
  { queued := w.queued - 1
    busy := decide (w.queued ≠ 1) && w.busy
    pendLow := w.pendLow || decide (w.queued - 1 ≤ low)
    pendEnd := w.pendEnd || decide (w.queued = 1) }

theorem emit_view {p : PulseUnit} {d : PulseDescriptor} {rest : List PulseDescriptor} (h : p.ring = d :: rest)
    (low : Nat) : (p.emit low d rest).view = p.view.popped low := by
  cases rest <;> simp [PulseUnit.emit, PulseUnit.view, QueueView.popped, h]

theorem shift_view {p : SerialUnit} {x : Byte} {rest : List Byte} (h : p.fifo = x :: rest) (low : Nat) :
    (p.shift low x rest).view = p.view.popped low := by
  cases rest <;> simp [SerialUnit.shift, SerialUnit.view, QueueView.popped, h]

/-- A busy unit that pops an item stays in order with its engine; where `F` holds LOW was not pending, as the unit is
not held. -/
theorem EngineView.inOrder.popped {low : Nat} {e : EngineView} {w : QueueView} (h : e.inOrder F low w)
    (hbusy : w.busy = true) (hlow : F → 1 ≤ low ∧ (w.pendLow && e.enLow) = false) : e.inOrder F low (w.popped low) := by
  obtain ⟨hts, hsend, henLow, henEnd, hfed⟩ := h.draining (fun hrest => by simp [hrest.2.1] at hbusy)
  obtain ⟨-, hne, hend⟩ := hsend.resolve_right (by simp [hbusy])
  have hsends : (w.popped low).sending := by
    by_cases hone : w.queued = 1
    · exact .inr ⟨by simp [QueueView.popped, hone], by simp [QueueView.popped, hone], by simp [QueueView.popped, hone]⟩
    · refine .inl ⟨by simp [QueueView.popped, hone, hbusy], ?_, by simp [QueueView.popped, hone, hend]⟩
      show w.queued - 1 ≠ 0
      omega
  have hfeds : F → e.staged = false → (w.popped low).fed low := fun hF hst => by
    obtain ⟨hle, hnot⟩ := hlow hF
    have hpend : w.pendLow = false := by simpa [henLow] using hnot
    have habove : low < w.queued := (hfed hF hst).resolve_right (by simp [hpend])
    by_cases hstill : low < w.queued - 1
    · exact .inl hstill
    · refine .inr ⟨by simp [QueueView.popped, Nat.le_of_not_lt hstill], ?_⟩
      show w.queued - 1 ≠ 0
      omega
  unfold EngineView.inOrder
  rw [hts]
  exact ⟨hsends, henLow, henEnd, hfeds⟩

/-- A unit that is not held has no request pending, with a timely ISR (R176). -/
theorem pendLow_of_not_held {s : State} {e : Engine} {w : QueueView} (htimely : s.board.assumeTimelyIsr = true)
    (hreq : s.irqRequested e = irqRequest w.pendLow w.pendEnd e) (hheld : s.held e = false) :
    (w.pendLow && e.enLow) = false := by
  rw [State.held, htimely, Bool.true_and, hreq, irqRequest, Bool.or_eq_false_iff] at hheld
  obtain ⟨hlow, -⟩ := hheld
  exact hlow

theorem guardStep_ends {raised : State → Prop} {stops : Prop} (c : Bool) (m : String) (s : State) :
    Ends (fun _ t => t = s ∧ c = true) raised stops (guardStep c m s) := by
  cases c with
  | false => trivial
  | true => exact ⟨rfl, rfl⟩

theorem puEmit_eq {s : State} {i : Nat} {e : Engine} {q : PulseSeq} {l : Option PulseLatch}
    (he : (s.slot i).eng = some e) (hc : e.core = .pulse q l) :
    puEmit i s = (do guardStep ((s.pu e.unit).busy && !s.held e) "PU_EMIT"; popDescriptor s e) s :=
  (op_bind_ok (pulseEngineOf_some he hc)).trans (op_bind_ok (getState_run s))

theorem suShift_eq {s : State} {i : Nat} {e : Engine} {q : SerialSeq} {l : Option SerialLatch}
    (he : (s.slot i).eng = some e) (hc : e.core = .serial q l) :
    suShift i s = (do guardStep ((s.su e.unit).busy && !s.held e) "SU_SHIFT"; popByte s e) s :=
  (op_bind_ok (serialEngineOf_some he hc)).trans (op_bind_ok (getState_run s))

theorem puEmit_keeps (i : Nat) : (puEmit i).Keeps F := by
  intro s h
  refine ends_pulse rfl fun e q l he hc => ?_
  obtain ⟨hp, hord⟩ := h.pulse he hc
  rw [puEmit_eq he hc]
  refine (guardStep_ends _ _ s).bind ?_
  rintro _ s ⟨rfl, hguard⟩
  obtain ⟨hbusy, hheld⟩ := Bool.and_eq_true_iff.mp hguard
  cases hr : (s.pu e.unit).ring with
  | nil => rw [popDescriptor_nil hr]; trivial
  | cons d rest =>
    rw [popDescriptor_cons hr]
    have hst := ViewStep.setPu h.units hp ((s.pu e.unit).emit s.board.ringLowThreshold d rest)
    rw [h.pulse_view he hc, emit_view hr] at hst
    refine h.keeps_step hst (inOrder_pulse (kind_pulse hc) hp (hord.popped hbusy fun hF => ?_))
    exact ⟨(h.timely hF).ringLow,
      pendLow_of_not_held (h.timely hF).isr (irqRequested_pulse hc) (Bool.eq_false_of_not_eq_true' hheld)⟩

theorem suShift_keeps (i : Nat) : (suShift i).Keeps F := by
  intro s h
  refine ends_serial rfl fun e q l he hc => ?_
  obtain ⟨hp, hord⟩ := h.serial he hc
  rw [suShift_eq he hc]
  refine (guardStep_ends _ _ s).bind ?_
  rintro _ s ⟨rfl, hguard⟩
  obtain ⟨hbusy, hheld⟩ := Bool.and_eq_true_iff.mp hguard
  cases hr : (s.su e.unit).fifo with
  | nil => rw [popByte_nil hr]; trivial
  | cons x rest =>
    rw [popByte_cons hr]
    have hst := ViewStep.setSu h.units hp ((s.su e.unit).shift s.board.fifoLowThreshold x rest)
    rw [h.serial_view he hc, shift_view hr] at hst
    refine h.keeps_step hst (inOrder_serial (kind_serial hc) hp (hord.popped hbusy fun hF => ?_))
    exact ⟨(h.timely hF).fifoLow,
      pendLow_of_not_held (h.timely hF).isr (irqRequested_serial hc) (Bool.eq_false_of_not_eq_true' hheld)⟩

/-! ## PE_ISR and SE_ISR (R196, R228) -/

/-- END is served on a Draining engine whose unit ran empty; where `F` holds its sequencer is Done. -/
theorem EngineView.inOrder.atEnd {low : Nat} {e : EngineView} {w : QueueView} (h : e.inOrder F low w)
    (hend : w.pendEnd = true) : w.busy = false ∧ w.queued = 0 ∧ (F → e.staged = true) := by
  obtain ⟨-, hsend, -, -, hfed⟩ := h.draining (fun hrest => by simp [hrest.2.2.2] at hend)
  obtain ⟨hbusy, hempty, -⟩ := hsend.resolve_left (by simp [hend])
  refine ⟨hbusy, hempty, fun hF => ?_⟩
  by_contra hst
  have := hfed hF (Bool.eq_false_iff.mpr hst)
  simp [QueueView.fed, hempty] at this

/-- LOW is served on a Draining engine: the refill leaves it in order, its queue not shorter than it was. -/
theorem EngineView.inOrder.refilled {low cap k : Nat} {d : Bool} {e : EngineView} {w : QueueView}
    (h : e.inOrder F low w) (hend : w.pendEnd = false) (hpend : w.pendLow = true) (hk : w.queued ≤ k)
    (hlow : F → low < cap) (hover : d = true ∨ cap ≤ k) :
    EngineView.inOrder F low { e with staged := d } { w with pendLow := false, queued := k } := by
  obtain ⟨hts, hsend, henLow, henEnd, -⟩ := h.draining (fun hrest => by simp [hrest.2.2.1] at hpend)
  obtain ⟨hbusy, hne, -⟩ := hsend.resolve_right (by simp [hend])
  unfold EngineView.inOrder
  rw [hts]
  refine ⟨.inl ⟨hbusy, ?_, hend⟩, henLow, henEnd, fun hF hd => .inl (Nat.lt_of_lt_of_le (hlow hF)
    (hover.resolve_left ?_))⟩
  · show k ≠ 0
    omega
  · simpa using hd

/-- Without a request the pulse handler does nothing (R196). -/
theorem peIsr_none {s : State} {i : Nat} {e : Engine} {q : PulseSeq} {l : Option PulseLatch}
    (he : (s.slot i).eng = some e) (hc : e.core = .pulse q l) (hend : ((s.pu e.unit).pendEnd && e.enEnd) = false)
    (hlow : ((s.pu e.unit).pendLow && e.enLow) = false) : peIsr i s = .ok () s := by
  simp only [peIsr, op_bind, pulseEngineOf_some he hc, getState_run, hend, hlow, Bool.false_eq_true, if_false, op_pure]

theorem peIsr_keeps (i : Nat) : (peIsr i).Keeps F := by
  intro s h
  refine ends_pulse rfl fun e q l he hc => ?_
  obtain ⟨hp, hord⟩ := h.pulse he hc
  have hview := h.pulse_view he hc
  cases hend : ((s.pu e.unit).pendEnd && e.enEnd) with
  | true =>
    obtain ⟨hpend, hen⟩ := Bool.and_eq_true_iff.mp hend
    obtain ⟨hbusy, hempty, hstaged⟩ := hord.atEnd hpend
    by_cases hdone : q.phase = .done
    · rw [peIsr_complete he hc hpend hen hdone]
      have hst : ViewStep s _ i _ := ViewStep.pulse h.units hp (d := { s.slot i with eng := some e.ended }) rfl
        { s.pu e.unit with pendEnd := false, pendLow := false }
      exact h.keeps_step hst (inOrder_pulse (kind_pulse hc) hp ⟨⟨hempty, hbusy, rfl, rfl⟩, rfl, rfl⟩)
    · rw [peIsr_underrun he hc hpend hen hdone]
      refine ⟨addFault_ne_nil _ _, fun hF => absurd (hstaged hF) ?_⟩
      show ¬e.staged = true
      rw [staged_pulse hc]
      simpa using hdone
  | false =>
    cases hlow : ((s.pu e.unit).pendLow && e.enLow) with
    | false =>
      rw [peIsr_none he hc hend hlow]
      exact ⟨h, rfl⟩
    | true =>
      obtain ⟨hpend, hen⟩ := Bool.and_eq_true_iff.mp hlow
      obtain ⟨hts, hsend, -, henEnd, -⟩ := hord.draining fun hrest => by
        simp [PulseUnit.view, QueueView.atRest, hpend] at hrest
      have hquiet : (s.pu e.unit).pendEnd = false := (Bool.and_eq_false_iff.mp hend).resolve_right (by
        rw [show e.enEnd = true from henEnd]; simp)
      rw [peIsr_low he hc (.inl hquiet) hpend hen, if_pos (show e.tstate = .draining from hts)]
      have hst := ViewStep.setPu h.units hp { s.pu e.unit with pendLow := false }
      rw [hview] at hst
      refine (peFill_fills (F := F) (hst.board ▸ h.units) hst.here (kind_pulse hc) hp).mono ?_
        (fun _ hf => hf.after hst.faults) id
      rintro _ t ⟨k, d, hk, hfill, hover⟩
      exact h.keeps_step (hst.trans hfill) (inOrder_pulse (kind_pulse hc) hp
        (hord.refilled hquiet hpend hk (fun hF => (h.timely hF).ringCapacity) hover))

section serialHandler

variable {s : State} {i : Nat} {e : Engine} {q : SerialSeq} {l : Option SerialLatch}

/-- END on a Done sequencer: the frame is complete (R228). -/
theorem seIsr_complete (he : (s.slot i).eng = some e) (hc : e.core = .serial q l)
    (hend : (s.su e.unit).pendEnd = true) (hen : e.enEnd = true) (hdone : q.sphase = .done) :
    seIsr i s = .ok () ((s.setSu e.unit { s.su e.unit with pendEnd := false, pendLow := false }).withEng i e.ended) := by
  have hrun := modEngine_withEng (s := s.setSu e.unit { s.su e.unit with pendEnd := false, pendLow := false })
    (i := i) he Engine.ended
  simpa only [seIsr, op_bind, serialEngineOf_some he hc, getState_run, hend, hen, Bool.and_true, if_true, modSu_run,
    hdone] using hrun

/-- END before the frame is staged raises Underrun (R228). -/
theorem seIsr_underrun (he : (s.slot i).eng = some e) (hc : e.core = .serial q l)
    (hend : (s.su e.unit).pendEnd = true) (hen : e.enEnd = true) (hdone : q.sphase ≠ .done) :
    ∃ u : State, seIsr i s = .error .raised (u.addFault (.underrun i)) := by
  simp only [seIsr, op_bind, serialEngineOf_some he hc, getState_run, hend, hen, Bool.and_true, if_true, modSu_run,
    hdone, if_false, modSlot_run, raise_run]
  exact ⟨_, rfl⟩

/-- LOW without END: LOW is cleared and a Draining engine's FIFO refilled (R228). -/
theorem seIsr_low (he : (s.slot i).eng = some e) (hc : e.core = .serial q l)
    (hend : (s.su e.unit).pendEnd = false ∨ e.enEnd = false) (hlow : (s.su e.unit).pendLow = true)
    (hen : e.enLow = true) :
    seIsr i s = (if e.tstate = .draining then seFill i else pure ())
      (s.setSu e.unit { s.su e.unit with pendLow := false }) := by
  have hend' : ((s.su e.unit).pendEnd && e.enEnd) = false := Bool.and_eq_false_iff.mpr hend
  simp only [seIsr, op_bind, serialEngineOf_some he hc, getState_run, hend', hlow, hen, Bool.and_true, if_true,
    Bool.false_eq_true, if_false, modSu_run]

/-- Without a request the serial handler does nothing (R228). -/
theorem seIsr_none (he : (s.slot i).eng = some e) (hc : e.core = .serial q l)
    (hend : ((s.su e.unit).pendEnd && e.enEnd) = false) (hlow : ((s.su e.unit).pendLow && e.enLow) = false) :
    seIsr i s = .ok () s := by
  simp only [seIsr, op_bind, serialEngineOf_some he hc, getState_run, hend, hlow, Bool.false_eq_true, if_false, op_pure]

end serialHandler

theorem seIsr_keeps (i : Nat) : (seIsr i).Keeps F := by
  intro s h
  refine ends_serial rfl fun e q l he hc => ?_
  obtain ⟨hp, hord⟩ := h.serial he hc
  have hview := h.serial_view he hc
  cases hend : ((s.su e.unit).pendEnd && e.enEnd) with
  | true =>
    obtain ⟨hpend, hen⟩ := Bool.and_eq_true_iff.mp hend
    obtain ⟨hbusy, hempty, hstaged⟩ := hord.atEnd hpend
    by_cases hdone : q.sphase = .done
    · rw [seIsr_complete he hc hpend hen hdone]
      have hst : ViewStep s _ i _ := ViewStep.serial h.units hp (d := { s.slot i with eng := some e.ended }) rfl
        { s.su e.unit with pendEnd := false, pendLow := false }
      exact h.keeps_step hst (inOrder_serial (kind_serial hc) hp ⟨⟨hempty, hbusy, rfl, rfl⟩, rfl, rfl⟩)
    · obtain ⟨u, hrun⟩ := seIsr_underrun he hc hpend hen hdone
      rw [hrun]
      refine ⟨addFault_ne_nil _ _, fun hF => absurd (hstaged hF) ?_⟩
      show ¬e.staged = true
      rw [staged_serial hc]
      simpa using hdone
  | false =>
    cases hlow : ((s.su e.unit).pendLow && e.enLow) with
    | false =>
      rw [seIsr_none he hc hend hlow]
      exact ⟨h, rfl⟩
    | true =>
      obtain ⟨hpend, hen⟩ := Bool.and_eq_true_iff.mp hlow
      obtain ⟨hts, hsend, -, henEnd, -⟩ := hord.draining fun hrest => by
        simp [SerialUnit.view, QueueView.atRest, hpend] at hrest
      have hquiet : (s.su e.unit).pendEnd = false := (Bool.and_eq_false_iff.mp hend).resolve_right (by
        rw [show e.enEnd = true from henEnd]; simp)
      rw [seIsr_low he hc (.inl hquiet) hpend hen, if_pos (show e.tstate = .draining from hts)]
      have hst := ViewStep.setSu h.units hp { s.su e.unit with pendLow := false }
      rw [hview] at hst
      refine (seFill_fills (F := F) (hst.board ▸ h.units) hst.here (kind_serial hc) hp).mono ?_
        (fun _ hf => hf.after hst.faults) id
      rintro _ t ⟨k, d, hk, hfill, hover⟩
      exact h.keeps_step (hst.trans hfill) (inOrder_serial (kind_serial hc) hp
        (hord.refilled hquiet hpend hk (fun hF => (h.timely hF).fifoCapacity) hover))

/-- IRQ_ENTRY runs the handler of the engine's kind (R340). -/
theorem irqEntry_keeps (i : Nat) : (irqEntry i).Keeps F := by
  refine .bind getState_reads.keeps fun s => ?_
  cases (s.slot i).eng with
  | none => exact (disabled_reads _).keeps
  | some e =>
    refine .bind (guardStep_reads _ _).keeps fun _ => ?_
    cases e.kind with
    | pulse => exact peIsr_keeps i
    | serial => exact seIsr_keeps i

/-! ## PE_IDLE and SE_IDLE (R197, R229) -/

/-- An Idle engine is as much in order as a FrameComplete one. -/
theorem expire_ends {s : State} {i : Nat} {e : Engine} (h : s.Orderly F) (he : (s.slot i).eng = some e) (m : String) :
    Ends (fun _ t => t.Orderly F ∧ t.faults = s.faults) (OtherFault F s) True (expire s i e m s) := by
  refine (guardStep_ends _ m s).bind ?_
  rintro _ s ⟨rfl, hguard⟩
  rw [modEngine_withEng he]
  obtain ⟨hts, -⟩ := Bool.and_eq_true_iff.mp hguard
  obtain ⟨hunit, hord⟩ := h.engine he
  obtain ⟨hrest, hlow, hend⟩ := hord.resting (by
    rw [show e.view.tstate = .frameComplete from of_decide_eq_true hts]
    rfl)
  exact h.keeps_step (.setSlot s i { s.slot i with eng := some { e with tstate := .idle } })
    ⟨hunit, hrest, hlow, hend⟩

theorem peIdle_keeps (i : Nat) : (peIdle i).Keeps F := fun s h =>
  ends_pulse rfl fun _ _ _ he hc => by
    rw [peIdle_eq he hc]
    exact expire_ends h he _

theorem seIdle_keeps (i : Nat) : (seIdle i).Keeps F := fun s h =>
  ends_serial rfl fun _ _ _ he hc => by
    rw [seIdle_eq he hc]
    exact expire_ends h he _

/-! ## PE_BEGIN and SE_BEGIN (R192, R224) -/

theorem withPulseLatch_view (e : Engine) (l : PulseLatch) : (e.withPulseLatch l).view = e.view := by
  unfold Engine.withPulseLatch
  split
  · rename_i hc
    simp [Engine.view, Engine.staged, Engine.kind, hc]
  · rfl

theorem withSerialLatch_view (e : Engine) (l : SerialLatch) : (e.withSerialLatch l).view = e.view := by
  unfold Engine.withSerialLatch
  split
  · rename_i hc
    simp [Engine.view, Engine.staged, Engine.kind, hc]
  · rfl

theorem peBegin_keeps (i : Nat) : (peBegin i).Keeps F :=
  .bind (pulseEngineOf_reads i).keeps fun _ => .bind getState_reads.keeps fun s =>
    .bind (raiseIf_keeps _ nofun) fun _ => by
      cases pulseConstantsOf s.board (s.slot i).variant with
      | none => exact (refuse_reads _).keeps
      | some pc =>
        exact .bind (refuseIf_reads _ _).keeps fun _ =>
          .bind (modEngine_keeps i fun e => withPulseLatch_view e _) fun _ => modPu_keeps _ fun _ => rfl

theorem seBegin_keeps (i : Nat) : (seBegin i).Keeps F :=
  .bind (serialEngineOf_reads i).keeps fun _ => .bind getState_reads.keeps fun s =>
    .bind (raiseIf_keeps _ nofun) fun _ => by
      cases serialConstantsOf s.board (s.slot i).variant with
      | none => exact (refuse_reads _).keeps
      | some pc =>
        exact .bind (xlatBuildSerial_reads _ _ _ _).keeps fun _ => .bind (refuseIf_reads _ _).keeps fun _ =>
          .bind (refuseIf_reads _ _).keeps fun _ =>
            .bind (modEngine_keeps i fun e => withSerialLatch_view e _) fun _ => modSu_keeps _ fun _ => rfl

end Sys2Proof.Machine
end

section
/-! SUPPORT. The driver, the manager and the agents' steps keep the invariants of R199, R201, R231 and R233. -/

namespace Sys2Proof.Machine

variable {α : Type} {F : Prop}

/-! ## The driver -/

theorem engineBegin_keeps (i : Nat) : (engineBegin i).Keeps F :=
  .bind getState_reads.keeps fun s => by
    cases engineKindOf (s.slot i).variant with
    | none => exact (pure_reads ()).keeps
    | some k =>
      cases k with
      | pulse => exact peBegin_keeps i
      | serial => exact seBegin_keeps i

theorem unitFor_of_engineFor {v : Variant} {p : Periph} {e : Engine} (h : engineFor v p = some (some e)) :
    ∃ k u, unitFor k p = some u ∧ e = freshEngine k u := by
  unfold engineFor at h
  split at h
  · cases h
  · rename_i k _
    obtain ⟨u, hu, he⟩ := Option.map_eq_some_iff.mp h
    cases he
    exact ⟨k, u, hu, rfl⟩

theorem freshEngine_kind (k : EngineKind) (u : Nat) : (freshEngine k u).kind = k := by cases k <;> rfl

/-- A new driver's slot is in order when its unit is at rest: its engine, if it has one, is Idle and bound to it. -/
theorem inOrder_of_engineFor {b : Board} {v : Variant} {p : Periph} {eng : Option Engine} {w : QueueView}
    (h : engineFor v p = some eng) (hw : w.atRest) : SlotView.inOrder F b p ⟨eng.map Engine.view, w⟩ := by
  cases eng with
  | none => exact hw
  | some e =>
    obtain ⟨k, u, hu, rfl⟩ := unitFor_of_engineFor h
    refine ⟨?_, hw, rfl, rfl⟩
    show unitFor (freshEngine k u).kind p = some u
    rw [freshEngine_kind, hu]

/-- DRV_CONSTRUCT replaces a driver that is not transmitting (R252). -/
theorem drvConstruct_keeps (i : Nat) (v : Variant) : (drvConstruct i v).Keeps F := by
  intro s h
  rw [drvConstruct, op_bind_ok (getState_run s)]
  refine (raiseIf_ends_keeps (f := .destroyWhileDraining i) _ nofun s).bind ?_
  rintro _ s ⟨rfl, hts⟩
  have hrest := h.atRest hts
  refine (refuseIf_ends _ _ s).bind ?_
  rintro _ s ⟨rfl, -⟩
  refine (refuseIf_ends _ _ s).bind ?_
  rintro _ s ⟨rfl, -⟩
  cases heng : engineFor v (s.periph i) with
  | none => trivial
  | some eng =>
    exact h.keeps_step (.setSlot s i (newDriver s.board v s.pauseHeld eng)) (inOrder_of_engineFor heng hrest)

/-- A unit at rest is quiet. -/
theorem QueueView.atRest.eq {w : QueueView} (h : w.atRest) :
    w = { queued := 0, busy := false, pendLow := false, pendEnd := false } := by
  cases w
  obtain ⟨rfl, rfl, rfl, rfl⟩ := h
  rfl

/-- Quieting the unit of an engine that is not transmitting is not seen: it is at rest already. -/
theorem quietUnit_ends {s : State} (h : s.Orderly F) {i : Nat} {e : Engine} (he : (s.slot i).eng = some e)
    (hts : e.tstate.transmitting = false) :
    Ends (fun _ t => t.Orderly F ∧ t.faults = s.faults) (OtherFault F s) True (quietUnit e s) := by
  unfold quietUnit
  cases hc : e.core with
  | pulse q l =>
    obtain ⟨-, hord⟩ := h.pulse he hc
    obtain ⟨hrest, -⟩ := hord.resting hts
    rw [kind_pulse hc]
    exact ⟨h.of_view rfl (view_setPu_same hrest.eq.symm), rfl⟩
  | serial q l =>
    obtain ⟨-, hord⟩ := h.serial he hc
    obtain ⟨hrest, -⟩ := hord.resting hts
    rw [kind_serial hc]
    exact ⟨h.of_view rfl (view_setSu_same hrest.eq.symm), rfl⟩

theorem disabled_eq {e : Engine} (hlow : e.enLow = false) (hend : e.enEnd = false) :
    { e with enLow := false, enEnd := false } = e := by
  cases e
  cases hlow
  cases hend
  rfl

/-- DRV_STOP on an engine that is not transmitting, whose interrupts are disabled already (R253). -/
theorem drvStop_keeps (i : Nat) : (drvStop i).Keeps F := by
  intro s h
  rw [drvStop, op_bind_ok (getState_run s)]
  cases he : (s.slot i).eng with
  | none => exact ⟨h, rfl⟩
  | some e =>
    refine (raiseIf_ends_keeps (f := .destroyWhileDraining i) _ nofun s).bind ?_
    rintro _ s ⟨rfl, hts⟩
    obtain ⟨-, hord⟩ := h.engine he
    obtain ⟨-, hlow, hend⟩ := hord.resting hts
    rw [op_bind_ok (modEngine_withEng he _), disabled_eq hlow hend]
    have hsame : (s.withEng i e).Orderly F := h.of_view rfl (view_setSlot_same (by rw [he]))
    exact quietUnit_ends hsame (congrArg DriverState.eng (withEng_slot_same s i e)) hts

theorem drvBegin_keeps (i : Nat) : (drvBegin i).Keeps F :=
  .bind getState_reads.keeps fun _ => .bind (raiseIf_keeps _ nofun) fun _ =>
    .ite (pure_reads ()).keeps
      (.ite
        (.bind (drawPeriphInit_keeps i) fun _ =>
          .ite (.bind (engineBegin_keeps i) fun _ => modSlot_keeps i fun _ => rfl)
            (.bind (modSlot_keeps i fun _ => rfl) fun _ => logDiag_keeps i _))
        (modSlot_keeps i fun _ => rfl))

theorem drvSetConfig_keeps (i : Nat) (params : ParamObject) : (drvSetConfig i params).Keeps F :=
  .bind getState_reads.keeps fun s => .bind (raiseIf_keeps _ nofun) fun _ =>
    .ite (pure_reads ()).keeps
      (.ite
        (by
          cases mergeDriverCfg (s.slot i).cfg params with
          | none => exact (refuse_reads _).keeps
          | some c =>
            exact .bind (refuseIf_reads _ _).keeps fun _ => .bind (modSlot_keeps i fun _ => rfl) fun _ =>
              .ite (engineBegin_keeps i) (pure_reads ()).keeps)
        (modSlot_keeps i fun _ => rfl))

/-- DRV_RENDER starts a frame only on an engine that is not transmitting (R258). -/
theorem drvRender_keeps (i : Nat) : (drvRender i).Keeps F := by
  intro s h
  rw [drvRender, op_bind_ok (getState_run s)]
  cases he : (s.slot i).eng with
  | none => exact ⟨h, rfl⟩
  | some e =>
    by_cases hready : (s.slot i).status ≠ .ready ∨ (s.slot i).paused = true
    · simp only [if_pos hready]
      exact ⟨h, rfl⟩
    · simp only [if_neg hready]
      by_cases hbusy : (e.tstate.transmitting || !s.frameDue (s.slot i) e) = true
      · simp only [if_pos hbusy]
        exact modSlot_keeps i (f := fun d => { d with droppedCount := countUp d.droppedCount }) (fun _ => rfl) s h
      · simp only [if_neg hbusy]
        obtain ⟨hts, -⟩ := Bool.or_eq_false_iff.mp (Bool.eq_false_iff.mpr hbusy)
        exact startFrame_ends h (by rw [DriverState.transmitting, he]; exact hts)

theorem drvPause_keeps (i : Nat) : (drvPause i).Keeps F := modSlot_keeps i fun _ => rfl

theorem drvResume_keeps (i : Nat) : (drvResume i).Keeps F :=
  .bind getState_reads.keeps fun _ => modSlot_keeps i fun _ => rfl

theorem drvSetBuffer_keeps (i offset length : Nat) : (drvSetBuffer i offset length).Keeps F :=
  .bind getState_reads.keeps fun _ => .bind (raiseIf_keeps _ nofun) fun _ => .bind (refuseIf_reads _ _).keeps fun _ =>
    modSlot_keeps i fun d => by cases h : d.eng <;> rfl

/-! ## The manager -/

theorem mgrResolveEntry_keeps (i : Nat) (doc : ConfigDoc) : (mgrResolveEntry i doc).Keeps F :=
  .bind getState_reads.keeps fun s => by
    cases resolve s i doc with
    | bind v p => exact (pure_reads _).keeps
    | bad r => exact .bind (logDiag_keeps i _) fun _ => (pure_reads _).keeps

theorem applySlot_keeps (doc : ConfigDoc) (i : Nat) : (applySlot doc i).Keeps F :=
  .bind (mgrResolveEntry_keeps i doc) fun _ => .bind getState_reads.keeps fun _ =>
    .ite (drvSetConfig_keeps i _)
      (.bind (drvStop_keeps i) fun _ => .bind (drvConstruct_keeps i _) fun _ =>
        .bind (drvSetConfig_keeps i _) fun _ => drvBegin_keeps i)

theorem mgrApplyConfig_keeps (doc : ConfigDoc) : (mgrApplyConfig doc).Keeps F :=
  .bind getState_reads.keeps fun _ => forEach_keeps (applySlot_keeps doc) _

theorem partitionSlot_keeps (i off : Nat) : (partitionSlot i off).Keeps F :=
  .bind getState_reads.keeps fun _ =>
    have hslice : ∀ n m, (do drvSetBuffer i off n; pure m : Op Nat).Keeps F := fun n _ =>
      .bind (drvSetBuffer_keeps i off n) fun _ => (pure_reads _).keeps
    .ite (.bind (logDiag_keeps i _) fun _ => hslice _ _) (hslice _ _)

theorem partitionFrom_keeps : ∀ (xs : List Nat) (off : Nat), (partitionFrom off xs).Keeps F
  | [], _ => (pure_reads _).keeps
  | i :: rest, off => .bind (partitionSlot_keeps i off) fun next => partitionFrom_keeps rest next

theorem mgrUpdatePartition_keeps : mgrUpdatePartition.Keeps F :=
  .bind getState_reads.keeps fun _ => .bind (partitionFrom_keeps _ 0) fun _ =>
    .bind (modState_keeps fun _ => ⟨rfl, rfl, rfl⟩) fun _ => modState_keeps fun _ => ⟨rfl, rfl, rfl⟩

theorem initSlot_keeps (i : Nat) : (initSlot i).Keeps F := .bind (drvConstruct_keeps i _) fun _ => drvBegin_keeps i

theorem loadDoc_keeps : loadDoc.Keeps F :=
  .bind drawPersistLoad_keeps fun r => .bind getState_reads.keeps fun _ => by
    cases r with
    | some doc => exact (pure_reads doc).keeps
    | none => exact .bind (modState_keeps fun _ => ⟨rfl, rfl, rfl⟩) fun _ => (pure_reads _).keeps

theorem mgrBegin_keeps : mgrBegin.Keeps F :=
  .bind getState_reads.keeps fun _ => .ite (pure_reads ()).keeps
    (.bind (refuseIf_reads _ _).keeps fun _ => .bind (forEach_keeps initSlot_keeps _) fun _ =>
      .bind loadDoc_keeps fun doc => .bind (mgrApplyConfig_keeps doc) fun _ => .bind mgrUpdatePartition_keeps fun _ =>
        modState_keeps fun _ => ⟨rfl, rfl, rfl⟩)

theorem mgrReload_keeps : mgrReload.Keeps F :=
  .bind (modState_keeps fun _ => ⟨rfl, rfl, rfl⟩) fun _ => .bind getState_reads.keeps fun s =>
    .bind (forEach_keeps drvPause_keeps _) fun _ => .ite (pure_reads ()).keeps (by
      cases s.pending with
      | none => exact (disabled_reads _).keeps
      | some doc =>
        exact .bind (mgrApplyConfig_keeps doc) fun _ => .bind mgrUpdatePartition_keeps fun _ =>
          .bind (modState_keeps fun _ => ⟨rfl, rfl, rfl⟩) fun _ => forEach_keeps drvResume_keeps _)

theorem mgrRender_keeps : mgrRender.Keeps F :=
  have hopen : (do
      let t ← getState
      if t.pending ≠ none ∨ t.userPaused = true then pure ()
      else modState fun s => { s with renderPos := some 0 }).Keeps F :=
    .bind getState_reads.keeps fun _ => .ite (pure_reads ()).keeps (modState_keeps fun _ => ⟨rfl, rfl, rfl⟩)
  .bind getState_reads.keeps fun _ => .ite (.bind mgrReload_keeps fun _ => hopen) hopen

theorem renderSubstep_keeps : renderSubstep.Keeps F :=
  .bind getState_reads.keeps fun s => by
    cases s.renderPos with
    | none => exact (disabled_reads _).keeps
    | some i => exact .bind (drvRender_keeps i) fun _ => modState_keeps fun _ => ⟨rfl, rfl, rfl⟩

theorem mgrPause_keeps : mgrPause.Keeps F :=
  .bind (modState_keeps fun _ => ⟨rfl, rfl, rfl⟩) fun _ => .bind getState_reads.keeps fun _ =>
    forEach_keeps drvPause_keeps _

theorem mgrResume_keeps : mgrResume.Keeps F :=
  .bind (modState_keeps fun _ => ⟨rfl, rfl, rfl⟩) fun _ => .bind getState_reads.keeps fun _ =>
    forEach_keeps drvResume_keeps _

/-- HOST_BUF_WRITE writes the buffer, or raises BufferOutOfBounds or BufferWriteDuringFrame (R94). -/
theorem hostBufWrite_keeps (a : Nat) (v : Byte) : (hostBufWrite a v).Keeps F :=
  .bind getState_reads.keeps fun s => .bind (raiseIf_keeps _ nofun) fun _ => by
    cases s.slotIndices.find? (fun i => (s.slot i).ownsDuringFrame a) with
    | none => exact modState_keeps fun _ => ⟨rfl, rfl, rfl⟩
    | some i => exact raise_keeps nofun

/-! ## The agents' steps -/

/-- The checks of an operation the main loop issues (R337, R294). -/
theorem mainLoop_keeps {m : String} {x : Op Unit} (hx : x.Keeps F) : (do admitBegun; admitTurn m; x).Keeps F :=
  .bind admitBegun_reads.keeps fun _ => .bind (admitTurn_reads m).keeps fun _ => hx

/-- What a step from an orderly state `s` leaves: an orderly state unless it left a fault, and where `F` holds no new
Underrun. -/
def Settled (F : Prop) (s t : State) : Prop :=
  (t.faults = [] → t.Orderly F) ∧ (F → ∀ i, FaultRecord.underrun i ∈ t.faults → FaultRecord.underrun i ∈ s.faults)

theorem runStep_settles {x : Op Unit} {s t : State} (h : s.Orderly F) (hrun : runStep s x = .next t)
    (hx : x.Keeps F) : Settled F s t := by
  have hends := hx s h
  rcases runStep_next hrun with hok | hraised | ⟨r, u, -, rfl⟩
  · rw [hok] at hends
    obtain ⟨horderly, hfaults⟩ := hends
    exact ⟨fun _ => horderly, fun _ i hi => hfaults ▸ hi⟩
  · rw [hraised] at hends
    obtain ⟨hne, hother⟩ := hends
    exact ⟨fun hnil => absurd hnil hne, hother⟩
  · exact ⟨fun _ => h.of_view rfl rfl, fun _ i hi => hi⟩

/-- What an agent's instruction runs keeps the invariant. -/
theorem exec_settles {i : Instr} (hi : issuer i ≠ .internal) {s t : State} (h : s.Orderly F)
    (hrun : exec i s = .next t) : Settled F s t := by
  cases i with
  | mgrBegin => exact runStep_settles h hrun (.bind (admitTurn_reads _).keeps fun _ => mgrBegin_keeps)
  | mgrSetConfig doc =>
    exact runStep_settles h hrun (.bind (admitOperands_reads _).keeps fun _ =>
      mainLoop_keeps (modState_keeps fun _ => ⟨rfl, rfl, rfl⟩))
  | mgrGetConfig => exact runStep_settles h hrun (mainLoop_keeps (answer_keeps _))
  | mgrGetStatus => exact runStep_settles h hrun (mainLoop_keeps (answer_keeps _))
  | mgrRender => exact runStep_settles h hrun (mainLoop_keeps mgrRender_keeps)
  | mgrPause => exact runStep_settles h hrun (mainLoop_keeps mgrPause_keeps)
  | mgrResume => exact runStep_settles h hrun (mainLoop_keeps mgrResume_keeps)
  | drvBegin i =>
    exact runStep_settles h hrun (.bind (admitSlot_reads i).keeps fun _ => mainLoop_keeps (drvBegin_keeps i))
  | drvSetConfig i p =>
    exact runStep_settles h hrun (.bind (admitSlot_reads i).keeps fun _ => .bind (admitOperands_reads _).keeps fun _ =>
      mainLoop_keeps (drvSetConfig_keeps i p))
  | drvGetConfig i =>
    exact runStep_settles h hrun (.bind (admitSlot_reads i).keeps fun _ => mainLoop_keeps (answer_keeps _))
  | drvRender i =>
    exact runStep_settles h hrun (.bind (admitSlot_reads i).keeps fun _ => mainLoop_keeps (drvRender_keeps i))
  | drvGetStatus i =>
    exact runStep_settles h hrun (.bind (admitSlot_reads i).keeps fun _ => mainLoop_keeps (answer_keeps _))
  | peIsr i =>
    exact runStep_settles h hrun (.bind (admitSlot_reads i).keeps fun _ => .bind (pulseEngineOf_reads i).keeps fun _ =>
      .bind (guardStep_reads _ _).keeps fun _ => peIsr_keeps i)
  | peIdle i => exact runStep_settles h hrun (.bind (admitSlot_reads i).keeps fun _ => peIdle_keeps i)
  | seIsr i =>
    exact runStep_settles h hrun (.bind (admitSlot_reads i).keeps fun _ => .bind (serialEngineOf_reads i).keeps fun _ =>
      .bind (guardStep_reads _ _).keeps fun _ => seIsr_keeps i)
  | seIdle i => exact runStep_settles h hrun (.bind (admitSlot_reads i).keeps fun _ => seIdle_keeps i)
  | puEmit i => exact runStep_settles h hrun (.bind (admitSlot_reads i).keeps fun _ => puEmit_keeps i)
  | suShift i => exact runStep_settles h hrun (.bind (admitSlot_reads i).keeps fun _ => suShift_keeps i)
  | timerTick n =>
    exact runStep_settles h hrun (.bind (admitOperands_reads _).keeps fun _ => modState_keeps fun _ => ⟨rfl, rfl, rfl⟩)
  | irqEntry i => exact runStep_settles h hrun (.bind (admitSlot_reads i).keeps fun _ => irqEntry_keeps i)
  | hostBufWrite a v => exact runStep_settles h hrun (hostBufWrite_keeps a v)
  | _ => exact absurd rfl hi

/-- What an agent's step leaves (R13). -/
theorem agentStep_settles {s t : State} (h : s.Orderly F) (hstep : agentStep s t) : Settled F s t := by
  rcases hstep with ⟨i, hi, hrun⟩ | hrun
  · exact exec_settles hi h hrun
  · exact runStep_settles h hrun renderSubstep_keeps

/-- Settles O54: the invariant holds slot by slot, and every operation keeps each slot in order. -/
theorem agentStepsKeepQuiescence : Obligations.AgentStepsKeepQuiescence := by
  intro s t hb hbound hq hstep hnil
  have h : s.Orderly False := orderly_of_quiescent hb hbound hq False.elim False.elim
  obtain ⟨horderly, -⟩ := agentStep_settles h hstep
  exact (horderly hnil).quiescent

/-- Settles O55: a unit's queue stays above its low threshold until LOW holds the unit, and a refill fills the queue or
finds the frame staged, so END meets a Done sequencer. -/
theorem timelyIsrNeverUnderruns : Obligations.TimelyIsrNeverUnderruns := by
  intro s t hisr hring hringCap hfifo hfifoCap hb hbound hq hfed hstep
  have h : s.Orderly True := orderly_of_quiescent hb hbound hq (fun _ => ⟨hisr, hring, hringCap, hfifo, hfifoCap⟩)
    fun _ => hfed
  obtain ⟨horderly, hunderrun⟩ := agentStep_settles h hstep
  exact ⟨hunderrun trivial, fun hnil => (horderly hnil).isFed trivial⟩

end Sys2Proof.Machine
end

section
/-! SUPPORT. The serial engine's bytes (R226, R230): R230's list in closed form, and that SE_NEXT_ITEM gives the bytes a
sequencer has left one by one, whatever passes its loop makes before it returns. -/

namespace Sys2Proof.Machine

/-! ## The contents of a frame (R230) -/

section contents

variable {l : SerialLatch}

theorem translate_eq (l : SerialLatch) (xs : List Byte) : translate l xs = xs.flatMap fun b => groupItems l b 0 := by
  simp only [translate, groupItems_zero]

theorem translate_append (l : SerialLatch) (xs ys : List Byte) :
    translate l (xs ++ ys) = translate l xs ++ translate l ys := List.flatMap_append

theorem translate_length (l : SerialLatch) (xs : List Byte) : (translate l xs).length = 8 / l.G * xs.length := by
  simp [translate, groups, Nat.mul_comm]

theorem serialItemsLeft_start (l : SerialLatch) (bs : List Byte) :
    serialItemsLeft l serialSeqStart 0 bs = translate l (l.FP ++ nextPixel l 0 bs) := (translate_eq l _).symm

/-- A cursor less than a pixel before the pixel's end is not at its last byte. -/
theorem not_pixelEnd {C k m : Nat} (hend : C ∣ k + (m + 2)) (hm : m + 2 ≤ C) : (k + 1) % C ≠ 0 := fun h => by
  have hdvd : C ∣ m + 1 := (Nat.dvd_add_right (Nat.dvd_of_mod_eq_zero h)).mp (by rwa [Nat.add_assoc, Nat.add_comm 1])
  exact absurd (Nat.le_of_dvd (Nat.succ_pos m) hdvd) (by omega)

/-- From a cursor `m + 1` bytes before its pixel's end: the pixel's other bytes, as many as there are, PS, and what
follows. -/
theorem pixelBytes_eq (k m : Nat) {rest : List Byte} (hrest : rest ≠ []) (hend : l.C ∣ k + (m + 1))
    (hm : m + 1 ≤ l.C) :
    pixelBytes l k rest = rest.take (m + 1) ++ l.PS ++ nextPixel l (k + (m + 1)) (rest.drop (m + 1)) := by
  induction rest generalizing k m with
  | nil => exact absurd rfl hrest
  | cons b rest ih =>
    cases rest with
    | nil => simp [pixelBytes, nextPixel]
    | cons b' rest =>
      cases m with
      | zero => simp [pixelBytes, nextPixel, Nat.mod_eq_zero_of_dvd hend]
      | succ m =>
        have hsum : k + 1 + (m + 1) = k + (m + 2) := by omega
        rw [pixelBytes, ih (k + 1) m (by simp) (hsum ▸ hend) (by omega), hsum]
        simp [not_pixelEnd hend hm]

/-- A pixel's start with data left: PP, the pixel's bytes, as many as there are, and PS. -/
theorem nextPixel_eq (hC : 1 ≤ l.C) {k : Nat} (hk : l.C ∣ k) {rest : List Byte} (hrest : rest ≠ []) :
    nextPixel l k rest = l.PP ++ rest.take l.C ++ l.PS ++ nextPixel l (k + l.C) (rest.drop l.C) := by
  have hm : l.C - 1 + 1 = l.C := Nat.sub_add_cancel hC
  have hpixel := pixelBytes_eq (l := l) k (l.C - 1) hrest (by rw [hm]; exact Nat.dvd_add_self_right.mpr hk) hm.le
  rw [hm] at hpixel
  rw [nextPixel, if_neg (by simpa using hrest), hpixel]
  simp

theorem nextPixel_nil (l : SerialLatch) (k : Nat) : nextPixel l k [] = l.FS := rfl

theorem pixelCountOf_zero (hC : 1 ≤ l.C) : pixelCountOf l 0 = 0 := Nat.div_eq_of_lt (by omega)

/-- A slice with a byte has a pixel more than the slice without its first pixel. -/
theorem pixelCountOf_eq (hC : 1 ≤ l.C) {L : Nat} (hL : 0 < L) : pixelCountOf l L = pixelCountOf l (L - l.C) + 1 := by
  have hsum : L + l.C - 1 = L - 1 + l.C := by omega
  rw [pixelCountOf, hsum, Nat.add_div_right _ hC, pixelCountOf]
  obtain hlt | hle := Nat.lt_or_ge L l.C
  · rw [Nat.div_eq_of_lt (by omega), Nat.div_eq_of_lt (by omega)]
  · rw [show L - l.C + l.C - 1 = L - 1 by omega]

/-- Induction over a slice cut into pixels. -/
theorem pixel_induction (hC : 1 ≤ l.C) {motive : Nat → List Byte → Prop} (nil : ∀ k, motive k [])
    (pixel : ∀ k rest, rest ≠ [] → motive (k + l.C) (rest.drop l.C) → motive k rest) (k : Nat) (rest : List Byte) :
    motive k rest := by
  by_cases hrest : rest = []
  · exact hrest ▸ nil k
  · have hlen := List.length_pos_iff.mpr hrest
    exact pixel k rest hrest (pixel_induction hC nil pixel _ _)
termination_by rest.length
decreasing_by simp; omega

/-- From a pixel's start the bytes are those of the pixels, in the index form of R230, and FS. -/
theorem translate_nextPixel (hC : 1 ≤ l.C) (k : Nat) (rest : List Byte) (hk : l.C ∣ k) :
    translate l (nextPixel l k rest) =
      ((List.range (pixelCountOf l rest.length)).flatMap fun j =>
        translate l l.PP ++ translate l ((rest.drop (j * l.C)).take l.C) ++ translate l l.PS) ++ translate l l.FS := by
  induction k, rest using pixel_induction hC with
  | nil k => simp [nextPixel_nil, pixelCountOf_zero hC]
  | pixel k rest hrest ih =>
    have ih := ih (Nat.dvd_add_self_right.mpr hk)
    rw [List.length_drop] at ih
    rw [nextPixel_eq hC hk hrest, pixelCountOf_eq hC (List.length_pos_iff.mpr hrest), translate_append, ih,
      List.range_succ_eq_map, List.flatMap_cons, List.flatMap_map]
    simp [translate_append, Nat.add_mul, Nat.add_comm]

theorem nextPixel_length (hC : 1 ≤ l.C) (k : Nat) (rest : List Byte) (hk : l.C ∣ k) :
    (nextPixel l k rest).length =
      pixelCountOf l rest.length * (l.PP.length + l.PS.length) + rest.length + l.FS.length := by
  induction k, rest using pixel_induction hC with
  | nil k => simp [nextPixel_nil, pixelCountOf_zero hC]
  | pixel k rest hrest ih =>
    have ih := ih (Nat.dvd_add_self_right.mpr hk)
    rw [List.length_drop] at ih
    rw [nextPixel_eq hC hk hrest, pixelCountOf_eq hC (List.length_pos_iff.mpr hrest), List.length_append, ih,
      Nat.succ_mul]
    simp only [List.length_append, List.length_take]
    omega

end contents

/-- Settles O30: from the start the bytes left are FP and what follows it, pixel by pixel. -/
theorem serialFrameContentsFollowR230 : Obligations.SerialFrameContentsFollowR230 := by
  intro l bs _ hC
  rw [serialItemsLeft_start]
  refine ⟨?list, ?count⟩
  case list =>
    rw [translate_append, translate_nextPixel hC 0 bs (Nat.dvd_zero _), serialFrameItems]
    simp only [List.append_assoc]
  case count =>
    rw [translate_length, List.length_append, nextPixel_length hC 0 bs (Nat.dvd_zero _), pixelCountOf]
    congr 1
    omega

/-! ## One pass and the bytes left (R226) -/

/-- What a pass returned, `sent` being the bytes left before it and `left` those after it: nothing yet, all bytes still
to come; or the first of them, the sequencer being Done exactly when there was none. -/
def SerialPassGives (sent left : List Byte) (q' : SerialSeq) : Option (Option Byte) → Prop
  | none => left = sent
  | some r => r = sent.head? ∧ left = sent.tail ∧ (q'.sphase = .done ↔ sent = [])

section pass

variable {l : SerialLatch} {q : SerialSeq}

theorem groupItems_cons (l : SerialLatch) (b : Byte) {j : Nat} (h : j < 8 / l.G) :
    groupItems l b j = l.stable.getD (group b j l.G) 0 :: groupItems l b (j + 1) := by
  rw [groupItems, List.drop_eq_getElem_cons (by simpa using h), List.map_cons, List.getElem_range, groupItems]

theorem groupItems_nil (l : SerialLatch) (b : Byte) {j : Nat} (h : 8 / l.G ≤ j) : groupItems l b j = [] := by
  rw [groupItems, List.drop_eq_nil_of_le (by simpa using h), List.map_nil]

theorem serialItemsLeft_none (h : q.curByte = none) (k : Nat) (rest : List Byte) :
    serialItemsLeft l q k rest = translate l (serialBytesLeft l q k rest) := by
  rw [serialItemsLeft, h, translate_eq, List.nil_append]

theorem serialItemsLeft_some {b : Byte} (h : q.curByte = some b) (k : Nat) (rest : List Byte) :
    serialItemsLeft l q k rest = groupItems l b q.groupIdx ++ translate l (serialBytesLeft l q k rest) := by
  rw [serialItemsLeft, h, translate_eq]

/-- A byte just loaded is the first of the bytes to translate. -/
theorem serialItemsLeft_loaded {b : Byte} (h : q.curByte = some b) (hg : q.groupIdx = 0) (k : Nat)
    (rest : List Byte) : serialItemsLeft l q k rest = translate l (b :: serialBytesLeft l q k rest) := by
  rw [serialItemsLeft_some h, hg, translate_eq, translate_eq, List.flatMap_cons]

/-- A pass at the end of a fixed sequence moves on to the next phase. -/
theorem fixed_none {xs : List Byte} (h : xs[q.seqIdx]? = none) (next : SPhase) :
    q.fixed xs next = { q with seqIdx := 0, sphase := next } := by rw [SerialSeq.fixed, h]

/-- A pass inside a fixed sequence loads its next byte. -/
theorem fixed_some {xs : List Byte} {x : Byte} (h : xs[q.seqIdx]? = some x) (next : SPhase) :
    q.fixed xs next = { q.load x with seqIdx := q.seqIdx + 1 } := by rw [SerialSeq.fixed, h]

/-- A pass through a fixed sequence leaves what was left of it, and the next phase. -/
theorem fixed_left {xs : List Byte} {next : SPhase} {k : Nat} {rest : List Byte} (hb : q.curByte = none)
    (hq : ∀ j, serialBytesLeft l { q with seqIdx := j } k rest =
      xs.drop j ++ serialBytesLeft l { q with seqIdx := 0, sphase := next } k rest) :
    serialItemsLeft l (q.fixed xs next) k rest = serialItemsLeft l q k rest := by
  rw [serialItemsLeft_none hb, show serialBytesLeft l q k rest = _ from hq q.seqIdx]
  cases hx : xs[q.seqIdx]? with
  | none =>
    rw [fixed_none hx, List.drop_eq_nil_of_le (List.getElem?_eq_none_iff.mp hx), List.nil_append]
    exact serialItemsLeft_none (q := { q with seqIdx := 0, sphase := next }) hb k rest
  | some x =>
    rw [fixed_some hx]
    obtain ⟨hlt, rfl⟩ := List.getElem?_eq_some_iff.mp hx
    rw [List.drop_eq_getElem_cons hlt, List.cons_append, ← hq (q.seqIdx + 1)]
    exact serialItemsLeft_loaded rfl rfl k rest

/-- After FP or PS the sequencer is at the next pixel's start or, with no data left, at FS. -/
theorem nextPixel_eq_bytesLeft (l : SerialLatch) (q : SerialSeq) (k : Nat) (rest : List Byte) :
    nextPixel l k rest =
      serialBytesLeft l { q with seqIdx := 0, sphase := if !rest.isEmpty then .pixelPrefix else .frameSuffix } k
        rest := by
  cases rest <;> rfl

/-- Loading a pixel's byte leaves it and the bytes after it (R226). -/
theorem load_left (hp : q.sphase = .pixelData) (hb : q.curByte = none) (hi : q.seqIdx = 0) (k : Nat) (b : Byte)
    (rest : List Byte) :
    serialItemsLeft l { q.load b with
        sphase := if (k + 1) % l.C = 0 || rest.isEmpty then .pixelSuffix else .pixelData } (k + 1) rest =
      serialItemsLeft l q k (b :: rest) := by
  rw [serialItemsLeft_none hb, serialItemsLeft_loaded rfl rfl, serialBytesLeft.eq_def l q, hp]
  by_cases hend : decide ((k + 1) % l.C = 0) || rest.isEmpty
  · simp only [hend, if_true, pixelBytes, serialBytesLeft, SerialSeq.load, hi, List.drop_zero, nextPixel]
  · simp only [hend, if_false, pixelBytes, serialBytesLeft, Bool.false_eq_true]

/-- A pass on a byte under way gives its next group and leaves the others (R226). -/
theorem groupPass_gives {b : Byte} (hq : q.legal l) (hb : q.curByte = some b) (k : Nat) (rest : List Byte) :
    SerialPassGives (serialItemsLeft l q k rest) (serialItemsLeft l (q.pass l k rest).2.1 k rest)
      (q.pass l k rest).2.1 (q.pass l k rest).1 := by
  obtain ⟨hidx, hdone, -⟩ := hq
  have hne : q.sphase ≠ .done := fun h => by simp [hdone h] at hb
  rw [serialItemsLeft_some hb, groupItems_cons l b (hidx b hb)]
  by_cases hg : q.groupIdx = 8 / l.G - 1
  · have hpass : q.pass l k rest = (some (some (l.stable.getD (group b q.groupIdx l.G) 0)),
        { q with curByte := none, groupIdx := 0 }, false) := by simp [SerialSeq.pass, hb, hg]
    rw [hpass, serialItemsLeft_none rfl, groupItems_nil l b (by omega)]
    exact ⟨rfl, rfl, by simp [hne]⟩
  · have hpass : q.pass l k rest = (some (some (l.stable.getD (group b q.groupIdx l.G) 0)),
        { q with groupIdx := q.groupIdx + 1 }, false) := by simp [SerialSeq.pass, hb, hg]
    rw [hpass, serialItemsLeft_some (q := { q with groupIdx := q.groupIdx + 1 }) hb]
    exact ⟨rfl, rfl, by simp [hne]⟩

/-- A pass that goes on leaves all bytes to come; one that returns gives the first of them (R226). -/
theorem serialPass_gives (hq : q.legal l) (k : Nat) (rest : List Byte) :
    SerialPassGives (serialItemsLeft l q k rest)
      (serialItemsLeft l (q.pass l k rest).2.1 (if (q.pass l k rest).2.2 then k + 1 else k)
        (bytesAfter (q.pass l k rest).2.2 rest))
      (q.pass l k rest).2.1 (q.pass l k rest).1 := by
  cases hb : q.curByte with
  | some b =>
    have htook : (q.pass l k rest).2.2 = false := by simp [SerialSeq.pass, hb]
    rw [htook]
    exact groupPass_gives hq hb k rest
  | none =>
    cases hp : q.sphase with
    | framePrefix =>
      simp only [SerialSeq.pass, hb, hp]
      exact fixed_left (rest := rest) hb fun j => by
        rw [← nextPixel_eq_bytesLeft]
        simp only [serialBytesLeft, hp]
    | pixelPrefix =>
      simp only [SerialSeq.pass, hb, hp]
      exact fixed_left hb fun j => by simp only [serialBytesLeft, hp]
    | pixelData =>
      obtain ⟨-, -, hidx⟩ := hq
      cases rest with
      | nil =>
        simp [SerialSeq.pass, hb, hp, SerialPassGives, bytesAfter, serialItemsLeft, serialBytesLeft, hidx hp,
          pixelBytes, nextPixel_nil]
      | cons b rest =>
        simp only [SerialSeq.pass, hb, hp]
        exact load_left hp hb (hidx hp) k b rest
    | pixelSuffix =>
      simp only [SerialSeq.pass, hb, hp]
      exact fixed_left (rest := rest) hb fun j => by
        rw [← nextPixel_eq_bytesLeft]
        simp only [serialBytesLeft, hp]
    | frameSuffix =>
      cases hf : l.FS[q.seqIdx]? with
      | none =>
        have hnil : l.FS.drop q.seqIdx = [] := List.drop_eq_nil_of_le (List.getElem?_eq_none_iff.mp hf)
        simp [SerialSeq.pass, hb, hp, hf, SerialPassGives, serialItemsLeft, serialBytesLeft, hnil]
      | some x =>
        simp only [SerialSeq.pass, hb, hp, hf, ← fixed_some hf .done]
        exact fixed_left (rest := rest) hb fun j => by simp only [serialBytesLeft, hp, List.append_nil]
    | done => simp [SerialSeq.pass, hb, hp, SerialPassGives, serialItemsLeft, serialBytesLeft]

theorem groups_pos (hl : l.legal) : 0 < 8 / l.G := by
  obtain ⟨hG, -⟩ := hl
  have hmem := groupWidthOk_iff.mp hG
  simp only [List.mem_cons, List.not_mem_nil, or_false] at hmem
  obtain h | h | h | h := hmem <;> rw [h] <;> decide

/-- A sequencer that has just loaded a byte is legal, unless Done or inside a pixel with a sequence under way. -/
theorem legal_of_loaded (hl : l.legal) (hg : q.groupIdx = 0) (hdone : q.sphase ≠ .done)
    (hidx : q.sphase = .pixelData → q.seqIdx = 0) : q.legal l :=
  ⟨fun _ _ => hg ▸ groups_pos hl, fun h => absurd h hdone, hidx⟩

/-- A sequencer without a byte is legal, unless inside a pixel with a sequence under way. -/
theorem legal_of_none (hb : q.curByte = none) (hidx : q.sphase = .pixelData → q.seqIdx = 0) : q.legal l :=
  ⟨fun b h => (Option.some_ne_none b (h.symm.trans hb)).elim, fun _ => hb, hidx⟩

theorem fixed_legal (hl : l.legal) (hb : q.curByte = none) (hdone : q.sphase ≠ .done) (hdata : q.sphase ≠ .pixelData)
    (xs : List Byte) (next : SPhase) : (q.fixed xs next).legal l := by
  cases hx : xs[q.seqIdx]? with
  | none => exact fixed_none hx next ▸ legal_of_none hb fun _ => rfl
  | some x => exact fixed_some hx next ▸ legal_of_loaded hl rfl hdone fun h => absurd h hdata

/-- A pass leaves the sequencer legal. -/
theorem pass_legal (hl : l.legal) (hq : q.legal l) (k : Nat) (rest : List Byte) : (q.pass l k rest).2.1.legal l := by
  have hkeep := hq
  obtain ⟨hgroup, hdone, hidx⟩ := hq
  cases hb : q.curByte with
  | some b =>
    have hne : q.sphase ≠ .done := fun h => by simp [hdone h] at hb
    have hlt := hgroup b hb
    simp only [SerialSeq.pass, hb]
    split
    · exact legal_of_none rfl hidx
    · exact ⟨fun _ _ => show q.groupIdx + 1 < 8 / l.G by omega, fun h => absurd h hne, hidx⟩
  | none =>
    cases hp : q.sphase with
    | framePrefix =>
      simp only [SerialSeq.pass, hb, hp]
      exact fixed_legal hl hb (by simp [hp]) (by simp [hp]) _ _
    | pixelPrefix =>
      simp only [SerialSeq.pass, hb, hp]
      exact fixed_legal hl hb (by simp [hp]) (by simp [hp]) _ _
    | pixelData =>
      cases rest with
      | nil =>
        simp only [SerialSeq.pass, hb, hp]
        exact legal_of_none rfl nofun
      | cons b rest =>
        simp only [SerialSeq.pass, hb, hp]
        exact legal_of_loaded hl rfl (by simp only; split <;> nofun) fun _ => hidx hp
    | pixelSuffix =>
      simp only [SerialSeq.pass, hb, hp]
      exact fixed_legal hl hb (by simp [hp]) (by simp [hp]) _ _
    | frameSuffix =>
      cases hf : l.FS[q.seqIdx]? with
      | none =>
        simp only [SerialSeq.pass, hb, hp, hf]
        exact legal_of_none rfl nofun
      | some x =>
        simp only [SerialSeq.pass, hb, hp, hf, ← fixed_some hf .done]
        exact fixed_legal hl hb (by simp [hp]) (by simp [hp]) _ _
    | done =>
      simp only [SerialSeq.pass, hb, hp]
      exact hkeep

end pass

/-! ## SE_NEXT_ITEM (R226) -/

/-- Slot `i`'s serial engine `e` can give bytes: its tables are total, its sequencer `q` is between two items, its slice
is in the buffer. -/
structure SerialReady (s : State) (i : Nat) (e : Engine) (q : SerialSeq) (l : SerialLatch) : Prop where
  engine : s.serialEngine i e q l
  latch : l.legal
  seq : q.legal l
  slice : s.sliceReadable i

/-- `t` is `s` after slot `i`'s serial engine `e` gave bytes: the cursor at `k`, the sequencer `q` between two items,
and `left` the bytes still to give. -/
structure GaveBytes (s t : State) (i : Nat) (e : Engine) (l : SerialLatch) (q : SerialSeq) (k : Nat)
    (left : List Byte) : Prop where
  step : EngStep s t i { e with cursor := k, core := .serial q (some l) }
  left : serialItemsLeft l q k (s.dataFrom i k) = left
  legal : q.legal l

/-- A pass that goes on has a detour fewer before it. -/
theorem sePass_detours {s t : State} {i : Nat} {e : Engine} {q q' : SerialSeq} {l : SerialLatch} {k : Nat}
    (h : s.serialEngine i e q l) (hrun : sePass i s = .ok none t)
    (hstep : EngStep s t i { e with cursor := k, core := .serial q' (some l) }) :
    q'.detours (decide (k < (s.slot i).length)) < q.detours (decide (e.cursor < (s.slot i).length)) := by
  have hends := sePass_ends h
  rw [hrun] at hends
  obtain ⟨q'', k', hstep', hlt⟩ := hends
  have heng := hstep.eng.symm.trans hstep'.eng
  simp only [Option.some.injEq, Engine.mk.injEq, EngineCore.serial.injEq] at heng
  simpa [heng] using hlt

/-- The loop of SE_NEXT_ITEM returns the first byte left, once its bound is above the detours ahead. -/
theorem seLoop_run {i : Nat} {l : SerialLatch} (n : Nat) {s : State} {e : Engine} {q : SerialSeq}
    (h : SerialReady s i e q l) (hn : q.detours (decide (e.cursor < (s.slot i).length)) < n) :
    ∃ t q' k, seLoop i n s = .ok (serialItemsLeft l q e.cursor (s.dataFrom i e.cursor)).head? t ∧
      GaveBytes s t i e l q' k (serialItemsLeft l q e.cursor (s.dataFrom i e.cursor)).tail ∧
      (q'.sphase = .done ↔ serialItemsLeft l q e.cursor (s.dataFrom i e.cursor) = []) := by
  induction n generalizing s e q with
  | zero => exact absurd hn (Nat.not_lt_zero _)
  | succ n ih =>
    obtain ⟨heng, hl, hq, hs⟩ := h
    obtain ⟨t, hrun, hstep⟩ := sePass_run heng hl hs
    have hgives := serialPass_gives hq e.cursor (s.dataFrom i e.cursor)
    have hlegal := pass_legal hl hq e.cursor (s.dataFrom i e.cursor)
    rw [bytesAfter_dataFrom] at hgives
    rw [seLoop, op_bind_ok hrun]
    cases hr : (q.pass l e.cursor (s.dataFrom i e.cursor)).1 with
    | some r =>
      rw [hr] at hgives
      obtain ⟨rfl, hleft, hdone⟩ := hgives
      exact ⟨t, _, _, rfl, ⟨hstep, hleft, hlegal⟩, hdone⟩
    | none =>
      rw [hr] at hgives
      have hlt := sePass_detours heng (hr ▸ hrun) hstep
      obtain ⟨u, q', k, hu, ⟨hstep', hleft, hlegal'⟩, hdone⟩ :=
        ih (e := { e with cursor := _, core := _ }) ⟨⟨hstep.eng, rfl⟩, hl, hlegal, hstep.sliceReadable.mpr hs⟩
          (hstep.length ▸ Nat.lt_of_lt_of_le hlt (Nat.le_of_lt_succ hn))
      rw [hstep.dataFrom] at hu hleft hdone
      rw [hstep.dataFrom, hgives] at hleft
      rw [hgives] at hu hdone
      exact ⟨u, q', k, hu, ⟨hstep.trans hstep', hleft, hlegal'⟩, hdone⟩

theorem seNextItem_run {s : State} {i : Nat} {e : Engine} {q : SerialSeq} {l : SerialLatch}
    (h : SerialReady s i e q l) :
    ∃ t q' k, seNextItem i s = .ok (serialItemsLeft l q e.cursor (s.dataFrom i e.cursor)).head? t ∧
      GaveBytes s t i e l q' k (serialItemsLeft l q e.cursor (s.dataFrom i e.cursor)).tail ∧
      (q'.sphase = .done ↔ serialItemsLeft l q e.cursor (s.dataFrom i e.cursor) = []) :=
  seLoop_run 5 h (q.detours_lt _)

/-! ## The commands on a slot's serial engine, behind their guards -/

section commands

variable {s : State} {i : Nat} {e : Engine} {q : SerialSeq} {l : Option SerialLatch}

theorem runStep_serialCommand (hi : s.hasSlot i) (he : (s.slot i).eng = some e) (hc : e.core = .serial q l)
    (f : Engine × SerialSeq × Option SerialLatch → Op Unit) :
    runStep s (do admitSlot i; let a ← serialEngineOf i; f a) = runStep s (f (e, q, l)) :=
  (runStep_bind_ok (admitSlot_ok hi) _).trans (runStep_bind_ok (serialEngineOf_some he hc) _)

theorem exec_seNextItem (hi : s.hasSlot i) (he : (s.slot i).eng = some e) (hc : e.core = .serial q l) :
    exec (.seNextItem i) s = runStep s (do
      guardStep e.tstate.transmitting "SE_NEXT_ITEM"
      let r ← seNextItem i
      answer (.serialItem r)) := runStep_serialCommand hi he hc _

theorem exec_seFill (hi : s.hasSlot i) (he : (s.slot i).eng = some e) (hc : e.core = .serial q l) :
    exec (.seFill i) s = runStep s (do guardStep e.tstate.transmitting "SE_FILL"; seFill i) :=
  runStep_serialCommand hi he hc _

theorem exec_seStartFrame (hi : s.hasSlot i) (he : (s.slot i).eng = some e) (hc : e.core = .serial q l) :
    exec (.seStartFrame i) s = runStep s (do guardStep (!e.tstate.transmitting) "SE_START_FRAME"; seStartFrame i) :=
  runStep_serialCommand hi he hc _

theorem exec_seIsr (hi : s.hasSlot i) (he : (s.slot i).eng = some e) (hc : e.core = .serial q l) :
    exec (.seIsr i) s = runStep s (do guardStep (s.irqRequested e) "SE_ISR"; seIsr i) :=
  runStep_serialCommand hi he hc _

end commands

/-- Settles O27: the bytes come from `seNextItem_run`, and the reply is the one write after it. -/
theorem serialNextItemReturnsTheBytesInOrder : Obligations.SerialNextItemReturnsTheBytesInOrder := by
  refine ⟨?gives, ?noStep⟩
  case gives =>
    rintro s i e q l hi ⟨he, hc⟩ hl hq hts hs
    obtain ⟨t, q', k, hrun, ⟨hstep, hleft, hlegal⟩, hdone⟩ := seNextItem_run ⟨⟨he, hc⟩, hl, hq, hs⟩
    have hexec : exec (.seNextItem i) s = .next { t with
        reply := some (.serialItem (serialItemsLeft l q e.cursor (s.dataFrom i e.cursor)).head?) } := by
      rw [exec_seNextItem hi he hc, runStep_guardStep_true (transmitting_of hts)]
      exact runStep_ok ((op_bind_ok hrun).trans (answer_run _ t))
    exact ⟨_, q', k, hexec, hstep.frame_reply _, hstep.other, hstep.byte, hstep.here,
      (congrArg _ (hstep.dataFrom k)).trans hleft, hlegal, hdone⟩
  case noStep =>
    intro s i e q l hi he hc hts
    rw [exec_seNextItem hi he hc, runStep_guardStep_false (not_transmitting_of hts)]

end Sys2Proof.Machine
end

section
/-! SUPPORT. The serial engine's commands (spec 43): SE_BEGIN (R223, R224), SE_START_FRAME (R225), SE_FILL (R227) and
the interrupt handler by SE_ISR and IRQ_ENTRY (R228, R340). -/

namespace Sys2Proof.Machine

/-! ## SE_FILL (R227) -/

theorem onlySerial_trans {s t u : State} {i w : Nat} (h : s.onlySerial t i w) (h' : t.onlySerial u i w) :
    s.onlySerial u i w := by
  obtain ⟨hframe, hslot, hsu, hbyte⟩ := h
  obtain ⟨hframe', hslot', hsu', hbyte'⟩ := h'
  refine ⟨?_, fun j hj => (hslot' j hj).trans (hslot j hj), fun v hv => (hsu' v hv).trans (hsu v hv),
    fun a => (hbyte' a).trans (hbyte a)⟩
  exact hframe'.trans (congrArg (fun v : State => { v with slots := u.slots, serialUnits := u.serialUnits }) hframe)

theorem EngStep.onlySerial {s t : State} {i : Nat} {e : Engine} (h : EngStep s t i e) (w : Nat) :
    s.onlySerial t i w := by
  refine ⟨?_, h.other, fun v _ => h.su v, h.byte⟩
  have hsu : t.serialUnits = s.serialUnits := by rw [h.frame]
  rw [hsu]
  exact h.frame

theorem onlySerial_setSu (s : State) (i u : Nat) (p : SerialUnit) : s.onlySerial (s.setSu u p) i u :=
  ⟨rfl, fun _ _ => rfl, fun _ hw => setSu_su_other s u p hw, fun _ => rfl⟩

theorem onlySerial_setSlot (s : State) (i u : Nat) (d : DriverState) : s.onlySerial (s.setSlot i d) i u :=
  ⟨rfl, fun _ hj => setSlot_slot_other s i d hj, fun _ _ => rfl, fun _ => rfl⟩

/-- `t` is `s` after slot `i`'s serial engine `e`, with the bytes `sent` to give, put the first `room` of them at its
FIFO's tail: the others are left, the sequencer is between two items, and it is Done if it was, `done`, or if there was
room to spare. -/
structure StagedBytes (s t : State) (i : Nat) (e : Engine) (l : SerialLatch) (q : SerialSeq) (k : Nat)
    (sent : List Byte) (room : Nat) (done : Prop) : Prop where
  only : s.onlySerial t i e.unit
  slot : t.slot i = { s.slot i with eng := some { e with cursor := k, core := .serial q (some l) } }
  su : t.su e.unit = { s.su e.unit with fifo := (s.su e.unit).fifo ++ sent.take room }
  left : serialItemsLeft l q k (s.dataFrom i k) = sent.drop room
  legal : q.legal l
  done : q.sphase = .done ↔ done ∨ sent.length < room

theorem StagedBytes.dataFrom {s t : State} {i : Nat} {e : Engine} {l : SerialLatch} {q : SerialSeq} {k : Nat}
    {sent : List Byte} {room : Nat} {done : Prop} (h : StagedBytes s t i e l q k sent room done) (j : Nat) :
    t.dataFrom i j = s.dataFrom i j := by
  obtain ⟨-, -, -, hbyte⟩ := h.only
  exact dataFrom_congr (by rw [h.slot]) (by rw [h.slot]) (by rw [h.slot]) hbyte j

/-- What is left to give, read from the state the fill leaves. -/
theorem StagedBytes.left_after {s t : State} {i : Nat} {e : Engine} {l : SerialLatch} {q : SerialSeq} {k : Nat}
    {sent : List Byte} {room : Nat} {done : Prop} (h : StagedBytes s t i e l q k sent room done) :
    serialItemsLeft l q k (t.dataFrom i k) = sent.drop room := h.dataFrom k ▸ h.left

theorem serialItemsLeft_done {l : SerialLatch} {q : SerialSeq} (hq : q.legal l) (h : q.sphase = .done) (k : Nat)
    (rest : List Byte) : serialItemsLeft l q k rest = [] := by
  obtain ⟨-, hnone, -⟩ := hq
  simp [serialItemsLeft, serialBytesLeft, h, hnone h]

/-- A FIFO without room, or a frame that is Done, is filled. -/
theorem stagedBytes_self {s : State} {i : Nat} {e : Engine} {q : SerialSeq} {l : SerialLatch}
    (h : SerialReady s i e q l) (hstop : q.sphase = .done ∨ s.board.fifoCapacity ≤ (s.su e.unit).fifo.length) :
    StagedBytes s s i e l q e.cursor (serialItemsLeft l q e.cursor (s.dataFrom i e.cursor))
      (s.board.fifoCapacity - (s.su e.unit).fifo.length) (q.sphase = .done) := by
  obtain ⟨⟨he, hc⟩, -, hq, -⟩ := h
  have hself : EngStep s s i { e with core := .serial q (some l) } := .self (by rw [he, ← hc])
  obtain hdone | hfull := hstop
  · exact ⟨hself.onlySerial _, hself.here, by simp [serialItemsLeft_done hq hdone],
      by simp [serialItemsLeft_done hq hdone], hq, by simp [hdone]⟩
  · have hroom := Nat.sub_eq_zero_of_le hfull
    exact ⟨hself.onlySerial _, hself.here, by simp [hroom], by simp [hroom], hq, by simp [hroom]⟩

@[simp] theorem serial_push_length (p : SerialUnit) (x : Byte) : (p.push x).fifo.length = p.fifo.length + 1 := by
  simp [SerialUnit.push]

/-- Staging after the first byte was pushed. -/
theorem StagedBytes.push {s t u : State} {i : Nat} {e : Engine} {l : SerialLatch} {q q' : SerialSeq} {k k' : Nat}
    {x : Byte} {rest : List Byte} {room : Nat} {done done' : Prop}
    (hgave : EngStep s t i { e with cursor := k, core := .serial q (some l) })
    (h : StagedBytes (t.setSu e.unit ((t.su e.unit).push x)) u i { e with cursor := k, core := .serial q (some l) } l q'
      k' rest room done) (hnot : ¬done) (hnot' : ¬done') : StagedBytes s u i e l q' k' (x :: rest) (room + 1) done'
    where
  only := onlySerial_trans (onlySerial_trans (hgave.onlySerial _) (onlySerial_setSu t i _ _)) h.only
  slot := by rw [h.slot, setSu_slot, hgave.here]
  su := by rw [h.su, setSu_su_same, SerialUnit.push, hgave.su]; simp
  left := by
    rw [List.drop_succ_cons, ← h.left, ← hgave.dataFrom]
    rfl
  legal := h.legal
  done := by simp [h.done, hnot, hnot']

/-- The loop of SE_FILL stages what the FIFO has room for, once its bound is above the room or the frame is Done. -/
theorem seFillLoop_run {i : Nat} {l : SerialLatch} (n : Nat) {s : State} {e : Engine} {q : SerialSeq}
    (h : SerialReady s i e q l)
    (hn : q.sphase = .done ∨ s.board.fifoCapacity - (s.su e.unit).fifo.length < n) :
    ∃ t q' k, seFillLoop i n s = .ok () t ∧
      StagedBytes s t i e l q' k (serialItemsLeft l q e.cursor (s.dataFrom i e.cursor))
        (s.board.fifoCapacity - (s.su e.unit).fifo.length) (q.sphase = .done) := by
  induction n generalizing s e q with
  | zero =>
    have hdone := hn.resolve_right (Nat.not_lt_zero _)
    exact ⟨s, q, e.cursor, rfl, stagedBytes_self h (.inl hdone)⟩
  | succ n ih =>
    obtain ⟨he, hc⟩ := h.engine
    by_cases hstop : q.sphase = .done ∨ s.board.fifoCapacity ≤ (s.su e.unit).fifo.length
    · exact ⟨s, q, e.cursor, seFillLoop_stops _ he hc hstop, stagedBytes_self h hstop⟩
    obtain ⟨hdone, hfull⟩ := not_or.mp hstop
    have hroom := Nat.lt_of_not_le hfull
    have hbound := hn.resolve_left hdone
    obtain ⟨t, q', k, hrun, ⟨hstep, hleft, hlegal⟩, hempty⟩ := seNextItem_run h
    rw [seFillLoop_goes n he hc hroom hdone, op_bind_ok hrun]
    cases hsent : serialItemsLeft l q e.cursor (s.dataFrom i e.cursor) with
    | nil =>
      rw [hsent] at hleft
      have hdone' := hempty.mpr hsent
      refine ⟨t, q', k, seFillLoop_stops n hstep.eng rfl (.inl hdone'), hstep.onlySerial _, hstep.here, ?_, ?_, hlegal,
        ?_⟩
      · simp [hstep.su]
      · simpa using hleft
      · simpa [hdone'] using .inr hroom
    | cons x rest =>
      rw [hsent] at hleft hempty
      have hdone' : q'.sphase ≠ .done := by simp [hempty]
      obtain ⟨u, q'', k', hu, hstaged⟩ := ih (s := t.setSu e.unit ((t.su e.unit).push x))
        (e := { e with cursor := k, core := .serial q' (some l) })
        ⟨⟨hstep.eng, rfl⟩, h.latch, hlegal, hstep.sliceReadable.mpr h.slice⟩
        (.inr (by simp [hstep.board, hstep.su]; omega))
      have hdata : (t.setSu e.unit ((t.su e.unit).push x)).dataFrom i k = s.dataFrom i k := hstep.dataFrom k
      have hroom' : s.board.fifoCapacity - (s.su e.unit).fifo.length =
          s.board.fifoCapacity - ((s.su e.unit).fifo.length + 1) + 1 := by omega
      rw [hroom']
      refine ⟨u, q'', k', hu, StagedBytes.push hstep ?_ hdone' hdone⟩
      rw [hdata, hleft] at hstaged
      simpa [hstep.board, hstep.su] using hstaged

theorem seFill_run {s : State} {i : Nat} {e : Engine} {q : SerialSeq} {l : SerialLatch} (h : SerialReady s i e q l) :
    ∃ t q' k, seFill i s = .ok () t ∧
      StagedBytes s t i e l q' k (serialItemsLeft l q e.cursor (s.dataFrom i e.cursor))
        (s.board.fifoCapacity - (s.su e.unit).fifo.length) (q.sphase = .done) :=
  seFillLoop_run _ h (.inr (by omega))

/-- Settles O28: behind its guard SE_FILL is `seFill_run`. -/
theorem serialFillStagesUpToCapacity : Obligations.SerialFillStagesUpToCapacity := by
  refine ⟨?fills, ?noStep⟩
  case fills =>
    rintro s i e q l hi ⟨he, hc⟩ hl hq hts hs
    obtain ⟨t, q', k, hrun, hst⟩ := seFill_run ⟨⟨he, hc⟩, hl, hq, hs⟩
    refine ⟨t, q', k, ?_, hst.only, hst.slot, hst.su, hst.left_after, hst.legal, hst.done⟩
    rw [exec_seFill hi he hc, runStep_guardStep_true (transmitting_of hts), runStep_ok hrun]
  case noStep =>
    intro s i e q l hi he hc hts
    rw [exec_seFill hi he hc, runStep_guardStep_false (not_transmitting_of hts)]

/-! ## SE_START_FRAME (R225) -/

section serialOpened

variable (s : State) (i : Nat) (e : Engine) (l : Option SerialLatch)

@[simp] theorem serialOpened_slot : (s.serialOpened i e l).slot i =
    { s.slot i with
      frameCount := countUp (s.slot i).frameCount
      eng := some { e.filling s.now with core := .serial serialSeqStart l } } := by simp [State.serialOpened]

@[simp] theorem serialOpened_su : (s.serialOpened i e l).su e.unit =
    { s.su e.unit with pendLow := false, pendEnd := false, fifo := [] } := by simp [State.serialOpened]

@[simp] theorem serialOpened_board : (s.serialOpened i e l).board = s.board := rfl

theorem onlySerial_serialOpened : s.onlySerial (s.serialOpened i e l) i e.unit :=
  onlySerial_trans (onlySerial_setSlot s i _ _) (onlySerial_setSu _ i _ _)

end serialOpened

theorem serial_started_eq {p : SerialUnit} (h : p.pendEnd = false) :
    p.started = { p with pendEnd := p.fifo.isEmpty, busy := p.busy || !p.fifo.isEmpty } := by
  cases hr : p.fifo.isEmpty <;> simp [SerialUnit.started, hr, h]

theorem serialSeqStart_legal (l : SerialLatch) : serialSeqStart.legal l := legal_of_none rfl nofun

/-- SE_START_FRAME stages the frame's first bytes (R225, R227). -/
theorem seStartFrame_run {s : State} {i : Nat} {e : Engine} {q : SerialSeq} {l : SerialLatch}
    (h : s.serialEngine i e q l) (hl : l.legal) (hs : s.sliceReadable i) :
    ∃ t q' k, seStartFrame i s = .ok () ((t.withEng i
        { e.filling s.now with
          tstate := .draining, enLow := true, enEnd := true, cursor := k, core := .serial q' (some l) }).setSu e.unit
          (t.su e.unit).started) ∧
      StagedBytes (s.serialOpened i e (some l)) t i { e.filling s.now with core := .serial serialSeqStart (some l) } l
        q' k (serialItemsLeft l serialSeqStart 0 (s.dataFrom i 0)) s.board.fifoCapacity False := by
  obtain ⟨he, hc⟩ := h
  obtain ⟨-, -, -, hbyte⟩ := onlySerial_serialOpened s i e (some l)
  have hdata : (s.serialOpened i e (some l)).dataFrom i 0 = s.dataFrom i 0 :=
    dataFrom_congr (by simp) (by simp) (by simp) hbyte 0
  have hready : SerialReady (s.serialOpened i e (some l)) i
      { e.filling s.now with core := .serial serialSeqStart (some l) } serialSeqStart l :=
    ⟨⟨by simp, rfl⟩, hl, serialSeqStart_legal l,
      (sliceReadable_congr (serialOpened_board s i e _) (by simp) (by simp) (by simp)).mpr hs⟩
  obtain ⟨t, q', k, hrun, hst⟩ := seFill_run hready
  refine ⟨t, q', k, ?_, ?_⟩
  · rw [seStartFrame_eq he hc, op_bind_ok hrun, finishSerialStart_run (by rw [hst.slot])]
    rfl
  · simpa [Engine.filling, hdata, serialSeqStart] using hst

/-- Settles O26: the fill of `seFill_run` on an empty FIFO, from the sequencer's start, between the frame's opening and
the unit's start. -/
theorem serialStartFrameStagesTheFirstBytes : Obligations.SerialStartFrameStagesTheFirstBytes := by
  refine ⟨?starts, ?noStep⟩
  case starts =>
    rintro s i e q l hi ⟨he, hc⟩ hl hts hs
    obtain ⟨t, q', k, hrun, hst⟩ := seStartFrame_run ⟨he, hc⟩ hl hs
    have hsu : t.su e.unit = { s.su e.unit with
        pendLow := false, pendEnd := false,
        fifo := (serialItemsLeft l serialSeqStart 0 (s.dataFrom i 0)).take s.board.fifoCapacity } := by
      simpa using hst.su
    have hslot := hst.slot
    have hexec := (exec_seStartFrame hi he hc).trans
      ((runStep_guardStep_true (by simp [not_transmitting_of hts]) _ _).trans (runStep_ok hrun))
    refine ⟨_, q', k, hexec, ?_, ?_, ?_, ?_, hst.legal, ?_⟩
    · exact onlySerial_trans (onlySerial_trans (onlySerial_serialOpened s i e (some l)) hst.only)
        (onlySerial_trans (onlySerial_setSlot t i _ _) (onlySerial_setSu _ i _ _))
    · simp [hslot, Engine.filling, countUp]
    · rw [setSu_su_same, hsu, serial_started_eq rfl]
    · rw [← hst.left_after]
      exact congrArg _ (withEng_dataFrom t i _ k)
    · simpa using hst.done
  case noStep =>
    intro s i e q l hi he hc hts
    rw [exec_seStartFrame hi he hc, runStep_guardStep_false (by simp [transmitting_of hts])]

/-! ## The interrupt handler (R228, R340) -/

section handler

variable {s : State} {i : Nat} {e : Engine} {q : SerialSeq} {l : Option SerialLatch}

/-- Both entries to the serial handler run it when the unit requests an interrupt. -/
theorem exec_serialHandler (hi : s.hasSlot i) (he : (s.slot i).eng = some e) (hc : e.core = .serial q l)
    (hreq : irqRequest (s.su e.unit).pendLow (s.su e.unit).pendEnd e = true) {h : Instr}
    (hh : h = .seIsr i ∨ h = .irqEntry i) : exec h s = runStep s (seIsr i) := by
  have hguard : s.irqRequested e = true := (irqRequested_serial hc).trans hreq
  obtain rfl | rfl := hh
  · rw [exec_seIsr hi he hc, runStep_guardStep_true hguard]
  · rw [exec_irqEntry hi he, runStep_guardStep_true hguard, handlerOf, kind_serial hc]

/-- The last of two writes to a unit stands when it empties what the first wrote. -/
theorem setSu_setSu_emptied (s : State) (u : Nat) (p : SerialUnit) :
    (s.setSu u p).setSu u { p with fifo := [] } = s.setSu u { p with fifo := [] } := by
  simp only [State.setSu]
  congr 1
  refine tablePut_put _ _ _ _ _ (Decidable.or_iff_not_imp_left.mpr fun hp => ?_)
  rw [Decidable.not_not.mp hp]
  rfl

/-- END before the frame is staged: an error is counted, the FIFO emptied and the frame aborted (R228). -/
theorem seIsr_aborts (he : (s.slot i).eng = some e) (hc : e.core = .serial q l)
    (hend : (s.su e.unit).pendEnd = true) (hen : e.enEnd = true) (hdone : q.sphase ≠ .done) :
    seIsr i s = .error .raised (((s.setSu e.unit
      { s.su e.unit with pendEnd := false, pendLow := false, fifo := [] }).setSlot i
        { s.slot i with
          hwErrorCount := countUp (s.slot i).hwErrorCount
          eng := some { e.ended with core := .serial { q with sphase := .done, curByte := none } l } }).addFault
        (.underrun i)) := by
  have hdriver : ({ (s.slot i).mapEng fun e => e.ended.withSerialSeq { q with sphase := .done, curByte := none } with
        hwErrorCount := countUp (s.slot i).hwErrorCount } : DriverState) =
      { s.slot i with
        hwErrorCount := countUp (s.slot i).hwErrorCount
        eng := some { e.ended with core := .serial { q with sphase := .done, curByte := none } l } } := by
    rw [mapEng_some he]
    simp [Engine.withSerialSeq, Engine.ended, hc]
  rw [← hdriver, ← setSu_setSu_emptied s e.unit { s.su e.unit with pendEnd := false, pendLow := false }]
  simp only [seIsr, op_bind, serialEngineOf_some he hc, getState_run, hend, hen, Bool.and_true, if_true, modSu_run,
    hdone, if_false, modSlot_run, raise_run, setSu_slot, setSlot_su, setSu_su_same]
  rfl

end handler

/-- Settles O29: a request enters the handler by either command; END is served first, and LOW refills by
`seFill_run`. -/
theorem serialHandlerServesEndThenLow : Obligations.SerialHandlerServesEndThenLow := by
  intro s i e q l hi he hc
  have hreqEnd : (s.su e.unit).pendEnd = true → e.enEnd = true →
      irqRequest (s.su e.unit).pendLow (s.su e.unit).pendEnd e = true := fun hend hen =>
    irqRequest_eq_true_iff.mpr (.inr ⟨hend, hen⟩)
  refine ⟨?complete, ?underrun, ?noStep, ?low⟩
  case complete =>
    intro hend hen hdone h hh
    rw [exec_serialHandler hi he hc (hreqEnd hend hen) hh, runStep_ok (seIsr_complete he hc hend hen hdone)]
    rfl
  case underrun =>
    intro hend hen hdone h hh
    rw [exec_serialHandler hi he hc (hreqEnd hend hen) hh, runStep_raised (seIsr_aborts he hc hend hen hdone)]
    rfl
  case noStep =>
    intro hend hlow
    have hguard : s.irqRequested e = false :=
      (irqRequested_serial hc).trans (irqRequest_eq_false_iff.mpr ⟨hlow, hend⟩)
    rw [exec_seIsr hi he hc, exec_irqEntry hi he]
    exact ⟨runStep_guardStep_false hguard _ _, runStep_guardStep_false hguard _ _⟩
  case low =>
    intro hend hlow hen h hh
    have hexec := exec_serialHandler hi he hc (irqRequest_eq_true_iff.mpr (.inl ⟨hlow, hen⟩)) hh
    have hrun := seIsr_low he hc hend hlow hen
    refine ⟨fun hts => ?other, fun l' hl hlegal hq hts hs => ?refill⟩
    case other =>
      rw [if_neg hts] at hrun
      rw [hexec, runStep_ok hrun]
    case refill =>
      subst hl
      rw [if_pos hts] at hrun
      have hready : SerialReady (s.setSu e.unit { s.su e.unit with pendLow := false }) i e q l' :=
        ⟨⟨he, hc⟩, hlegal, hq, hs⟩
      obtain ⟨t, q', k, hfill, hst⟩ := seFill_run hready
      have hroom : (s.setSu e.unit { s.su e.unit with pendLow := false }).board.fifoCapacity -
          ((s.setSu e.unit { s.su e.unit with pendLow := false }).su e.unit).fifo.length =
          s.board.fifoCapacity - (s.su e.unit).fifo.length := by simp
      rw [hroom] at hst
      refine ⟨t, q', k, ?_, onlySerial_trans (onlySerial_setSu s i _ _) hst.only, hst.slot, ?_, hst.left_after,
        hst.legal, hst.done⟩
      · rw [hexec, runStep_ok (hrun.trans hfill)]
      · rw [hst.su, setSu_su_same]
        rfl

/-! ## SE_BEGIN (R223, R224) -/

section begins

variable {s : State} {i : Nat} {e : Engine} {q : SerialSeq} {l : Option SerialLatch}

/-- SE_BEGIN after the ownership check (R224). -/
def latchSerial (s : State) (i : Nat) (e : Engine) : Op Unit :=
  match serialConstantsOf s.board (s.slot i).variant with
  | none => refuse .illFormedProtocolConstants
  | some pc => do
    let (tbl, D) ← xlatBuildSerial pc.G pc.S pc.H0 pc.H1
    refuseIf (decide (pc.bitPeriodNs < 1)) .illFormedProtocolConstants
    refuseIf (decide (baudRate pc.G D pc.bitPeriodNs < 1)) .illFormedProtocolConstants
    modEngine i fun e => e.withSerialLatch (serialLatchOf pc tbl D (cfgChannels (s.slot i).cfg))
    modSu e.unit fun p => p.configured (baudRate pc.G D pc.bitPeriodNs) D (cfgInvert (s.slot i).cfg)

theorem seBegin_eq (he : (s.slot i).eng = some e) (hc : e.core = .serial q l) :
    seBegin i s = (do
      raiseIf (decide (e.tstate = TState.draining)) (.ownershipViolation i .seBegin)
      latchSerial s i e) s :=
  (op_bind_ok (serialEngineOf_some he hc)).trans (op_bind_ok (getState_run s))

theorem seBegin_draining (he : (s.slot i).eng = some e) (hc : e.core = .serial q l) (hts : e.tstate = .draining) :
    seBegin i s = .error .raised (s.addFault (.ownershipViolation i .seBegin)) := by
  rw [seBegin_eq he hc, decide_eq_true hts, op_bind_error (raiseIf_true _ s)]

theorem seBegin_idle (he : (s.slot i).eng = some e) (hc : e.core = .serial q l) (hts : e.tstate ≠ .draining) :
    seBegin i s = latchSerial s i e s := by
  rw [seBegin_eq he hc, decide_eq_false hts, op_bind_ok (raiseIf_false _ s)]

/-- The checks of SE_BEGIN, one by one (R154, R224). -/
theorem serialConstantsOk_iff {pc : SerialConstants} : serialConstantsOk pc = true ↔
    serialTimingOk pc.G pc.S pc.H0 pc.H1 = true ∧ 1 ≤ pc.bitPeriodNs ∧
      1 ≤ baudRate pc.G (dataBits pc.G pc.S) pc.bitPeriodNs := by
  simp [serialConstantsOk, serialConstantsLegal, and_assoc]

theorem latchSerial_badTiming {pc : SerialConstants} (hpc : serialConstantsOf s.board (s.slot i).variant = some pc)
    (hok : serialTimingOk pc.G pc.S pc.H0 pc.H1 = false) :
    latchSerial s i e s = .error (.refused .illFormedSerialTiming) s := by
  rw [latchSerial, hpc]
  exact op_bind_error (xlatBuildSerial_refused hok s)

/-- With a good timing SE_BEGIN refuses the period or the rate (R224). -/
theorem latchSerial_badRate {pc : SerialConstants} (hpc : serialConstantsOf s.board (s.slot i).variant = some pc)
    (htime : serialTimingOk pc.G pc.S pc.H0 pc.H1 = true) (hok : serialConstantsOk pc = false) :
    latchSerial s i e s = .error (.refused .illFormedProtocolConstants) s := by
  have hbad : ¬(1 ≤ pc.bitPeriodNs ∧ 1 ≤ baudRate pc.G (dataBits pc.G pc.S) pc.bitPeriodNs) := fun h =>
    Bool.eq_false_iff.mp hok (serialConstantsOk_iff.mpr ⟨htime, h⟩)
  rw [latchSerial, hpc]
  refine (op_bind_ok (xlatBuildSerial_ok htime s)).trans ?_
  by_cases hperiod : 1 ≤ pc.bitPeriodNs
  · have hrate : baudRate pc.G (pc.G * pc.S - 2) pc.bitPeriodNs < 1 := Nat.lt_of_not_le fun h => hbad ⟨hperiod, h⟩
    simp only [decide_eq_false (Nat.not_lt.mpr hperiod), decide_eq_true hrate, op_bind, refuseIf_false, refuseIf_true]
  · simp only [decide_eq_true (Nat.lt_of_not_le hperiod), op_bind, refuseIf_true]

theorem latchSerial_good {pc : SerialConstants} (he : (s.slot i).eng = some e) (hc : e.core = .serial q l)
    (hpc : serialConstantsOf s.board (s.slot i).variant = some pc) (hok : serialConstantsOk pc = true) :
    latchSerial s i e s = .ok () (s.serialLatched i e q pc) := by
  obtain ⟨htime, hperiod, hrate⟩ := serialConstantsOk_iff.mp hok
  rw [latchSerial, hpc]
  refine (op_bind_ok (xlatBuildSerial_ok htime s)).trans ?_
  rw [dataBits] at hrate
  simp only [decide_eq_false (Nat.not_lt.mpr hperiod), decide_eq_false (Nat.not_lt.mpr hrate), op_bind, refuseIf_false,
    modEngine_withEng he, modSu_run, Engine.withSerialLatch, hc]
  rfl

end begins

/-- Settles O25: the ownership check, then the timing's and the rate's checks, then the latch and the unit. -/
theorem serialBeginBuildsTheTable : Obligations.SerialBeginBuildsTheTable := by
  intro s i e q l hi he hc
  have hexec : exec (.seBegin i) s = runStep s (seBegin i) := runStep_bind_ok (admitSlot_ok hi) _
  rw [hexec]
  refine ⟨fun pc hts hpc hok => ?_, fun pc hts hpc hok => ?_, fun pc hts hpc htime hok => ?_, fun hts => ?_⟩
  · rw [runStep_ok ((seBegin_idle he hc hts).trans (latchSerial_good he hc hpc hok))]
  · rw [runStep_refused ((seBegin_idle he hc hts).trans (latchSerial_badTiming hpc hok))]
  · rw [runStep_refused ((seBegin_idle he hc hts).trans (latchSerial_badRate hpc htime hok))]
  · rw [runStep_raised (seBegin_draining he hc hts)]

end Sys2Proof.Machine
end

section
/-! SUPPORT. What every operation but those that build a new driver keeps of every slot's driver (R191, R221, R251,
R269): its variant, that it is Failed, and the binding of its engine; here the shared operations and the engines. -/

namespace Sys2Proof.Machine

variable {α β : Type}

/-! ## What is kept of a driver -/

/-- `e'` may stand where `e` stood: of its kind and on its unit, its serial table `e`'s own or a total one. -/
structure Engine.BoundAs (e e' : Engine) : Prop where
  kind : e'.kind = e.kind
  unit : e'.unit = e.unit
  table : ∀ q l, e'.core = .serial q (some l) → l.legal ∨ ∃ q', e.core = .serial q' (some l)

/-- `d'` may stand where `d` stood: of its variant, Failed if it was, an encoder's configuration as legal as before, and
with an engine bound as before. -/
structure DriverState.BoundAs (d d' : DriverState) : Prop where
  variant : d'.variant = d.variant
  failed : d.status = .failed → d'.status = .failed
  cfg : isEncoder d.variant = true → legalCfg d.cfg = true → legalCfg d'.cfg = true
  eng : Option.Rel Engine.BoundAs d.eng d'.eng

/-- Every slot's driver in `t` may stand where it stood in `s`, on the same board. -/
structure State.BoundAs (s t : State) : Prop where
  board : t.board = s.board
  renderPos : t.renderPos = s.renderPos
  begun : t.begun = s.begun
  slot : ∀ i, (s.slot i).BoundAs (t.slot i)

theorem Engine.BoundAs.refl (e : Engine) : e.BoundAs e := ⟨rfl, rfl, fun q _ h => .inr ⟨q, h⟩⟩

theorem Engine.BoundAs.trans {e e' e'' : Engine} (h : e.BoundAs e') (h' : e'.BoundAs e'') : e.BoundAs e'' where
  kind := h'.kind.trans h.kind
  unit := h'.unit.trans h.unit
  table q l hc := (h'.table q l hc).elim .inl fun ⟨q', hc'⟩ => h.table q' l hc'

theorem optionRel_refl (o : Option Engine) : Option.Rel Engine.BoundAs o o := by
  cases o with
  | none => exact .none
  | some e => exact .some (.refl e)

theorem optionRel_map {f : Engine → Engine} (h : ∀ e : Engine, e.BoundAs (f e)) (o : Option Engine) :
    Option.Rel Engine.BoundAs o (o.map f) := by
  cases o with
  | none => exact .none
  | some e => exact .some (h e)

theorem optionRel_trans {o o' o'' : Option Engine} (h : Option.Rel Engine.BoundAs o o')
    (h' : Option.Rel Engine.BoundAs o' o'') : Option.Rel Engine.BoundAs o o'' := by
  cases h with
  | none => exact h'
  | some h =>
    cases h' with
    | some h' => exact .some (h.trans h')

namespace DriverState.BoundAs

variable {d d' d'' : DriverState}

theorem refl (d : DriverState) : d.BoundAs d := ⟨rfl, id, fun _ => id, optionRel_refl _⟩

theorem trans (h : d.BoundAs d') (h' : d'.BoundAs d'') : d.BoundAs d'' where
  variant := h'.variant.trans h.variant
  failed := h'.failed ∘ h.failed
  cfg henc := h'.cfg (h.variant ▸ henc) ∘ h.cfg henc
  eng := optionRel_trans h.eng h'.eng

/-- An update of the engine, and of what the binding does not speak of. -/
theorem of_map {f : Engine → Engine} (hf : ∀ e : Engine, e.BoundAs (f e)) (hv : d'.variant = d.variant)
    (hs : d'.status = d.status) (hc : d'.cfg = d.cfg) (he : d'.eng = d.eng.map f) : d.BoundAs d' :=
  ⟨hv, fun h => hs.trans h, fun _ h => hc ▸ h, he ▸ optionRel_map hf _⟩

theorem of_eq (hv : d'.variant = d.variant) (hs : d'.status = d.status) (hc : d'.cfg = d.cfg) (he : d'.eng = d.eng) :
    d.BoundAs d' := of_map Engine.BoundAs.refl hv hs hc (by rw [he, Option.map_id'])

end DriverState.BoundAs

namespace State.BoundAs

variable {s t u : State}

theorem of_slots (hb : t.board = s.board) (hr : t.renderPos = s.renderPos) (hg : t.begun = s.begun)
    (hs : ∀ i, t.slot i = s.slot i) : s.BoundAs t := ⟨hb, hr, hg, fun i => hs i ▸ .refl _⟩

theorem refl (s : State) : s.BoundAs s := of_slots rfl rfl rfl fun _ => rfl

theorem trans (h : s.BoundAs t) (h' : t.BoundAs u) : s.BoundAs u where
  board := h'.board.trans h.board
  renderPos := h'.renderPos.trans h.renderPos
  begun := h'.begun.trans h.begun
  slot i := (h.slot i).trans (h'.slot i)

theorem setSlot {i : Nat} {d : DriverState} (h : (s.slot i).BoundAs d) : s.BoundAs (s.setSlot i d) where
  board := rfl
  renderPos := rfl
  begun := rfl
  slot j := by
    rw [setSlot_slot]
    split
    · subst j; exact h
    · exact .refl _

theorem addFault (s : State) (f : FaultRecord) : s.BoundAs (s.addFault f) :=
  of_slots (by simp) (by simp) (by simp) (by simp)

end State.BoundAs

/-! ## Operations that keep the binding -/

/-- The operation keeps the binding of every slot's driver, finished or faulted. -/
def Op.KeepsBinding (x : Op α) : Prop := ∀ s, Ends (fun _ t => s.BoundAs t) s.BoundAs True (x s)

/-- What an operation does after a step that kept the binding counts from before it. -/
theorem Op.KeepsBinding.after {x : Op α} (hx : x.KeepsBinding) {s t : State} (h : s.BoundAs t) :
    Ends (fun _ u => s.BoundAs u) s.BoundAs True (x t) :=
  (hx t).mono (fun _ _ => h.trans) (fun _ => h.trans) id

theorem Op.KeepsBinding.bind {x : Op α} {f : α → Op β} (hx : x.KeepsBinding) (hf : ∀ a, (f a).KeepsBinding) :
    (x >>= f).KeepsBinding := fun s => (hx s).bind fun a _ ht => (hf a).after ht

theorem Op.KeepsBinding.ite {c : Prop} [Decidable c] {x y : Op α} (hx : x.KeepsBinding) (hy : y.KeepsBinding) :
    (if c then x else y).KeepsBinding := by split <;> assumption

theorem Op.Reads.keepsBinding {x : Op α} (h : x.Reads fun _ => True) : x.KeepsBinding := fun s =>
  (h s).mono (fun _ _ ht => ht ▸ .refl s) (fun _ => False.elim) fun _ => trivial

theorem pure_keepsBinding (a : α) : (pure a : Op α).KeepsBinding := (pure_reads a).keepsBinding

theorem entryOf_keepsBinding (xs : List α) (k : Nat) : (entryOf xs k).KeepsBinding := fun s =>
  (entryOf_ends xs k s).mono (fun _ _ ht => ht ▸ .refl s) (fun _ => id) fun _ => trivial

theorem raise_keepsBinding (f : FaultRecord) : (raise f : Op α).KeepsBinding := fun s => .addFault s f

theorem raiseIf_keepsBinding (c : Bool) (f : FaultRecord) : (raiseIf c f).KeepsBinding :=
  .ite (raise_keepsBinding f) (pure_keepsBinding ())

/-- A write that no driver sees. -/
theorem modState_keepsBinding {f : State → State} (h : ∀ s : State, s.BoundAs (f s)) : (modState f).KeepsBinding := h

theorem modSlot_keepsBinding (i : Nat) {f : DriverState → DriverState}
    (h : ∀ d : DriverState, d.BoundAs (f d)) :
    (modSlot i f).KeepsBinding := fun _ => .setSlot (h _)

theorem modEngine_keepsBinding (i : Nat) {f : Engine → Engine} (h : ∀ e : Engine, e.BoundAs (f e)) :
    (modEngine i f).KeepsBinding := modSlot_keepsBinding i fun _ => .of_map h rfl rfl rfl rfl

theorem modPu_keepsBinding (u : Nat) (f : PulseUnit → PulseUnit) : (modPu u f).KeepsBinding := fun _ =>
  .of_slots rfl rfl rfl fun _ => rfl

theorem modSu_keepsBinding (u : Nat) (f : SerialUnit → SerialUnit) : (modSu u f).KeepsBinding := fun _ =>
  .of_slots rfl rfl rfl fun _ => rfl

theorem answer_keepsBinding (r : Reply) : (answer r).KeepsBinding := fun _ => .of_slots rfl rfl rfl fun _ => rfl

theorem logDiag_keepsBinding (i : Nat) (d : DiagDetail) : (logDiag i d).KeepsBinding := fun _ =>
  .of_slots rfl rfl rfl fun _ => rfl

theorem drawPeriphInit_keepsBinding (i : Nat) : (drawPeriphInit i).KeepsBinding := by
  intro s
  unfold drawPeriphInit
  split <;> exact .of_slots rfl rfl rfl fun _ => rfl

theorem forEach_keepsBinding {f : Nat → Op Unit} (hf : ∀ i, (f i).KeepsBinding) : ∀ xs, (forEach f xs).KeepsBinding
  | [] => pure_keepsBinding ()
  | i :: rest => (hf i).bind fun _ => forEach_keepsBinding hf rest

theorem bufRead_keepsBinding (a : Nat) : (bufRead a).KeepsBinding := by
  intro s
  rw [bufRead_run]
  split
  · exact .addFault s _
  · exact .refl s

/-! ## The engines -/

/-- An update of an engine's common fields. -/
theorem Engine.BoundAs.of_core {e e' : Engine} (hu : e'.unit = e.unit) (hc : e'.core = e.core) : e.BoundAs e' :=
  ⟨by rw [Engine.kind, hc]; rfl, hu, fun q _ h => .inr ⟨q, hc ▸ h⟩⟩

theorem withPulseSeq_boundAs (e : Engine) (q : PulseSeq) : e.BoundAs (e.withPulseSeq q) := by
  refine ⟨?_, ?_, fun q' l h => .inr (withPulseSeq_keepsTable e q q' l h)⟩
  all_goals
    unfold Engine.withPulseSeq
    split
    · simp_all [Engine.kind]
    · rfl

theorem withSerialSeq_boundAs (e : Engine) (q : SerialSeq) : e.BoundAs (e.withSerialSeq q) := by
  refine ⟨?_, ?_, fun q' l h => .inr (withSerialSeq_keepsTable e q q' l h)⟩
  all_goals
    unfold Engine.withSerialSeq
    split
    · simp_all [Engine.kind]
    · rfl

theorem withPulseLatch_boundAs (e : Engine) (l : PulseLatch) : e.BoundAs (e.withPulseLatch l) := by
  unfold Engine.withPulseLatch
  split
  · exact ⟨by simp_all [Engine.kind], rfl, nofun⟩
  · exact .refl e

theorem withSerialLatch_boundAs (e : Engine) {l : SerialLatch} (hl : l.legal) : e.BoundAs (e.withSerialLatch l) := by
  unfold Engine.withSerialLatch
  split
  · refine ⟨by simp_all [Engine.kind], rfl, fun q l' h => .inl ?_⟩
    cases h
    exact hl
  · exact .refl e

theorem drvMoreData_keepsBinding (i : Nat) : (drvMoreData i).KeepsBinding :=
  (drvMoreData_reads i).keepsBinding

theorem drvNextByte_keepsBinding (i : Nat) : (drvNextByte i).KeepsBinding :=
  .bind (engineOf_reads i _).keepsBinding fun _ => .bind getState_reads.keepsBinding fun s => by
    cases encoderCfg (s.slot i).cfg with
    | none => exact fun _ => trivial
    | some c =>
      refine .bind ?_ fun _ => .bind (bufRead_keepsBinding _) fun _ =>
        .bind (modEngine_keepsBinding i fun _ => .of_core rfl rfl) fun _ => entryOf_keepsBinding _ _
      unfold sourceIndex
      exact .ite (.bind (entryOf_keepsBinding _ _) fun _ => pure_keepsBinding _) (pure_keepsBinding _)

theorem setPulseSeq_keepsBinding (i : Nat) (q : PulseSeq) : (setPulseSeq i q).KeepsBinding :=
  modEngine_keepsBinding i fun e => withPulseSeq_boundAs e q

theorem setSerialSeq_keepsBinding (i : Nat) (q : SerialSeq) : (setSerialSeq i q).KeepsBinding :=
  modEngine_keepsBinding i fun e => withSerialSeq_boundAs e q

theorem xlatLookupPulse_keepsBinding (i : Nat) (x : Symbol) : (xlatLookupPulse i x).KeepsBinding :=
  (xlatLookupPulse_reads i x).keepsBinding

theorem xlatLookupSerial_keepsBinding (i g : Nat) : (xlatLookupSerial i g).KeepsBinding :=
  Op.Reads.keepsBinding fun s => (xlatLookupSerial_reads i g s).mono (fun _ _ => id) (fun _ => id) fun _ => trivial

theorem peEmitBit_keepsBinding (i : Nat) (l : PulseLatch) (q : PulseSeq) (b : Byte) :
    (peEmitBit i l q b).KeepsBinding :=
  .bind (xlatLookupPulse_keepsBinding i _) fun _ =>
    have hset : ∀ q' (p : PulseDescriptor), (do setPulseSeq i q'; pure p).KeepsBinding := fun q' _ =>
      .bind (setPulseSeq_keepsBinding i q') fun _ => pure_keepsBinding _
    .ite (.bind (drvMoreData_keepsBinding i) fun _ => hset _ _) (hset _ _)

/-- A pass of PE_NEXT_ITEM (R194). -/
theorem pePass_keepsBinding (i : Nat) : (pePass i).KeepsBinding :=
  .bind (pulseEngineOf_reads i).keepsBinding fun ⟨_, q, l⟩ =>
    .bind (latched_reads l _).keepsBinding fun l => by
      have hitem : ∀ q' x, (do setPulseSeq i q'; let p ← xlatLookupPulse i x; pure (some (some p))).KeepsBinding :=
        fun q' x => .bind (setPulseSeq_keepsBinding i q') fun _ => .bind (xlatLookupPulse_keepsBinding i x) fun _ =>
          pure_keepsBinding _
      have hmove : ∀ q' (r : Option (Option PulseDescriptor)), (do setPulseSeq i q'; pure r).KeepsBinding :=
        fun q' r => .bind (setPulseSeq_keepsBinding i q') fun _ => pure_keepsBinding r
      have hbit : ∀ q' b, (do let p ← peEmitBit i l q' b; pure (some (some p))).KeepsBinding := fun q' b =>
        .bind (peEmitBit_keepsBinding i l q' b) fun _ => pure_keepsBinding _
      cases q.phase with
      | preIdle => exact .ite (hitem _ _) (hmove _ _)
      | data =>
        cases q.curByte with
        | some b => exact hbit q b
        | none =>
          exact .bind (drvMoreData_keepsBinding i) fun _ =>
            .ite (.bind (drvNextByte_keepsBinding i) fun _ => hbit _ _) (hmove _ _)
      | gap => exact hitem _ _
      | postIdle => exact .ite (hitem _ _) (hmove _ _)
      | done => exact pure_keepsBinding _

/-- A pass of SE_NEXT_ITEM (R226). -/
theorem sePass_keepsBinding (i : Nat) : (sePass i).KeepsBinding :=
  .bind (serialEngineOf_reads i).keepsBinding fun ⟨_, q, l⟩ =>
    .bind (latched_reads l _).keepsBinding fun l => by
      have hmove : ∀ q' (r : Option (Option Byte)), (do setSerialSeq i q'; pure r).KeepsBinding :=
        fun q' r => .bind (setSerialSeq_keepsBinding i q') fun _ => pure_keepsBinding r
      have hfixed : ∀ xs next, (do seFixed i q xs next; pure none : Op (Option (Option Byte))).KeepsBinding :=
        fun xs next => .bind (by unfold seFixed; split <;> exact setSerialSeq_keepsBinding i _) fun _ =>
          pure_keepsBinding _
      cases q.curByte with
      | some b =>
        have hlook : ∀ q' : SerialSeq, (do
            setSerialSeq i q'
            let x ← xlatLookupSerial i (group b q.groupIdx l.G)
            pure (some (some x))).KeepsBinding := fun q' =>
          .bind (setSerialSeq_keepsBinding i q') fun _ => .bind (xlatLookupSerial_keepsBinding i _) fun _ =>
            pure_keepsBinding _
        exact .ite (hlook _) (hlook _)
      | none =>
        cases q.sphase with
        | framePrefix => exact .bind (drvMoreData_keepsBinding i) fun _ => hfixed _ _
        | pixelPrefix => exact hfixed _ _
        | pixelData =>
          exact .bind (drvMoreData_keepsBinding i) fun _ => .ite
            (.bind (drvNextByte_keepsBinding i) fun _ => .bind (serialEngineOf_reads i).keepsBinding fun _ =>
              .bind (drvMoreData_keepsBinding i) fun _ => hmove _ _)
            (hmove _ _)
        | pixelSuffix => exact .bind (drvMoreData_keepsBinding i) fun _ => hfixed _ _
        | frameSuffix =>
          simp only
          split <;> exact hmove _ _
        | done => exact pure_keepsBinding _

theorem passLoop_keepsBinding {pass : Op (Option (Option α))} (h : pass.KeepsBinding) :
    ∀ n, (passLoop pass n).KeepsBinding
  | 0 => fun _ => trivial
  | n + 1 => h.bind fun r => by
    cases r with
    | some p => exact pure_keepsBinding p
    | none => exact passLoop_keepsBinding h n

theorem peNextItem_keepsBinding (i : Nat) : (peNextItem i).KeepsBinding := by
  rw [peNextItem, peLoop_eq]
  exact passLoop_keepsBinding (pePass_keepsBinding i) 3

theorem seNextItem_keepsBinding (i : Nat) : (seNextItem i).KeepsBinding := by
  rw [seNextItem, seLoop_eq]
  exact passLoop_keepsBinding (sePass_keepsBinding i) 5

theorem peFillLoop_keepsBinding (i : Nat) : ∀ n, (peFillLoop i n).KeepsBinding
  | 0 => pure_keepsBinding ()
  | n + 1 =>
    .bind (pulseEngineOf_reads i).keepsBinding fun _ => .bind getState_reads.keepsBinding fun _ =>
      .ite
        (.bind (peNextItem_keepsBinding i) fun r => by
          cases r with
          | some p => exact .bind (modPu_keepsBinding _ _) fun _ => peFillLoop_keepsBinding i n
          | none => exact peFillLoop_keepsBinding i n)
        (pure_keepsBinding ())

theorem seFillLoop_keepsBinding (i : Nat) : ∀ n, (seFillLoop i n).KeepsBinding
  | 0 => pure_keepsBinding ()
  | n + 1 =>
    .bind (serialEngineOf_reads i).keepsBinding fun _ => .bind getState_reads.keepsBinding fun _ =>
      .ite
        (.bind (seNextItem_keepsBinding i) fun r => by
          cases r with
          | some x => exact .bind (modSu_keepsBinding _ _) fun _ => seFillLoop_keepsBinding i n
          | none => exact seFillLoop_keepsBinding i n)
        (pure_keepsBinding ())

theorem peFill_keepsBinding (i : Nat) : (peFill i).KeepsBinding :=
  .bind getState_reads.keepsBinding fun _ => peFillLoop_keepsBinding i _

theorem seFill_keepsBinding (i : Nat) : (seFill i).KeepsBinding :=
  .bind getState_reads.keepsBinding fun _ => seFillLoop_keepsBinding i _

/-- A frame's start (R193, R225): the frame counted, the engine of the slot as `f` leaves it. -/
theorem frameStart_keepsBinding (i : Nat) {f : State → Engine → Engine} (hf : ∀ s (e : Engine), e.BoundAs (f s e)) :
    (modState fun s => s.setSlot i
      { (s.slot i).mapEng (f s) with frameCount := countUp (s.slot i).frameCount }).KeepsBinding :=
  modState_keepsBinding fun s => .setSlot (.of_map (hf s) rfl rfl rfl rfl)

theorem filling_boundAs (e : Engine) (now : Nat) : e.BoundAs (e.filling now) := .of_core rfl rfl

theorem peStartFrame_keepsBinding (i : Nat) : (peStartFrame i).KeepsBinding :=
  .bind (pulseEngineOf_reads i).keepsBinding fun _ =>
    .bind (frameStart_keepsBinding i (f := fun s e => (e.filling s.now).withPulseSeq pulseSeqStart)
      fun s e => (filling_boundAs e s.now).trans (withPulseSeq_boundAs _ _)) fun _ =>
      .bind (modPu_keepsBinding _ _) fun _ => .bind (peFill_keepsBinding i) fun _ =>
        .bind (modEngine_keepsBinding i fun _ => .of_core rfl rfl) fun _ => modPu_keepsBinding _ _

theorem seStartFrame_keepsBinding (i : Nat) : (seStartFrame i).KeepsBinding :=
  .bind (serialEngineOf_reads i).keepsBinding fun _ =>
    .bind (frameStart_keepsBinding i (f := fun s e => (e.filling s.now).withSerialSeq serialSeqStart)
      fun s e => (filling_boundAs e s.now).trans (withSerialSeq_boundAs _ _)) fun _ =>
      .bind (modSu_keepsBinding _ _) fun _ => .bind (seFill_keepsBinding i) fun _ =>
        .bind (modEngine_keepsBinding i fun _ => .of_core rfl rfl) fun _ => modSu_keepsBinding _ _

theorem ended_boundAs (e : Engine) : e.BoundAs e.ended := .of_core rfl rfl

/-- An underrun's writes to the driver (R196, R228): the error counted, the engine as `f` leaves it. -/
theorem countError_keepsBinding (i : Nat) {f : Engine → Engine} (hf : ∀ e : Engine, e.BoundAs (f e)) :
    (modSlot i fun d => { d.mapEng f with hwErrorCount := countUp d.hwErrorCount }).KeepsBinding :=
  modSlot_keepsBinding i fun _ => .of_map hf rfl rfl rfl rfl

theorem peIsr_keepsBinding (i : Nat) : (peIsr i).KeepsBinding :=
  .bind (pulseEngineOf_reads i).keepsBinding fun _ => .bind getState_reads.keepsBinding fun _ =>
    .ite
      (.bind (modPu_keepsBinding _ _) fun _ => .ite (modEngine_keepsBinding i ended_boundAs)
        (.bind (countError_keepsBinding i fun e => (ended_boundAs e).trans (withPulseSeq_boundAs _ _)) fun _ =>
          .bind (modPu_keepsBinding _ _) fun _ => raise_keepsBinding _))
      (.ite (.bind (modPu_keepsBinding _ _) fun _ => .ite (peFill_keepsBinding i) (pure_keepsBinding ()))
        (pure_keepsBinding ()))

theorem seIsr_keepsBinding (i : Nat) : (seIsr i).KeepsBinding :=
  .bind (serialEngineOf_reads i).keepsBinding fun _ => .bind getState_reads.keepsBinding fun _ =>
    .ite
      (.bind (modSu_keepsBinding _ _) fun _ => .ite (modEngine_keepsBinding i ended_boundAs)
        (.bind (countError_keepsBinding i fun e => (ended_boundAs e).trans (withSerialSeq_boundAs _ _)) fun _ =>
          .bind (modSu_keepsBinding _ _) fun _ => raise_keepsBinding _))
      (.ite (.bind (modSu_keepsBinding _ _) fun _ => .ite (seFill_keepsBinding i) (pure_keepsBinding ()))
        (pure_keepsBinding ()))

theorem peIdle_keepsBinding (i : Nat) : (peIdle i).KeepsBinding :=
  .bind (pulseEngineOf_reads i).keepsBinding fun _ => .bind getState_reads.keepsBinding fun _ =>
    .bind (guardStep_reads _ _).keepsBinding fun _ => modEngine_keepsBinding i fun _ => .of_core rfl rfl

theorem seIdle_keepsBinding (i : Nat) : (seIdle i).KeepsBinding :=
  .bind (serialEngineOf_reads i).keepsBinding fun _ => .bind getState_reads.keepsBinding fun _ =>
    .bind (guardStep_reads _ _).keepsBinding fun _ => modEngine_keepsBinding i fun _ => .of_core rfl rfl

theorem peBegin_keepsBinding (i : Nat) : (peBegin i).KeepsBinding :=
  .bind (pulseEngineOf_reads i).keepsBinding fun _ => .bind getState_reads.keepsBinding fun s =>
    .bind (raiseIf_keepsBinding _ _) fun _ => by
      cases pulseConstantsOf s.board (s.slot i).variant with
      | none => exact (refuse_reads _).keepsBinding
      | some pc =>
        exact .bind (refuseIf_reads _ _).keepsBinding fun _ =>
          .bind (modEngine_keepsBinding i fun e => withPulseLatch_boundAs e _) fun _ => modPu_keepsBinding _ _

/-- The table SE_BEGIN latches is total (R154, R117). -/
theorem serialLatchOf_legal {pc : SerialConstants} (h : serialTimingOk pc.G pc.S pc.H0 pc.H1 = true) (D C : Nat) :
    (serialLatchOf pc (serialTable pc.G pc.S pc.H0 pc.H1) D C).legal := by
  simp only [serialTimingOk, Bool.and_eq_true] at h
  obtain ⟨⟨⟨hwidth, -⟩, -⟩, -⟩ := h
  exact ⟨hwidth, by simp [serialLatchOf, serialTable]⟩

/-- What follows the building of a serial table may use that its timing is legal (R154). -/
theorem buildSerial_keepsBinding {G S H0 H1 : Nat} {f : List Byte × Nat → Op α}
    (hf : serialTimingOk G S H0 H1 = true → (f (serialTable G S H0 H1, G * S - 2)).KeepsBinding) :
    (xlatBuildSerial G S H0 H1 >>= f).KeepsBinding := by
  intro s
  cases h : serialTimingOk G S H0 H1 with
  | false => rw [op_bind_error (xlatBuildSerial_refused h s)]; trivial
  | true => rw [op_bind_ok (xlatBuildSerial_ok h s)]; exact hf h s

theorem seBegin_keepsBinding (i : Nat) : (seBegin i).KeepsBinding :=
  .bind (serialEngineOf_reads i).keepsBinding fun _ => .bind getState_reads.keepsBinding fun s =>
    .bind (raiseIf_keepsBinding _ _) fun _ => by
      cases serialConstantsOf s.board (s.slot i).variant with
      | none => exact (refuse_reads _).keepsBinding
      | some pc =>
        refine buildSerial_keepsBinding fun htime => ?_
        exact .bind (refuseIf_reads _ _).keepsBinding fun _ => .bind (refuseIf_reads _ _).keepsBinding fun _ =>
          .bind (modEngine_keepsBinding i fun e => withSerialLatch_boundAs e (serialLatchOf_legal htime _ _)) fun _ =>
            modSu_keepsBinding _ _

end Sys2Proof.Machine
end

section
/-! SUPPORT. The driver, the manager and every instruction that builds no driver keep every driver's binding, and a
Failed driver Failed (R269). -/

namespace Sys2Proof.Machine

variable {α β : Type}

/-! ## The driver -/

theorem engineBegin_keepsBinding (i : Nat) : (engineBegin i).KeepsBinding :=
  .bind getState_reads.keepsBinding fun s => by
    cases engineKindOf (s.slot i).variant with
    | none => exact pure_keepsBinding ()
    | some k =>
      cases k with
      | pulse => exact peBegin_keepsBinding i
      | serial => exact seBegin_keepsBinding i

theorem startFrame_keepsBinding (i : Nat) : (startFrame i).KeepsBinding :=
  .bind getState_reads.keepsBinding fun s => by
    cases engineKindOf (s.slot i).variant with
    | none => exact pure_keepsBinding ()
    | some k =>
      cases k with
      | pulse => exact peStartFrame_keepsBinding i
      | serial => exact seStartFrame_keepsBinding i

theorem quietUnit_keepsBinding (e : Engine) : (quietUnit e).KeepsBinding := by
  unfold quietUnit
  cases e.kind with
  | pulse => exact modPu_keepsBinding _ _
  | serial => exact modSu_keepsBinding _ _

theorem drvStop_keepsBinding (i : Nat) : (drvStop i).KeepsBinding :=
  .bind getState_reads.keepsBinding fun s => by
    cases (s.slot i).eng with
    | none => exact pure_keepsBinding ()
    | some e =>
      exact .bind (raiseIf_keepsBinding _ _) fun _ =>
        .bind (modEngine_keepsBinding i fun _ => .of_core rfl rfl) fun _ => quietUnit_keepsBinding e

/-- What follows a fault's guard begins where the guard did, and may use that the guard let it pass. -/
theorem raiseIf_ends_boundAs (c : Bool) (f : FaultRecord) (s : State) :
    Ends (fun _ t => t = s ∧ c = false) s.BoundAs True (raiseIf c f s) := by
  cases c with
  | false => exact ⟨rfl, rfl⟩
  | true => exact .addFault s f

/-- A driver that was not Failed may be given any status. -/
theorem State.BoundAs.setStatus {s t : State} (h : s.BoundAs t) {i : Nat} {d : DriverState}
    (hs : (s.slot i).status ≠ .failed) (hv : d.variant = (t.slot i).variant) (hc : d.cfg = (t.slot i).cfg)
    (he : d.eng = (t.slot i).eng) : s.BoundAs (t.setSlot i d) where
  board := h.board
  renderPos := h.renderPos
  begun := h.begun
  slot j := by
    rw [setSlot_slot]
    split
    · subst j
      obtain ⟨hvariant, -, hcfg, heng⟩ := h.slot i
      exact ⟨hv.trans hvariant, fun hf => absurd hf hs, fun henc hl => hc ▸ hcfg henc hl, he ▸ heng⟩
    · exact h.slot j

/-- DRV_BEGIN leaves a Failed driver as it is (R254). -/
theorem drvBegin_keepsBinding (i : Nat) : (drvBegin i).KeepsBinding := by
  intro s
  rw [drvBegin, op_bind_ok (getState_run s)]
  refine (raiseIf_ends_boundAs _ _ s).bind ?_
  rintro _ s ⟨rfl, -⟩
  by_cases hfailed : (s.slot i).status = .failed
  · rw [if_pos hfailed]
    exact .refl s
  rw [if_neg hfailed]
  split
  · refine (drawPeriphInit_keepsBinding i s).bind fun ok t ht => ?_
    cases ok with
    | true =>
      exact ((engineBegin_keepsBinding i).after ht).bind fun _ u hu => hu.setStatus hfailed rfl rfl rfl
    | false =>
      rw [if_neg Bool.false_ne_true, op_bind_ok (modSlot_run i _ t)]
      exact (logDiag_keepsBinding i _).after (ht.setStatus hfailed rfl rfl rfl)
  · exact (State.BoundAs.refl s).setStatus hfailed rfl rfl rfl

/-- DRV_SET_CONFIG stores only a legal configuration in an encoder (R256, R37). -/
theorem drvSetConfig_keepsBinding (i : Nat) (params : ParamObject) : (drvSetConfig i params).KeepsBinding := by
  intro s
  rw [drvSetConfig, op_bind_ok (getState_run s)]
  refine (raiseIf_ends_boundAs _ _ s).bind ?_
  rintro _ s ⟨rfl, -⟩
  split
  · exact .refl s
  split
  · cases mergeDriverCfg (s.slot i).cfg params with
    | none => trivial
    | some c =>
      refine (refuseIf_ends _ _ s).bind ?_
      rintro _ s ⟨rfl, hlegal⟩
      have hstored : s.BoundAs (s.setSlot i
          { s.slot i with cfg := c, needed := neededBytes s.board (s.slot i).variant c }) :=
        .setSlot ⟨rfl, id, fun _ _ => by simpa using hlegal, optionRel_refl _⟩
      rw [op_bind_ok (modSlot_run i _ s)]
      exact (Op.KeepsBinding.ite (engineBegin_keepsBinding i) (pure_keepsBinding ())).after hstored
  · rename_i hopaque
    exact .setSlot ⟨rfl, id, fun henc => absurd henc hopaque, optionRel_refl _⟩

theorem drvRender_keepsBinding (i : Nat) : (drvRender i).KeepsBinding :=
  .bind getState_reads.keepsBinding fun s => by
    cases (s.slot i).eng with
    | none => exact pure_keepsBinding ()
    | some e =>
      exact .ite (pure_keepsBinding ())
        (.ite (modSlot_keepsBinding i fun _ => .of_eq rfl rfl rfl rfl) (startFrame_keepsBinding i))

theorem drvPause_keepsBinding (i : Nat) : (drvPause i).KeepsBinding :=
  modSlot_keepsBinding i fun _ => .of_eq rfl rfl rfl rfl

theorem drvResume_keepsBinding (i : Nat) : (drvResume i).KeepsBinding :=
  .bind getState_reads.keepsBinding fun _ => modSlot_keepsBinding i fun _ => .of_eq rfl rfl rfl rfl

theorem drvSetBuffer_keepsBinding (i offset length : Nat) : (drvSetBuffer i offset length).KeepsBinding :=
  .bind getState_reads.keepsBinding fun _ => .bind (raiseIf_keepsBinding _ _) fun _ =>
    .bind (refuseIf_reads _ _).keepsBinding fun _ =>
      modSlot_keepsBinding i fun _ =>
        .of_map (f := fun e => { e with cursor := 0 }) (fun _ => .of_core rfl rfl) rfl rfl rfl rfl

/-! ## The manager -/

theorem mgrResolveEntry_keepsBinding (i : Nat) (doc : ConfigDoc) : (mgrResolveEntry i doc).KeepsBinding :=
  .bind getState_reads.keepsBinding fun s => by
    cases resolve s i doc with
    | bind v p => exact pure_keepsBinding _
    | bad r => exact .bind (logDiag_keepsBinding i _) fun _ => pure_keepsBinding _

theorem partitionSlot_keepsBinding (i off : Nat) : (partitionSlot i off).KeepsBinding :=
  .bind getState_reads.keepsBinding fun _ =>
    have hslice : ∀ n m, (do drvSetBuffer i off n; pure m : Op Nat).KeepsBinding := fun n _ =>
      .bind (drvSetBuffer_keepsBinding i off n) fun _ => pure_keepsBinding _
    .ite (.bind (logDiag_keepsBinding i _) fun _ => hslice _ _) (hslice _ _)

theorem partitionFrom_keepsBinding : ∀ (xs : List Nat) (off : Nat), (partitionFrom off xs).KeepsBinding
  | [], _ => pure_keepsBinding _
  | i :: rest, off => .bind (partitionSlot_keepsBinding i off) fun next => partitionFrom_keepsBinding rest next

theorem mgrNotifyCapacity_keepsBinding : mgrNotifyCapacity.KeepsBinding :=
  modState_keepsBinding fun _ => .of_slots rfl rfl rfl fun _ => rfl

theorem mgrUpdatePartition_keepsBinding : mgrUpdatePartition.KeepsBinding :=
  .bind getState_reads.keepsBinding fun _ => .bind (partitionFrom_keepsBinding _ 0) fun _ =>
    .bind (modState_keepsBinding fun _ => .of_slots rfl rfl rfl fun _ => rfl) fun _ => mgrNotifyCapacity_keepsBinding

theorem mgrPause_keepsBinding : mgrPause.KeepsBinding :=
  .bind (modState_keepsBinding fun _ => .of_slots rfl rfl rfl fun _ => rfl) fun _ =>
    .bind getState_reads.keepsBinding fun _ => forEach_keepsBinding drvPause_keepsBinding _

theorem mgrResume_keepsBinding : mgrResume.KeepsBinding :=
  .bind (modState_keepsBinding fun _ => .of_slots rfl rfl rfl fun _ => rfl) fun _ =>
    .bind getState_reads.keepsBinding fun _ => forEach_keepsBinding drvResume_keepsBinding _

/-! ## The units, the interrupt and the host -/

theorem puEmit_keepsBinding (i : Nat) : (puEmit i).KeepsBinding :=
  .bind (pulseEngineOf_reads i).keepsBinding fun a => .bind getState_reads.keepsBinding fun s =>
    .bind (guardStep_reads _ _).keepsBinding fun _ => by
      cases (s.pu a.1.unit).ring with
      | nil => exact (disabled_reads _).keepsBinding
      | cons d rest => exact modPu_keepsBinding _ _

theorem suShift_keepsBinding (i : Nat) : (suShift i).KeepsBinding :=
  .bind (serialEngineOf_reads i).keepsBinding fun a => .bind getState_reads.keepsBinding fun s =>
    .bind (guardStep_reads _ _).keepsBinding fun _ => by
      cases (s.su a.1.unit).fifo with
      | nil => exact (disabled_reads _).keepsBinding
      | cons x rest => exact modSu_keepsBinding _ _

theorem irqEntry_keepsBinding (i : Nat) : (irqEntry i).KeepsBinding :=
  .bind getState_reads.keepsBinding fun s => by
    cases (s.slot i).eng with
    | none => exact (disabled_reads _).keepsBinding
    | some e =>
      refine .bind (guardStep_reads _ _).keepsBinding fun _ => ?_
      cases e.kind with
      | pulse => exact peIsr_keepsBinding i
      | serial => exact seIsr_keepsBinding i

theorem hostBufWrite_keepsBinding (a : Nat) (v : Byte) : (hostBufWrite a v).KeepsBinding :=
  .bind getState_reads.keepsBinding fun s => .bind (raiseIf_keepsBinding _ _) fun _ => by
    cases s.slotIndices.find? (fun i => (s.slot i).ownsDuringFrame a) with
    | none => exact modState_keepsBinding fun _ => .of_slots rfl rfl rfl fun _ => rfl
    | some i => exact raise_keepsBinding _

/-! ## The instructions -/

/-- The instructions that may build a new driver in a slot (R252, R290, R295, R298); MGR_RENDER may reload. -/
def mayBuildDrivers : Instr → Bool
  | .mgrBegin => true
  | .mgrReload => true
  | .mgrRender => true
  | .mgrApplyConfig _ => true
  | .drvConstruct _ _ => true
  | _ => false

/-- What holds however an operation ends, and of the state with a refusal mark, holds of its step's next state. -/
theorem runStep_ends {x : Op Unit} {s t : State} {P : State → Prop} (hrun : runStep s x = .next t)
    (hx : Ends (fun _ => P) P True (x s)) (hmark : ∀ r, P { s with refused := some r }) : P t := by
  rcases runStep_next hrun with hok | hraised | ⟨r, u, -, rfl⟩
  · rw [hok] at hx; exact hx
  · rw [hraised] at hx; exact hx
  · exact hmark r

/-- The refusal mark is no part of the binding. -/
theorem runStep_boundAs {x : Op Unit} {s t : State} (hrun : runStep s x = .next t) (hx : x.KeepsBinding) :
    s.BoundAs t := runStep_ends hrun (hx s) fun _ => .of_slots rfl rfl rfl fun _ => rfl

theorem mainLoop_keepsBinding {m : String} {x : Op Unit} (hx : x.KeepsBinding) :
    (do admitBegun; admitTurn m; x).KeepsBinding :=
  .bind admitBegun_reads.keepsBinding fun _ => .bind (admitTurn_reads m).keepsBinding fun _ => hx

theorem onSlot_keepsBinding (i : Nat) {x : Op α} (hx : x.KeepsBinding) : (do admitSlot i; x).KeepsBinding :=
  .bind (admitSlot_reads i).keepsBinding fun _ => hx

theorem onKind_keepsBinding (i : Nat) (k : EngineKind) {x : Op α} (hx : x.KeepsBinding) :
    (do admitSlot i; admitKind i k; x).KeepsBinding :=
  onSlot_keepsBinding i (.bind (admitKind_reads i k).keepsBinding fun _ => hx)

/-- An operation on the pulse engine of slot `i`, behind its guard. -/
theorem onPulseEngine_keepsBinding {i : Nat} {c : Engine × PulseSeq × Option PulseLatch → Bool} {m : String}
    {f : Engine × PulseSeq × Option PulseLatch → Op α} (hf : ∀ a, (f a).KeepsBinding) :
    (do admitSlot i; let a ← pulseEngineOf i; guardStep (c a) m; f a).KeepsBinding :=
  onSlot_keepsBinding i (.bind (pulseEngineOf_reads i).keepsBinding fun a =>
    .bind (guardStep_reads _ _).keepsBinding fun _ => hf a)

/-- An operation on the serial engine of slot `i`, behind its guard. -/
theorem onSerialEngine_keepsBinding {i : Nat} {c : Engine × SerialSeq × Option SerialLatch → Bool} {m : String}
    {f : Engine × SerialSeq × Option SerialLatch → Op α} (hf : ∀ a, (f a).KeepsBinding) :
    (do admitSlot i; let a ← serialEngineOf i; guardStep (c a) m; f a).KeepsBinding :=
  onSlot_keepsBinding i (.bind (serialEngineOf_reads i).keepsBinding fun a =>
    .bind (guardStep_reads _ _).keepsBinding fun _ => hf a)

/-- A value that was read is returned. -/
theorem Op.KeepsBinding.answered {x : Op α} (hx : x.KeepsBinding) (r : α → Reply) :
    (do let a ← x; answer (r a)).KeepsBinding := .bind hx fun _ => answer_keepsBinding _

/-- A read whose own stop needs a table without its entry. -/
theorem Op.Reads.keepsBinding_of_lacks {x : Op α} (h : x.Reads lacksEntry) : x.KeepsBinding :=
  Op.Reads.keepsBinding fun s => (h s).mono (fun _ _ => id) (fun _ => id) fun _ => trivial

/-- Every instruction that builds no driver keeps every slot's binding. -/
theorem exec_boundAs {i : Instr} (hi : mayBuildDrivers i = false) {s t : State} (h : exec i s = .next t) :
    s.BoundAs t := by
  cases i with
  | mgrBegin | mgrReload | mgrRender | mgrApplyConfig _ | drvConstruct _ _ => cases hi
  | mgrSetConfig doc =>
    exact runStep_boundAs h (.bind (admitOperands_reads _).keepsBinding fun _ =>
      mainLoop_keepsBinding (modState_keepsBinding fun _ => .of_slots rfl rfl rfl fun _ => rfl))
  | mgrGetConfig => exact runStep_boundAs h (mainLoop_keepsBinding (answer_keepsBinding _))
  | mgrGetStatus => exact runStep_boundAs h (mainLoop_keepsBinding (answer_keepsBinding _))
  | mgrPause => exact runStep_boundAs h (mainLoop_keepsBinding mgrPause_keepsBinding)
  | mgrResume => exact runStep_boundAs h (mainLoop_keepsBinding mgrResume_keepsBinding)
  | mgrResolveEntry i doc =>
    exact runStep_boundAs h (onSlot_keepsBinding i (.bind (admitOperands_reads _).keepsBinding fun _ =>
      (mgrResolveEntry_keepsBinding i doc).answered _))
  | mgrUpdatePartition =>
    exact runStep_boundAs h (.bind (guardStep_reads _ _).keepsBinding fun _ => mgrUpdatePartition_keepsBinding)
  | mgrNotifyCapacity => exact runStep_boundAs (x := mgrNotifyCapacity) h mgrNotifyCapacity_keepsBinding
  | drvStop i => exact runStep_boundAs h (onSlot_keepsBinding i (drvStop_keepsBinding i))
  | drvBegin i => exact runStep_boundAs h (onSlot_keepsBinding i (mainLoop_keepsBinding (drvBegin_keepsBinding i)))
  | drvSetConfig i p =>
    exact runStep_boundAs h (onSlot_keepsBinding i (.bind (admitOperands_reads _).keepsBinding fun _ =>
      mainLoop_keepsBinding (drvSetConfig_keepsBinding i p)))
  | drvGetConfig i => exact runStep_boundAs h (onSlot_keepsBinding i (mainLoop_keepsBinding (answer_keepsBinding _)))
  | drvRender i => exact runStep_boundAs h (onSlot_keepsBinding i (mainLoop_keepsBinding (drvRender_keepsBinding i)))
  | drvGetStatus i => exact runStep_boundAs h (onSlot_keepsBinding i (mainLoop_keepsBinding (answer_keepsBinding _)))
  | drvPause i => exact runStep_boundAs h (onSlot_keepsBinding i (drvPause_keepsBinding i))
  | drvResume i => exact runStep_boundAs h (onSlot_keepsBinding i (drvResume_keepsBinding i))
  | drvSetBuffer i o n => exact runStep_boundAs h (onSlot_keepsBinding i (drvSetBuffer_keepsBinding i o n))
  | drvMoreData i => exact runStep_boundAs h (onSlot_keepsBinding i ((drvMoreData_keepsBinding i).answered _))
  | drvNextByte i =>
    exact runStep_boundAs h (onSlot_keepsBinding i (.bind (drvMoreData_keepsBinding i) fun _ =>
      .bind (guardStep_reads _ _).keepsBinding fun _ => (drvNextByte_keepsBinding i).answered _))
  | drvNeeded i => exact runStep_boundAs h (onSlot_keepsBinding i (answer_keepsBinding _))
  | xlatSplit b G => exact runStep_boundAs h ((xlatSplit_reads b G).keepsBinding.answered _)
  | xlatLookupPulse i c =>
    exact runStep_boundAs h (onKind_keepsBinding i _ ((xlatLookupPulseCode_reads i c).keepsBinding.answered _))
  | xlatLookupSerial i g =>
    exact runStep_boundAs h (onKind_keepsBinding i _ ((xlatLookupSerial_keepsBinding i g).answered _))
  | xlatBuildSerial G S H0 H1 => exact runStep_boundAs h ((xlatBuildSerial_reads G S H0 H1).keepsBinding.answered _)
  | xlatEncodePulse i b =>
    exact runStep_boundAs h (onKind_keepsBinding i _ ((xlatEncodePulse_reads i b).keepsBinding.answered _))
  | xlatEncodeSerial i b =>
    exact runStep_boundAs h (onKind_keepsBinding i _ ((xlatEncodeSerial_reads i b).keepsBinding_of_lacks.answered _))
  | peBegin i => exact runStep_boundAs h (onSlot_keepsBinding i (peBegin_keepsBinding i))
  | peStartFrame i => exact runStep_boundAs h (onPulseEngine_keepsBinding fun _ => peStartFrame_keepsBinding i)
  | peNextItem i =>
    exact runStep_boundAs h (onPulseEngine_keepsBinding fun _ => (peNextItem_keepsBinding i).answered _)
  | peFill i => exact runStep_boundAs h (onPulseEngine_keepsBinding fun _ => peFill_keepsBinding i)
  | peIsr i => exact runStep_boundAs h (onPulseEngine_keepsBinding fun _ => peIsr_keepsBinding i)
  | peIdle i => exact runStep_boundAs h (onSlot_keepsBinding i (peIdle_keepsBinding i))
  | seBegin i => exact runStep_boundAs h (onSlot_keepsBinding i (seBegin_keepsBinding i))
  | seStartFrame i => exact runStep_boundAs h (onSerialEngine_keepsBinding fun _ => seStartFrame_keepsBinding i)
  | seNextItem i =>
    exact runStep_boundAs h (onSerialEngine_keepsBinding fun _ => (seNextItem_keepsBinding i).answered _)
  | seFill i => exact runStep_boundAs h (onSerialEngine_keepsBinding fun _ => seFill_keepsBinding i)
  | seIsr i => exact runStep_boundAs h (onSerialEngine_keepsBinding fun _ => seIsr_keepsBinding i)
  | seIdle i => exact runStep_boundAs h (onSlot_keepsBinding i (seIdle_keepsBinding i))
  | puStart i => exact runStep_boundAs h (onPulseEngine_keepsBinding fun _ => modPu_keepsBinding _ _)
  | puEmit i => exact runStep_boundAs h (onSlot_keepsBinding i (puEmit_keepsBinding i))
  | suStart i => exact runStep_boundAs h (onSerialEngine_keepsBinding fun _ => modSu_keepsBinding _ _)
  | suShift i => exact runStep_boundAs h (onSlot_keepsBinding i (suShift_keepsBinding i))
  | timerTick n =>
    exact runStep_boundAs h (.bind (admitOperands_reads _).keepsBinding fun _ =>
      modState_keepsBinding fun _ => .of_slots rfl rfl rfl fun _ => rfl)
  | irqEntry i => exact runStep_boundAs h (onSlot_keepsBinding i (irqEntry_keepsBinding i))
  | hostBufWrite a v => exact runStep_boundAs h (hostBufWrite_keepsBinding a v)

/-! ## New drivers (R252) -/

/-- DRV_CONSTRUCT finishes with a new driver of a legal variant, with a legal default, in its slot, or raises
DestroyWhileDraining first. -/
theorem drvConstruct_ends (i : Nat) (v : Variant) (s : State) :
    Ends (fun _ t => ∃ eng, engineFor v (s.periph i) = some eng ∧
        (isEncoder v = true → legalCfg (defaultCfgOf s.board v) = true) ∧
        t = s.setSlot i (newDriver s.board v s.pauseHeld eng))
      (fun t => t = s.addFault (.destroyWhileDraining i)) False (drvConstruct i v s) := by
  rw [drvConstruct, op_bind_ok (getState_run s)]
  cases (s.slot i).transmitting with
  | true => rfl
  | false =>
    rw [op_bind_ok (raiseIf_false _ s)]
    refine (refuseIf_ends _ _ s).bind ?_
    rintro _ s ⟨rfl, -⟩
    refine (refuseIf_ends _ _ s).bind ?_
    rintro _ s ⟨rfl, hdefault⟩
    cases engineFor v (s.periph i) with
    | none => trivial
    | some eng => exact ⟨eng, rfl, fun henc => by simpa [henc] using hdefault, rfl⟩

/-- DRV_CONSTRUCT on one slot leaves the drivers of the others. -/
theorem exec_drvConstruct_other {i k : Nat} (hk : k ≠ i) {v : Variant} {s t : State}
    (h : exec (.drvConstruct i v) s = .next t) : t.slot k = s.slot k := by
  refine runStep_ends h (P := fun t => t.slot k = s.slot k) ?_ fun _ => rfl
  refine Ends.bind ((admitSlot_reads (P := fun _ => True) i s).mono (fun _ _ => id) (fun _ => False.elim) id) ?_
  rintro _ s rfl
  refine (drvConstruct_ends i v s).mono ?_ ?_ False.elim
  · rintro _ _ ⟨eng, -, -, rfl⟩
    exact setSlot_slot_other s i _ hk
  · rintro _ rfl
    exact addFault_slot s _ k

/-- With no document pending, MGR_RENDER opens the render pass at most (R294). -/
theorem mgrRender_noPending {s : State} (h : s.pending = none) :
    mgrRender s = .ok () (if s.userPaused then s else { s with renderPos := some 0 }) := by
  cases hu : s.userPaused <;> simp [mgrRender, op_bind, h, hu]

theorem exec_mgrRender_slot {s t : State} (hp : s.pending = none) (h : exec .mgrRender s = .next t) (k : Nat) :
    t.slot k = s.slot k := by
  refine runStep_ends h (P := fun t => t.slot k = s.slot k) ?_ fun _ => rfl
  refine Ends.bind ((admitBegun_reads (P := fun _ => True) s).mono (fun _ _ => id) (fun _ => False.elim) id) ?_
  rintro _ s rfl
  refine Ends.bind ((admitTurn_reads (P := fun _ => True) _ s).mono (fun _ _ => id) (fun _ => False.elim) id) ?_
  rintro _ s rfl
  rw [mgrRender_noPending hp]
  show State.slot (if _ then _ else _) k = _
  split <;> rfl

/-- Settles O60: the instructions that build no driver keep a Failed driver Failed and of its variant; of the others
only DRV_CONSTRUCT on another slot and MGR_RENDER without a reload remain, which leave it alone. -/
theorem failureIsPermanent : Obligations.FailureIsPermanent := by
  intro i s t k hfailed hrun hconstruct hbegin hreload happly hrender
  have hsame : t.slot k = s.slot k → (t.slot k).status = .failed ∧ (t.slot k).variant = (s.slot k).variant :=
    fun h => by rw [h]; exact ⟨hfailed, rfl⟩
  cases hi : mayBuildDrivers i with
  | false =>
    have hkept := (exec_boundAs hi hrun).slot k
    exact ⟨hkept.failed hfailed, hkept.variant⟩
  | true =>
    cases i with
    | mgrBegin => exact absurd rfl hbegin
    | mgrReload => exact absurd rfl hreload
    | mgrApplyConfig doc => exact absurd rfl (happly doc)
    | mgrRender => exact hsame (exec_mgrRender_slot (hrender rfl) hrun k)
    | drvConstruct j v =>
      have hk : k ≠ j := fun h => hconstruct v (h ▸ rfl)
      exact hsame (exec_drvConstruct_other hk hrun)
    | _ => cases hi

end Sys2Proof.Machine
end

section
/-! SUPPORT. The binding of every driver as an invariant of the steps (R191, R221, R251): DRV_CONSTRUCT builds a bound
driver, and the operations that run it keep a bound state bound. -/

namespace Sys2Proof.Machine

variable {α β : Type}

/-! ## The invariant -/

/-- What `State.Bound` says of one slot's driver, `p` being the slot's peripheral. -/
structure DriverState.Bound (p : Periph) (d : DriverState) : Prop where
  kind : d.eng.map Engine.kind = engineKindOf d.variant
  unit : ∀ e, d.eng = some e → unitFor e.kind p = some e.unit
  cfg : isEncoder d.variant = true → legalCfg d.cfg = true
  latch : ∀ e q l, d.eng = some e → e.core = .serial q (some l) → l.legal

theorem State.bound_iff {s : State} : s.Bound ↔ (∀ i, (s.slot i).Bound (s.periph i)) ∧
    (∀ i, s.renderPos = some i → i < s.board.numSlots) ∧ (s.begun = true → 1 ≤ s.board.numSlots) :=
  ⟨fun h => ⟨fun i => ⟨h.kind i, h.unit i, h.cfg i, h.latch i⟩, h.render, h.begun⟩,
    fun ⟨hslot, hrender, hbegun⟩ => ⟨fun i => (hslot i).kind, fun i => (hslot i).unit, fun i => (hslot i).cfg,
      fun i => (hslot i).latch, hrender, hbegun⟩⟩

/-- A driver that stands where a bound one stood is bound. -/
theorem DriverState.BoundAs.bound {d d' : DriverState} {p : Periph} (h : d.BoundAs d') (hd : d.Bound p) :
    d'.Bound p := by
  have hcfg : isEncoder d'.variant = true → legalCfg d'.cfg = true := fun henc =>
    h.cfg (h.variant ▸ henc) (hd.cfg (h.variant ▸ henc))
  have hkind := h.variant ▸ hd.kind
  have heng := h.eng
  cases he : d.eng with
  | none =>
    rw [he] at heng hkind
    cases he' : d'.eng with
    | none => exact ⟨by rw [he']; exact hkind, by simp [he'], hcfg, by simp [he']⟩
    | some e' => rw [he'] at heng; cases heng
  | some e =>
    rw [he] at heng hkind
    cases he' : d'.eng with
    | none => rw [he'] at heng; cases heng
    | some e' =>
      rw [he'] at heng
      cases heng with
      | some hee =>
        refine ⟨?_, ?_, hcfg, ?_⟩
        · rw [he', Option.map_some, hee.kind]
          exact hkind
        · rintro _ h'
          cases he'.symm.trans h'
          rw [hee.kind, hee.unit]
          exact hd.unit e he
        · rintro _ q l h' hc
          cases he'.symm.trans h'
          exact (hee.table q l hc).elim id fun ⟨q', hc'⟩ => hd.latch e q' l he hc'

theorem State.periph_of_board {s t : State} (h : t.board = s.board) (i : Nat) : t.periph i = s.periph i := by
  rw [State.periph, h]
  rfl

theorem State.BoundAs.bound {s t : State} (h : s.BoundAs t) (hs : s.Bound) : t.Bound := by
  obtain ⟨hslot, hrender, hbegun⟩ := State.bound_iff.mp hs
  refine State.bound_iff.mpr ⟨fun i => ?_, ?_, ?_⟩
  · rw [State.periph_of_board h.board]
    exact (h.slot i).bound (hslot i)
  · rw [h.renderPos, h.board]
    exact hrender
  · rw [h.begun, h.board]
    exact hbegun

theorem State.Bound.of_slots {s t : State} (hs : s.Bound) (hb : t.board = s.board) (hr : t.renderPos = s.renderPos)
    (hg : t.begun = s.begun) (hslot : ∀ i, t.slot i = s.slot i) : t.Bound := (BoundAs.of_slots hb hr hg hslot).bound hs

/-- A new driver is bound: its engine is fresh, of its variant's kind and on its slot's unit (R252). -/
theorem newDriver_bound {b : Board} {v : Variant} {p : Periph} {eng : Option Engine} (paused : Bool)
    (heng : engineFor v p = some eng) (hdefault : isEncoder v = true → legalCfg (defaultCfgOf b v) = true) :
    (newDriver b v paused eng).Bound p := by
  unfold engineFor at heng
  cases hk : engineKindOf v with
  | none =>
    rw [hk] at heng
    cases heng
    exact ⟨hk.symm, by simp [newDriver], hdefault, by simp [newDriver]⟩
  | some k =>
    rw [hk] at heng
    obtain ⟨u, hu, rfl⟩ := Option.map_eq_some_iff.mp heng
    refine ⟨?_, ?_, hdefault, ?_⟩
    · simp [newDriver, freshEngine_kind, hk]
    · intro e he
      obtain rfl : freshEngine k u = e := Option.some.inj he
      rw [freshEngine_kind, hu]
      rfl
    · intro e q l he hc
      obtain rfl : freshEngine k u = e := Option.some.inj he
      cases k <;> cases hc

theorem State.Bound.setSlot {s : State} (hs : s.Bound) {i : Nat} {d : DriverState} (hd : d.Bound (s.periph i)) :
    (s.setSlot i d).Bound := by
  obtain ⟨hslot, hrender, hbegun⟩ := State.bound_iff.mp hs
  refine State.bound_iff.mpr ⟨fun j => ?_, hrender, hbegun⟩
  rw [setSlot_slot, setSlot_periph]
  split
  · subst j; exact hd
  · exact hslot j

/-! ## Operations that keep a state bound -/

/-- A bound state on board `b`. -/
def State.BoundOn (b : Board) (s : State) : Prop := s.board = b ∧ s.Bound

/-- From a bound state on board `b` the operation leaves one, finished or faulted. -/
def Op.StaysBound (b : Board) (x : Op α) : Prop :=
  ∀ s, s.BoundOn b → Ends (fun _ => State.BoundOn b) (State.BoundOn b) True (x s)

variable {b : Board}

theorem State.BoundAs.boundOn {s t : State} (h : s.BoundAs t) (hs : s.BoundOn b) : t.BoundOn b :=
  ⟨h.board.trans hs.1, h.bound hs.2⟩

theorem Op.KeepsBinding.staysBound {x : Op α} (h : x.KeepsBinding) : x.StaysBound b := fun s hs =>
  (h s).mono (fun _ _ ht => ht.boundOn hs) (fun _ ht => ht.boundOn hs) id

theorem Op.StaysBound.bind {x : Op α} {f : α → Op β} (hx : x.StaysBound b) (hf : ∀ a, (f a).StaysBound b) :
    (x >>= f).StaysBound b := fun s hs => (hx s hs).bind fun a t ht => hf a t ht

theorem Op.StaysBound.ite {c : Prop} [Decidable c] {x y : Op α} (hx : x.StaysBound b) (hy : y.StaysBound b) :
    (if c then x else y).StaysBound b := by split <;> assumption

theorem Op.Reads.staysBound {x : Op α} (h : x.Reads fun _ => True) : x.StaysBound b := h.keepsBinding.staysBound

theorem pure_staysBound (a : α) : (pure a : Op α).StaysBound b := (pure_reads a).staysBound

/-- A write that the invariant does not read. -/
theorem modState_staysBound {f : State → State} (h : ∀ s : State, s.BoundAs (f s)) : (modState f).StaysBound b :=
  (modState_keepsBinding h).staysBound

theorem forEach_staysBound {f : Nat → Op Unit} (hf : ∀ i, (f i).StaysBound b) : ∀ xs, (forEach f xs).StaysBound b
  | [] => pure_staysBound ()
  | i :: rest => (hf i).bind fun _ => forEach_staysBound hf rest

theorem drvConstruct_staysBound (i : Nat) (v : Variant) : (drvConstruct i v).StaysBound b := fun s hs => by
  refine (drvConstruct_ends i v s).mono ?_ ?_ False.elim
  · rintro _ _ ⟨eng, heng, hdefault, rfl⟩
    exact ⟨hs.1, hs.2.setSlot (newDriver_bound _ heng hdefault)⟩
  · rintro _ rfl
    exact (State.BoundAs.addFault s _).boundOn hs

theorem applySlot_staysBound (doc : ConfigDoc) (i : Nat) : (applySlot doc i).StaysBound b :=
  .bind (mgrResolveEntry_keepsBinding i doc).staysBound fun _ => .bind getState_reads.staysBound fun _ =>
    .ite (drvSetConfig_keepsBinding i _).staysBound
      (.bind (drvStop_keepsBinding i).staysBound fun _ => .bind (drvConstruct_staysBound i _) fun _ =>
        .bind (drvSetConfig_keepsBinding i _).staysBound fun _ => (drvBegin_keepsBinding i).staysBound)

theorem mgrApplyConfig_staysBound (doc : ConfigDoc) : (mgrApplyConfig doc).StaysBound b :=
  .bind getState_reads.staysBound fun _ => forEach_staysBound (applySlot_staysBound doc) _

theorem initSlot_staysBound (i : Nat) : (initSlot i).StaysBound b :=
  .bind (drvConstruct_staysBound i _) fun _ => (drvBegin_keepsBinding i).staysBound

theorem drawPersistLoad_keepsBinding : drawPersistLoad.KeepsBinding := by
  intro s
  unfold drawPersistLoad
  split <;> exact .of_slots rfl rfl rfl fun _ => rfl

theorem loadDoc_keepsBinding : loadDoc.KeepsBinding :=
  .bind drawPersistLoad_keepsBinding fun r => .bind getState_reads.keepsBinding fun _ => by
    cases r with
    | some doc => exact pure_keepsBinding doc
    | none =>
      exact .bind (modState_keepsBinding fun _ => .of_slots rfl rfl rfl fun _ => rfl) fun _ => pure_keepsBinding _

/-- Good parameters name at least one slot (R7, R290). -/
theorem numSlots_pos_of_wellFormed {s : State} (h : s.wellFormedParameters = true) : 1 ≤ s.board.numSlots := by
  simp only [State.wellFormedParameters, Bool.and_eq_true, decide_eq_true_eq] at h
  omega

/-- MGR_BEGIN sets `begun` only over good parameters (R290). -/
theorem mgrBegin_staysBound : mgrBegin.StaysBound b := by
  intro s hs
  rw [mgrBegin, op_bind_ok (getState_run s)]
  split
  · exact hs
  refine (refuseIf_ends _ _ s).bind ?_
  rintro _ s ⟨rfl, hgood⟩
  have hpos : 1 ≤ b.numSlots := hs.1 ▸ numSlots_pos_of_wellFormed (by simpa using hgood)
  refine Op.StaysBound.bind (forEach_staysBound initSlot_staysBound _) (fun _ =>
    .bind loadDoc_keepsBinding.staysBound fun doc => .bind (mgrApplyConfig_staysBound doc) fun _ =>
      .bind mgrUpdatePartition_keepsBinding.staysBound fun _ => ?_) s hs
  rintro t ⟨hboard, ht⟩
  obtain ⟨hslot, hrender, -⟩ := State.bound_iff.mp ht
  exact ⟨hboard, State.bound_iff.mpr ⟨hslot, hrender, fun _ => hboard ▸ hpos⟩⟩

theorem mgrReload_staysBound : mgrReload.StaysBound b :=
  .bind (modState_staysBound fun _ => .of_slots rfl rfl rfl fun _ => rfl) fun _ =>
    .bind getState_reads.staysBound fun s => .bind (forEach_keepsBinding drvPause_keepsBinding _).staysBound fun _ =>
    .ite (pure_staysBound ()) (by
      cases s.pending with
      | none => exact (disabled_reads _).staysBound
      | some doc =>
        exact .bind (mgrApplyConfig_staysBound doc) fun _ => .bind mgrUpdatePartition_keepsBinding.staysBound fun _ =>
          .bind (modState_staysBound fun _ => .of_slots rfl rfl rfl fun _ => rfl) fun _ =>
            (forEach_keepsBinding drvResume_keepsBinding _).staysBound)

/-- Setting the render position to one of the block's slots, or to none (R294). -/
theorem setRenderPos_staysBound {f : State → Option Nat}
    (h : ∀ s i, s.board = b → f s = some i → i < b.numSlots) :
    (modState fun s => { s with renderPos := f s }).StaysBound b := by
  rintro s ⟨rfl, hs⟩
  obtain ⟨hslot, -, hbegun⟩ := State.bound_iff.mp hs
  exact ⟨rfl, State.bound_iff.mpr ⟨hslot, fun i => h s i rfl, hbegun⟩⟩

/-- MGR_RENDER opens the pass at slot 0, which a board with a slot has (R294). -/
theorem mgrRender_staysBound (hb : 1 ≤ b.numSlots) : mgrRender.StaysBound b :=
  have hopen : (do
      let t ← getState
      if t.pending ≠ none ∨ t.userPaused = true then pure ()
      else modState fun s => { s with renderPos := some 0 }).StaysBound b :=
    .bind getState_reads.staysBound fun _ => .ite (pure_staysBound ())
      (setRenderPos_staysBound fun _ _ _ h => by cases h; exact hb)
  .bind getState_reads.staysBound fun _ => .ite (.bind mgrReload_staysBound fun _ => hopen) hopen

theorem renderSubstep_staysBound : renderSubstep.StaysBound b :=
  .bind getState_reads.staysBound fun s => by
    cases s.renderPos with
    | none => exact (disabled_reads _).staysBound
    | some i =>
      refine .bind (drvRender_keepsBinding i).staysBound fun _ => setRenderPos_staysBound fun t j ht h => ?_
      subst ht
      obtain ⟨hlt, hnext⟩ := Option.ite_none_right_eq_some.mp h
      exact Option.some.inj hnext ▸ hlt

/-! ## The steps -/

theorem runStep_bound {x : Op Unit} {s t : State} (hs : s.Bound) (hx : x.StaysBound s.board)
    (hrun : runStep s x = .next t) : t.Bound :=
  (runStep_ends hrun (hx s ⟨rfl, hs⟩) fun _ => ⟨rfl, hs.of_slots rfl rfl rfl fun _ => rfl⟩).2

/-- What follows the check of NotBegun may use that MGR_BEGIN has run (R337). -/
theorem admitBegun_staysBound {x : Op Unit} (hx : 1 ≤ b.numSlots → x.StaysBound b) :
    (do admitBegun; x).StaysBound b := by
  rintro s ⟨rfl, hs⟩
  cases hbegun : s.begun with
  | false => simp [op_bind, admitBegun, hbegun, Ends]
  | true =>
    rw [op_bind_ok (admitBegun_ok hbegun)]
    exact hx (hs.begun hbegun) s ⟨rfl, hs⟩

theorem exec_bound {i : Instr} {s t : State} (hs : s.Bound) (h : exec i s = .next t) : t.Bound := by
  cases hi : mayBuildDrivers i with
  | false => exact (exec_boundAs hi h).bound hs
  | true =>
    cases i with
    | mgrBegin => exact runStep_bound hs (.bind (admitTurn_reads _).staysBound fun _ => mgrBegin_staysBound) h
    | mgrReload => exact runStep_bound hs (.bind (guardStep_reads _ _).staysBound fun _ => mgrReload_staysBound) h
    | mgrRender =>
      exact runStep_bound hs (admitBegun_staysBound fun hpos =>
        .bind (admitTurn_reads _).staysBound fun _ => mgrRender_staysBound hpos) h
    | mgrApplyConfig doc =>
      exact runStep_bound hs (.bind (admitOperands_reads _).staysBound fun _ =>
        .bind (guardStep_reads _ _).staysBound fun _ => mgrApplyConfig_staysBound doc) h
    | drvConstruct j v =>
      exact runStep_bound hs (.bind (admitSlot_reads j).staysBound fun _ => drvConstruct_staysBound j v) h
    | _ => cases hi

theorem runCommand_bound {c : Command} {s t : State} (hs : s.Bound) (h : runCommand c s = .next t) : t.Bound := by
  unfold runCommand at h
  cases hd : decode c with
  | instr i => rw [hd] at h; exact exec_bound hs h
  | unassigned => rw [hd] at h; exact runStep_bound hs (refuse_reads _).staysBound h
  | badSlot => rw [hd] at h; exact runStep_bound hs (refuse_reads _).staysBound h
  | illFormed op slot => rw [hd] at h; exact runStep_bound hs (refuseRecord_reads op slot).staysBound h

/-- Settles O51: every operation but DRV_CONSTRUCT keeps each driver's binding, DRV_CONSTRUCT builds a bound driver, and
the render position and `begun` are written only where the board has the slot. -/
theorem stepKeepsTheEngineBinding : Obligations.StepKeepsTheEngineBinding := by
  intro s t hs h
  have hsched : ∀ moves, State.Bound { s with schedule := moves } := fun _ =>
    hs.of_slots rfl rfl rfl fun _ => rfl
  cases hq : s.schedule with
  | nil =>
    rw [step_of_schedule_nil hq] at h
    cases h
    exact hs
  | cons m rest =>
    cases m with
    | command c => exact runCommand_bound (hsched rest) ((step_of_schedule_command hq).symm.trans h)
    | renderSubstep =>
      exact runStep_bound (hsched rest) renderSubstep_staysBound ((step_of_schedule_renderSubstep hq).symm.trans h)

end Sys2Proof.Machine
end

section
/-! SUPPORT. The driver's commands behind their checks (R338), and those that build a driver, quiet a unit, read, or
write the pause bit and the slice (R252, R253, R257, R259 to R265). -/

namespace Sys2Proof.Machine

/-! ## The checks before a driver's command -/

section checks

variable {s : State} {i : Nat}

theorem runStep_onSlot (hi : s.hasSlot i) (x : Op Unit) : runStep s (do admitSlot i; x) = runStep s x :=
  runStep_bind_ok (admitSlot_ok hi) _

/-- The checks of an operation the main loop issues pass between two render passes (R337, R294). -/
theorem runStep_mainLoop (hm : s.mainLoopFree) (m : String) (x : Op Unit) :
    runStep s (do admitBegun; admitTurn m; x) = runStep s x := by
  obtain ⟨hbegun, hpos⟩ := hm
  exact (runStep_bind_ok (admitBegun_ok hbegun) _).trans (runStep_bind_ok (admitTurn_ok hpos) _)

theorem exec_drvConstruct (hi : s.hasSlot i) (v : Variant) :
    exec (.drvConstruct i v) s = runStep s (drvConstruct i v) := runStep_onSlot hi _

theorem exec_drvStop (hi : s.hasSlot i) : exec (.drvStop i) s = runStep s (drvStop i) := runStep_onSlot hi _

theorem exec_drvSetBuffer (hi : s.hasSlot i) (o n : Nat) :
    exec (.drvSetBuffer i o n) s = runStep s (drvSetBuffer i o n) := runStep_onSlot hi _

theorem exec_drvBegin (hi : s.hasSlot i) (hm : s.mainLoopFree) :
    exec (.drvBegin i) s = runStep s (drvBegin i) := (runStep_onSlot hi _).trans (runStep_mainLoop hm _ _)

theorem exec_drvSetConfig (hi : s.hasSlot i) (hm : s.mainLoopFree) {p : ParamObject} (hp : distinctKeys p = true) :
    exec (.drvSetConfig i p) s = runStep s (drvSetConfig i p) :=
  (runStep_onSlot hi _).trans ((runStep_bind_ok (admitOperands_ok hp) _).trans (runStep_mainLoop hm _ _))

theorem exec_drvGetConfig (hi : s.hasSlot i) (hm : s.mainLoopFree) :
    exec (.drvGetConfig i) s = .next { s with reply := some (.params (drvConfigOf (s.slot i))) } :=
  (runStep_onSlot hi _).trans ((runStep_mainLoop hm _ _).trans (runStep_ok (answer_run _ s)))

theorem exec_drvGetStatus (hi : s.hasSlot i) (hm : s.mainLoopFree) :
    exec (.drvGetStatus i) s = .next { s with reply := some (.slotStatus (drvStatusOf s i)) } :=
  (runStep_onSlot hi _).trans ((runStep_mainLoop hm _ _).trans (runStep_ok (answer_run _ s)))

theorem exec_drvNeeded (hi : s.hasSlot i) :
    exec (.drvNeeded i) s = .next { s with reply := some (.nat (drvNeededOf s i)) } :=
  (runStep_onSlot hi _).trans (runStep_ok (answer_run _ s))

theorem exec_drvRender (hi : s.hasSlot i) (hm : s.mainLoopFree) :
    exec (.drvRender i) s = runStep s (drvRender i) := (runStep_onSlot hi _).trans (runStep_mainLoop hm _ _)

end checks

/-! ## DRV_CONSTRUCT (R252) -/

section constructs

variable {s : State} {i : Nat} {v : Variant}

theorem drvConstruct_transmitting (h : (s.slot i).transmitting = true) :
    drvConstruct i v s = .error .raised (s.addFault (.destroyWhileDraining i)) := by
  simp [drvConstruct, op_bind, h]

theorem drvConstruct_illegalVariant (h : (s.slot i).transmitting = false) (hv : legalAt s.board i v = false) :
    drvConstruct i v s = .error (.refused .illegalVariant) s := by
  simp [drvConstruct, op_bind, h, hv]

theorem drvConstruct_illegalDefault (h : (s.slot i).transmitting = false) (hv : legalAt s.board i v = true)
    (henc : isEncoder v = true) (hdefault : legalCfg (defaultCfgOf s.board v) = false) :
    drvConstruct i v s = .error (.refused .illFormedParameter) s := by
  simp [drvConstruct, op_bind, h, hv, henc, hdefault]

theorem drvConstruct_ok {eng : Option Engine} (h : (s.slot i).transmitting = false) (hv : legalAt s.board i v = true)
    (hdefault : isEncoder v = true → legalCfg (defaultCfgOf s.board v) = true)
    (heng : engineFor v (s.periph i) = some eng) :
    drvConstruct i v s = .ok () (s.setSlot i (newDriver s.board v s.pauseHeld eng)) := by
  have hcheck : (isEncoder v && !legalCfg (defaultCfgOf s.board v)) = false := by
    simpa using hdefault
  simp [drvConstruct, op_bind, h, hv, hcheck, heng]

end constructs

/-- Settles O31: the checks in their order, then the new driver, its engine fresh. -/
theorem constructBuildsAFreshDriver : Obligations.ConstructBuildsAFreshDriver := by
  intro s i v hi
  rw [exec_drvConstruct hi]
  refine ⟨fun eng h hv hdefault heng => ?fresh, fun h => runStep_raised (drvConstruct_transmitting h),
    fun h hv => runStep_refused (drvConstruct_illegalVariant h hv),
    fun h hv henc hdefault => runStep_refused (drvConstruct_illegalDefault h hv henc hdefault)⟩
  case fresh =>
    refine runStep_ok (drvConstruct_ok h hv hdefault ?_)
    obtain ⟨hk, rfl⟩ | ⟨k, u, hk, hu, rfl⟩ := heng
    · simp [engineFor, hk]
    · cases k <;> simp [engineFor, hk, hu, freshEngine]

/-! ## DRV_STOP (R253) -/

section stops

variable {s : State} {i : Nat} {e : Engine}

theorem DriverState.transmitting_some {d : DriverState} (he : d.eng = some e) :
    d.transmitting = e.tstate.transmitting := by
  rw [DriverState.transmitting, he]

theorem drvStop_none (he : (s.slot i).eng = none) : drvStop i s = .ok () s := by
  simp [drvStop, op_bind, he]

theorem drvStop_transmitting (h : (s.slot i).transmitting = true) :
    drvStop i s = .error .raised (s.addFault (.destroyWhileDraining i)) := by
  cases he : (s.slot i).eng with
  | none => simp [DriverState.transmitting, he] at h
  | some e =>
    rw [DriverState.transmitting_some he] at h
    simp [drvStop, op_bind, he, h]

theorem drvStop_still (he : (s.slot i).eng = some e) (h : (s.slot i).transmitting = false) :
    drvStop i s = quietUnit e (s.withEng i { e with enLow := false, enEnd := false }) := by
  rw [DriverState.transmitting_some he] at h
  simp only [drvStop, op_bind, getState_run, he, h, raiseIf_false, modEngine_withEng he]

end stops

/-- Settles O32: DRV_STOP disables the engine's interrupts, then quiets the unit of the engine's kind. -/
theorem stopQuietsTheUnit : Obligations.StopQuietsTheUnit := by
  intro s i hi
  rw [exec_drvStop hi]
  refine ⟨fun he => runStep_ok (drvStop_none he), fun h => runStep_raised (drvStop_transmitting h),
    fun e he h hk => ?pulse, fun e he h hk => ?serial⟩
  case pulse => exact runStep_ok ((drvStop_still he h).trans (by rw [quietUnit, hk]; rfl))
  case serial => exact runStep_ok ((drvStop_still he h).trans (by rw [quietUnit, hk]; rfl))

/-! ## The reads (R257, R259, R263, R265) -/

theorem drvConfigOf_disabled {d : DriverState} (h : d.variant = .disabled) : drvConfigOf d = [] := by
  rw [drvConfigOf, h]

theorem drvConfigOf_encoder {d : DriverState} {c : EncoderCfg} (h : isEncoder d.variant = true)
    (hc : d.cfg = .encoder c) : drvConfigOf d = encoderParams c := by
  unfold drvConfigOf
  cases hv : d.variant <;> simp_all [isEncoder, engineKindOf, encoderCfg]

theorem drvConfigOf_stored {d : DriverState} {p : ParamObject} (hv : d.variant ≠ .disabled)
    (h : isEncoder d.variant = false) (hc : d.cfg = .stored p) : drvConfigOf d = p := by
  unfold drvConfigOf
  cases hv : d.variant <;> simp_all [isEncoder, engineKindOf, storedObject]

theorem neededBytes_disabled (b : Board) (c : DriverConfig) : neededBytes b .disabled c = 0 := rfl

theorem neededBytes_encoder (b : Board) {v : Variant} (h : isEncoder v = true) (c : EncoderCfg) :
    neededBytes b v (.encoder c) = c.pixelCount * c.channelsPerPixel := by
  unfold neededBytes
  cases v <;> simp_all [isEncoder, engineKindOf, encoderCfg]

theorem neededBytes_other (b : Board) {v : Variant} (hv : v ≠ .disabled) (h : isEncoder v = false)
    (c : DriverConfig) : neededBytes b v c = cfgTableAt b.neededOther v c := by
  unfold neededBytes
  cases v <;> simp_all [isEncoder, engineKindOf]

/-- Without an engine there is no DRV_MORE_DATA (R263). -/
theorem drvMoreData_none {s : State} {i : Nat} (he : (s.slot i).eng = none) :
    drvMoreData i s = .error (.disabled "DRV_MORE_DATA") s := by
  simp [drvMoreData, op_bind, engineOf, he]

/-- Settles O36: each command answers with its value, which the lemmas above give for each kind of variant. -/
theorem driverReadsReturnTheirValue : Obligations.DriverReadsReturnTheirValue := by
  intro s i hi
  have hmore : exec (.drvMoreData i) s = runStep s (do let more ← drvMoreData i; answer (.flag more)) :=
    runStep_onSlot hi _
  refine ⟨fun hm => exec_drvGetStatus hi hm, fun hm hv => ?_, fun p hm hv henc hc => ?_, fun c hm henc hc => ?_,
    fun hv => ?_, fun c henc hc => ?_, fun hv henc => ?_, fun e he => ?_, fun he => ?_⟩
  · rw [exec_drvGetConfig hi hm, drvConfigOf_disabled hv]
  · rw [exec_drvGetConfig hi hm, drvConfigOf_stored hv henc hc]
  · rw [exec_drvGetConfig hi hm, drvConfigOf_encoder henc hc]
    rfl
  · rw [exec_drvNeeded hi, drvNeededOf, hv, neededBytes_disabled]
  · rw [exec_drvNeeded hi, drvNeededOf, hc, neededBytes_encoder _ henc]
  · rw [exec_drvNeeded hi, drvNeededOf, neededBytes_other _ hv henc]
  · rw [hmore]
    exact runStep_answer (drvMoreData_run he) _
  · rw [hmore]
    exact runStep_disabled (op_bind_error (drvMoreData_none he))

/-! ## DRV_NEXT_BYTE (R264) -/

/-- DRV_NEXT_BYTE with data left answers the byte at the cursor and moves the cursor. -/
theorem exec_drvNextByte {s : State} {i : Nat} {e : Engine} (hi : s.hasSlot i) (hs : s.sliceReadable i)
    (he : (s.slot i).eng = some e) (hleft : e.cursor < (s.slot i).length) :
    exec (.drvNextByte i) s =
      .next { s.setSlot i { s.slot i with eng := some { e with cursor := e.cursor + 1 } } with
        reply := some (.byte (s.dataByte i e.cursor)) } := by
  refine (runStep_onSlot hi _).trans ((runStep_bind_ok (drvMoreData_run he) _).trans
    ((runStep_guardStep_true (decide_eq_true hleft) _ _).trans ?_))
  exact runStep_ok ((op_bind_ok (drvNextByte_run hs he hleft)).trans (answer_run _ _))

theorem dataByte_encoder {s : State} {i : Nat} {c : EncoderCfg} (hc : (s.slot i).cfg = .encoder c) (k : Nat) :
    s.dataByte i k = c.gamma.getD (s.byte ((s.slot i).offset + sourceOf c k (s.slot i).length)).toNat 0 := by
  rw [State.dataByte, hc]
  rfl

/-- Settles O37: the source of the byte is `sourceOf`, by the colour order within a whole pixel. -/
theorem nextByteFollowsTheColourOrder : Obligations.NextByteFollowsTheColourOrder := by
  intro s i e c hi he hc hs
  have hlegal : legalEncoderCfg c = true := by
    obtain ⟨hcfg, -⟩ := hs
    rwa [hc] at hcfg
  have hreads : ∀ src, sourceOf c e.cursor (s.slot i).length = src → e.cursor < (s.slot i).length →
      ∃ x, c.gamma[(s.byte ((s.slot i).offset + src)).toNat]? = some x ∧
        exec (.drvNextByte i) s =
          .next { s.setSlot i { s.slot i with eng := some { e with cursor := e.cursor + 1 } } with
            reply := some (.byte x) } := by
    rintro src rfl hleft
    refine ⟨_, gamma_entry hlegal _, ?_⟩
    rw [exec_drvNextByte hi hs he hleft, dataByte_encoder hc]
  refine ⟨fun j hleft hwhole hj => hreads _ ?_ hleft, fun hleft hpartial => hreads _ ?_ hleft, fun hnone => ?_⟩
  · simp [sourceOf, hwhole, List.getD, hj]
  · exact if_neg (Nat.not_le.mpr hpartial)
  · exact (runStep_onSlot hi _).trans ((runStep_bind_ok (drvMoreData_run he) _).trans
      (runStep_guardStep_false (decide_eq_false (Nat.not_lt.mpr hnone)) _ _))

/-! ## DRV_PAUSE, DRV_RESUME and DRV_SET_BUFFER (R260 to R262) -/

section setBuffer

variable {s : State} {i : Nat} (o n : Nat)

theorem drvSetBuffer_transmitting (h : (s.slot i).transmitting = true) :
    drvSetBuffer i o n s = .error .raised (s.addFault (.ownershipViolation i .drvSetBuffer)) := by
  simp [drvSetBuffer, op_bind, h]

variable {o n}

theorem drvSetBuffer_outside (h : (s.slot i).transmitting = false) (hout : s.board.totalBufferSize < o + n) :
    drvSetBuffer i o n s = .error (.refused .illFormedOperand) s := by
  simp [drvSetBuffer, op_bind, h, hout]

theorem drvSetBuffer_inside (h : (s.slot i).transmitting = false) (hin : o + n ≤ s.board.totalBufferSize) :
    drvSetBuffer i o n s = .ok () (s.setSlot i
      { s.slot i with
        offset := o, length := n, eng := (s.slot i).eng.map fun e => { e with cursor := 0 } }) := by
  simp [drvSetBuffer, op_bind, h, Nat.not_lt.mpr hin]

end setBuffer

/-- Settles O40: DRV_PAUSE and DRV_RESUME are one write; DRV_SET_BUFFER is one write behind its two checks. -/
theorem pauseAndSliceAreWrittenAlone : Obligations.PauseAndSliceAreWrittenAlone := by
  intro s i hi
  refine ⟨(runStep_onSlot hi _).trans (runStep_ok (modSlot_run i _ s)),
    (runStep_onSlot hi _).trans ((runStep_bind_ok (getState_run s) _).trans (runStep_ok (modSlot_run i _ s))),
    fun o n h hin => ?_, fun o n h hout => ?_, fun o n h => ?_⟩
  · rw [exec_drvSetBuffer hi, runStep_ok (drvSetBuffer_inside h hin)]
  · rw [exec_drvSetBuffer hi, runStep_refused (drvSetBuffer_outside h hout)]
  · rw [exec_drvSetBuffer hi, runStep_raised (drvSetBuffer_transmitting o n h)]

end Sys2Proof.Machine
end

section
/-! SUPPORT. ENGINE_BEGIN on an engine that is not Draining (R251, R192, R224), and the driver's commands that run it:
DRV_BEGIN (R254) and DRV_SET_CONFIG (R256, R278). -/

namespace Sys2Proof.Machine

/-! ## ENGINE_BEGIN (R251) -/

theorem engineKindOf_pulseConstants {b : Board} {v : Variant} {pc : PulseConstants}
    (h : pulseConstantsOf b v = some pc) : engineKindOf v = some .pulse := by
  cases v with
  | ws2811Pulse | ucs1903Pulse | tm1814Pulse => rfl
  | _ => cases h

theorem engineKindOf_serialConstants {b : Board} {v : Variant} {pc : SerialConstants}
    (h : serialConstantsOf b v = some pc) : engineKindOf v = some .serial := by
  cases v with
  | ws2811Serial | ucs1903Serial | tm1814Serial => rfl
  | _ => cases h

theorem isEncoder_of_kind {v : Variant} {k : EngineKind} (h : engineKindOf v = some k) : isEncoder v = true := by
  rw [isEncoder, h]
  rfl

section begins

variable {s : State} {i : Nat} {e : Engine}

theorem tstate_ne_draining (hd : (s.slot i).draining = false) (he : (s.slot i).eng = some e) :
    e.tstate ≠ .draining := by
  rw [DriverState.draining, he] at hd
  exact of_decide_eq_false hd

theorem engineBegin_eq_pulse (h : engineKindOf (s.slot i).variant = some .pulse) : engineBegin i s = peBegin i s := by
  rw [engineBegin, op_bind_ok (getState_run s), h]

theorem engineBegin_eq_serial (h : engineKindOf (s.slot i).variant = some .serial) :
    engineBegin i s = seBegin i s := by
  rw [engineBegin, op_bind_ok (getState_run s), h]

theorem engineBegin_pulse {q : PulseSeq} {l : Option PulseLatch} {pc : PulseConstants}
    (hd : (s.slot i).draining = false) (he : (s.slot i).eng = some e) (hc : e.core = .pulse q l)
    (hpc : pulseConstantsOf s.board (s.slot i).variant = some pc)
    (hok : pulseConstantsOk s.board.durationMax pc = true) :
    engineBegin i s = .ok () (s.pulseLatched i e q pc) := by
  rw [engineBegin_eq_pulse (engineKindOf_pulseConstants hpc), peBegin_idle he hc (tstate_ne_draining hd he),
    latchPulse_good he hc hpc hok]

theorem engineBegin_serial {q : SerialSeq} {l : Option SerialLatch} {pc : SerialConstants}
    (hd : (s.slot i).draining = false) (he : (s.slot i).eng = some e) (hc : e.core = .serial q l)
    (hpc : serialConstantsOf s.board (s.slot i).variant = some pc) (hok : serialConstantsOk pc = true) :
    engineBegin i s = .ok () (s.serialLatched i e q pc) := by
  rw [engineBegin_eq_serial (engineKindOf_serialConstants hpc), seBegin_idle he hc (tstate_ne_draining hd he),
    latchSerial_good he hc hpc hok]

/-- An engine that BEGIN would refuse is an encoder's. -/
theorem isEncoder_of_refuses {r : RefusalReason} (h : s.engineBeginRefuses i r) :
    isEncoder (s.slot i).variant = true := by
  obtain ⟨-, -, ⟨-, -, pc, -, hpc, -⟩ | ⟨-, -, pc, -, hpc, -⟩⟩ := h
  · exact isEncoder_of_kind (engineKindOf_pulseConstants hpc)
  · exact isEncoder_of_kind (engineKindOf_serialConstants hpc)

theorem engineBegin_refused {r : RefusalReason} (hd : (s.slot i).draining = false) (h : s.engineBeginRefuses i r) :
    engineBegin i s = .error (.refused r) s := by
  obtain ⟨e, he, ⟨q, l, pc, hc, hpc, hok, rfl⟩ | ⟨q, l, pc, hc, hpc, hok, rfl⟩⟩ := h
  · rw [engineBegin_eq_pulse (engineKindOf_pulseConstants hpc), peBegin_idle he hc (tstate_ne_draining hd he),
      latchPulse_bad hpc hok]
  · rw [engineBegin_eq_serial (engineKindOf_serialConstants hpc), seBegin_idle he hc (tstate_ne_draining hd he)]
    cases htime : serialTimingOk pc.G pc.S pc.H0 pc.H1 with
    | false => exact latchSerial_badTiming hpc htime
    | true => exact latchSerial_badRate hpc htime hok

/-- What ENGINE_BEGIN reads of a slot: where it is the same, so is its refusal. -/
theorem engineBeginRefuses_congr {t : State} {r : RefusalReason} (hboard : t.board = s.board)
    (heng : (t.slot i).eng = (s.slot i).eng) (hv : (t.slot i).variant = (s.slot i).variant) :
    t.engineBeginRefuses i r ↔ s.engineBeginRefuses i r := by
  simp only [State.engineBeginRefuses, hboard, heng, hv]

end begins

/-! ## DRV_BEGIN (R254) -/

section drvBegin

variable {s : State} {i : Nat}

theorem drvBegin_draining (h : (s.slot i).draining = true) :
    drvBegin i s = .error .raised (s.addFault (.ownershipViolation i .drvBegin)) := by
  simp [drvBegin, op_bind, h]

theorem drvBegin_failed (h : (s.slot i).draining = false) (hf : (s.slot i).status = .failed) :
    drvBegin i s = .ok () s := by
  simp [drvBegin, op_bind, h, hf]

theorem drvBegin_other (h : (s.slot i).draining = false) (hf : (s.slot i).status ≠ .failed)
    (henc : isEncoder (s.slot i).variant = false) :
    drvBegin i s = .ok () (s.setSlot i { s.slot i with status := .ready }) := by
  simp [drvBegin, op_bind, h, hf, henc]

/-- The outcome of the draw decides (R254). -/
theorem drvBegin_drawn {ok : Bool} {t : State} (h : (s.slot i).draining = false) (hf : (s.slot i).status ≠ .failed)
    (henc : isEncoder (s.slot i).variant = true) (hdraw : drawPeriphInit i s = .ok ok t) :
    drvBegin i s = (if ok then do
        engineBegin i
        modSlot i fun d => { d with hwInitFailed := false, status := .ready }
      else do
        modSlot i fun d =>
          { d with status := .failed, hwInitFailed := true, hwErrorCount := countUp d.hwErrorCount }
        logDiag i .hwInitError) t := by
  simp only [drvBegin, op_bind, getState_run, h, raiseIf_false, hf, henc, if_true, if_false, hdraw]

/-- A draw is seen in the draws' own fields alone. -/
theorem drawPeriphInit_frame {ok : Bool} {t : State} (h : drawPeriphInit i s = .ok ok t) :
    t = { s with initAnswers := t.initAnswers, drawCount := t.drawCount } := by
  unfold drawPeriphInit at h
  split at h <;> (cases h; rfl)

end drvBegin

/-- Settles O33: the checks in their order, then what the draw decides; a refusal of BEGIN voids the draw with the
step. -/
theorem beginDrawsAndMakesReady : Obligations.BeginDrawsAndMakesReady := by
  intro s i hi hm
  rw [exec_drvBegin hi hm]
  have hslot : ∀ {ok t}, drawPeriphInit i s = .ok ok t → t.slot i = s.slot i ∧ t.board = s.board := fun hdraw => by
    rw [drawPeriphInit_frame hdraw]
    exact ⟨rfl, rfl⟩
  refine ⟨fun h => runStep_raised (drvBegin_draining h), fun h hf => runStep_ok (drvBegin_failed h hf),
    fun h hf henc => runStep_ok (drvBegin_other h hf henc), fun t h hf henc hdraw => ?failure,
    fun t e q l pc h hf hdraw he hc hpc hok => ?pulse, fun t e q l pc h hf hdraw he hc hpc hok => ?serial,
    fun t r h hf hdraw hr => ?refused⟩
  case failure =>
    have hdiag : t.diag = s.diag := by rw [drawPeriphInit_frame hdraw]
    refine runStep_ok ((drvBegin_drawn h hf henc hdraw).trans ?_)
    rw [← (hslot hdraw).1, ← hdiag]
    rfl
  case pulse =>
    obtain ⟨hs, hboard⟩ := hslot hdraw
    have henc := isEncoder_of_kind (engineKindOf_pulseConstants hpc)
    rw [← hs] at he hpc
    rw [← hboard] at hpc hok
    refine runStep_ok ((drvBegin_drawn h hf henc hdraw).trans ?_)
    rw [if_pos rfl, op_bind_ok (engineBegin_pulse (hs ▸ h) he hc hpc hok), modSlot_run]
  case serial =>
    obtain ⟨hs, hboard⟩ := hslot hdraw
    have henc := isEncoder_of_kind (engineKindOf_serialConstants hpc)
    rw [← hs] at he hpc
    rw [← hboard] at hpc
    refine runStep_ok ((drvBegin_drawn h hf henc hdraw).trans ?_)
    rw [if_pos rfl, op_bind_ok (engineBegin_serial (hs ▸ h) he hc hpc hok), modSlot_run]
  case refused =>
    obtain ⟨hs, hboard⟩ := hslot hdraw
    have hr' := (engineBeginRefuses_congr hboard (by rw [hs]) (by rw [hs])).mpr hr
    refine runStep_refused (t := t) ((drvBegin_drawn h hf (isEncoder_of_refuses hr) hdraw).trans ?_)
    rw [if_pos rfl, op_bind_error (engineBegin_refused (hs ▸ h) hr')]

/-! ## DRV_SET_CONFIG (R256, R255, R278) -/

/-- The state with the encoder options `c` stored in slot `i`, and the need they give (R256, R265). -/
def State.withConfig (s : State) (i : Nat) (c : EncoderCfg) : State :=
  s.setSlot i { s.slot i with cfg := .encoder c, needed := c.pixelCount * c.channelsPerPixel }

section setConfig

variable {s : State} {i : Nat} {p : ParamObject}

theorem drvSetConfig_draining (h : (s.slot i).draining = true) :
    drvSetConfig i p s = .error .raised (s.addFault (.ownershipViolation i .drvSetConfig)) := by
  simp [drvSetConfig, op_bind, h]

theorem drvSetConfig_disabled (h : (s.slot i).draining = false) (hv : (s.slot i).variant = .disabled) :
    drvSetConfig i p s = .ok () s := by
  simp [drvSetConfig, op_bind, h, hv]

theorem drvSetConfig_other (h : (s.slot i).draining = false) (hv : (s.slot i).variant ≠ .disabled)
    (henc : isEncoder (s.slot i).variant = false) :
    drvSetConfig i p s = .ok () (s.setSlot i
      { s.slot i with
        cfg := opaqueMerge s.board (s.slot i).variant (s.slot i).cfg p
        needed := cfgTableAt s.board.neededOther (s.slot i).variant
          (opaqueMerge s.board (s.slot i).variant (s.slot i).cfg p) }) := by
  simp [drvSetConfig, op_bind, h, hv, henc]

theorem ne_disabled_of_isEncoder {v : Variant} (h : isEncoder v = true) : v ≠ .disabled := by
  rintro rfl
  cases h

variable {c c' : EncoderCfg}

theorem drvSetConfig_refused (h : (s.slot i).draining = false) (henc : isEncoder (s.slot i).variant = true)
    (hc : (s.slot i).cfg = .encoder c)
    (hbad : mergeCfg c p = none ∨ ∃ c', mergeCfg c p = some c' ∧ legalEncoderCfg c' = false) :
    drvSetConfig i p s = .error (.refused .illFormedConfig) s := by
  have hv := ne_disabled_of_isEncoder henc
  obtain hmerge | ⟨c', hmerge, hlegal⟩ := hbad
  · simp [drvSetConfig, op_bind, h, hv, henc, hc, mergeDriverCfg, encoderCfg, hmerge]
  · simp [drvSetConfig, op_bind, h, hv, henc, hc, mergeDriverCfg, encoderCfg, hmerge, legalCfg, hlegal]

/-- Legal merged options are stored, and a Ready driver's engine is latched again (R256). -/
theorem drvSetConfig_stores (h : (s.slot i).draining = false) (henc : isEncoder (s.slot i).variant = true)
    (hc : (s.slot i).cfg = .encoder c) (hmerge : mergeCfg c p = some c') (hlegal : legalEncoderCfg c' = true) :
    drvSetConfig i p s =
      (if (s.slot i).status = .ready then engineBegin i else pure ()) (s.withConfig i c') := by
  have hv := ne_disabled_of_isEncoder henc
  have hlegal' : (!legalCfg (.encoder c')) = false := by simpa [legalCfg] using hlegal
  simp only [drvSetConfig, op_bind, getState_run, h, raiseIf_false, hv, henc, if_true, if_false, hc, mergeDriverCfg,
    encoderCfg, hmerge, Option.map_some, hlegal', refuseIf_false, modSlot_run, neededBytes_encoder _ henc]
  rfl

end setConfig

section withConfig

variable (s : State) (i : Nat) (c : EncoderCfg)

@[simp] theorem withConfig_slot : (s.withConfig i c).slot i =
    { s.slot i with cfg := .encoder c, needed := c.pixelCount * c.channelsPerPixel } := setSlot_slot_same s i _

@[simp] theorem withConfig_board : (s.withConfig i c).board = s.board := rfl

theorem withConfig_draining : ((s.withConfig i c).slot i).draining = (s.slot i).draining := by
  rw [withConfig_slot]
  rfl

end withConfig

/-- Settles O34: the checks in their order, then the stored options and, on a Ready encoder, ENGINE_BEGIN. -/
theorem setConfigStoresTheMergedOptions : Obligations.SetConfigStoresTheMergedOptions := by
  intro s i p hi hm hp
  rw [exec_drvSetConfig hi hm hp]
  refine ⟨fun h => runStep_raised (drvSetConfig_draining h), fun h hv => runStep_ok (drvSetConfig_disabled h hv),
    fun h hv henc => ?other, fun c h henc hc hbad => runStep_refused (drvSetConfig_refused h henc hc hbad),
    fun c c' h henc hc hmerge hlegal hready => ?stored,
    fun c c' u e q l pc h hc hmerge hlegal hready he hcore hpc hok hu => ?pulse,
    fun c c' u e q l pc h hc hmerge hlegal hready he hcore hpc hok hu => ?serial,
    fun c c' r h hc hmerge hlegal hready hr => ?refused⟩
  case other =>
    refine ⟨_, _, runStep_ok (drvSetConfig_other h hv henc), mapGet_opaqueMergeObject _ _ p, fun q hq => ?_⟩
    exact cfgTableAt_stored _ _ _ q fun k => (hq k).symm
  case stored =>
    rw [runStep_ok ((drvSetConfig_stores h henc hc hmerge hlegal).trans (by rw [if_neg hready, op_pure]))]
    rfl
  case pulse =>
    subst hu
    have henc := isEncoder_of_kind (engineKindOf_pulseConstants hpc)
    refine runStep_ok ((drvSetConfig_stores h henc hc hmerge hlegal).trans ?_)
    rw [if_pos hready]
    exact engineBegin_pulse ((withConfig_draining s i c').trans h) (by simpa using he) hcore (by simpa using hpc) hok
  case serial =>
    subst hu
    have henc := isEncoder_of_kind (engineKindOf_serialConstants hpc)
    refine runStep_ok ((drvSetConfig_stores h henc hc hmerge hlegal).trans ?_)
    rw [if_pos hready]
    exact engineBegin_serial ((withConfig_draining s i c').trans h) (by simpa using he) hcore (by simpa using hpc) hok
  case refused =>
    have hr' : (s.withConfig i c').engineBeginRefuses i r :=
      (engineBeginRefuses_congr (withConfig_board s i c') (by simp) (by simp)).mpr hr
    refine runStep_refused (t := s.withConfig i c')
      ((drvSetConfig_stores h (isEncoder_of_refuses hr) hc hmerge hlegal).trans ?_)
    rw [if_pos hready]
    exact engineBegin_refused ((withConfig_draining s i c').trans h) hr'

end Sys2Proof.Machine
end

section
/-! SUPPORT. MergeCfg read back key by key (R257, R267), and the ways DRV_SET_CONFIG ends on an encoder's driver: the
round trip of R268. -/

namespace Sys2Proof.Machine

/-! ## The values of the keys (R121, R267) -/

theorem eq_nat_of_toNat {v : Value} {n : Nat} (h : Value.toNat v = some n) : v = .nat n := by
  cases v with
  | nat m => cases h; rfl
  | _ => cases h

theorem eq_bool_of_toBool {v : Value} {b : Bool} (h : Value.toBool v = some b) : v = .bool b := by
  cases v with
  | bool c => cases h; rfl
  | _ => cases h

theorem natsValue_of_toNats {v : Value} {ns : List Nat} (h : Value.toNats v = some ns) : natsValue ns = v := by
  induction v generalizing ns with
  | nil => cases h; rfl
  | cons head tail _ ih =>
    cases head with
    | nat n =>
      obtain ⟨ms, hms, rfl⟩ := Option.map_eq_some_iff.mp h
      exact congrArg (Value.cons (.nat n)) (ih hms)
    | _ => cases h
  | _ => cases h

/-- Bytes read from a list value are its naturals, none of which the byte cuts. -/
theorem natsValue_of_toBytes {v : Value} {bs : List Byte} (h : Value.toBytes v = some bs) :
    natsValue (bs.map BitVec.toNat) = v := by
  unfold Value.toBytes at h
  cases hns : Value.toNats v with
  | none => simp [hns] at h
  | some ns =>
    obtain ⟨hsmall, rfl⟩ : (∀ n ∈ ns, n < 256) ∧ ns.map (BitVec.ofNat 8) = bs := by simpa [hns] using h
    rw [List.map_map, List.map_congr_left fun n hn => ?_, List.map_id, natsValue_of_toNats hns]
    exact Nat.mod_eq_of_lt (hsmall n hn)

/-! ## MergeCfg read back (R257, R267) -/

/-- The entry at another key does not matter to what a key reads. -/
theorem mapGet_entry_ne {κ α : Type} [DecidableEq κ] {j k : κ} (m : List (κ × α)) {n : List (κ × α)} {v w : α}
    (hne : j ≠ k) : mapGet (m ++ (j, v) :: n) k = mapGet (m ++ (j, w) :: n) k := by
  induction m with
  | nil => rw [List.nil_append, List.nil_append, mapGet_cons, mapGet_cons, if_neg hne, if_neg hne]
  | cons e m ih => rw [List.cons_append, List.cons_append, mapGet_cons, mapGet_cons, ih]

/-- The keys of an encoder's options (R36). -/
def encoderKeys : List String := ["pixelCount", "channelsPerPixel", "colorOrder", "gamma", "groupSize", "invert"]

theorem mapGet_encoderParams_unrecognised (c : EncoderCfg) {k : String} (h : k ∉ encoderKeys) :
    mapGet (encoderParams c) k = none :=
  mapGet_eq_none _ _ fun _ he hk => h (hk ▸ List.mem_map_of_mem (f := Prod.fst) he)

/-- MergeCfg of one key: the option the key names takes the value, an unrecognised key changes nothing (R267). -/
inductive KeyMerged (c : EncoderCfg) : String → Value → EncoderCfg → Prop where
  | pixelCount (n : Nat) : KeyMerged c "pixelCount" (.nat n) { c with pixelCount := n }
  | channelsPerPixel (n : Nat) : KeyMerged c "channelsPerPixel" (.nat n) { c with channelsPerPixel := n }
  | groupSize (n : Nat) : KeyMerged c "groupSize" (.nat n) { c with groupSize := n }
  | colorOrder (ns : List Nat) : KeyMerged c "colorOrder" (natsValue ns) { c with colorOrder := ns }
  | gamma (bs : List Byte) : KeyMerged c "gamma" (natsValue (bs.map BitVec.toNat)) { c with gamma := bs }
  | invert (b : Bool) : KeyMerged c "invert" (.bool b) { c with invert := b }
  | unrecognised {k : String} {v : Value} (h : k ∉ encoderKeys) : KeyMerged c k v c

section merge

variable {c c' : EncoderCfg} {k : String} {v : Value}

theorem keyMerged_of_mergeKey (h : mergeKey c k v = some c') : KeyMerged c k v c' := by
  unfold mergeKey at h
  by_cases hk : k ∈ encoderKeys
  · simp only [encoderKeys, List.mem_cons, List.not_mem_nil, or_false] at hk
    obtain rfl | rfl | rfl | rfl | rfl | rfl := hk <;>
      obtain ⟨x, hx, rfl⟩ := Option.map_eq_some_iff.mp h
    · exact eq_nat_of_toNat hx ▸ .pixelCount x
    · exact eq_nat_of_toNat hx ▸ .channelsPerPixel x
    · exact natsValue_of_toNats hx ▸ .colorOrder x
    · exact natsValue_of_toBytes hx ▸ .gamma x
    · exact eq_nat_of_toNat hx ▸ .groupSize x
    · exact eq_bool_of_toBool hx ▸ .invert x
  · have hne := hk
    simp only [encoderKeys, List.mem_cons, List.not_mem_nil, or_false, not_or] at hne
    simp only [hne, if_false, Option.some.injEq] at h
    exact h ▸ .unrecognised hk

/-- A merged key reads back as the value given. -/
theorem KeyMerged.get_same (h : KeyMerged c k v c') (hk : k ∈ encoderKeys) :
    mapGet (encoderParams c') k = some v := by
  cases h with
  | unrecognised h => exact absurd hk h
  | _ => rfl

/-- A merged key leaves what every other key reads. -/
theorem KeyMerged.get_ne {j : String} (h : KeyMerged c j v c') (hne : j ≠ k) :
    mapGet (encoderParams c') k = mapGet (encoderParams c) k := by
  cases h with
  | pixelCount => exact mapGet_entry_ne [] hne
  | channelsPerPixel => exact mapGet_entry_ne [_] hne
  | colorOrder => exact mapGet_entry_ne [_, _] hne
  | gamma => exact mapGet_entry_ne [_, _, _] hne
  | groupSize => exact mapGet_entry_ne [_, _, _, _] hne
  | invert => exact mapGet_entry_ne [_, _, _, _, _] hne
  | unrecognised _ => rfl

end merge

theorem mergeCfg_cons {c c' : EncoderCfg} {e : String × Value} {p : ParamObject}
    (h : mergeCfg c (e :: p) = some c') : ∃ c₁, KeyMerged c e.1 e.2 c₁ ∧ mergeCfg c₁ p = some c' := by
  unfold mergeCfg at h
  split at h
  · exact ⟨_, keyMerged_of_mergeKey ‹_›, h⟩
  · cases h

/-- What a key reads after MergeCfg: its value among the parameters, or what it read before. -/
theorem mapGet_mergeCfg {c c' : EncoderCfg} {p : ParamObject} {k : String} (hp : distinctKeys p = true)
    (hk : k ∈ encoderKeys) (h : mergeCfg c p = some c') :
    mapGet (encoderParams c') k = (mapGet p k).or (mapGet (encoderParams c) k) := by
  induction p generalizing c with
  | nil => cases h; rfl
  | cons e p ih =>
    obtain ⟨c₁, hkey, hrest⟩ := mergeCfg_cons h
    obtain ⟨hfresh, hp⟩ : (∀ e' ∈ p, e'.1 ≠ e.1) ∧ distinctKeys p = true := by
      simpa [distinctKeys] using hp
    rw [ih hp hrest, mapGet_cons]
    split
    case isTrue heq =>
      subst heq
      rw [mapGet_eq_none p _ hfresh, hkey.get_same hk]
      rfl
    case isFalse hne => rw [hkey.get_ne hne]

theorem cfg_of_encoderCfg {d : DriverConfig} {c : EncoderCfg} (h : encoderCfg d = some c) : d = .encoder c := by
  cases d with
  | encoder _ => cases h; rfl
  | _ => cases h

/-! ## The ways ENGINE_BEGIN and DRV_SET_CONFIG end on an encoder (R251, R256) -/

/-- `t` is the state after ENGINE_BEGIN on slot `i` with good constants (R192, R223, R224). -/
inductive EngineBegan (s : State) (i : Nat) (t : State) : Prop where
  | pulse {e : Engine} {q : PulseSeq} {l : Option PulseLatch} {pc : PulseConstants} (he : (s.slot i).eng = some e)
      (hc : e.core = .pulse q l) (hpc : pulseConstantsOf s.board (s.slot i).variant = some pc)
      (hok : pulseConstantsOk s.board.durationMax pc = true) (ht : t = s.pulseLatched i e q pc)
  | serial {e : Engine} {q : SerialSeq} {l : Option SerialLatch} {pc : SerialConstants} (he : (s.slot i).eng = some e)
      (hc : e.core = .serial q l) (hpc : serialConstantsOf s.board (s.slot i).variant = some pc)
      (hok : serialConstantsOk pc = true) (ht : t = s.serialLatched i e q pc)

section outcomes

variable {s t : State} {i : Nat}

theorem EngineBegan.run (h : EngineBegan s i t) (hd : (s.slot i).draining = false) : engineBegin i s = .ok () t := by
  cases h with
  | pulse he hc hpc hok ht => rw [ht, engineBegin_pulse hd he hc hpc hok]
  | serial he hc hpc hok ht => rw [ht, engineBegin_serial hd he hc hpc hok]

theorem peBegin_ends (hd : (s.slot i).draining = false) :
    (∃ r, peBegin i s = .error (.refused r) s) ∨ ∃ t, EngineBegan s i t := by
  by_cases hk : s.engineKindAt i = some .pulse
  case neg => exact .inl ⟨_, op_bind_error (pulseEngineOf_refused hk)⟩
  obtain ⟨e, he, hk⟩ := Option.map_eq_some_iff.mp hk
  obtain ⟨q, l, hc⟩ := core_of_kind_pulse hk
  rw [peBegin_idle he hc (tstate_ne_draining hd he)]
  cases hpc : pulseConstantsOf s.board (s.slot i).variant with
  | none => exact .inl ⟨.illFormedProtocolConstants, by simp only [latchPulse, hpc, refuse_run]⟩
  | some pc =>
    cases hok : pulseConstantsOk s.board.durationMax pc with
    | false => exact .inl ⟨_, latchPulse_bad hpc hok⟩
    | true => exact .inr ⟨_, .pulse he hc hpc hok rfl⟩

theorem seBegin_ends (hd : (s.slot i).draining = false) :
    (∃ r, seBegin i s = .error (.refused r) s) ∨ ∃ t, EngineBegan s i t := by
  by_cases hk : s.engineKindAt i = some .serial
  case neg => exact .inl ⟨_, op_bind_error (serialEngineOf_refused hk)⟩
  obtain ⟨e, he, hk⟩ := Option.map_eq_some_iff.mp hk
  obtain ⟨q, l, hc⟩ := core_of_kind_serial hk
  rw [seBegin_idle he hc (tstate_ne_draining hd he)]
  cases hpc : serialConstantsOf s.board (s.slot i).variant with
  | none => exact .inl ⟨.illFormedProtocolConstants, by simp only [latchSerial, hpc, refuse_run]⟩
  | some pc =>
    cases htime : serialTimingOk pc.G pc.S pc.H0 pc.H1 with
    | false => exact .inl ⟨_, latchSerial_badTiming hpc htime⟩
    | true =>
      cases hok : serialConstantsOk pc with
      | false => exact .inl ⟨_, latchSerial_badRate hpc htime hok⟩
      | true => exact .inr ⟨_, .serial he hc hpc hok rfl⟩

/-- An encoder's ENGINE_BEGIN is refused or latches: with no Draining engine it raises no fault. -/
theorem engineBegin_ends (hd : (s.slot i).draining = false) (henc : isEncoder (s.slot i).variant = true) :
    (∃ r, engineBegin i s = .error (.refused r) s) ∨ ∃ t, EngineBegan s i t := by
  cases hk : engineKindOf (s.slot i).variant with
  | none => simp [isEncoder, hk] at henc
  | some k =>
    cases k with
    | pulse => rw [engineBegin_eq_pulse hk]; exact peBegin_ends hd
    | serial => rw [engineBegin_eq_serial hk]; exact seBegin_ends hd

/-- `t` is the state after DRV_SET_CONFIG has stored the encoder options `c'` in slot `i` (R256). -/
structure ConfigStored (s : State) (i : Nat) (p : ParamObject) (c' : EncoderCfg) (t : State) : Prop where
  merged : ∃ c, (s.slot i).cfg = .encoder c ∧ mergeCfg c p = some c'
  legal : legalEncoderCfg c' = true
  latched : (s.slot i).status ≠ .ready ∧ t = s.withConfig i c' ∨
    (s.slot i).status = .ready ∧ EngineBegan (s.withConfig i c') i t

variable {p : ParamObject} {c' : EncoderCfg}

theorem ConfigStored.run (h : ConfigStored s i p c' t) (hd : (s.slot i).draining = false)
    (henc : isEncoder (s.slot i).variant = true) : drvSetConfig i p s = .ok () t := by
  obtain ⟨c, hc, hmerge⟩ := h.merged
  rw [drvSetConfig_stores hd henc hc hmerge h.legal]
  obtain ⟨hready, rfl⟩ | ⟨hready, hbegan⟩ := h.latched
  · rw [if_neg hready, op_pure]
  · rw [if_pos hready, hbegan.run ((withConfig_draining s i c').trans hd)]

/-- DRV_SET_CONFIG on an encoder is refused or stores the merged options. -/
theorem drvSetConfig_ends (hd : (s.slot i).draining = false) (henc : isEncoder (s.slot i).variant = true) :
    (∃ r t, drvSetConfig i p s = .error (.refused r) t) ∨ ∃ c' t, ConfigStored s i p c' t := by
  cases hcfg : encoderCfg (s.slot i).cfg with
  | none =>
    refine .inl ⟨.illFormedConfig, s, ?_⟩
    simp [drvSetConfig, op_bind, hd, ne_disabled_of_isEncoder henc, henc, mergeDriverCfg, hcfg]
  | some c =>
    have hc := cfg_of_encoderCfg hcfg
    cases hmerge : mergeCfg c p with
    | none => exact .inl ⟨_, _, drvSetConfig_refused hd henc hc (.inl hmerge)⟩
    | some c' =>
      cases hlegal : legalEncoderCfg c' with
      | false => exact .inl ⟨_, _, drvSetConfig_refused hd henc hc (.inr ⟨c', hmerge, hlegal⟩)⟩
      | true =>
        by_cases hready : (s.slot i).status = .ready
        case neg => exact .inr ⟨c', _, ⟨c, hc, hmerge⟩, hlegal, .inl ⟨hready, rfl⟩⟩
        obtain ⟨r, hr⟩ | ⟨t, ht⟩ := engineBegin_ends (s := s.withConfig i c')
          ((withConfig_draining s i c').trans hd) (by simpa using henc)
        · exact .inl ⟨r, _, (drvSetConfig_stores hd henc hc hmerge hlegal).trans (by rw [if_pos hready, hr])⟩
        · exact .inr ⟨c', t, ⟨c, hc, hmerge⟩, hlegal, .inr ⟨hready, ht⟩⟩

/-- What DRV_GET_CONFIG reads of the state after DRV_SET_CONFIG. -/
theorem ConfigStored.reads (h : ConfigStored s i p c' t) :
    t.board = s.board ∧ t.begun = s.begun ∧ t.renderPos = s.renderPos ∧
      (t.slot i).variant = (s.slot i).variant ∧ (t.slot i).cfg = .encoder c' := by
  obtain ⟨-, rfl⟩ | ⟨-, hbegan⟩ := h.latched
  · simp [State.withConfig]
  · cases hbegan with
    | pulse _ _ _ _ ht => subst ht; simp [State.pulseLatched, State.withConfig]
    | serial _ _ _ _ ht => subst ht; simp [State.serialLatched, State.withConfig]

/-- The refusal mark takes no part in DRV_SET_CONFIG (R337): on `s` with its own mark it does the same. -/
theorem ConfigStored.remark {m : Option RefusalReason} (h : ConfigStored { s with refused := m } i p c' t) :
    ConfigStored s i p c' { t with refused := s.refused } := by
  refine ⟨h.merged, h.legal, h.latched.imp (fun ⟨hready, ht⟩ => ⟨hready, ?_⟩) fun ⟨hready, hbegan⟩ => ⟨hready, ?_⟩⟩
  · subst ht; rfl
  · cases hbegan with
    | pulse he hc hpc hok ht => subst ht; exact .pulse he hc hpc hok rfl
    | serial he hc hpc hok ht => subst ht; exact .serial he hc hpc hok rfl

end outcomes

/-- Settles O35: neither refused nor faulted, DRV_SET_CONFIG has stored the merged options, whose object DRV_GET_CONFIG
answers. -/
theorem configurationRoundTrip : Obligations.ConfigurationRoundTrip := by
  intro s t i p hi hm hp henc hd hexec hmark
  rw [exec_drvSetConfig (s := { s with refused := none }) hi hm hp] at hexec
  obtain ⟨c', hstored⟩ : ∃ c', ConfigStored { s with refused := none } i p c' t := by
    obtain ⟨r, u, hrun⟩ | ⟨c', u, hstored⟩ := drvSetConfig_ends (s := { s with refused := none }) (p := p) hd henc
    · rw [runStep_refused hrun] at hexec
      cases hexec
      cases hmark
    · rw [runStep_ok (hstored.run hd henc)] at hexec
      cases hexec
      exact ⟨c', hstored⟩
  have hstored := hstored.remark
  obtain ⟨c, -, hmerge⟩ := hstored.merged
  obtain ⟨hboard, hbegun, hpos, hv, hcfg⟩ := hstored.reads
  refine ⟨encoderParams c', ?set, ?get, fun k v hk hkey => ?_, fun k => mapGet_encoderParams_unrecognised c'⟩
  case set => rw [exec_drvSetConfig hi hm hp, runStep_ok (hstored.run hd henc)]
  case get =>
    rw [exec_drvGetConfig (hboard ▸ hi) ⟨hbegun.trans hm.1, hpos.trans hm.2⟩,
      drvConfigOf_encoder (hv ▸ henc) hcfg]
  · rw [mapGet_mergeCfg hp hkey hmerge, hk]
    rfl

end Sys2Proof.Machine
end

section
/-! SUPPORT. DRV_RENDER (R258): it does nothing, counts a drop, or is START_FRAME of the engine's kind; two Renders
within the minimum frame duration (R270). -/

namespace Sys2Proof.Machine

section render

variable {s : State} {i : Nat} {e : Engine}

/-! ## The three ways of DRV_RENDER -/

theorem drvRender_none (he : (s.slot i).eng = none) : drvRender i s = .ok () s := by
  simp only [drvRender, op_bind, getState_run, he, op_pure]

theorem drvRender_some (he : (s.slot i).eng = some e) :
    drvRender i s =
      (if (s.slot i).status ≠ .ready ∨ (s.slot i).paused = true then pure ()
      else if e.tstate.transmitting || !s.frameDue (s.slot i) e then
        modSlot i fun d => { d with droppedCount := countUp d.droppedCount }
      else startFrame i) s := by
  simp only [drvRender, op_bind, getState_run, he]

theorem drvRender_returns (h : (s.slot i).eng = none ∨ (s.slot i).status ≠ .ready ∨ (s.slot i).paused = true) :
    drvRender i s = .ok () s := by
  cases he : (s.slot i).eng with
  | none => exact drvRender_none he
  | some e => rw [drvRender_some he, if_pos (h.resolve_left (by simp [he])), op_pure]

theorem drvRender_renders (he : (s.slot i).eng = some e) (hready : (s.slot i).status = .ready)
    (hpaused : (s.slot i).paused = false) :
    drvRender i s =
      (if e.tstate.transmitting || !s.frameDue (s.slot i) e then
        modSlot i fun d => { d with droppedCount := countUp d.droppedCount }
      else startFrame i) s := by
  rw [drvRender_some he, if_neg (by simp [hready, hpaused])]

theorem drvRender_drops (he : (s.slot i).eng = some e) (hready : (s.slot i).status = .ready)
    (hpaused : (s.slot i).paused = false) (hbusy : e.tstate.transmitting = true ∨ s.frameDue (s.slot i) e = false) :
    drvRender i s =
      .ok () (s.setSlot i { s.slot i with droppedCount := (s.slot i).droppedCount + 1 }) := by
  rw [drvRender_renders he hready hpaused, if_pos (by simpa using hbusy)]
  rfl

theorem drvRender_starts (he : (s.slot i).eng = some e) (hready : (s.slot i).status = .ready)
    (hpaused : (s.slot i).paused = false) (hts : e.tstate.transmitting = false)
    (hdue : s.frameDue (s.slot i) e = true) : drvRender i s = startFrame i s := by
  rw [drvRender_renders he hready hpaused, if_neg (by simp [hts, hdue])]

theorem startFrame_pulse (h : engineKindOf (s.slot i).variant = some .pulse) :
    startFrame i s = peStartFrame i s := by
  rw [startFrame, op_bind_ok (getState_run s), h]

theorem startFrame_serial (h : engineKindOf (s.slot i).variant = some .serial) :
    startFrame i s = seStartFrame i s := by
  rw [startFrame, op_bind_ok (getState_run s), h]

/-! ## A Render that starts a frame -/

/-- A frame has started on slot `i`: it is counted and stamped, its engine transmits, and the driver's other fields are
as in `s` (R193, R225). -/
def FrameStarted (s : State) (i : Nat) (t : State) : Prop :=
  ∃ e, t.slot i = { s.slot i with frameCount := (s.slot i).frameCount + 1, eng := some e } ∧
    e.tstate = .draining ∧ e.frameStart = some s.now

theorem FrameStarted.draining {t : State} (h : FrameStarted s i t) : (t.slot i).draining = true := by
  obtain ⟨e, hslot, hts, -⟩ := h
  rw [hslot, DriverState.draining]
  exact decide_eq_true hts

/-- Slot `i` has a frame to start: its driver Ready and not paused, its engine still and its frame timer run out. -/
structure State.RenderDue (s : State) (i : Nat) (e : Engine) : Prop where
  ready : (s.slot i).status = .ready
  notPaused : (s.slot i).paused = false
  still : e.tstate = .idle ∨ e.tstate = .frameComplete
  due : s.frameDue (s.slot i) e = true

theorem drvRender_startsPulse {q : PulseSeq} {l : PulseLatch} (hi : s.hasSlot i) (hm : s.mainLoopFree)
    (hlatch : s.pulseEngine i e q l) (hkind : engineKindOf (s.slot i).variant = some .pulse) (hs : s.sliceReadable i)
    (h : s.RenderDue i e) :
    ∃ t, exec (.drvRender i) s = .next t ∧ exec (.peStartFrame i) s = .next t ∧ FrameStarted s i t := by
  obtain ⟨t, q', k, hexec, -, hslot, -⟩ := pulseStartFrameStagesTheFirstItems.1 s i e q l hi hlatch h.still hs
  obtain ⟨he, hc⟩ := hlatch
  have hts := not_transmitting_of h.still
  refine ⟨t, ?_, hexec, _, hslot, rfl, rfl⟩
  rw [exec_drvRender hi hm,
    runStep_congr ((drvRender_starts he h.ready h.notPaused hts h.due).trans (startFrame_pulse hkind)),
    ← hexec, exec_peStartFrame hi he hc, runStep_guardStep_true (by simp [hts])]

theorem drvRender_startsSerial {q : SerialSeq} {l : SerialLatch} (hi : s.hasSlot i) (hm : s.mainLoopFree)
    (hlatch : s.serialEngine i e q l) (hlegal : l.legal) (hkind : engineKindOf (s.slot i).variant = some .serial)
    (hs : s.sliceReadable i) (h : s.RenderDue i e) :
    ∃ t, exec (.drvRender i) s = .next t ∧ exec (.seStartFrame i) s = .next t ∧ FrameStarted s i t := by
  obtain ⟨t, q', k, hexec, -, hslot, -⟩ :=
    serialStartFrameStagesTheFirstBytes.1 s i e q l hi hlatch hlegal h.still hs
  obtain ⟨he, hc⟩ := hlatch
  have hts := not_transmitting_of h.still
  refine ⟨t, ?_, hexec, _, hslot, rfl, rfl⟩
  rw [exec_drvRender hi hm,
    runStep_congr ((drvRender_starts he h.ready h.notPaused hts h.due).trans (startFrame_serial hkind)),
    ← hexec, exec_seStartFrame hi he hc, runStep_guardStep_true (by simp [hts])]

end render

/-- Settles O38: DRV_RENDER returns, drops or starts by its two tests; a start is the engine's START_FRAME. -/
theorem renderStartsDropsOrReturns : Obligations.RenderStartsDropsOrReturns := by
  intro s i hi hm
  refine ⟨fun h => ?returns, fun e he hready hpaused hbusy => ?drops,
    fun e q l hlatch hkind hs hready hpaused hts hdue => ?pulse,
    fun e q l hlatch hlegal hkind hs hready hpaused hts hdue => ?serial⟩
  case returns => rw [exec_drvRender hi hm, runStep_ok (drvRender_returns h)]
  case drops =>
    rw [exec_drvRender hi hm, runStep_ok (drvRender_drops he hready hpaused ?_)]
    rw [frameDue_false_iff]
    exact (or_assoc.mpr hbusy).imp_left transmitting_of
  case pulse =>
    obtain ⟨t, hrender, hstart, ht⟩ :=
      drvRender_startsPulse hi hm hlatch hkind hs ⟨hready, hpaused, hts, frameDue_iff.mpr hdue⟩
    have hdraining := ht.draining
    obtain ⟨e', hslot, -⟩ := ht
    exact ⟨t, hrender, hstart, by rw [hslot], hdraining, by rw [hslot]⟩
  case serial =>
    obtain ⟨t, hrender, hstart, ht⟩ :=
      drvRender_startsSerial hi hm hlatch hlegal hkind hs ⟨hready, hpaused, hts, frameDue_iff.mpr hdue⟩
    have hdraining := ht.draining
    obtain ⟨e', hslot, -⟩ := ht
    exact ⟨t, hrender, hstart, by rw [hslot], hdraining, by rw [hslot]⟩

/-- A Render that may start a frame starts one, on either kind of engine. -/
theorem drvRender_frameStarted {s t : State} {i : Nat} {e : Engine} {q : PulseSeq} {l : PulseLatch}
    (hi : s.hasSlot i) (hm : s.mainLoopFree) (hs : s.sliceReadable i)
    (hlatch : s.pulseEngine i e q l ∨ ∃ q' l', s.serialEngine i e q' l' ∧ l'.legal)
    (hkind : (s.slot i).eng.map Engine.kind = engineKindOf (s.slot i).variant) (h : s.RenderDue i e)
    (hexec : exec (.drvRender i) s = .next t) : FrameStarted s i t := by
  obtain ⟨u, hu, hstarted⟩ : ∃ u, exec (.drvRender i) s = .next u ∧ FrameStarted s i u := by
    obtain ⟨he, hc⟩ | ⟨q', l', ⟨he, hc⟩, hlegal⟩ := hlatch
    · rw [he, Option.map_some, kind_pulse hc] at hkind
      obtain ⟨u, hu, -, hstarted⟩ := drvRender_startsPulse hi hm ⟨he, hc⟩ hkind.symm hs h
      exact ⟨u, hu, hstarted⟩
    · rw [he, Option.map_some, kind_serial hc] at hkind
      obtain ⟨u, hu, -, hstarted⟩ := drvRender_startsSerial hi hm ⟨he, hc⟩ hlegal hkind.symm hs h
      exact ⟨u, hu, hstarted⟩
  rw [hu] at hexec
  cases hexec
  exact hstarted

/-- Settles O39: the first Render stamps the frame at `s.now`, so the second finds its frame timer still running. -/
theorem secondRenderIsDropped : Obligations.SecondRenderIsDropped := by
  rintro s t u i e q l hi hm hs hlatch hkind hready hpaused hstill hdue hexec hmu hboard hv hcfg hstatus hpause hframes
    hdrops ⟨e', he', hstart⟩ helapsed
  obtain ⟨e₁, hslot, -, hstamp⟩ := drvRender_frameStarted hi hm hs hlatch hkind ⟨hready, hpaused, hstill, hdue⟩ hexec
  rw [hslot] at hv hcfg hstatus hpause hframes hdrops hstart
  have htimer : u.frameDue (u.slot i) e' = false := by
    refine frameDue_false_iff.mpr ⟨s.now, hstart.trans hstamp, ?_⟩
    rw [State.minFrameDuration, hboard, hv, hcfg]
    exact helapsed
  have hi' : u.hasSlot i := by rwa [State.hasSlot, hboard]
  refine ⟨_, (exec_drvRender hi' hmu).trans
    (runStep_ok (drvRender_drops he' (hstatus.trans hready) (hpause.trans hpaused) (.inr htimer))), ?_, ?_⟩
  · rw [setSlot_slot_same]
    exact hframes
  · rw [setSlot_slot_same]
    exact congrArg (· + 1) hdrops

end Sys2Proof.Machine
end

section
/-! SUPPORT. The manager's commands that only stage, report, pause or resume (R291 to R293, R296, R297, R301), the
checks of MGR_RESOLVE_ENTRY in their order (R299), and what a loop over the block's slots leaves. -/

namespace Sys2Proof.Machine

/-! ## Loops over slots -/

/-- An operation `f` on a slot `i` where `Good s i` holds: it finishes, writes no other slot's driver and otherwise only
what `Frame` allows, and leaves in slot `i` a driver for which `Done s i` holds. `Good` and `Done` read of a state what
the operations on other slots keep. -/
structure SlotLoop (Frame : State → State → Prop) (Good : State → Nat → Prop) (Done : State → Nat → DriverState → Prop)
    (f : Nat → Op Unit) : Prop where
  refl : ∀ s, Frame s s
  trans : ∀ {s t u}, Frame s t → Frame t u → Frame s u
  good : ∀ {s t i}, Frame s t → t.slot i = s.slot i → Good s i → Good t i
  done : ∀ {s t i d}, Frame s t → t.slot i = s.slot i → Done t i d → Done s i d
  run : ∀ {s i}, Good s i → ∃ t, f i s = .ok () t ∧ Frame s t ∧ (∀ j, j ≠ i → t.slot j = s.slot j) ∧ Done s i (t.slot i)

section loops

variable {Frame : State → State → Prop} {Good : State → Nat → Prop} {Done : State → Nat → DriverState → Prop}
  {f : Nat → Op Unit}

/-- The loop finishes with every listed slot done and every other one as before. -/
theorem SlotLoop.forEach_run (h : SlotLoop Frame Good Done f) :
    ∀ {xs : List Nat} {s : State}, xs.Nodup → (∀ i ∈ xs, Good s i) →
      ∃ t, forEach f xs s = .ok () t ∧ Frame s t ∧ (∀ i ∈ xs, Done s i (t.slot i)) ∧ ∀ i, i ∉ xs → t.slot i = s.slot i
  | [], s, _, _ => ⟨s, rfl, h.refl s, nofun, fun _ _ => rfl⟩
  | k :: rest, s, hnodup, hgood => by
    obtain ⟨hk, hrest⟩ := List.nodup_cons.mp hnodup
    obtain ⟨t, hrun, hframe, hother, hdone⟩ := h.run (hgood k List.mem_cons_self)
    have hother' : ∀ {i}, i ∈ rest → t.slot i = s.slot i := fun {i} hi => hother i fun heq => hk (heq ▸ hi)
    obtain ⟨u, hrun', hframe', hdone', hother''⟩ := h.forEach_run hrest fun i hi =>
      h.good hframe (hother' hi) (hgood i (List.mem_cons_of_mem k hi))
    refine ⟨u, (op_bind_ok hrun).trans hrun', h.trans hframe hframe', fun i hi => ?_, fun i hi => ?_⟩
    · rcases List.mem_cons.mp hi with rfl | hi
      · rw [hother'' i hk]; exact hdone
      · exact h.done hframe (hother' hi) (hdone' i hi)
    · rw [List.mem_cons, not_or] at hi
      rw [hother'' i hi.2, hother i hi.1]

/-- A loop over all slots of the block. -/
theorem SlotLoop.allSlots_run (h : SlotLoop Frame Good Done f) {s : State} (hgood : ∀ i, s.hasSlot i → Good s i) :
    ∃ t, forEach f s.slotIndices s = .ok () t ∧ Frame s t ∧ (∀ i, s.hasSlot i → Done s i (t.slot i)) ∧
      ∀ i, ¬s.hasSlot i → t.slot i = s.slot i := by
  obtain ⟨t, hrun, hframe, hdone, hother⟩ := h.forEach_run List.nodup_range fun i hi => hgood i (List.mem_range.mp hi)
  exact ⟨t, hrun, hframe, fun i hi => hdone i (List.mem_range.mpr hi),
    fun i hi => hother i fun h => hi (List.mem_range.mp h)⟩

end loops

/-- `t` is `s` with other drivers in its slots. -/
def SlotsOnly (s t : State) : Prop := t = { s with slots := t.slots }

theorem SlotsOnly.trans {s t u : State} (h : SlotsOnly s t) (h' : SlotsOnly t u) : SlotsOnly s u :=
  Eq.trans h' (congrArg (fun v : State => { v with slots := u.slots }) h)

theorem SlotsOnly.pauseHeld {s t : State} (h : SlotsOnly s t) : t.pauseHeld = s.pauseHeld := by rw [h]; rfl

/-- A loop whose operation is one write of a slot's pause bit, to what `bit` reads of the manager's pauses. -/
theorem pauseLoop {f : Nat → Op Unit} {bit : State → Bool}
    (hf : ∀ i s, f i s = .ok () (s.setSlot i { s.slot i with paused := bit s }))
    (hbit : ∀ {s t}, SlotsOnly s t → bit t = bit s) :
    SlotLoop SlotsOnly (fun _ _ => True) (fun s i d => d = { s.slot i with paused := bit s }) f where
  refl _ := rfl
  trans := SlotsOnly.trans
  good _ _ := id
  done hframe hslot hd := by rw [hd, hslot, hbit hframe]
  run {s i} _ := ⟨_, hf i s, rfl, fun j hj => setSlot_slot_other s i _ hj, setSlot_slot_same s i _⟩

/-- What a loop over DRV_PAUSE or DRV_RESUME leaves: every slot's pause bit is `bit`, and nothing else changed. -/
structure PauseBits (bit : Bool) (s t : State) : Prop where
  frame : SlotsOnly s t
  slot : ∀ i, t.slot i = if i < s.board.numSlots then { s.slot i with paused := bit } else s.slot i

theorem pauseLoop_run {f : Nat → Op Unit} {bit : State → Bool}
    (hf : ∀ i s, f i s = .ok () (s.setSlot i { s.slot i with paused := bit s }))
    (hbit : ∀ {s t}, SlotsOnly s t → bit t = bit s) (s : State) :
    ∃ t, forEach f s.slotIndices s = .ok () t ∧ PauseBits (bit s) s t := by
  obtain ⟨t, hrun, hframe, hdone, hother⟩ := (pauseLoop hf hbit).allSlots_run (s := s) fun _ _ => trivial
  refine ⟨t, hrun, hframe, fun i => ?_⟩
  split
  · exact hdone i ‹_›
  · exact hother i ‹_›

/-- All slots paused (R260, R296, R298). -/
theorem forEach_drvPause_run (s : State) :
    ∃ t, forEach drvPause s.slotIndices s = .ok () t ∧ PauseBits true s t :=
  pauseLoop_run (bit := fun _ => true) (fun _ _ => rfl) (fun _ => rfl) s

/-- All slots resumed to what the manager holds (R261, R297, R298). -/
theorem forEach_drvResume_run (s : State) :
    ∃ t, forEach drvResume s.slotIndices s = .ok () t ∧ PauseBits s.pauseHeld s t :=
  pauseLoop_run (bit := State.pauseHeld) (fun _ _ => rfl) SlotsOnly.pauseHeld s

/-! ## Staging, reports, pause and resume -/

theorem mgrPause_run (s : State) :
    ∃ t, mgrPause s = .ok () t ∧ PauseBits true { s with userPaused := true } t :=
  forEach_drvPause_run { s with userPaused := true }

theorem mgrResume_run (s : State) :
    ∃ t, mgrResume s = .ok () t ∧ PauseBits s.reloadPaused { s with userPaused := false } t :=
  forEach_drvResume_run { s with userPaused := false }

/-- Settles O43: each command is one write behind its checks, or the write of the user pause and a loop over the pause
bits. -/
theorem managerStagesReportsAndPauses : Obligations.ManagerStagesReportsAndPauses := by
  refine ⟨fun s hm => ⟨fun doc hdoc => ?stage, ?config, ?status, ?pause, ?resume⟩, fun s => rfl⟩
  case stage => exact (runStep_bind_ok (admitOperands_ok hdoc) _).trans (runStep_mainLoop hm _ _)
  case config => exact runStep_mainLoop hm _ _
  case status => exact runStep_mainLoop hm _ _
  case pause =>
    obtain ⟨t, hrun, hbits⟩ := mgrPause_run s
    exact ⟨t, (runStep_mainLoop hm _ _).trans (runStep_ok hrun), hbits.frame, hbits.slot⟩
  case resume =>
    obtain ⟨t, hrun, hbits⟩ := mgrResume_run s
    exact ⟨t, (runStep_mainLoop hm _ _).trans (runStep_ok hrun), hbits.frame, hbits.slot⟩

/-! ## MGR_RESOLVE_ENTRY (R299) -/

/-- The parameters a document gives slot `i`: none where the entry is bad (R299). -/
def resolvedParams (s : State) (i : Nat) (doc : ConfigDoc) : ParamObject :=
  match resolve s i doc with
  | .bind _ p => p
  | .bad _ => []

/-- The log after MGR_RESOLVE_ENTRY: one record more where the entry is bad (R299, R333). -/
def State.resolveLogged (s : State) (i : Nat) (doc : ConfigDoc) : State :=
  match resolve s i doc with
  | .bind _ _ => s
  | .bad r => { s with diag := s.diag ++ [{ slot := i, detail := .configError r }] }

section resolving

variable {s : State} {i : Nat} {doc : ConfigDoc}

theorem mgrResolveEntry_run (s : State) (i : Nat) (doc : ConfigDoc) :
    mgrResolveEntry i doc s =
      .ok (resolvedVariant s i doc, resolvedParams s i doc) (s.resolveLogged i doc) := by
  unfold resolvedVariant resolvedParams State.resolveLogged
  cases h : resolve s i doc <;> simp [mgrResolveEntry, op_bind, op_map, h]

theorem exec_mgrResolveEntry (hi : s.hasSlot i) (hdoc : doc.wellFormed = true) :
    exec (.mgrResolveEntry i doc) s = .next { s.resolveLogged i doc with
      reply := some (.binding (resolvedVariant s i doc) (resolvedParams s i doc)) } :=
  (runStep_onSlot hi _).trans ((runStep_bind_ok (admitOperands_ok hdoc) _).trans
    (runStep_ok ((op_bind_ok (mgrResolveEntry_run s i doc)).trans (answer_run _ _))))

theorem exec_mgrResolveEntry_bad {r : ConfigProblem} (hi : s.hasSlot i) (hdoc : doc.wellFormed = true)
    (h : resolve s i doc = .bad r) : exec (.mgrResolveEntry i doc) s = .next (s.badEntry i r) := by
  rw [exec_mgrResolveEntry hi hdoc]
  simp only [resolvedVariant, resolvedParams, State.resolveLogged, State.badEntry, h]

theorem exec_mgrResolveEntry_bind {v : Variant} {p : ParamObject} (hi : s.hasSlot i) (hdoc : doc.wellFormed = true)
    (h : resolve s i doc = .bind v p) :
    exec (.mgrResolveEntry i doc) s = .next { s with reply := some (.binding v p) } := by
  rw [exec_mgrResolveEntry hi hdoc]
  simp only [resolvedVariant, resolvedParams, State.resolveLogged, h]

theorem resolve_entry {en : Entry} (hversion : doc.version = s.board.configFormatVersion)
    (hen : mapGet doc.channels i = some en) : resolve s i doc = resolveEntry s i en := by
  simp only [resolve, hversion, ne_eq, not_true_eq_false, if_false, hen]

theorem resolveEntry_malformed {en : Entry}
    (h : en.typeCode = none ∨ ∃ k, en.typeCode = some k ∧ mapGet en.params k = none) :
    resolveEntry s i en = .bad .malformedEntry := by
  obtain hnone | ⟨k, hk, hp⟩ := h
  · simp only [resolveEntry, hnone]
  · simp only [resolveEntry, hk, hp]

theorem mem_allVariants (v : Variant) : v ∈ allVariants := by cases v <;> decide

theorem variantOfCode_eq_none {b : Board} {k : Nat} (h : ∀ v, b.protocolCode.at v ≠ k) : variantOfCode b k = none :=
  List.find?_eq_none.mpr fun v _ => by simpa using h v

/-- With distinct codes each code names its own variant (R123). -/
theorem variantOfCode_at {b : Board} (h : allDistinct (allVariants.map b.protocolCode.at) = true) (v : Variant) :
    variantOfCode b (b.protocolCode.at v) = some v := by
  cases hw : variantOfCode b (b.protocolCode.at v) with
  | none => exact absurd (List.find?_eq_none.mp hw v (mem_allVariants v)) (by simp)
  | some w =>
    have hcode : b.protocolCode.at w = b.protocolCode.at v := by simpa using List.find?_some hw
    rw [List.inj_on_of_nodup_map (allDistinct_iff.mp h) (mem_allVariants w) (mem_allVariants v) hcode]

/-- The checks on an entry whose type code is a variant's. -/
theorem resolveEntry_known {en : Entry} {k : Nat} {p : ParamObject} {v : Variant} (hk : en.typeCode = some k)
    (hp : mapGet en.params k = some p) (hv : variantOfCode s.board k = some v) :
    resolveEntry s i en =
      if !legalAt s.board i v then .bad .illegalForSlot else if !paramsOk s i v p then .bad .badParams
      else .bind v p := by
  simp only [resolveEntry, hk, hp, hv]

theorem paramsOk_other {v : Variant} {p : ParamObject} (h : isEncoder v = false) : paramsOk s i v p = true := by
  simp [paramsOk, h]

theorem mergeBase_encoder {v : Variant} (h : isEncoder v = true) :
    mergeBase s i v = if v = (s.slot i).variant then (s.slot i).cfg else .encoder (s.board.defaultCfg.at v) := by
  unfold mergeBase defaultCfgOf
  cases v <;> simp_all [isEncoder, engineKindOf]

theorem paramsOk_encoder {v : Variant} {p : ParamObject} {c : EncoderCfg} (h : isEncoder v = true)
    (hc : mergeBase s i v = .encoder c) :
    paramsOk s i v p = true ↔ ∃ c', mergeCfg c p = some c' ∧ legalEncoderCfg c' = true := by
  simp only [paramsOk, h, if_true, hc, mergeDriverCfg, encoderCfg]
  cases mergeCfg c p <;> simp [legalCfg]

end resolving

/-- Settles O45: `resolve` makes the checks in R299's order, and what it finds decides the log and the answer. -/
theorem resolveEntryChecksInOrder : Obligations.ResolveEntryChecksInOrder := by
  intro s i doc hi hdoc
  refine ⟨fun hversion => ?version, fun hversion hnone => ?missing, fun en hversion hen hbad => ?malformed,
    fun en k p hversion hen hk hp hcode => ?unknown, fun en k p v hversion hen hk hp hcode hdistinct => ?known⟩
  case version =>
    exact exec_mgrResolveEntry_bad hi hdoc
      (by simp only [resolve, hversion, ne_eq, not_false_eq_true, if_true])
  case missing =>
    exact exec_mgrResolveEntry_bad hi hdoc
      (by simp only [resolve, hversion, ne_eq, not_true_eq_false, if_false, hnone])
  case malformed =>
    exact exec_mgrResolveEntry_bad hi hdoc ((resolve_entry hversion hen).trans (resolveEntry_malformed hbad))
  case unknown =>
    refine exec_mgrResolveEntry_bad hi hdoc ((resolve_entry hversion hen).trans ?_)
    simp only [resolveEntry, hk, hp, variantOfCode_eq_none hcode]
  case known =>
    subst hcode
    have hres := (resolve_entry hversion hen).trans (resolveEntry_known hk hp (variantOfCode_at hdistinct v))
    refine ⟨fun hlegal => ?illegal, fun hlegal henc => ?other, fun c hlegal henc hc => ?encoder⟩
    case illegal => exact exec_mgrResolveEntry_bad hi hdoc (by rw [hres]; simp [hlegal])
    case other => exact exec_mgrResolveEntry_bind hi hdoc (by rw [hres]; simp [hlegal, paramsOk_other henc])
    case encoder =>
      have hparams := paramsOk_encoder (p := p) henc ((mergeBase_encoder henc).trans hc)
      refine ⟨fun c' hmerge hok => ?good, fun hbad => ?bad⟩
      case good =>
        have hgood : paramsOk s i v p = true := hparams.mpr ⟨c', hmerge, hok⟩
        exact exec_mgrResolveEntry_bind hi hdoc (by rw [hres]; simp [hlegal, hgood])
      case bad =>
        have hpoor : paramsOk s i v p = false := by
          rw [← Bool.not_eq_true, hparams]
          rintro ⟨c', hmerge, hok⟩
          obtain hnone | ⟨c'', hmerge', hill⟩ := hbad
          · cases hnone.symm.trans hmerge
          · cases hmerge'.symm.trans hmerge
            cases hill.symm.trans hok
        exact exec_mgrResolveEntry_bad hi hdoc (by rw [hres]; simp [hlegal, hpoor])

end Sys2Proof.Machine
end

section
/-! SUPPORT. The pause law as an invariant (R34, R307): what every operation but DRV_PAUSE and the manager's pause,
resume and reload keeps of the pause bits, first for the engines and the driver. -/

namespace Sys2Proof.Machine

variable {α β : Type}

/-! ## What is kept of the pauses -/

/-- `t` has the board, the pending document and the pauses of `s`; a pause bit is as in `s`, or it is what the manager
holds (R34). -/
structure State.PausedAs (s t : State) : Prop where
  board : t.board = s.board
  pending : t.pending = s.pending
  userPaused : t.userPaused = s.userPaused
  reloadPaused : t.reloadPaused = s.reloadPaused
  slot : ∀ i, (t.slot i).paused = (s.slot i).paused ∨ (t.slot i).paused = s.pauseHeld

namespace State.PausedAs

variable {s t u : State}

theorem of_slots (hb : t.board = s.board) (hp : t.pending = s.pending) (hu : t.userPaused = s.userPaused)
    (hr : t.reloadPaused = s.reloadPaused) (hs : ∀ i, t.slot i = s.slot i) : s.PausedAs t :=
  ⟨hb, hp, hu, hr, fun i => .inl (by rw [hs i])⟩

theorem refl (s : State) : s.PausedAs s := of_slots rfl rfl rfl rfl fun _ => rfl

theorem pauseHeld (h : s.PausedAs t) : t.pauseHeld = s.pauseHeld := by
  rw [State.pauseHeld, h.userPaused, h.reloadPaused]
  rfl

theorem trans (h : s.PausedAs t) (h' : t.PausedAs u) : s.PausedAs u where
  board := h'.board.trans h.board
  pending := h'.pending.trans h.pending
  userPaused := h'.userPaused.trans h.userPaused
  reloadPaused := h'.reloadPaused.trans h.reloadPaused
  slot i := (h'.slot i).elim (fun hi => (h.slot i).imp hi.trans hi.trans) fun hi => .inr (hi.trans h.pauseHeld)

theorem setSlot {i : Nat} {d : DriverState} (h : d.paused = (s.slot i).paused ∨ d.paused = s.pauseHeld) :
    s.PausedAs (s.setSlot i d) where
  board := rfl
  pending := rfl
  userPaused := rfl
  reloadPaused := rfl
  slot j := by
    rw [setSlot_slot]
    split
    · subst j; exact h
    · exact .inl rfl

theorem addFault (s : State) (f : FaultRecord) : s.PausedAs (s.addFault f) :=
  of_slots (by simp) (by simp) (by simp) (by simp) (by simp)

/-- The pause law holds on from `s` to `t` (R307). -/
theorem pauseLaw (h : s.PausedAs t) (hs : s.pauseLaw) : t.pauseLaw := by
  intro i hi
  rw [h.pauseHeld]
  rw [State.hasSlot, h.board] at hi
  exact (h.slot i).elim (fun hi' => hi'.trans (hs i hi)) id

end State.PausedAs

/-! ## Operations that keep the pauses -/

/-- The operation keeps the manager's pauses, the pending document and every pause bit, finished or faulted, but for
bits it sets to what the manager holds. -/
def Op.KeepsPauses (x : Op α) : Prop := ∀ s, Ends (fun _ t => s.PausedAs t) s.PausedAs True (x s)

theorem Op.KeepsPauses.after {x : Op α} (hx : x.KeepsPauses) {s t : State} (h : s.PausedAs t) :
    Ends (fun _ u => s.PausedAs u) s.PausedAs True (x t) :=
  (hx t).mono (fun _ _ => h.trans) (fun _ => h.trans) id

theorem Op.KeepsPauses.bind {x : Op α} {f : α → Op β} (hx : x.KeepsPauses) (hf : ∀ a, (f a).KeepsPauses) :
    (x >>= f).KeepsPauses := fun s => (hx s).bind fun a _ ht => (hf a).after ht

theorem Op.KeepsPauses.ite {c : Prop} [Decidable c] {x y : Op α} (hx : x.KeepsPauses) (hy : y.KeepsPauses) :
    (if c then x else y).KeepsPauses := by split <;> assumption

theorem Op.Reads.keepsPauses {P : State → Prop} {x : Op α} (h : x.Reads P) : x.KeepsPauses := fun s =>
  (h s).mono (fun _ _ ht => ht ▸ .refl s) (fun _ => False.elim) fun _ => trivial

/-- After the state is read. -/
theorem getState_keepsPauses {f : State → Op α} (hf : ∀ s, (f s).KeepsPauses) : (getState >>= f).KeepsPauses :=
  .bind (getState_reads (P := fun _ => True)).keepsPauses hf

theorem pure_keepsPauses (a : α) : (pure a : Op α).KeepsPauses := (pure_reads (P := fun _ => True) a).keepsPauses

theorem fail_keepsPauses {e : Exc} (h : e ≠ .raised) : (fail e : Op α).KeepsPauses := fun s => by
  cases e with
  | raised => exact absurd rfl h
  | _ => trivial

theorem refuse_keepsPauses (r : RefusalReason) : (refuse r : Op α).KeepsPauses := fun _ => trivial

theorem refuseIf_keepsPauses (c : Bool) (r : RefusalReason) : (refuseIf c r).KeepsPauses :=
  (refuseIf_reads (P := fun _ => True) c r).keepsPauses

theorem guardStep_keepsPauses (c : Bool) (m : String) : (guardStep c m).KeepsPauses :=
  (guardStep_reads (P := fun _ => True) c m).keepsPauses

theorem pulseEngineOf_keepsPauses (i : Nat) : (pulseEngineOf i).KeepsPauses :=
  (pulseEngineOf_reads (P := fun _ => True) i).keepsPauses

theorem serialEngineOf_keepsPauses (i : Nat) : (serialEngineOf i).KeepsPauses :=
  (serialEngineOf_reads (P := fun _ => True) i).keepsPauses

theorem latched_keepsPauses (l : Option α) (m : String) : (latched l m).KeepsPauses :=
  (latched_reads (P := fun _ => True) l m).keepsPauses

theorem entryOf_keepsPauses (xs : List α) (k : Nat) : (entryOf xs k).KeepsPauses := fun s =>
  (entryOf_ends xs k s).mono (fun _ _ ht => ht ▸ .refl s) (fun _ => id) fun _ => trivial

theorem raise_keepsPauses (f : FaultRecord) : (raise f : Op α).KeepsPauses := fun s => .addFault s f

theorem raiseIf_keepsPauses (c : Bool) (f : FaultRecord) : (raiseIf c f).KeepsPauses :=
  .ite (raise_keepsPauses f) (pure_keepsPauses ())

/-- A write that neither the pauses nor the pending document sees. -/
theorem modState_keepsPauses {f : State → State} (h : ∀ s : State, s.PausedAs (f s)) : (modState f).KeepsPauses := h

theorem modSlot_keepsPauses (i : Nat) {f : DriverState → DriverState} (h : ∀ d : DriverState, (f d).paused = d.paused) :
    (modSlot i f).KeepsPauses := fun _ => .setSlot (.inl (h _))

theorem modEngine_keepsPauses (i : Nat) (f : Engine → Engine) : (modEngine i f).KeepsPauses :=
  modSlot_keepsPauses i fun _ => rfl

theorem modPu_keepsPauses (u : Nat) (f : PulseUnit → PulseUnit) : (modPu u f).KeepsPauses := fun _ =>
  .of_slots rfl rfl rfl rfl fun _ => rfl

theorem modSu_keepsPauses (u : Nat) (f : SerialUnit → SerialUnit) : (modSu u f).KeepsPauses := fun _ =>
  .of_slots rfl rfl rfl rfl fun _ => rfl

theorem answer_keepsPauses (r : Reply) : (answer r).KeepsPauses := fun _ => .of_slots rfl rfl rfl rfl fun _ => rfl

theorem logDiag_keepsPauses (i : Nat) (d : DiagDetail) : (logDiag i d).KeepsPauses := fun _ =>
  .of_slots rfl rfl rfl rfl fun _ => rfl

theorem drawPeriphInit_keepsPauses (i : Nat) : (drawPeriphInit i).KeepsPauses := by
  intro s
  unfold drawPeriphInit
  split <;> exact .of_slots rfl rfl rfl rfl fun _ => rfl

theorem drawPersistLoad_keepsPauses : drawPersistLoad.KeepsPauses := by
  intro s
  unfold drawPersistLoad
  split <;> exact .of_slots rfl rfl rfl rfl fun _ => rfl

theorem forEach_keepsPauses {f : Nat → Op Unit} (hf : ∀ i, (f i).KeepsPauses) : ∀ xs, (forEach f xs).KeepsPauses
  | [] => pure_keepsPauses ()
  | i :: rest => (hf i).bind fun _ => forEach_keepsPauses hf rest

theorem bufRead_keepsPauses (a : Nat) : (bufRead a).KeepsPauses := by
  intro s
  rw [bufRead_run]
  split
  · exact .addFault s _
  · exact .refl s

/-! ## The sequencers -/

theorem drvMoreData_keepsPauses (i : Nat) : (drvMoreData i).KeepsPauses :=
  (drvMoreData_reads (P := fun _ => True) i).keepsPauses

theorem drvNextByte_keepsPauses (i : Nat) : (drvNextByte i).KeepsPauses :=
  .bind (engineOf_reads (P := fun _ => True) i _).keepsPauses fun _ => getState_keepsPauses fun s => by
    cases encoderCfg (s.slot i).cfg with
    | none => exact fail_keepsPauses nofun
    | some c =>
      have hsource : ∀ k n, (sourceIndex c k n).KeepsPauses := fun k n =>
        .ite (.bind (entryOf_keepsPauses _ _) fun _ => pure_keepsPauses _) (pure_keepsPauses _)
      exact (hsource _ _).bind fun _ => (bufRead_keepsPauses _).bind fun _ =>
        (modEngine_keepsPauses i _).bind fun _ => entryOf_keepsPauses _ _

theorem setPulseSeq_keepsPauses (i : Nat) (q : PulseSeq) : (setPulseSeq i q).KeepsPauses := modEngine_keepsPauses i _

theorem setSerialSeq_keepsPauses (i : Nat) (q : SerialSeq) : (setSerialSeq i q).KeepsPauses := modEngine_keepsPauses i _

theorem xlatLookupPulse_keepsPauses (i : Nat) (x : Symbol) : (xlatLookupPulse i x).KeepsPauses :=
  (xlatLookupPulse_reads (P := fun _ => True) i x).keepsPauses

theorem xlatLookupSerial_keepsPauses (i g : Nat) : (xlatLookupSerial i g).KeepsPauses :=
  (xlatLookupSerial_reads i g).keepsPauses

theorem peEmitBit_keepsPauses (i : Nat) (l : PulseLatch) (q : PulseSeq) (b : Byte) : (peEmitBit i l q b).KeepsPauses :=
  .bind (xlatLookupPulse_keepsPauses i _) fun _ =>
    have hset : ∀ q' (p : PulseDescriptor), (do setPulseSeq i q'; pure p).KeepsPauses := fun q' _ =>
      (setPulseSeq_keepsPauses i q').bind fun _ => pure_keepsPauses _
    .ite (.bind (drvMoreData_keepsPauses i) fun _ => hset _ _) (hset _ _)

/-- A pass of PE_NEXT_ITEM (R194). -/
theorem pePass_keepsPauses (i : Nat) : (pePass i).KeepsPauses :=
  .bind (pulseEngineOf_keepsPauses i) fun ⟨_, q, l⟩ => .bind (latched_keepsPauses l _) fun l => by
    have hitem : ∀ q' x, (do setPulseSeq i q'; let p ← xlatLookupPulse i x; pure (some (some p))).KeepsPauses :=
      fun q' x => (setPulseSeq_keepsPauses i q').bind fun _ => (xlatLookupPulse_keepsPauses i x).bind fun _ =>
        pure_keepsPauses _
    have hmove : ∀ q' (r : Option (Option PulseDescriptor)), (do setPulseSeq i q'; pure r).KeepsPauses :=
      fun q' r => (setPulseSeq_keepsPauses i q').bind fun _ => pure_keepsPauses r
    have hbit : ∀ q' b, (do let p ← peEmitBit i l q' b; pure (some (some p))).KeepsPauses := fun q' b =>
      (peEmitBit_keepsPauses i l q' b).bind fun _ => pure_keepsPauses _
    cases q.phase with
    | preIdle => exact .ite (hitem _ _) (hmove _ _)
    | data =>
      cases q.curByte with
      | some b => exact hbit q b
      | none =>
        exact (drvMoreData_keepsPauses i).bind fun _ =>
          .ite ((drvNextByte_keepsPauses i).bind fun _ => hbit _ _) (hmove _ _)
    | gap => exact hitem _ _
    | postIdle => exact .ite (hitem _ _) (hmove _ _)
    | done => exact pure_keepsPauses _

/-- A pass of SE_NEXT_ITEM (R226). -/
theorem sePass_keepsPauses (i : Nat) : (sePass i).KeepsPauses :=
  .bind (serialEngineOf_keepsPauses i) fun ⟨_, q, l⟩ => .bind (latched_keepsPauses l _) fun l => by
    have hmove : ∀ q' (r : Option (Option Byte)), (do setSerialSeq i q'; pure r).KeepsPauses :=
      fun q' r => (setSerialSeq_keepsPauses i q').bind fun _ => pure_keepsPauses r
    have hfixed : ∀ xs next, (do seFixed i q xs next; pure none : Op (Option (Option Byte))).KeepsPauses :=
      fun xs next => .bind (by unfold seFixed; split <;> exact setSerialSeq_keepsPauses i _) fun _ => pure_keepsPauses _
    cases q.curByte with
    | some b =>
      have hgroup : ∀ q' : SerialSeq, (do
          setSerialSeq i q'
          let x ← xlatLookupSerial i (group b q.groupIdx l.G)
          pure (some (some x))).KeepsPauses := fun q' =>
        (setSerialSeq_keepsPauses i q').bind fun _ => (xlatLookupSerial_keepsPauses i _).bind fun _ =>
          pure_keepsPauses _
      exact .ite (hgroup _) (hgroup _)
    | none =>
      cases q.sphase with
      | framePrefix => exact (drvMoreData_keepsPauses i).bind fun _ => hfixed _ _
      | pixelPrefix => exact hfixed _ _
      | pixelData =>
        exact (drvMoreData_keepsPauses i).bind fun _ => .ite
          ((drvNextByte_keepsPauses i).bind fun _ => (serialEngineOf_keepsPauses i).bind fun _ =>
            (drvMoreData_keepsPauses i).bind fun _ => hmove _ _)
          (hmove _ _)
      | pixelSuffix => exact (drvMoreData_keepsPauses i).bind fun _ => hfixed _ _
      | frameSuffix =>
        simp only
        split <;> exact hmove _ _
      | done => exact pure_keepsPauses _

theorem passLoop_keepsPauses {pass : Op (Option (Option α))} (h : pass.KeepsPauses) :
    ∀ n, (passLoop pass n).KeepsPauses
  | 0 => fail_keepsPauses nofun
  | n + 1 => h.bind fun r => by
    cases r with
    | some p => exact pure_keepsPauses p
    | none => exact passLoop_keepsPauses h n

theorem peNextItem_keepsPauses (i : Nat) : (peNextItem i).KeepsPauses := by
  rw [peNextItem, peLoop_eq]
  exact passLoop_keepsPauses (pePass_keepsPauses i) 3

theorem seNextItem_keepsPauses (i : Nat) : (seNextItem i).KeepsPauses := by
  rw [seNextItem, seLoop_eq]
  exact passLoop_keepsPauses (sePass_keepsPauses i) 5

theorem peFillLoop_keepsPauses (i : Nat) : ∀ n, (peFillLoop i n).KeepsPauses
  | 0 => pure_keepsPauses ()
  | n + 1 =>
    .bind (pulseEngineOf_keepsPauses i) fun _ => getState_keepsPauses fun _ => .ite
      (.bind (peNextItem_keepsPauses i) fun r => by
        cases r with
        | some p => exact (modPu_keepsPauses _ _).bind fun _ => peFillLoop_keepsPauses i n
        | none => exact peFillLoop_keepsPauses i n)
      (pure_keepsPauses ())

theorem seFillLoop_keepsPauses (i : Nat) : ∀ n, (seFillLoop i n).KeepsPauses
  | 0 => pure_keepsPauses ()
  | n + 1 =>
    .bind (serialEngineOf_keepsPauses i) fun _ => getState_keepsPauses fun _ => .ite
      (.bind (seNextItem_keepsPauses i) fun r => by
        cases r with
        | some x => exact (modSu_keepsPauses _ _).bind fun _ => seFillLoop_keepsPauses i n
        | none => exact seFillLoop_keepsPauses i n)
      (pure_keepsPauses ())

theorem peFill_keepsPauses (i : Nat) : (peFill i).KeepsPauses :=
  getState_keepsPauses fun _ => peFillLoop_keepsPauses i _

theorem seFill_keepsPauses (i : Nat) : (seFill i).KeepsPauses :=
  getState_keepsPauses fun _ => seFillLoop_keepsPauses i _

/-! ## The engines and the units -/

theorem peStartFrame_keepsPauses (i : Nat) : (peStartFrame i).KeepsPauses :=
  (pulseEngineOf_keepsPauses i).bind fun _ => .bind (modState_keepsPauses fun _ => .setSlot (.inl rfl)) fun _ =>
    (modPu_keepsPauses _ _).bind fun _ => (peFill_keepsPauses i).bind fun _ => (modEngine_keepsPauses i _).bind fun _ =>
      modPu_keepsPauses _ _

theorem seStartFrame_keepsPauses (i : Nat) : (seStartFrame i).KeepsPauses :=
  (serialEngineOf_keepsPauses i).bind fun _ => .bind (modState_keepsPauses fun _ => .setSlot (.inl rfl)) fun _ =>
    (modSu_keepsPauses _ _).bind fun _ => (seFill_keepsPauses i).bind fun _ => (modEngine_keepsPauses i _).bind fun _ =>
      modSu_keepsPauses _ _

theorem peIsr_keepsPauses (i : Nat) : (peIsr i).KeepsPauses :=
  (pulseEngineOf_keepsPauses i).bind fun _ => getState_keepsPauses fun _ =>
    .ite
      ((modPu_keepsPauses _ _).bind fun _ => .ite (modEngine_keepsPauses i _)
        (.bind (modSlot_keepsPauses i fun _ => rfl) fun _ => (modPu_keepsPauses _ _).bind fun _ =>
          raise_keepsPauses _))
      (.ite ((modPu_keepsPauses _ _).bind fun _ => .ite (peFill_keepsPauses i) (pure_keepsPauses ()))
        (pure_keepsPauses ()))

theorem seIsr_keepsPauses (i : Nat) : (seIsr i).KeepsPauses :=
  (serialEngineOf_keepsPauses i).bind fun _ => getState_keepsPauses fun _ =>
    .ite
      ((modSu_keepsPauses _ _).bind fun _ => .ite (modEngine_keepsPauses i _)
        (.bind (modSlot_keepsPauses i fun _ => rfl) fun _ => (modSu_keepsPauses _ _).bind fun _ =>
          raise_keepsPauses _))
      (.ite ((modSu_keepsPauses _ _).bind fun _ => .ite (seFill_keepsPauses i) (pure_keepsPauses ()))
        (pure_keepsPauses ()))

theorem peIdle_keepsPauses (i : Nat) : (peIdle i).KeepsPauses :=
  (pulseEngineOf_keepsPauses i).bind fun _ => getState_keepsPauses fun _ => (guardStep_keepsPauses _ _).bind fun _ =>
    modEngine_keepsPauses i _

theorem seIdle_keepsPauses (i : Nat) : (seIdle i).KeepsPauses :=
  (serialEngineOf_keepsPauses i).bind fun _ => getState_keepsPauses fun _ => (guardStep_keepsPauses _ _).bind fun _ =>
    modEngine_keepsPauses i _

theorem peBegin_keepsPauses (i : Nat) : (peBegin i).KeepsPauses :=
  (pulseEngineOf_keepsPauses i).bind fun _ => getState_keepsPauses fun s => (raiseIf_keepsPauses _ _).bind fun _ => by
    cases pulseConstantsOf s.board (s.slot i).variant with
    | none => exact refuse_keepsPauses _
    | some pc =>
      exact (refuseIf_keepsPauses _ _).bind fun _ => (modEngine_keepsPauses i _).bind fun _ => modPu_keepsPauses _ _

theorem seBegin_keepsPauses (i : Nat) : (seBegin i).KeepsPauses :=
  (serialEngineOf_keepsPauses i).bind fun _ => getState_keepsPauses fun s => (raiseIf_keepsPauses _ _).bind fun _ => by
    cases serialConstantsOf s.board (s.slot i).variant with
    | none => exact refuse_keepsPauses _
    | some pc =>
      exact (xlatBuildSerial_reads (P := fun _ => True) _ _ _ _).keepsPauses.bind fun _ =>
        (refuseIf_keepsPauses _ _).bind fun _ => (refuseIf_keepsPauses _ _).bind fun _ =>
          (modEngine_keepsPauses i _).bind fun _ => modSu_keepsPauses _ _

theorem puEmit_keepsPauses (i : Nat) : (puEmit i).KeepsPauses :=
  (pulseEngineOf_keepsPauses i).bind fun a => getState_keepsPauses fun s => (guardStep_keepsPauses _ _).bind fun _ => by
    cases (s.pu a.1.unit).ring with
    | nil => exact fail_keepsPauses nofun
    | cons d rest => exact modPu_keepsPauses _ _

theorem suShift_keepsPauses (i : Nat) : (suShift i).KeepsPauses :=
  (serialEngineOf_keepsPauses i).bind fun a => getState_keepsPauses fun s =>
    (guardStep_keepsPauses _ _).bind fun _ => by
    cases (s.su a.1.unit).fifo with
    | nil => exact fail_keepsPauses nofun
    | cons x rest => exact modSu_keepsPauses _ _

theorem irqEntry_keepsPauses (i : Nat) : (irqEntry i).KeepsPauses :=
  getState_keepsPauses fun s => by
    cases (s.slot i).eng with
    | none => exact fail_keepsPauses nofun
    | some e =>
      refine (guardStep_keepsPauses _ _).bind fun _ => ?_
      cases e.kind with
      | pulse => exact peIsr_keepsPauses i
      | serial => exact seIsr_keepsPauses i

/-! ## The driver -/

theorem engineBegin_keepsPauses (i : Nat) : (engineBegin i).KeepsPauses :=
  getState_keepsPauses fun s => by
    cases engineKindOf (s.slot i).variant with
    | none => exact pure_keepsPauses ()
    | some k =>
      cases k with
      | pulse => exact peBegin_keepsPauses i
      | serial => exact seBegin_keepsPauses i

theorem startFrame_keepsPauses (i : Nat) : (startFrame i).KeepsPauses :=
  getState_keepsPauses fun s => by
    cases engineKindOf (s.slot i).variant with
    | none => exact pure_keepsPauses ()
    | some k =>
      cases k with
      | pulse => exact peStartFrame_keepsPauses i
      | serial => exact seStartFrame_keepsPauses i

/-- A new driver's pause bit is what the manager holds (R252). -/
theorem drvConstruct_keepsPauses (i : Nat) (v : Variant) : (drvConstruct i v).KeepsPauses := fun s =>
  (drvConstruct_ends i v s).mono (fun _ _ ⟨_, _, _, ht⟩ => ht ▸ .setSlot (.inr rfl)) (fun _ ht => ht ▸ .addFault s _)
    False.elim

theorem quietUnit_keepsPauses (e : Engine) : (quietUnit e).KeepsPauses := by
  unfold quietUnit
  cases e.kind with
  | pulse => exact modPu_keepsPauses _ _
  | serial => exact modSu_keepsPauses _ _

theorem drvStop_keepsPauses (i : Nat) : (drvStop i).KeepsPauses :=
  getState_keepsPauses fun s => by
    cases (s.slot i).eng with
    | none => exact pure_keepsPauses ()
    | some e =>
      exact (raiseIf_keepsPauses _ _).bind fun _ => (modEngine_keepsPauses i _).bind fun _ => quietUnit_keepsPauses e

theorem drvBegin_keepsPauses (i : Nat) : (drvBegin i).KeepsPauses :=
  getState_keepsPauses fun _ => (raiseIf_keepsPauses _ _).bind fun _ => .ite (pure_keepsPauses ())
    (.ite
      ((drawPeriphInit_keepsPauses i).bind fun _ =>
        .ite ((engineBegin_keepsPauses i).bind fun _ => modSlot_keepsPauses i fun _ => rfl)
          (.bind (modSlot_keepsPauses i fun _ => rfl) fun _ => logDiag_keepsPauses i _))
      (modSlot_keepsPauses i fun _ => rfl))

theorem drvSetConfig_keepsPauses (i : Nat) (params : ParamObject) : (drvSetConfig i params).KeepsPauses :=
  getState_keepsPauses fun s => (raiseIf_keepsPauses _ _).bind fun _ => .ite (pure_keepsPauses ())
    (.ite
      (by
        cases mergeDriverCfg (s.slot i).cfg params with
        | none => exact refuse_keepsPauses _
        | some c =>
          exact (refuseIf_keepsPauses _ _).bind fun _ => .bind (modSlot_keepsPauses i fun _ => rfl) fun _ =>
            .ite (engineBegin_keepsPauses i) (pure_keepsPauses ()))
      (modSlot_keepsPauses i fun _ => rfl))

theorem drvRender_keepsPauses (i : Nat) : (drvRender i).KeepsPauses :=
  getState_keepsPauses fun s => by
    cases (s.slot i).eng with
    | none => exact pure_keepsPauses ()
    | some e =>
      exact .ite (pure_keepsPauses ())
        (.ite (modSlot_keepsPauses i fun _ => rfl) (startFrame_keepsPauses i))

/-- A resumed slot's pause bit is what the manager holds (R261). -/
theorem drvResume_keepsPauses (i : Nat) : (drvResume i).KeepsPauses := fun _ => .setSlot (.inr rfl)

theorem drvSetBuffer_keepsPauses (i offset length : Nat) : (drvSetBuffer i offset length).KeepsPauses :=
  getState_keepsPauses fun _ => (raiseIf_keepsPauses _ _).bind fun _ => (refuseIf_keepsPauses _ _).bind fun _ =>
    modSlot_keepsPauses i fun _ => rfl

end Sys2Proof.Machine
end

section
/-! SUPPORT. The pause law as an invariant (R34, R307): the manager's operations and the instructions. -/

namespace Sys2Proof.Machine

variable {α β : Type}

/-! ## The manager's operations that keep the pauses -/

theorem mgrResolveEntry_keepsPauses (i : Nat) (doc : ConfigDoc) : (mgrResolveEntry i doc).KeepsPauses :=
  getState_keepsPauses fun s => by
    cases resolve s i doc with
    | bind v p => exact pure_keepsPauses _
    | bad r => exact (logDiag_keepsPauses i _).bind fun _ => pure_keepsPauses _

theorem applySlot_keepsPauses (doc : ConfigDoc) (i : Nat) : (applySlot doc i).KeepsPauses :=
  (mgrResolveEntry_keepsPauses i doc).bind fun _ => getState_keepsPauses fun _ =>
    .ite (drvSetConfig_keepsPauses i _)
      ((drvStop_keepsPauses i).bind fun _ => (drvConstruct_keepsPauses i _).bind fun _ =>
        (drvSetConfig_keepsPauses i _).bind fun _ => drvBegin_keepsPauses i)

theorem mgrApplyConfig_keepsPauses (doc : ConfigDoc) : (mgrApplyConfig doc).KeepsPauses :=
  getState_keepsPauses fun _ => forEach_keepsPauses (applySlot_keepsPauses doc) _

theorem mgrNotifyCapacity_keepsPauses : mgrNotifyCapacity.KeepsPauses :=
  modState_keepsPauses fun _ => .of_slots rfl rfl rfl rfl fun _ => rfl

theorem partitionSlot_keepsPauses (i off : Nat) : (partitionSlot i off).KeepsPauses :=
  getState_keepsPauses fun _ =>
    have hslice : ∀ n m, (do drvSetBuffer i off n; pure m : Op Nat).KeepsPauses := fun n _ =>
      (drvSetBuffer_keepsPauses i off n).bind fun _ => pure_keepsPauses _
    .ite ((logDiag_keepsPauses i _).bind fun _ => hslice _ _) (hslice _ _)

theorem partitionFrom_keepsPauses : ∀ (xs : List Nat) (off : Nat), (partitionFrom off xs).KeepsPauses
  | [], _ => pure_keepsPauses _
  | i :: rest, off => (partitionSlot_keepsPauses i off).bind fun next => partitionFrom_keepsPauses rest next

theorem mgrUpdatePartition_keepsPauses : mgrUpdatePartition.KeepsPauses :=
  getState_keepsPauses fun _ => (partitionFrom_keepsPauses _ 0).bind fun _ =>
    .bind (modState_keepsPauses fun _ => .of_slots rfl rfl rfl rfl fun _ => rfl) fun _ => mgrNotifyCapacity_keepsPauses

theorem initSlot_keepsPauses (i : Nat) : (initSlot i).KeepsPauses :=
  (drvConstruct_keepsPauses i _).bind fun _ => drvBegin_keepsPauses i

theorem loadDoc_keepsPauses : loadDoc.KeepsPauses :=
  drawPersistLoad_keepsPauses.bind fun r => getState_keepsPauses fun _ => by
    cases r with
    | some doc => exact pure_keepsPauses doc
    | none =>
      exact .bind (modState_keepsPauses fun _ => .of_slots rfl rfl rfl rfl fun _ => rfl) fun _ => pure_keepsPauses _

theorem mgrBegin_keepsPauses : mgrBegin.KeepsPauses :=
  getState_keepsPauses fun _ => .ite (pure_keepsPauses ())
    ((refuseIf_keepsPauses _ _).bind fun _ => (forEach_keepsPauses initSlot_keepsPauses _).bind fun _ =>
      loadDoc_keepsPauses.bind fun doc => (mgrApplyConfig_keepsPauses doc).bind fun _ =>
        mgrUpdatePartition_keepsPauses.bind fun _ =>
          modState_keepsPauses fun _ => .of_slots rfl rfl rfl rfl fun _ => rfl)

theorem renderSubstep_keepsPauses : renderSubstep.KeepsPauses :=
  getState_keepsPauses fun s => by
    cases s.renderPos with
    | none => exact fail_keepsPauses nofun
    | some i =>
      exact (drvRender_keepsPauses i).bind fun _ => modState_keepsPauses fun _ => .of_slots rfl rfl rfl rfl fun _ => rfl

theorem hostBufWrite_keepsPauses (a : Nat) (v : Byte) : (hostBufWrite a v).KeepsPauses :=
  getState_keepsPauses fun s => (raiseIf_keepsPauses _ _).bind fun _ => by
    cases s.slotIndices.find? (fun i => (s.slot i).ownsDuringFrame a) with
    | none => exact modState_keepsPauses fun _ => .of_slots rfl rfl rfl rfl fun _ => rfl
    | some i => exact raise_keepsPauses _

/-! ## Pause, resume and reload -/

/-- Pause bits that are the manager's meet the law, whatever they were before (R307). -/
theorem PauseBits.pauseLaw {bit : Bool} {s t : State} (h : PauseBits bit s t) (hbit : bit = s.pauseHeld) :
    t.pauseLaw := by
  intro i hi
  rw [State.hasSlot, h.frame] at hi
  rw [h.frame.pauseHeld, ← hbit, h.slot i, if_pos hi]

/-- From a state that meets the pause law the operation leaves one, finished or faulted. -/
def Op.KeepsPauseLaw (x : Op α) : Prop :=
  ∀ s, s.pauseLaw → Ends (fun _ => State.pauseLaw) State.pauseLaw True (x s)

theorem Op.KeepsPauses.law {x : Op α} (h : x.KeepsPauses) : x.KeepsPauseLaw := fun s hs =>
  (h s).mono (fun _ _ ht => ht.pauseLaw hs) (fun _ ht => ht.pauseLaw hs) id

theorem Op.KeepsPauseLaw.bind {x : Op α} {f : α → Op β} (hx : x.KeepsPauseLaw) (hf : ∀ a, (f a).KeepsPauseLaw) :
    (x >>= f).KeepsPauseLaw := fun s hs => (hx s hs).bind fun a t ht => hf a t ht

theorem Op.KeepsPauseLaw.ite {c : Prop} [Decidable c] {x y : Op α} (hx : x.KeepsPauseLaw) (hy : y.KeepsPauseLaw) :
    (if c then x else y).KeepsPauseLaw := by split <;> assumption

theorem mgrPause_keepsPauseLaw : mgrPause.KeepsPauseLaw := fun s _ => by
  obtain ⟨t, hrun, hbits⟩ := mgrPause_run s
  rw [hrun]
  exact hbits.pauseLaw rfl

theorem mgrResume_keepsPauseLaw : mgrResume.KeepsPauseLaw := fun s _ => by
  obtain ⟨t, hrun, hbits⟩ := mgrResume_run s
  rw [hrun]
  exact hbits.pauseLaw rfl

/-- MGR_RELOAD once no engine transmits: apply, partition, resume the slots `xs` (R298). -/
def reloadNow (doc : ConfigDoc) (xs : List Nat) : Op Unit := do
  mgrApplyConfig doc
  mgrUpdatePartition
  modState fun s => { s with pending := none, reloadPaused := false }
  forEach drvResume xs

/-- MGR_RELOAD pauses every slot, then waits, or applies the pending document (R298). -/
theorem mgrReload_run (s : State) :
    ∃ t, PauseBits true { s with reloadPaused := true } t ∧
      (s.anyTransmitting = true → mgrReload s = .ok () t) ∧
      (s.pending = none → s.anyTransmitting = false → mgrReload s = .error (.disabled "MGR_RELOAD") t) ∧
      ∀ doc, s.pending = some doc → s.anyTransmitting = false →
        mgrReload s = reloadNow doc s.slotIndices t := by
  obtain ⟨t, hrun, hbits⟩ := forEach_drvPause_run { s with reloadPaused := true }
  have hpaused : mgrReload s = (if s.anyTransmitting then pure () else
      match s.pending with
      | none => fail (.disabled "MGR_RELOAD")
      | some doc => reloadNow doc s.slotIndices) t := op_bind_ok hrun
  refine ⟨t, hbits, fun h => ?_, fun hdoc h => ?_, fun doc hdoc h => ?_⟩
  · rw [hpaused, h]; rfl
  · rw [hpaused, h, hdoc]; rfl
  · rw [hpaused, h, hdoc]; rfl

/-- A fault in a reload stands before the pending document is cleared. -/
theorem reloadNow_ends (doc : ConfigDoc) {s : State} (hs : s.pauseLaw) :
    Ends (fun _ => State.pauseLaw) (fun t => t.pauseLaw ∧ t.pending = s.pending) True
      (reloadNow doc s.slotIndices s) := by
  have hraised : ∀ t, s.PausedAs t → t.pauseLaw ∧ t.pending = s.pending := fun t ht => ⟨ht.pauseLaw hs, ht.pending⟩
  refine Ends.bind ((mgrApplyConfig_keepsPauses doc s).mono (fun _ _ => id) hraised id) fun _ t ht => ?_
  refine Ends.bind ((mgrUpdatePartition_keepsPauses.after ht).mono (fun _ _ => id) hraised id) fun _ u hu => ?_
  rw [op_bind_ok (modState_run _ u)]
  have hslots : s.slotIndices = u.slotIndices := by rw [State.slotIndices, ← hu.board]; rfl
  obtain ⟨v, hrun, hbits⟩ := forEach_drvResume_run { u with pending := none, reloadPaused := false }
  rw [hslots]
  exact hrun ▸ hbits.pauseLaw rfl

theorem mgrReload_ends (s : State) :
    Ends (fun _ => State.pauseLaw) (fun t => t.pauseLaw ∧ t.pending = s.pending) True (mgrReload s) := by
  obtain ⟨t, hbits, hwaits, hnothing, happlies⟩ := mgrReload_run s
  have hlaw : t.pauseLaw := hbits.pauseLaw (Bool.or_true _).symm
  have hpending : t.pending = s.pending := by rw [hbits.frame]
  have hslots : t.slotIndices = s.slotIndices := by rw [hbits.frame]; rfl
  cases htransmit : s.anyTransmitting with
  | true => rw [hwaits htransmit]; exact hlaw
  | false =>
    cases hdoc : s.pending with
    | none => rw [hnothing hdoc htransmit]; trivial
    | some doc =>
      rw [happlies doc hdoc htransmit, ← hslots]
      exact (reloadNow_ends doc hlaw).mono (fun _ _ => id) (fun _ h => ⟨h.1, h.2.trans (hpending.trans hdoc)⟩) id

theorem mgrReload_keepsPauseLaw : mgrReload.KeepsPauseLaw := fun s _ =>
  (mgrReload_ends s).mono (fun _ _ => id) (fun _ h => h.1) id

theorem mgrRender_keepsPauseLaw : mgrRender.KeepsPauseLaw :=
  have hopen : (do
      let t ← getState
      if t.pending ≠ none ∨ t.userPaused = true then pure ()
      else modState fun s => { s with renderPos := some 0 }).KeepsPauses :=
    getState_keepsPauses fun _ => .ite (pure_keepsPauses ())
      (modState_keepsPauses fun _ => .of_slots rfl rfl rfl rfl fun _ => rfl)
  .bind (getState_reads (P := fun _ => True)).keepsPauses.law fun _ =>
    .ite (mgrReload_keepsPauseLaw.bind fun _ => hopen.law) hopen.law

/-! ## The instructions -/

theorem runStep_pauseLaw {x : Op Unit} {s t : State} (hs : s.pauseLaw) (h : runStep s x = .next t)
    (hx : x.KeepsPauseLaw) : t.pauseLaw := runStep_ends h (hx s hs) fun _ => hs

theorem runStep_keepsPauses {x : Op Unit} {s t : State} (hs : s.pauseLaw) (h : runStep s x = .next t)
    (hx : x.KeepsPauses) : t.pauseLaw := runStep_pauseLaw hs h hx.law

/-- An operation behind checks that only read. -/
theorem Op.Reads.seqPauses {x : Op α} {f : α → Op β} (hx : x.Reads fun _ => True) (hf : ∀ a, (f a).KeepsPauses) :
    (x >>= f).KeepsPauses := hx.keepsPauses.bind hf

theorem mainLoop_keepsPauses {m : String} {x : Op Unit} (hx : x.KeepsPauses) :
    (do admitBegun; admitTurn m; x).KeepsPauses :=
  admitBegun_reads.seqPauses fun _ => (admitTurn_reads m).seqPauses fun _ => hx

theorem mainLoop_keepsPauseLaw {m : String} {x : Op Unit} (hx : x.KeepsPauseLaw) :
    (do admitBegun; admitTurn m; x).KeepsPauseLaw :=
  .bind (admitBegun_reads (P := fun _ => True)).keepsPauses.law fun _ =>
    .bind (admitTurn_reads (P := fun _ => True) m).keepsPauses.law fun _ => hx

theorem onSlot_keepsPauses (i : Nat) {x : Op α} (hx : x.KeepsPauses) : (do admitSlot i; x).KeepsPauses :=
  (admitSlot_reads i).seqPauses fun _ => hx

theorem onKind_keepsPauses (i : Nat) (k : EngineKind) {x : Op α} (hx : x.KeepsPauses) :
    (do admitSlot i; admitKind i k; x).KeepsPauses :=
  onSlot_keepsPauses i ((admitKind_reads i k).seqPauses fun _ => hx)

/-- An operation on the pulse engine of slot `i`, behind its guard. -/
theorem onPulseEngine_keepsPauses {i : Nat} {c : Engine × PulseSeq × Option PulseLatch → Bool} {m : String}
    {f : Engine × PulseSeq × Option PulseLatch → Op α} (hf : ∀ a, (f a).KeepsPauses) :
    (do admitSlot i; let a ← pulseEngineOf i; guardStep (c a) m; f a).KeepsPauses :=
  onSlot_keepsPauses i ((pulseEngineOf_keepsPauses i).bind fun a => (guardStep_keepsPauses _ _).bind fun _ => hf a)

/-- An operation on the serial engine of slot `i`, behind its guard. -/
theorem onSerialEngine_keepsPauses {i : Nat} {c : Engine × SerialSeq × Option SerialLatch → Bool} {m : String}
    {f : Engine × SerialSeq × Option SerialLatch → Op α} (hf : ∀ a, (f a).KeepsPauses) :
    (do admitSlot i; let a ← serialEngineOf i; guardStep (c a) m; f a).KeepsPauses :=
  onSlot_keepsPauses i ((serialEngineOf_keepsPauses i).bind fun a => (guardStep_keepsPauses _ _).bind fun _ => hf a)

/-- A value that was read is returned. -/
theorem Op.KeepsPauses.answered {x : Op α} (hx : x.KeepsPauses) (r : α → Reply) :
    (do let a ← x; answer (r a)).KeepsPauses := hx.bind fun _ => answer_keepsPauses _

/-- Every instruction but DRV_PAUSE keeps the pause law. -/
theorem exec_pauseLaw {i : Instr} (hi : ∀ k, i ≠ .drvPause k) {s t : State} (hs : s.pauseLaw)
    (h : exec i s = .next t) : t.pauseLaw := by
  cases i with
  | drvPause k => exact absurd rfl (hi k)
  | mgrPause => exact runStep_pauseLaw hs h (mainLoop_keepsPauseLaw mgrPause_keepsPauseLaw)
  | mgrResume => exact runStep_pauseLaw hs h (mainLoop_keepsPauseLaw mgrResume_keepsPauseLaw)
  | mgrRender => exact runStep_pauseLaw hs h (mainLoop_keepsPauseLaw mgrRender_keepsPauseLaw)
  | mgrReload =>
    exact runStep_pauseLaw hs h ((guardStep_keepsPauses _ _).law.bind fun _ => mgrReload_keepsPauseLaw)
  | mgrSetConfig doc =>
    exact runStep_pauseLaw hs h ((admitOperands_reads (P := fun _ => True) _).keepsPauses.law.bind fun _ =>
      mainLoop_keepsPauseLaw fun _ hu => hu)
  | mgrBegin => exact runStep_keepsPauses hs h ((admitTurn_reads _).seqPauses fun _ => mgrBegin_keepsPauses)
  | mgrGetConfig => exact runStep_keepsPauses hs h (mainLoop_keepsPauses (answer_keepsPauses _))
  | mgrGetStatus => exact runStep_keepsPauses hs h (mainLoop_keepsPauses (answer_keepsPauses _))
  | mgrApplyConfig doc =>
    exact runStep_keepsPauses hs h ((admitOperands_reads _).seqPauses fun _ => (guardStep_keepsPauses _ _).bind fun _ =>
      mgrApplyConfig_keepsPauses doc)
  | mgrResolveEntry i doc =>
    exact runStep_keepsPauses hs h (onSlot_keepsPauses i ((admitOperands_reads _).seqPauses fun _ =>
      (mgrResolveEntry_keepsPauses i doc).answered _))
  | mgrUpdatePartition =>
    exact runStep_keepsPauses hs h ((guardStep_keepsPauses _ _).bind fun _ => mgrUpdatePartition_keepsPauses)
  | mgrNotifyCapacity => exact runStep_keepsPauses (x := mgrNotifyCapacity) hs h mgrNotifyCapacity_keepsPauses
  | drvConstruct i v => exact runStep_keepsPauses hs h (onSlot_keepsPauses i (drvConstruct_keepsPauses i v))
  | drvStop i => exact runStep_keepsPauses hs h (onSlot_keepsPauses i (drvStop_keepsPauses i))
  | drvBegin i => exact runStep_keepsPauses hs h (onSlot_keepsPauses i (mainLoop_keepsPauses (drvBegin_keepsPauses i)))
  | drvSetConfig i p =>
    exact runStep_keepsPauses hs h (onSlot_keepsPauses i ((admitOperands_reads _).seqPauses fun _ =>
      mainLoop_keepsPauses (drvSetConfig_keepsPauses i p)))
  | drvGetConfig i =>
    exact runStep_keepsPauses hs h (onSlot_keepsPauses i (mainLoop_keepsPauses (answer_keepsPauses _)))
  | drvRender i =>
    exact runStep_keepsPauses hs h (onSlot_keepsPauses i (mainLoop_keepsPauses (drvRender_keepsPauses i)))
  | drvGetStatus i =>
    exact runStep_keepsPauses hs h (onSlot_keepsPauses i (mainLoop_keepsPauses (answer_keepsPauses _)))
  | drvResume i => exact runStep_keepsPauses hs h (onSlot_keepsPauses i (drvResume_keepsPauses i))
  | drvSetBuffer i o n => exact runStep_keepsPauses hs h (onSlot_keepsPauses i (drvSetBuffer_keepsPauses i o n))
  | drvMoreData i => exact runStep_keepsPauses hs h (onSlot_keepsPauses i ((drvMoreData_keepsPauses i).answered _))
  | drvNextByte i =>
    exact runStep_keepsPauses hs h (onSlot_keepsPauses i ((drvMoreData_keepsPauses i).bind fun _ =>
      (guardStep_keepsPauses _ _).bind fun _ => (drvNextByte_keepsPauses i).answered _))
  | drvNeeded i => exact runStep_keepsPauses hs h (onSlot_keepsPauses i (answer_keepsPauses _))
  | xlatSplit b G => exact runStep_keepsPauses hs h ((xlatSplit_reads b G).seqPauses fun _ => answer_keepsPauses _)
  | xlatLookupPulse i c =>
    exact runStep_keepsPauses hs h (onKind_keepsPauses i _
      ((xlatLookupPulseCode_reads i c).seqPauses fun _ => answer_keepsPauses _))
  | xlatLookupSerial i g =>
    exact runStep_keepsPauses hs h (onKind_keepsPauses i _ ((xlatLookupSerial_keepsPauses i g).answered _))
  | xlatBuildSerial G S H0 H1 =>
    exact runStep_keepsPauses hs h ((xlatBuildSerial_reads G S H0 H1).seqPauses fun _ => answer_keepsPauses _)
  | xlatEncodePulse i b =>
    exact runStep_keepsPauses hs h (onKind_keepsPauses i _
      ((xlatEncodePulse_reads i b).seqPauses fun _ => answer_keepsPauses _))
  | xlatEncodeSerial i b =>
    exact runStep_keepsPauses hs h (onKind_keepsPauses i _ ((xlatEncodeSerial_reads i b).keepsPauses.answered _))
  | peBegin i => exact runStep_keepsPauses hs h (onSlot_keepsPauses i (peBegin_keepsPauses i))
  | peStartFrame i => exact runStep_keepsPauses hs h (onPulseEngine_keepsPauses fun _ => peStartFrame_keepsPauses i)
  | peNextItem i =>
    exact runStep_keepsPauses hs h (onPulseEngine_keepsPauses fun _ => (peNextItem_keepsPauses i).answered _)
  | peFill i => exact runStep_keepsPauses hs h (onPulseEngine_keepsPauses fun _ => peFill_keepsPauses i)
  | peIsr i => exact runStep_keepsPauses hs h (onPulseEngine_keepsPauses fun _ => peIsr_keepsPauses i)
  | peIdle i => exact runStep_keepsPauses hs h (onSlot_keepsPauses i (peIdle_keepsPauses i))
  | seBegin i => exact runStep_keepsPauses hs h (onSlot_keepsPauses i (seBegin_keepsPauses i))
  | seStartFrame i => exact runStep_keepsPauses hs h (onSerialEngine_keepsPauses fun _ => seStartFrame_keepsPauses i)
  | seNextItem i =>
    exact runStep_keepsPauses hs h (onSerialEngine_keepsPauses fun _ => (seNextItem_keepsPauses i).answered _)
  | seFill i => exact runStep_keepsPauses hs h (onSerialEngine_keepsPauses fun _ => seFill_keepsPauses i)
  | seIsr i => exact runStep_keepsPauses hs h (onSerialEngine_keepsPauses fun _ => seIsr_keepsPauses i)
  | seIdle i => exact runStep_keepsPauses hs h (onSlot_keepsPauses i (seIdle_keepsPauses i))
  | puStart i => exact runStep_keepsPauses hs h (onPulseEngine_keepsPauses fun _ => modPu_keepsPauses _ _)
  | puEmit i => exact runStep_keepsPauses hs h (onSlot_keepsPauses i (puEmit_keepsPauses i))
  | suStart i => exact runStep_keepsPauses hs h (onSerialEngine_keepsPauses fun _ => modSu_keepsPauses _ _)
  | suShift i => exact runStep_keepsPauses hs h (onSlot_keepsPauses i (suShift_keepsPauses i))
  | timerTick n =>
    refine runStep_keepsPauses hs h ((admitOperands_reads _).seqPauses fun _ => ?_)
    exact modState_keepsPauses fun _ => .of_slots rfl rfl rfl rfl fun _ => rfl
  | irqEntry i => exact runStep_keepsPauses hs h (onSlot_keepsPauses i (irqEntry_keepsPauses i))
  | hostBufWrite a v => exact runStep_keepsPauses hs h (hostBufWrite_keepsPauses a v)

/-- Settles O53: pause, resume and reload end with every pause bit at what the manager then holds, and every other
operation but DRV_PAUSE leaves the manager's pauses and writes no other pause bit. -/
theorem pauseBitFollowsTheManager : Obligations.PauseBitFollowsTheManager := fun _ _ hs =>
  ⟨fun _ hi h => exec_pauseLaw hi hs h, fun h => runStep_keepsPauses hs h renderSubstep_keepsPauses⟩

end Sys2Proof.Machine
end

section
/-! SUPPORT. What a configuration document binds (R295, R299, R304): over good parameters and still engines, the
driver's operations that MGR_APPLY_CONFIG runs finish, and what they keep of a driver or give a new one. -/

namespace Sys2Proof.Machine

/-! ## Good parameters (R7, R290) -/

section parameters

variable {s : State} {i : Nat} {v : Variant}

theorem wellFormedParameters_parts (h : s.wellFormedParameters = true) :
    legalTableOk s = true ∧ protocolConstantsOk s.board = true ∧
      ∀ v, isEncoder v = true → legalCfg (defaultCfgOf s.board v) = true := by
  simp only [State.wellFormedParameters, Bool.and_eq_true] at h
  obtain ⟨⟨⟨-, hlegal⟩, hconstants⟩, hdefaults⟩ := h
  refine ⟨hlegal, hconstants, fun v henc => ?_⟩
  simpa [henc] using List.all_eq_true.mp hdefaults v (mem_allVariants v)

/-- The parameters are the board's. -/
theorem wellFormedParameters_congr {t : State} (h : t.board = s.board) :
    t.wellFormedParameters = s.wellFormedParameters := by
  simp only [State.wellFormedParameters, legalTableOk, State.slotIndices, State.periph_of_board h, h]

theorem legalTableOk_slot (h : legalTableOk s = true) (hi : s.hasSlot i) :
    legalAt s.board i .disabled = true ∧ ∀ v, legalAt s.board i v = true → periphAdmits v (s.periph i) = true := by
  have hslot := List.all_eq_true.mp h i (List.mem_range.mpr hi)
  rw [Bool.and_eq_true] at hslot
  refine ⟨hslot.1, fun v hv => ?_⟩
  simpa [hv] using List.all_eq_true.mp hslot.2 v (mem_allVariants v)

theorem pulseConstants_good {b : Board} (h : protocolConstantsOk b = true) (hk : engineKindOf v = some .pulse) :
    ∃ pc, pulseConstantsOf b v = some pc ∧ pulseConstantsOk b.durationMax pc = true := by
  rw [protocolConstantsOk, Bool.and_eq_true] at h
  have hgood := List.all_eq_true.mp h.1
  cases v with
  | ws2811Pulse | ucs1903Pulse | tm1814Pulse => exact ⟨_, rfl, hgood _ (by simp)⟩
  | _ => cases hk

theorem serialConstants_legal {b : Board} {pc : SerialConstants} (h : protocolConstantsOk b = true)
    (hpc : serialConstantsOf b v = some pc) : serialConstantsLegal pc = true := by
  rw [protocolConstantsOk, Bool.and_eq_true] at h
  have hgood := List.all_eq_true.mp h.2
  cases v with
  | ws2811Serial | ucs1903Serial | tm1814Serial => cases hpc; exact hgood _ (by simp)
  | _ => cases hpc

theorem serialConstants_good {b : Board} (h : protocolConstantsOk b = true) (hrates : baudRatesOk b = true)
    (hk : engineKindOf v = some .serial) :
    ∃ pc, serialConstantsOf b v = some pc ∧ serialConstantsOk pc = true := by
  have hrate := List.all_eq_true.mp hrates
  have hlegal : ∀ {pc}, serialConstantsOf b v = some pc → serialConstantsLegal pc = true := serialConstants_legal h
  cases v with
  | ws2811Serial | ucs1903Serial | tm1814Serial =>
    exact ⟨_, rfl, Bool.and_eq_true_iff.mpr ⟨hlegal rfl, hrate _ (by simp)⟩⟩
  | _ => cases hk

end parameters

/-! ## The writes -/

/-- `t` is `s` with other drivers, units, draws and log. -/
def BindWrites (s t : State) : Prop :=
  t = { s with
    slots := t.slots, pulseUnits := t.pulseUnits, serialUnits := t.serialUnits, diag := t.diag,
    initAnswers := t.initAnswers, drawCount := t.drawCount }

namespace BindWrites

variable {s t u : State}

theorem trans (h : BindWrites s t) (h' : BindWrites t u) : BindWrites s u :=
  Eq.trans h' (congrArg (fun v : State =>
    { v with
      slots := u.slots, pulseUnits := u.pulseUnits, serialUnits := u.serialUnits, diag := u.diag,
      initAnswers := u.initAnswers, drawCount := u.drawCount }) h)

theorem board (h : BindWrites s t) : t.board = s.board := by rw [h]

theorem pauseHeld (h : BindWrites s t) : t.pauseHeld = s.pauseHeld := by rw [h]; rfl

theorem byte (h : BindWrites s t) (a : Nat) : t.byte a = s.byte a := by rw [h]; rfl

end BindWrites

/-- `BindWrites`, in slot `i` alone. -/
structure BindStep (s t : State) (i : Nat) : Prop where
  frame : BindWrites s t
  other : ∀ j, j ≠ i → t.slot j = s.slot j

namespace BindStep

variable {s t u : State} {i : Nat}

theorem refl (s : State) (i : Nat) : BindStep s s i := ⟨rfl, fun _ _ => rfl⟩

theorem trans (h : BindStep s t i) (h' : BindStep t u i) : BindStep s u i :=
  ⟨h.frame.trans h'.frame, fun j hj => (h'.other j hj).trans (h.other j hj)⟩

theorem setSlot (s : State) (i : Nat) (d : DriverState) : BindStep s (s.setSlot i d) i :=
  ⟨rfl, fun _ hj => setSlot_slot_other s i d hj⟩

theorem setPu (s : State) (i u : Nat) (p : PulseUnit) : BindStep s (s.setPu u p) i := ⟨rfl, fun _ _ => rfl⟩

theorem setSu (s : State) (i u : Nat) (p : SerialUnit) : BindStep s (s.setSu u p) i := ⟨rfl, fun _ _ => rfl⟩

end BindStep

/-! ## What is kept of a driver -/

/-- `d'` goes on where `d` stood: of its variant, with its counts of frames and drops, its slice, its pause bit, and its
engine in the same state of the same frame. -/
structure DriverState.GoesOn (d d' : DriverState) : Prop where
  variant : d'.variant = d.variant
  frameCount : d'.frameCount = d.frameCount
  droppedCount : d'.droppedCount = d.droppedCount
  offset : d'.offset = d.offset
  length : d'.length = d.length
  paused : d'.paused = d.paused
  kind : d'.eng.map Engine.kind = d.eng.map Engine.kind
  tstate : d'.eng.map Engine.tstate = d.eng.map Engine.tstate
  frameStart : d'.eng.map Engine.frameStart = d.eng.map Engine.frameStart

/-- `GoesOn`, with the lifecycle status and the error count too. -/
structure DriverState.Kept (d d' : DriverState) : Prop extends d.GoesOn d' where
  status : d'.status = d.status
  hwErrorCount : d'.hwErrorCount = d.hwErrorCount

/-- Whatever engine the driver has is Idle and has begun no frame. -/
def DriverState.AtRest (d : DriverState) : Prop := ∀ e, d.eng = some e → e.tstate = .idle ∧ e.frameStart = none

/-- A new driver after its DRV_BEGIN (R252, R254): Ready or, an encoder's, Failed, all counts zero, its slice empty, its
engine Idle. -/
structure DriverState.Fresh (paused : Bool) (d : DriverState) : Prop where
  status : d.status = .ready ∨ d.status = .failed ∧ isEncoder d.variant = true
  frameCount : d.frameCount = 0
  droppedCount : d.droppedCount = 0
  offset : d.offset = 0
  length : d.length = 0
  paused : d.paused = paused
  atRest : d.AtRest

theorem DriverState.transmitting_eq (d : DriverState) :
    d.transmitting = ((d.eng.map Engine.tstate).map TState.transmitting).getD false := by
  unfold DriverState.transmitting
  cases d.eng <;> rfl

theorem DriverState.transmitting_congr {d d' : DriverState} (h : d'.eng.map Engine.tstate = d.eng.map Engine.tstate) :
    d'.transmitting = d.transmitting := by
  rw [DriverState.transmitting_eq, h, ← DriverState.transmitting_eq]

theorem DriverState.AtRest.congr {d d' : DriverState} (h : d.AtRest)
    (htstate : d'.eng.map Engine.tstate = d.eng.map Engine.tstate)
    (hframe : d'.eng.map Engine.frameStart = d.eng.map Engine.frameStart) : d'.AtRest := by
  intro e' he'
  rw [he'] at htstate hframe
  obtain ⟨e, he, hts⟩ := Option.map_eq_some_iff.mp htstate.symm
  rw [he] at hframe
  obtain ⟨hidle, hnone⟩ := h e he
  exact ⟨hts.symm.trans hidle, (Option.some.inj hframe).trans hnone⟩

theorem DriverState.draining_eq_false {d : DriverState} (h : d.transmitting = false) : d.draining = false := by
  cases he : d.eng with
  | none => rw [DriverState.draining, he]
  | some e =>
    rw [DriverState.transmitting_some he] at h
    rw [DriverState.draining, he]
    exact decide_eq_false fun hdraining => by rw [hdraining] at h; cases h

namespace DriverState.GoesOn

variable {d d' d'' : DriverState}

theorem refl (d : DriverState) : d.GoesOn d := ⟨rfl, rfl, rfl, rfl, rfl, rfl, rfl, rfl, rfl⟩

theorem trans (h : d.GoesOn d') (h' : d'.GoesOn d'') : d.GoesOn d'' :=
  ⟨h'.variant.trans h.variant, h'.frameCount.trans h.frameCount, h'.droppedCount.trans h.droppedCount,
    h'.offset.trans h.offset, h'.length.trans h.length, h'.paused.trans h.paused, h'.kind.trans h.kind,
    h'.tstate.trans h.tstate, h'.frameStart.trans h.frameStart⟩

theorem transmitting (h : d.GoesOn d') : d'.transmitting = d.transmitting := transmitting_congr h.tstate

theorem atRest (h : d.GoesOn d') (hd : d.AtRest) : d'.AtRest := hd.congr h.tstate h.frameStart

end DriverState.GoesOn

theorem DriverState.AtRest.still {d : DriverState} (h : d.AtRest) : d.transmitting = false := by
  cases he : d.eng with
  | none => rw [DriverState.transmitting, he]
  | some e => rw [DriverState.transmitting_some he, (h e he).1]; rfl

theorem DriverState.Kept.refl (d : DriverState) : d.Kept d := ⟨.refl d, rfl, rfl⟩

theorem DriverState.Kept.trans {d d' d'' : DriverState} (h : d.Kept d') (h' : d'.Kept d'') : d.Kept d'' :=
  ⟨h.toGoesOn.trans h'.toGoesOn, h'.status.trans h.status, h'.hwErrorCount.trans h.hwErrorCount⟩

/-! ## A slot that MGR_APPLY_CONFIG finishes on -/

/-- The parameters are good, and slot `i`'s engine is the one its variant needs, and still. -/
structure GoodSlot (s : State) (i : Nat) : Prop where
  params : s.wellFormedParameters = true
  rates : baudRatesOk s.board = true
  kind : (s.slot i).eng.map Engine.kind = engineKindOf (s.slot i).variant
  still : (s.slot i).transmitting = false

section slot

variable {s t : State} {i : Nat}

theorem GoodSlot.of_board (h : GoodSlot s i) (hboard : t.board = s.board) (hd : (s.slot i).GoesOn (t.slot i)) :
    GoodSlot t i where
  params := (wellFormedParameters_congr hboard).trans h.params
  rates := hboard ▸ h.rates
  kind := by rw [hd.kind, hd.variant]; exact h.kind
  still := hd.transmitting.trans h.still

theorem GoodSlot.notDraining (h : GoodSlot s i) : (s.slot i).draining = false := DriverState.draining_eq_false h.still

/-- ENGINE_BEGIN latches an encoder's engine, and nothing else of the driver changes (R192, R224). -/
theorem engineBegin_good (h : GoodSlot s i) (henc : isEncoder (s.slot i).variant = true) :
    ∃ t, engineBegin i s = .ok () t ∧ BindStep s t i ∧ (s.slot i).Kept (t.slot i) := by
  obtain ⟨-, hconstants, -⟩ := wellFormedParameters_parts h.params
  have hlatched : ∀ {e e' : Engine}, (s.slot i).eng = some e → e'.kind = e.kind → e'.tstate = e.tstate →
      e'.frameStart = e.frameStart → (s.slot i).Kept { s.slot i with eng := some e' } := fun he hk hts hf =>
    ⟨⟨rfl, rfl, rfl, rfl, rfl, rfl, by rw [he]; exact congrArg some hk, by rw [he]; exact congrArg some hts,
      by rw [he]; exact congrArg some hf⟩, rfl, rfl⟩
  obtain ⟨k, hk⟩ := Option.isSome_iff_exists.mp henc
  obtain ⟨e, he, hkind⟩ := Option.map_eq_some_iff.mp (h.kind.trans hk)
  cases k with
  | pulse =>
    obtain ⟨q, l, hc⟩ := core_of_kind_pulse hkind
    obtain ⟨pc, hpc, hok⟩ := pulseConstants_good hconstants hk
    refine ⟨_, engineBegin_pulse h.notDraining he hc hpc hok, (BindStep.setSlot s i _).trans (.setPu _ i _ _), ?_⟩
    rw [State.pulseLatched, setPu_slot, setSlot_slot_same]
    exact hlatched he hkind.symm rfl rfl
  | serial =>
    obtain ⟨q, l, hc⟩ := core_of_kind_serial hkind
    obtain ⟨pc, hpc, hok⟩ := serialConstants_good hconstants h.rates hk
    refine ⟨_, engineBegin_serial h.notDraining he hc hpc hok, (BindStep.setSlot s i _).trans (.setSu _ i _ _), ?_⟩
    rw [State.serialLatched, setSu_slot, setSlot_slot_same]
    exact hlatched he hkind.symm rfl rfl

/-- DRV_SET_CONFIG keeps a driver whose options merge into legal ones (R256). -/
theorem drvSetConfig_good {p : ParamObject} (h : GoodSlot s i)
    (hp : isEncoder (s.slot i).variant = true →
      ∃ c c', (s.slot i).cfg = .encoder c ∧ mergeCfg c p = some c' ∧ legalEncoderCfg c' = true) :
    ∃ t, drvSetConfig i p s = .ok () t ∧ BindStep s t i ∧ (s.slot i).Kept (t.slot i) := by
  cases henc : isEncoder (s.slot i).variant with
  | true =>
    obtain ⟨c, c', hc, hmerge, hlegal⟩ := hp henc
    have hstored : (s.slot i).Kept ((s.withConfig i c').slot i) := by
      rw [withConfig_slot]
      exact ⟨⟨rfl, rfl, rfl, rfl, rfl, rfl, rfl, rfl, rfl⟩, rfl, rfl⟩
    have hstep : BindStep s (s.withConfig i c') i := .setSlot s i _
    rw [drvSetConfig_stores h.notDraining henc hc hmerge hlegal]
    split
    · obtain ⟨t, hrun, hstep', hkept⟩ := engineBegin_good (h.of_board (withConfig_board s i c') hstored.toGoesOn)
        (by rw [hstored.variant]; exact henc)
      exact ⟨t, hrun, hstep.trans hstep', hstored.trans hkept⟩
    · exact ⟨_, rfl, hstep, hstored⟩
  | false =>
    by_cases hv : (s.slot i).variant = .disabled
    · exact ⟨s, drvSetConfig_disabled h.notDraining hv, .refl s i, .refl _⟩
    · refine ⟨_, drvSetConfig_other h.notDraining hv henc, .setSlot s i _, ?_⟩
      rw [setSlot_slot_same]
      exact ⟨⟨rfl, rfl, rfl, rfl, rfl, rfl, rfl, rfl, rfl⟩, rfl, rfl⟩

/-- DRV_STOP on a still engine (R253). -/
theorem drvStop_good (h : GoodSlot s i) :
    ∃ t, drvStop i s = .ok () t ∧ BindStep s t i ∧ (s.slot i).GoesOn (t.slot i) := by
  cases he : (s.slot i).eng with
  | none => exact ⟨s, drvStop_none he, .refl s i, .refl _⟩
  | some e =>
    have hstopped : (s.slot i).GoesOn ((s.withEng i { e with enLow := false, enEnd := false }).slot i) := by
      rw [withEng_slot_same]
      exact ⟨rfl, rfl, rfl, rfl, rfl, rfl, by rw [he]; rfl, by rw [he]; rfl, by rw [he]; rfl⟩
    rw [drvStop_still he h.still, quietUnit]
    cases e.kind with
    | pulse => exact ⟨_, rfl, (BindStep.setSlot s i _).trans (.setPu _ i _ _), hstopped⟩
    | serial => exact ⟨_, rfl, (BindStep.setSlot s i _).trans (.setSu _ i _ _), hstopped⟩

/-- DRV_BEGIN on a driver that is not Failed makes it Ready or, an encoder's, Failed (R254). -/
theorem drvBegin_good (h : GoodSlot s i) (hf : (s.slot i).status ≠ .failed) :
    ∃ t, drvBegin i s = .ok () t ∧ BindStep s t i ∧ (s.slot i).GoesOn (t.slot i) ∧
      ((t.slot i).status = .ready ∨ (t.slot i).status = .failed ∧ isEncoder (s.slot i).variant = true) := by
  cases henc : isEncoder (s.slot i).variant with
  | false =>
    refine ⟨_, drvBegin_other h.notDraining hf henc, .setSlot s i _, ?_⟩
    rw [setSlot_slot_same]
    exact ⟨⟨rfl, rfl, rfl, rfl, rfl, rfl, rfl, rfl, rfl⟩, .inl rfl⟩
  | true =>
    obtain ⟨ok, u, hdraw⟩ : ∃ ok u, drawPeriphInit i s = .ok ok u := by
      unfold drawPeriphInit
      split <;> exact ⟨_, _, rfl⟩
    have hframe := drawPeriphInit_frame hdraw
    have hslot : ∀ j, u.slot j = s.slot j := fun j => by rw [hframe]; rfl
    have hdrawn : BindStep s u i := ⟨by rw [hframe]; rfl, fun j _ => hslot j⟩
    rw [drvBegin_drawn h.notDraining hf henc hdraw]
    cases ok with
    | true =>
      obtain ⟨t, hrun, hstep, hkept⟩ := engineBegin_good
        (h.of_board hdrawn.frame.board (by rw [hslot]; exact .refl _)) (by rw [hslot]; exact henc)
      rw [hslot] at hkept
      refine ⟨_, op_bind_ok hrun, (hdrawn.trans hstep).trans (.setSlot t i _), ?_⟩
      rw [setSlot_slot_same]
      exact ⟨⟨hkept.variant, hkept.frameCount, hkept.droppedCount, hkept.offset, hkept.length, hkept.paused,
        hkept.kind, hkept.tstate, hkept.frameStart⟩, .inl rfl⟩
    | false =>
      refine ⟨_, rfl, (hdrawn.trans (.setSlot u i _)).trans ⟨rfl, fun _ _ => rfl⟩, ?_⟩
      have hlogged : ∀ d log, ({ u.setSlot i d with diag := log } : State).slot i = d := fun d _ =>
        setSlot_slot_same u i d
      beta_reduce
      rw [← hslot i, hlogged]
      exact ⟨⟨rfl, rfl, rfl, rfl, rfl, rfl, rfl, rfl, rfl⟩, .inr ⟨rfl, rfl⟩⟩

end slot

end Sys2Proof.Machine
end

section
/-! SUPPORT. MGR_APPLY_CONFIG over good parameters and still engines (R295, R304): one slot's binding, then the loop. -/

namespace Sys2Proof.Machine

/-! ## What a document resolves to -/

section resolved

variable {s t : State} {i : Nat} {doc : ConfigDoc}

theorem paramsOk_congr (hboard : t.board = s.board) (hv : (t.slot i).variant = (s.slot i).variant)
    (hcfg : (t.slot i).cfg = (s.slot i).cfg) (v : Variant) (p : ParamObject) : paramsOk t i v p = paramsOk s i v p := by
  rw [paramsOk, mergeBase, hboard, hv, hcfg, ← mergeBase, ← paramsOk]

/-- R299 reads the board, and of the slot's driver its variant and configuration. -/
theorem resolve_congr (hboard : t.board = s.board) (hv : (t.slot i).variant = (s.slot i).variant)
    (hcfg : (t.slot i).cfg = (s.slot i).cfg) : resolve t i doc = resolve s i doc := by
  simp only [resolve, resolveEntry, paramsOk_congr hboard hv hcfg, hboard]

theorem resolvedVariant_congr (hboard : t.board = s.board) (hv : (t.slot i).variant = (s.slot i).variant)
    (hcfg : (t.slot i).cfg = (s.slot i).cfg) : resolvedVariant t i doc = resolvedVariant s i doc := by
  rw [resolvedVariant, resolve_congr hboard hv hcfg, resolvedVariant]

/-- What passed the last two checks of R299. -/
theorem resolve_bind {v : Variant} {p : ParamObject} (h : resolve s i doc = .bind v p) :
    legalAt s.board i v = true ∧ paramsOk s i v p = true := by
  unfold resolve at h
  split at h
  · cases h
  split at h
  · cases h
  unfold resolveEntry at h
  split at h
  · cases h
  split at h
  · cases h
  split at h
  · cases h
  split at h
  · cases h
  split at h
  · cases h
  cases h
  simp_all

/-- What R299 accepts merges into an encoder's configuration. -/
theorem paramsOk_merges {v : Variant} {p : ParamObject} (henc : isEncoder v = true) (hp : paramsOk s i v p = true) :
    ∃ c c', mergeBase s i v = .encoder c ∧ mergeCfg c p = some c' ∧ legalEncoderCfg c' = true := by
  cases hc : mergeBase s i v with
  | encoder c =>
    obtain ⟨c', hmerge, hok⟩ := (paramsOk_encoder henc hc).mp hp
    exact ⟨c, c', rfl, hmerge, hok⟩
  | empty | stored => simp [paramsOk, henc, hc, mergeDriverCfg, encoderCfg] at hp

/-- The fallback is legal as every slot's own, and has no parameters to check. -/
theorem resolved_ok (hi : s.hasSlot i) (hlegal : legalTableOk s = true) :
    legalAt s.board i (resolvedVariant s i doc) = true ∧
      paramsOk s i (resolvedVariant s i doc) (resolvedParams s i doc) = true := by
  unfold resolvedVariant resolvedParams
  cases h : resolve s i doc with
  | bind v p => exact resolve_bind h
  | bad r => exact ⟨(legalTableOk_slot hlegal hi).1, paramsOk_other rfl⟩

theorem resolvedVariant_bad {r : ConfigProblem} (h : resolve s i doc = .bad r) :
    resolvedVariant s i doc = .disabled := by rw [resolvedVariant, h]

theorem resolve_unknown {en : Entry} {k : Nat} (hversion : doc.version = s.board.configFormatVersion)
    (hen : mapGet doc.channels i = some en) (hk : en.typeCode = some k) (hcode : ∀ v, s.board.protocolCode.at v ≠ k) :
    resolvedVariant s i doc = .disabled := by
  have hres := resolve_entry (i := i) hversion hen
  cases hp : mapGet en.params k with
  | none => exact resolvedVariant_bad (hres.trans (resolveEntry_malformed (.inr ⟨k, hk, hp⟩)))
  | some p =>
    refine resolvedVariant_bad (r := .unknownType) (hres.trans ?_)
    simp only [resolveEntry, hk, hp, variantOfCode_eq_none hcode]

theorem resolveLogged_step (s : State) (i : Nat) (doc : ConfigDoc) : BindStep s (s.resolveLogged i doc) i := by
  unfold State.resolveLogged
  split
  · exact .refl s i
  · exact ⟨rfl, fun _ _ => rfl⟩

theorem resolveLogged_slot (s : State) (i : Nat) (doc : ConfigDoc) (j : Nat) :
    (s.resolveLogged i doc).slot j = s.slot j := by
  unfold State.resolveLogged
  split <;> rfl

end resolved

/-! ## One slot -/

/-- A slot has the unit that a variant legal there needs, and the variant's new engine is Idle (R250, R252). -/
theorem engineFor_of_admits {v : Variant} {p : Periph} (h : periphAdmits v p = true) :
    ∃ eng, engineFor v p = some eng ∧ eng.map Engine.kind = engineKindOf v ∧
      ∀ e, eng = some e → e.tstate = .idle ∧ e.frameStart = none := by
  unfold engineFor
  cases hk : engineKindOf v with
  | none => exact ⟨none, rfl, rfl, nofun⟩
  | some k =>
    simp only [periphAdmits, hk] at h
    obtain ⟨u, hu⟩ := Option.isSome_iff_exists.mp h
    refine ⟨some (freshEngine k u), by simp [hu], ?_, fun e he => ?_⟩
    · cases k <;> rfl
    · cases Option.some.inj he
      exact ⟨rfl, rfl⟩

/-- What MGR_APPLY_CONFIG leaves in slot `i` of state `s` (R295, R299, R304). -/
structure Applied (s : State) (doc : ConfigDoc) (i : Nat) (d : DriverState) : Prop where
  variant : d.variant = resolvedVariant s i doc
  kept : resolvedVariant s i doc = (s.slot i).variant → (s.slot i).Kept d
  replaced : resolvedVariant s i doc ≠ (s.slot i).variant → d.Fresh s.pauseHeld

section applying

variable {s : State} {i : Nat} {doc : ConfigDoc}

theorem Applied.still {d : DriverState} (h : Applied s doc i d) (hs : (s.slot i).transmitting = false) :
    d.transmitting = false := by
  by_cases hv : resolvedVariant s i doc = (s.slot i).variant
  · exact (h.kept hv).transmitting.trans hs
  · exact (h.replaced hv).atRest.still

/-- The rebinding of a slot to another variant. -/
def rebind (v : Variant) (p : ParamObject) (i : Nat) : Op Unit := do
  drvStop i
  drvConstruct i v
  drvSetConfig i p
  drvBegin i

theorem applySlot_run (s : State) (i : Nat) (doc : ConfigDoc) :
    applySlot doc i s =
      (if resolvedVariant s i doc = (s.slot i).variant then drvSetConfig i (resolvedParams s i doc)
        else rebind (resolvedVariant s i doc) (resolvedParams s i doc) i) (s.resolveLogged i doc) := by
  rw [applySlot, op_bind_ok (mgrResolveEntry_run s i doc), ← resolveLogged_slot s i doc i]
  rfl

/-- The old driver is stopped; the new one is built, configured from its defaults, and begun. -/
theorem rebind_good {v : Variant} {p : ParamObject} (h : GoodSlot s i) (hi : s.hasSlot i)
    (hv : v ≠ (s.slot i).variant) (hlegal : legalAt s.board i v = true) (hp : paramsOk s i v p = true) :
    ∃ t, rebind v p i s = .ok () t ∧ BindStep s t i ∧ (t.slot i).variant = v ∧ (t.slot i).Fresh s.pauseHeld := by
  obtain ⟨hlegalTable, -, hdefaults⟩ := wellFormedParameters_parts h.params
  obtain ⟨s₁, hstop, hstep₁, hold⟩ := drvStop_good h
  have hboard₁ := hstep₁.frame.board
  obtain ⟨eng, heng, hkind, hrest⟩ := engineFor_of_admits ((legalTableOk_slot hlegalTable hi).2 v hlegal)
  have hconstruct := drvConstruct_ok (s := s₁) (i := i) (hold.transmitting.trans h.still)
    (by rw [hboard₁]; exact hlegal) (by rw [hboard₁]; exact hdefaults v)
    (by rw [State.periph_of_board hboard₁]; exact heng)
  rw [hboard₁, hstep₁.frame.pauseHeld] at hconstruct
  have hnew := setSlot_slot_same s₁ i (newDriver s.board v s.pauseHeld eng)
  have hstep₂ := hstep₁.trans (.setSlot s₁ i (newDriver s.board v s.pauseHeld eng))
  have hnewRest : (newDriver s.board v s.pauseHeld eng).AtRest := hrest
  generalize s₁.setSlot i (newDriver s.board v s.pauseHeld eng) = s₂ at hconstruct hnew hstep₂
  have hgood₂ : GoodSlot s₂ i :=
    { params := (wellFormedParameters_congr hstep₂.frame.board).trans h.params
      rates := by rw [hstep₂.frame.board]; exact h.rates
      kind := by rw [hnew]; exact hkind
      still := by rw [hnew]; exact hnewRest.still }
  have hmerges : isEncoder v = true → ∃ c c', defaultCfgOf s.board v = .encoder c ∧ mergeCfg c p = some c' ∧
      legalEncoderCfg c' = true := fun henc => by
    have hbase : mergeBase s i v = defaultCfgOf s.board v := if_neg hv
    rw [← hbase]
    exact paramsOk_merges henc hp
  obtain ⟨s₃, hconfig, hstep₃, hkept⟩ := drvSetConfig_good (p := p) hgood₂ (by rw [hnew]; exact hmerges)
  obtain ⟨t, hbegin, hstep₄, hbegun, hstatus⟩ := drvBegin_good
    (hgood₂.of_board hstep₃.frame.board hkept.toGoesOn) (by rw [hkept.status, hnew]; nofun)
  have hgoes := hkept.toGoesOn.trans hbegun
  rw [hkept.variant] at hstatus
  rw [hnew] at hgoes hstatus
  refine ⟨t, (op_bind_ok hstop).trans ((op_bind_ok hconstruct).trans ((op_bind_ok hconfig).trans hbegin)),
    hstep₂.trans (hstep₃.trans hstep₄), hgoes.variant, ?_⟩
  exact ⟨by rw [hgoes.variant]; exact hstatus, hgoes.frameCount, hgoes.droppedCount, hgoes.offset, hgoes.length,
    hgoes.paused, hgoes.atRest hnewRest⟩

theorem applySlot_good (h : GoodSlot s i) (hi : s.hasSlot i) :
    ∃ t, applySlot doc i s = .ok () t ∧ BindStep s t i ∧ Applied s doc i (t.slot i) := by
  obtain ⟨hlegal, hp⟩ := resolved_ok (doc := doc) hi (wellFormedParameters_parts h.params).1
  have hlog := resolveLogged_step s i doc
  have hslot := resolveLogged_slot s i doc i
  have hboard := hlog.frame.board
  have hgood : GoodSlot (s.resolveLogged i doc) i := h.of_board hboard (by rw [hslot]; exact .refl _)
  rw [applySlot_run]
  split
  case isTrue hv =>
    obtain ⟨t, hrun, hstep, hkept⟩ := drvSetConfig_good (p := resolvedParams s i doc) hgood fun henc => by
      rw [hslot, ← hv] at henc
      rw [hslot, ← show mergeBase s i (resolvedVariant s i doc) = (s.slot i).cfg from if_pos hv]
      exact paramsOk_merges henc hp
    rw [hslot] at hkept
    exact ⟨t, hrun, hlog.trans hstep, hkept.variant.trans hv.symm, fun _ => hkept, fun hne => absurd hv hne⟩
  case isFalse hv =>
    obtain ⟨t, hrun, hstep, hvariant, hfresh⟩ := rebind_good (v := resolvedVariant s i doc)
      (p := resolvedParams s i doc) hgood (by rw [State.hasSlot, hboard]; exact hi) (by rw [hslot]; exact hv)
      (by rw [hboard]; exact hlegal) (by rw [paramsOk_congr hboard (by rw [hslot]) (by rw [hslot])]; exact hp)
    rw [hlog.frame.pauseHeld] at hfresh
    exact ⟨t, hrun, hlog.trans hstep, hvariant, fun heq => absurd heq hv, fun _ => hfresh⟩

end applying

/-! ## The loop -/

theorem applyLoop (doc : ConfigDoc) :
    SlotLoop BindWrites (fun s i => GoodSlot s i ∧ s.hasSlot i) (fun s i d => Applied s doc i d) (applySlot doc) where
  refl _ := rfl
  trans := BindWrites.trans
  good hframe hslot h :=
    ⟨h.1.of_board hframe.board (by rw [hslot]; exact .refl _), by rw [State.hasSlot, hframe.board]; exact h.2⟩
  done {s t i d} hframe hslot h := by
    have hv := resolvedVariant_congr (doc := doc) hframe.board (by rw [hslot]) (by rw [hslot])
    have hd := And.intro h.variant (And.intro h.kept h.replaced)
    rw [hv, hslot, hframe.pauseHeld] at hd
    exact ⟨hd.1, hd.2.1, hd.2.2⟩
  run h :=
    have ⟨t, hrun, hstep, hd⟩ := applySlot_good h.1 h.2
    ⟨t, hrun, hstep.frame, hstep.other, hd⟩

theorem anyTransmitting_eq_false {s : State} :
    s.anyTransmitting = false ↔ ∀ i, s.hasSlot i → (s.slot i).transmitting = false := by
  simp [State.anyTransmitting, State.slotIndices, State.hasSlot]

/-- What MGR_APPLY_CONFIG leaves (R295). -/
structure AppliedTo (s : State) (doc : ConfigDoc) (t : State) : Prop where
  frame : BindWrites s t
  slot : ∀ i, s.hasSlot i → Applied s doc i (t.slot i)
  outside : ∀ i, ¬s.hasSlot i → t.slot i = s.slot i

theorem State.Configurable.goodSlot {s : State} {i : Nat} (h : s.Configurable) (hi : s.hasSlot i) : GoodSlot s i :=
  ⟨h.params, h.rates, h.bound i hi, anyTransmitting_eq_false.mp h.still i hi⟩

theorem mgrApplyConfig_run {s : State} (h : s.Configurable) (doc : ConfigDoc) :
    ∃ t, mgrApplyConfig doc s = .ok () t ∧ AppliedTo s doc t := by
  obtain ⟨t, hrun, hframe, hdone, hother⟩ := (applyLoop doc).allSlots_run fun i hi => ⟨h.goodSlot hi, hi⟩
  exact ⟨t, hrun, hframe, hdone, hother⟩

theorem AppliedTo.still {s t : State} {doc : ConfigDoc} (h : AppliedTo s doc t) (hs : s.anyTransmitting = false) :
    t.anyTransmitting = false := by
  refine anyTransmitting_eq_false.mpr fun i hi => ?_
  have hi' : s.hasSlot i := by rw [State.hasSlot, ← h.frame.board]; exact hi
  exact (h.slot i hi').still (anyTransmitting_eq_false.mp hs i hi')

/-- Settles O46: each slot's binding finishes (`applySlot_good`) and reads of the state only what the bindings before it
keep, so the loop leaves in every slot what the slot's own binding does. -/
theorem applyConfigBindsTheResolvedVariants : Obligations.ApplyConfigBindsTheResolvedVariants := by
  refine ⟨fun s doc hdoc hs => ?applies, fun s doc hdoc htransmit => ?transmits⟩
  case transmits =>
    exact (runStep_bind_ok (admitOperands_ok hdoc) _).trans (runStep_guardStep_false (by rw [htransmit]; rfl) _ _)
  case applies =>
    obtain ⟨t, hrun, happlied⟩ := mgrApplyConfig_run hs doc
    refine ⟨t, ?_, happlied.frame, happlied.frame.byte, fun i hi => (happlied.slot i hi).variant, fun i hi hv => ?kept,
      fun i hi hv => ?replaced, happlied.outside, fun i en k hi hversion hen hk hcode => ?unknown⟩
    · exact (runStep_bind_ok (admitOperands_ok hdoc) _).trans
        ((runStep_guardStep_true (by rw [hs.still]; rfl) _ _).trans (runStep_ok hrun))
    case kept =>
      have hkept := (happlied.slot i hi).kept hv
      exact ⟨hkept.status, hkept.frameCount, hkept.droppedCount, hkept.hwErrorCount, hkept.offset, hkept.length,
        hkept.paused, hkept.frameStart⟩
    case replaced =>
      have hfresh := (happlied.slot i hi).replaced hv
      exact ⟨hfresh.status, hfresh.frameCount, hfresh.droppedCount, hfresh.offset, hfresh.length, hfresh.paused,
        hfresh.atRest⟩
    case unknown =>
      rw [drvStatusOf, (happlied.slot i hi).variant, resolve_unknown hversion hen hk hcode, happlied.frame.board]

end Sys2Proof.Machine
end

section
/-! SUPPORT. The partition of the pixel buffer in slot order (R300, R303): one slot's grant, then the grants of the
slots below a bound. -/

namespace Sys2Proof.Machine

section partition

variable {s t : State} {i n off : Nat}

/-! ## The bytes granted below a slot -/

theorem grantedBelow_succ (s : State) (i : Nat) :
    s.grantedBelow (i + 1) = s.grantedBelow i + (s.slot i).length := by
  simp [State.grantedBelow, List.range_succ]

theorem grantedBelow_congr (h : ∀ j, j < i → t.slot j = s.slot j) : t.grantedBelow i = s.grantedBelow i := by
  rw [State.grantedBelow, State.grantedBelow,
    List.map_congr_left fun j hj => congrArg DriverState.length (h j (List.mem_range.mp hj))]

theorem grantedBelow_mono (s : State) : Monotone s.grantedBelow :=
  monotone_nat_of_le_succ fun i => by rw [grantedBelow_succ]; exact Nat.le_add_right _ _

/-! ## One slot -/

theorem drvNeededOf_congr (hboard : t.board = s.board) (hv : (t.slot i).variant = (s.slot i).variant)
    (hcfg : (t.slot i).cfg = (s.slot i).cfg) : drvNeededOf t i = drvNeededOf s i := by
  rw [drvNeededOf, hboard, hv, hcfg, ← drvNeededOf]

theorem granted_congr (hboard : t.board = s.board) (hslot : t.slot i = s.slot i) :
    t.granted i off = s.granted i off := by
  rw [State.granted, drvNeededOf_congr hboard (by rw [hslot]) (by rw [hslot]), hboard, hslot, ← State.granted]

/-- One slot of MGR_UPDATE_PARTITION: the log of a shortfall and the grant (R300). -/
def State.afterGrant (s : State) (i off : Nat) : State :=
  State.setSlot { s with diag := s.diag ++ shortfall s i (s.granted i off).length } i (s.granted i off)

theorem partitionSlot_run (h : (s.slot i).transmitting = false) (hoff : off ≤ s.board.totalBufferSize) :
    partitionSlot i off s = .ok (off + (s.granted i off).length) (s.afterGrant i off) := by
  have hfits : off + min (drvNeededOf s i) (s.board.totalBufferSize - off) ≤ s.board.totalBufferSize := by omega
  have hgrant : (s.granted i off).length = min (drvNeededOf s i) (s.board.totalBufferSize - off) := rfl
  rw [partitionSlot, op_bind_ok (getState_run s), State.afterGrant, hgrant]
  by_cases hlt : min (drvNeededOf s i) (s.board.totalBufferSize - off) < drvNeededOf s i
  · simp only [shortfall, if_pos hlt]
    exact op_bind_ok (drvSetBuffer_inside (s := { s with diag := s.diag ++ [⟨i, .capacityShortfall _ _⟩] }) h hfits)
  · simp only [shortfall, if_neg hlt, List.append_nil]
    exact op_bind_ok (drvSetBuffer_inside h hfits)

/-! ## The slots below a bound -/

theorem partitionFrom_snoc {off' : Nat} :
    ∀ {xs : List Nat} {s : State} {off : Nat}, partitionFrom off xs s = .ok off' t →
      partitionFrom off (xs ++ [i]) s = partitionSlot i off' t
  | [], s, off, h => by
    cases h
    exact congrFun (bind_pure (partitionSlot i _)) _
  | k :: rest, s, off, h => by
    obtain ⟨off₁, s₁, hk, hrest⟩ := op_bind_eq_ok.mp h
    exact (op_bind_ok hk).trans (partitionFrom_snoc hrest)

/-- What the partition leaves after the slots below `n` (R300). -/
structure GrantedUpTo (s : State) (n : Nat) (t : State) : Prop where
  frame : t = { s with slots := t.slots, diag := t.diag }
  slot : ∀ i, t.slot i = if i < n then s.granted i (t.grantedBelow i) else s.slot i
  log : t.diag = s.diag ++ (List.range n).flatMap (fun i => shortfall s i (t.slot i).length)
  total : t.grantedBelow n = min ((List.range n).map (drvNeededOf s)).sum s.board.totalBufferSize

theorem GrantedUpTo.board (h : GrantedUpTo s n t) : t.board = s.board := by rw [h.frame]

theorem GrantedUpTo.slot_next (h : GrantedUpTo s n t) : t.slot n = s.slot n := by
  rw [h.slot, if_neg (lt_irrefl n)]

/-- The next slot. -/
theorem GrantedUpTo.succ (h : GrantedUpTo s n t) : GrantedUpTo s (n + 1) (t.afterGrant n (t.grantedBelow n)) := by
  have hneed : drvNeededOf t n = drvNeededOf s n :=
    drvNeededOf_congr h.board (by rw [h.slot_next]) (by rw [h.slot_next])
  rw [State.afterGrant, shortfall, hneed, ← shortfall, granted_congr h.board h.slot_next]
  generalize hu : State.setSlot _ n (s.granted n (t.grantedBelow n)) = u
  have hsame : u.slot n = s.granted n (t.grantedBelow n) := by rw [← hu]; exact setSlot_slot_same _ n _
  have hother : ∀ j, j ≠ n → u.slot j = t.slot j := fun j hj => by rw [← hu]; exact setSlot_slot_other _ n _ hj
  have hbelow : ∀ j, j ≤ n → u.grantedBelow j = t.grantedBelow j := fun j hj =>
    grantedBelow_congr fun k hk => hother k (by omega)
  have hdiag : u.diag = t.diag ++ shortfall s n (u.slot n).length := by rw [hsame, ← hu]; rfl
  refine ⟨?frame, fun j => ?slot, ?log, ?total⟩
  case frame =>
    have hwrites : u = { t with slots := u.slots, diag := u.diag } := by rw [← hu]; rfl
    exact hwrites.trans <| congrArg (fun v : State => { v with slots := u.slots, diag := u.diag }) h.frame
  case slot =>
    obtain hj | rfl | hj := Nat.lt_trichotomy j n
    · rw [if_pos (by omega), hother j (by omega), h.slot j, if_pos hj, hbelow j (by omega)]
    · rw [if_pos (by omega), hsame, hbelow j le_rfl]
    · rw [if_neg (by omega), hother j (by omega), h.slot j, if_neg (by omega)]
  case log =>
    have hlower : (List.range n).flatMap (fun i => shortfall s i (u.slot i).length) =
        (List.range n).flatMap (fun i => shortfall s i (t.slot i).length) :=
      List.flatMap_congr fun j hj => by rw [hother j (by have := List.mem_range.mp hj; omega)]
    rw [hdiag, h.log, List.range_succ, List.flatMap_append, hlower, List.append_assoc]
    simp
  case total =>
    have hlength : (u.slot n).length = min (drvNeededOf s n) (s.board.totalBufferSize - t.grantedBelow n) := by
      rw [hsame]; rfl
    have htotal := h.total
    rw [grantedBelow_succ, hbelow n le_rfl, hlength, List.range_succ, List.map_append, List.sum_append]
    simp only [List.map_cons, List.map_nil, List.sum_singleton]
    omega

theorem partitionFrom_run (hstill : s.anyTransmitting = false) :
    ∀ n, n ≤ s.board.numSlots →
      ∃ t, partitionFrom 0 (List.range n) s = .ok (t.grantedBelow n) t ∧ GrantedUpTo s n t
  | 0, _ => ⟨s, rfl, rfl, fun _ => rfl, (List.append_nil _).symm, by simp [State.grantedBelow]⟩
  | n + 1, hn => by
    obtain ⟨t, hrun, h⟩ := partitionFrom_run hstill n (by omega)
    have hstep := partitionSlot_run (s := t) (i := n) (off := t.grantedBelow n)
      (by rw [h.slot_next]; exact anyTransmitting_eq_false.mp hstill n hn)
      (by rw [h.total, h.board]; exact min_le_right _ _)
    refine ⟨_, ?_, h.succ⟩
    rw [List.range_succ, partitionFrom_snoc hrun, hstep, grantedBelow_succ, State.afterGrant, setSlot_slot_same,
      grantedBelow_congr fun j hj => setSlot_slot_other _ n _ (by omega)]
    rfl

/-! ## MGR_UPDATE_PARTITION -/

/-- What MGR_UPDATE_PARTITION leaves (R300, R301, R303). -/
structure PartitionOf (s t : State) : Prop where
  frame : t = { s with slots := t.slots, totalUsed := t.totalUsed, diag := t.diag, capacity := t.capacity }
  slot : ∀ i, t.slot i = if i < s.board.numSlots then s.granted i (t.grantedBelow i) else s.slot i
  log : t.diag =
    s.diag ++ (List.range s.board.numSlots).flatMap (fun i => shortfall s i (t.slot i).length)
  used : t.totalUsed = t.grantedBelow s.board.numSlots
  total : t.totalUsed = min s.neededTotal s.board.totalBufferSize
  capacity : t.capacity = some (t.totalUsed, s.slotIndices.map fun i => (t.slot i).offset)

theorem mgrUpdatePartition_run (hstill : s.anyTransmitting = false) :
    ∃ t, mgrUpdatePartition s = .ok () t ∧ PartitionOf s t := by
  obtain ⟨t, hrun, h⟩ := partitionFrom_run hstill s.board.numSlots le_rfl
  have hcapacity : (List.range t.board.numSlots).map (fun i => (t.slot i).offset) =
      s.slotIndices.map fun i => (t.slot i).offset := by rw [h.board, State.slotIndices]
  refine ⟨_, op_bind_ok hrun, ?frame, h.slot, h.log, rfl, h.total, congrArg (fun o => some (_, o)) hcapacity⟩
  case frame =>
    exact congrArg (fun v : State =>
      { v with
        totalUsed := t.grantedBelow s.board.numSlots
        capacity :=
          some (t.grantedBelow s.board.numSlots, (List.range t.board.numSlots).map fun i => (t.slot i).offset) })
      h.frame

namespace PartitionOf

theorem board (h : PartitionOf s t) : t.board = s.board := by rw [h.frame]

theorem slot_of_hasSlot (h : PartitionOf s t) (hi : s.hasSlot i) : t.slot i = s.granted i (t.grantedBelow i) := by
  rw [h.slot, if_pos (show i < s.board.numSlots from hi)]

theorem slot_of_not_hasSlot (h : PartitionOf s t) (hi : ¬s.hasSlot i) : t.slot i = s.slot i := by
  rw [h.slot, if_neg (show ¬i < s.board.numSlots from hi)]

theorem partitioned (h : PartitionOf s t) : t.Partitioned where
  length i hi := by
    have hi' : s.hasSlot i := by rw [State.hasSlot, ← h.board]; exact hi
    have hslot := h.slot_of_hasSlot hi'
    rw [drvNeededOf_congr h.board (by rw [hslot]; rfl) (by rw [hslot]; rfl), h.board, hslot]
    rfl
  offset i hi := by
    have hi' : s.hasSlot i := by rw [State.hasSlot, ← h.board]; exact hi
    rw [h.slot_of_hasSlot hi']; rfl
  used := by rw [h.board]; exact h.used
  capacity := by rw [h.capacity, State.slotIndices, ← h.board]; rfl

end PartitionOf

end partition

/-- Settles O47: each slot's grant adds to the grants before it, so by induction on the slots the grants below `n` are
the least of the needs below `n` and the buffer. -/
theorem partitionGrantsInSlotOrder : Obligations.PartitionGrantsInSlotOrder := by
  refine ⟨fun s hstill => ?grants, fun s htransmit => ?transmits⟩
  case transmits => exact runStep_guardStep_false (by rw [htransmit]; rfl) _ _
  case grants =>
    obtain ⟨t, hrun, h⟩ := mgrUpdatePartition_run hstill
    refine ⟨t, ?_, h.partitioned, h.frame, h.slot, h.log, fun i j hi hj hij => ?disjoint, h.total⟩
    · exact (runStep_guardStep_true (by rw [hstill]; rfl) _ _).trans (runStep_ok hrun)
    case disjoint =>
      have hoffset : ∀ k, s.hasSlot k → (t.slot k).offset = t.grantedBelow k := fun k hk => by
        rw [h.slot_of_hasSlot hk]; rfl
      rw [hoffset i hi, hoffset j hj, ← grantedBelow_succ]
      exact grantedBelow_mono t hij

end Sys2Proof.Machine
end

section
/-! SUPPORT. A document applied and the buffer partitioned after it, as MGR_BEGIN (R290) and MGR_RELOAD (R298) do. -/

namespace Sys2Proof.Machine

/-! ## What the manager writes -/

/-- `t` is `s` with other drivers, units, draws, log, partition, and other state of the manager but for `begun`. -/
def ManagerWrites (s t : State) : Prop :=
  t = { s with
    slots := t.slots, pending := t.pending, userPaused := t.userPaused, reloadPaused := t.reloadPaused,
    totalUsed := t.totalUsed, diag := t.diag, capacity := t.capacity, persisted := t.persisted,
    pulseUnits := t.pulseUnits, serialUnits := t.serialUnits, initAnswers := t.initAnswers,
    loadAnswers := t.loadAnswers, drawCount := t.drawCount }

namespace ManagerWrites

variable {s t u : State}

theorem trans (h : ManagerWrites s t) (h' : ManagerWrites t u) : ManagerWrites s u :=
  Eq.trans h' (congrArg (fun v : State =>
    { v with
      slots := u.slots, pending := u.pending, userPaused := u.userPaused, reloadPaused := u.reloadPaused,
      totalUsed := u.totalUsed, diag := u.diag, capacity := u.capacity, persisted := u.persisted,
      pulseUnits := u.pulseUnits, serialUnits := u.serialUnits, initAnswers := u.initAnswers,
      loadAnswers := u.loadAnswers, drawCount := u.drawCount }) h)

theorem board (h : ManagerWrites s t) : t.board = s.board := by rw [h]

theorem begun (h : ManagerWrites s t) : t.begun = s.begun := by rw [h]

theorem renderPos (h : ManagerWrites s t) : t.renderPos = s.renderPos := by rw [h]

theorem faults (h : ManagerWrites s t) : t.faults = s.faults := by rw [h]

theorem refused (h : ManagerWrites s t) : t.refused = s.refused := by rw [h]

theorem now (h : ManagerWrites s t) : t.now = s.now := by rw [h]

theorem byte (h : ManagerWrites s t) (a : Nat) : t.byte a = s.byte a := by rw [h]; rfl

end ManagerWrites

theorem SlotsOnly.managerWrites {s t : State} (h : SlotsOnly s t) : ManagerWrites s t := by
  rw [h]; rfl

theorem BindWrites.managerWrites {s t : State} (h : BindWrites s t) : ManagerWrites s t := by
  rw [h]; rfl

theorem PartitionOf.managerWrites {s t : State} (h : PartitionOf s t) : ManagerWrites s t := by
  rw [h.frame]; rfl

/-! ## Apply, then partition -/

/-- `d'` has the variant, the configuration and the lifecycle status of `d`, and its engine in the same state of the
same frame. -/
structure DriverState.SameRun (d d' : DriverState) : Prop where
  variant : d'.variant = d.variant
  cfg : d'.cfg = d.cfg
  status : d'.status = d.status
  tstate : d'.eng.map Engine.tstate = d.eng.map Engine.tstate
  frameStart : d'.eng.map Engine.frameStart = d.eng.map Engine.frameStart

theorem granted_sameRun (s : State) (i off : Nat) : (s.slot i).SameRun (s.granted i off) where
  variant := rfl
  cfg := rfl
  status := rfl
  tstate := by rw [State.granted, Option.map_map]; rfl
  frameStart := by rw [State.granted, Option.map_map]; rfl

/-- A document was applied, then the buffer partitioned (R290, R295, R298, R300). -/
structure Rebound (s : State) (doc : ConfigDoc) (t : State) : Prop where
  writes : ManagerWrites s t
  pauses : t.userPaused = s.userPaused
  persisted : t.persisted = s.persisted
  partitioned : t.Partitioned
  slot : ∀ i, s.hasSlot i → ∃ d, Applied s doc i d ∧ d.SameRun (t.slot i)
  outside : ∀ i, ¬s.hasSlot i → t.slot i = s.slot i

section rebound

variable {s t : State} {i : Nat} {doc : ConfigDoc}

theorem Rebound.variant (h : Rebound s doc t) (hi : s.hasSlot i) :
    (t.slot i).variant = resolvedVariant s i doc := by
  obtain ⟨d, happlied, hrun⟩ := h.slot i hi
  exact hrun.variant.trans happlied.variant

theorem Rebound.transmitting (h : Rebound s doc t) (hi : s.hasSlot i) (hstill : (s.slot i).transmitting = false) :
    (t.slot i).transmitting = false := by
  obtain ⟨d, happlied, hrun⟩ := h.slot i hi
  exact (DriverState.transmitting_congr hrun.tstate).trans (happlied.still hstill)

theorem Rebound.atRest (h : Rebound s doc t) (hi : s.hasSlot i)
    (hv : resolvedVariant s i doc ≠ (s.slot i).variant) : (t.slot i).AtRest := by
  obtain ⟨d, happlied, hrun⟩ := h.slot i hi
  exact (happlied.replaced hv).atRest.congr hrun.tstate hrun.frameStart

/-- Over good parameters with every engine still, both finish. -/
theorem applyPartition_run (hs : s.Configurable) (doc : ConfigDoc) :
    ∃ a t, mgrApplyConfig doc s = .ok () a ∧ AppliedTo s doc a ∧ mgrUpdatePartition a = .ok () t ∧
      PartitionOf a t ∧ Rebound s doc t := by
  obtain ⟨a, happly, happlied⟩ := mgrApplyConfig_run hs doc
  obtain ⟨t, hpartition, hgrants⟩ := mgrUpdatePartition_run (happlied.still hs.still)
  have hslots : ∀ i, a.hasSlot i ↔ s.hasSlot i := fun i => by rw [State.hasSlot, happlied.frame.board]; rfl
  refine ⟨a, t, happly, happlied, hpartition, hgrants, happlied.frame.managerWrites.trans hgrants.managerWrites, ?_,
    ?_, hgrants.partitioned, fun i hi => ?_, fun i hi => ?_⟩
  · rw [hgrants.frame, happlied.frame]
  · rw [hgrants.frame, happlied.frame]
  · refine ⟨a.slot i, happlied.slot i hi, ?_⟩
    rw [hgrants.slot_of_hasSlot ((hslots i).mpr hi)]
    exact granted_sameRun a i _
  · rw [hgrants.slot_of_not_hasSlot (mt (hslots i).mp hi), happlied.outside i hi]

/-! ## MGR_RELOAD (R298) -/

theorem PauseBits.slot_of_hasSlot {bit : Bool} (h : PauseBits bit s t) (hi : s.hasSlot i) :
    t.slot i = { s.slot i with paused := bit } := (h.slot i).trans (if_pos hi)

theorem PauseBits.slot_of_not_hasSlot {bit : Bool} (h : PauseBits bit s t) (hi : ¬s.hasSlot i) :
    t.slot i = s.slot i := (h.slot i).trans (if_neg hi)

theorem PauseBits.sameRun {bit : Bool} (h : PauseBits bit s t) (i : Nat) : (s.slot i).SameRun (t.slot i) := by
  rw [h.slot]
  split <;> exact ⟨rfl, rfl, rfl, rfl, rfl⟩

/-- A partition is read off the slices, the totals and what the drivers need. -/
theorem PauseBits.partitioned {bit : Bool} (h : PauseBits bit s t) (hs : s.Partitioned) : t.Partitioned := by
  have hboard : t.board = s.board := by rw [h.frame]
  have hoffset : ∀ i, (t.slot i).offset = (s.slot i).offset := fun i => by rw [h.slot]; split <;> rfl
  have hlength : ∀ i, (t.slot i).length = (s.slot i).length := fun i => by rw [h.slot]; split <;> rfl
  have hslots : ∀ i, t.hasSlot i ↔ s.hasSlot i := fun i => by rw [State.hasSlot, hboard]; rfl
  have hbelow : ∀ i, t.grantedBelow i = s.grantedBelow i := fun i => by
    rw [State.grantedBelow, List.map_congr_left fun j _ => hlength j, ← State.grantedBelow]
  have hused : t.totalUsed = s.totalUsed := by rw [h.frame]
  have hcapacity : t.capacity = s.capacity := by rw [h.frame]
  refine ⟨fun i hi => ?_, fun i hi => ?_, ?_, ?_⟩
  · rw [hlength, drvNeededOf_congr hboard (h.sameRun i).variant (h.sameRun i).cfg, hboard, hbelow]
    exact hs.length i ((hslots i).mp hi)
  · rw [hoffset, hbelow]
    exact hs.offset i ((hslots i).mp hi)
  · rw [hused, hboard, hbelow]
    exact hs.used
  · rw [hcapacity, hused, State.slotIndices, hboard, List.map_congr_left fun j _ => hoffset j]
    exact hs.capacity

/-- Pausing the slots leaves what MGR_APPLY_CONFIG asks. -/
theorem PauseBits.configurable {bit : Bool} (h : PauseBits bit s t) (hs : s.Configurable) : t.Configurable := by
  have hboard : t.board = s.board := by rw [h.frame]
  refine ⟨(wellFormedParameters_congr hboard).trans hs.params, by rw [hboard]; exact hs.rates, fun i hi => ?_, ?_⟩
  · have hkind : (t.slot i).eng = (s.slot i).eng := by rw [h.slot]; split <;> rfl
    rw [hkind, (h.sameRun i).variant]
    exact hs.bound i (by rw [State.hasSlot, ← hboard]; exact hi)
  · refine anyTransmitting_eq_false.mpr fun i hi => ?_
    rw [DriverState.transmitting_congr (h.sameRun i).tstate]
    exact anyTransmitting_eq_false.mp hs.still i (by rw [State.hasSlot, ← hboard]; exact hi)

/-- The reload from the paused state: apply, partition, resume (R298). -/
theorem reloadNow_run (hs : s.Configurable) (doc : ConfigDoc) :
    ∃ q t, Rebound s doc q ∧ PauseBits s.userPaused { q with pending := none, reloadPaused := false } t ∧
      reloadNow doc s.slotIndices s = .ok () t := by
  obtain ⟨a, q, happly, -, hpartition, -, hrebound⟩ := applyPartition_run hs doc
  obtain ⟨t, hresume, hbits⟩ := forEach_drvResume_run { q with pending := none, reloadPaused := false }
  have hbit : State.pauseHeld { q with pending := none, reloadPaused := false } = s.userPaused := by
    rw [← hrebound.pauses]
    exact Bool.or_false _
  have hslots : State.slotIndices { q with pending := none, reloadPaused := false } = s.slotIndices := by
    rw [State.slotIndices, State.slotIndices, ← hrebound.writes.board]
  rw [hbit] at hbits
  rw [hslots] at hresume
  exact ⟨q, t, hrebound, hbits, (op_bind_ok happly).trans ((op_bind_ok hpartition).trans hresume)⟩

end rebound

/-- Settles O44: the pausing loop, then either nothing more or `reloadNow`, which ends with the pause bits at the user's
pause. -/
theorem reloadWaitsThenApplies : Obligations.ReloadWaitsThenApplies := by
  refine ⟨fun s hpending htransmit => ?waits, fun s doc hdoc hs => ?applies, fun s hpending => ?nothing⟩
  case nothing => exact runStep_guardStep_false (by rw [hpending]; rfl) _ _
  case waits =>
    obtain ⟨t, hbits, hwaits, -, -⟩ := mgrReload_run s
    refine ⟨t, ?_, hbits.frame, hbits.slot⟩
    exact (runStep_guardStep_true (Option.isSome_iff_ne_none.mpr hpending) _ _).trans (runStep_ok (hwaits htransmit))
  case applies =>
    obtain ⟨p, hpaused, -, -, happlies⟩ := mgrReload_run s
    have hp : p.Configurable := hpaused.configurable
      (s := { s with reloadPaused := true }) ⟨hs.params, hs.rates, hs.bound, hs.still⟩
    obtain ⟨q, t, hrebound, hresumed, hrun⟩ := reloadNow_run hp doc
    have hslots : p.slotIndices = s.slotIndices := by rw [hpaused.frame]; rfl
    have huser : p.userPaused = s.userPaused := by rw [hpaused.frame]
    rw [hslots] at hrun
    rw [huser] at hresumed
    have hwrites : ManagerWrites s t :=
      ((show ManagerWrites s { s with reloadPaused := true } from rfl).trans hpaused.frame.managerWrites).trans
        (hrebound.writes.trans ((show ManagerWrites q { q with pending := none, reloadPaused := false } from rfl).trans
          hresumed.frame.managerWrites))
    have hp' : ∀ i, p.hasSlot i ↔ s.hasSlot i := fun i => by rw [State.hasSlot, hpaused.frame]; rfl
    have ht' : ∀ i, State.hasSlot { q with pending := none, reloadPaused := false } i ↔ s.hasSlot i := fun i => by
      rw [← hp' i, State.hasSlot, State.hasSlot, ← hrebound.writes.board]
    have hpause : ∀ i, (s.slot i).SameRun (p.slot i) := hpaused.sameRun
    have hresolved : ∀ i, resolvedVariant p i doc = resolvedVariant s i doc := fun i =>
      resolvedVariant_congr (by rw [hpaused.frame]) (hpause i).variant (hpause i).cfg
    have hresume : ∀ i, (q.slot i).SameRun (t.slot i) := hresumed.sameRun
    refine ⟨t, ?_, by rw [hresumed.frame], by rw [hresumed.frame], ?_, hwrites.board, hwrites.begun, hwrites.renderPos,
      hwrites.faults, hwrites.refused, hwrites.now, ?_, hwrites.byte, fun i hi => ⟨?variant, ?paused, ?still⟩,
      fun i hi hv => ?replaced, fun i hi => ?outside⟩
    · exact (runStep_guardStep_true (by rw [hdoc]; rfl) _ _).trans
        (runStep_ok ((happlies doc hdoc hs.still).trans hrun))
    · rw [hresumed.frame, ← huser, ← hrebound.pauses]
    · exact hresumed.partitioned ⟨hrebound.partitioned.length, hrebound.partitioned.offset, hrebound.partitioned.used,
        hrebound.partitioned.capacity⟩
    case variant =>
      rw [(hresume i).variant, hrebound.variant ((hp' i).mpr hi), hresolved]
    case paused => rw [hresumed.slot_of_hasSlot ((ht' i).mpr hi)]
    case still =>
      rw [DriverState.transmitting_congr (hresume i).tstate]
      exact hrebound.transmitting ((hp' i).mpr hi) (anyTransmitting_eq_false.mp hp.still i ((hp' i).mpr hi))
    case replaced =>
      rw [← hresolved, ← (hpause i).variant] at hv
      exact (hrebound.atRest ((hp' i).mpr hi) hv).congr (hresume i).tstate (hresume i).frameStart
    case outside =>
      rw [hresumed.slot_of_not_hasSlot (mt (ht' i).mp hi)]
      exact (hrebound.outside i (mt (hp' i).mp hi)).trans (hpaused.slot_of_not_hasSlot hi)

end Sys2Proof.Machine
end

section
/-! SUPPORT. The render pass (R294): MGR_RENDER with and without a pending document, and the sub-step's three cases. -/

namespace Sys2Proof.Machine

/-! ## The sub-step -/

/-- A frame was started on slot `i`: it is counted, the engine drains, and no other slot and no byte of the buffer
changed (R193, R225). -/
structure RenderStarted (s : State) (i : Nat) (t : State) : Prop where
  board : t.board = s.board
  other : ∀ j, j ≠ i → t.slot j = s.slot j
  byte : ∀ a, t.byte a = s.byte a
  frameCount : (t.slot i).frameCount = (s.slot i).frameCount + 1
  draining : (t.slot i).draining = true

section substep

variable {s t : State} {i : Nat} {e : Engine}

theorem RenderStarted.of_onlyPulse {u : Nat} (h : s.onlyPulse t i u)
    (hcount : (t.slot i).frameCount = (s.slot i).frameCount + 1) (hdraining : (t.slot i).draining = true) :
    RenderStarted s i t := by
  obtain ⟨hframe, hother, -, hbyte⟩ := h
  exact ⟨by rw [hframe], hother, hbyte, hcount, hdraining⟩

theorem RenderStarted.of_onlySerial {u : Nat} (h : s.onlySerial t i u)
    (hcount : (t.slot i).frameCount = (s.slot i).frameCount + 1) (hdraining : (t.slot i).draining = true) :
    RenderStarted s i t := by
  obtain ⟨hframe, hother, -, hbyte⟩ := h
  exact ⟨by rw [hframe], hother, hbyte, hcount, hdraining⟩

theorem draining_of_tstate {d : DriverState} (he : d.eng = some e) (h : e.tstate = .draining) :
    d.draining = true := by
  rw [DriverState.draining, he]
  exact decide_eq_true h

theorem startFrame_startsPulse {q : PulseSeq} {l : PulseLatch} (h : s.pulseEngine i e q l) (hs : s.sliceReadable i)
    (hkind : engineKindOf (s.slot i).variant = some .pulse) :
    ∃ t, startFrame i s = .ok () t ∧ RenderStarted s i t := by
  obtain ⟨t, q', k, hrun, hst⟩ := peStartFrame_run h hs
  refine ⟨_, (startFrame_pulse hkind).trans hrun, .of_onlyPulse (onlyPulse_trans
    (onlyPulse_trans (onlyPulse_frameOpened s i e (some l)) hst.only)
    (onlyPulse_trans (onlyPulse_setSlot t i _ _) (onlyPulse_setPu _ i _ _))) ?_ ?_⟩
  · rw [setPu_slot, withEng_slot_same, hst.slot, frameOpened_slot]
    rfl
  · rw [setPu_slot, withEng_slot_same]
    exact draining_of_tstate rfl rfl

theorem startFrame_startsSerial {q : SerialSeq} {l : SerialLatch} (h : s.serialEngine i e q l) (hl : l.legal)
    (hs : s.sliceReadable i) (hkind : engineKindOf (s.slot i).variant = some .serial) :
    ∃ t, startFrame i s = .ok () t ∧ RenderStarted s i t := by
  obtain ⟨t, q', k, hrun, hst⟩ := seStartFrame_run h hl hs
  refine ⟨_, (startFrame_serial hkind).trans hrun, .of_onlySerial (onlySerial_trans
    (onlySerial_trans (onlySerial_serialOpened s i e (some l)) hst.only)
    (onlySerial_trans (onlySerial_setSlot t i _ _) (onlySerial_setSu _ i _ _))) ?_ ?_⟩
  · rw [setSu_slot, withEng_slot_same, hst.slot, serialOpened_slot]
    rfl
  · rw [setSu_slot, withEng_slot_same]
    exact draining_of_tstate rfl rfl

/-- A sub-step is the Render of its slot and the move to the next one (R294). -/
theorem renderSubstep_run {next : Option Nat} (hpos : s.renderPos = some i)
    (hnext : next = if i + 1 < s.board.numSlots then some (i + 1) else none) (h : drvRender i s = .ok () t)
    (hboard : t.board = s.board) : stepRenderSubstep s = .next { t with renderPos := next } := by
  rw [hnext, ← hboard]
  refine runStep_ok ?_
  rw [renderSubstep, op_bind_ok (getState_run s), hpos]
  exact op_bind_ok h

end substep

/-! ## MGR_RENDER with a pending document -/

section pending

variable {s t : State}

/-- What MGR_RENDER does after a reload that finished (R294). -/
theorem mgrRender_reloaded (hpending : s.pending ≠ none) (h : mgrReload s = .ok () t) :
    mgrRender s =
      .ok () (if t.pending ≠ none ∨ t.userPaused = true then t else { t with renderPos := some 0 }) := by
  have hopens : mgrRender s = (if t.pending ≠ none ∨ t.userPaused = true then pure ()
      else modState fun s => { s with renderPos := some 0 }) t := by
    rw [mgrRender, op_bind_ok (getState_run s), if_pos hpending]
    exact op_bind_ok h
  rw [hopens]
  split <;> rfl

theorem mgrRender_stopped {x : Exc} (hpending : s.pending ≠ none) (h : mgrReload s = .error x t) :
    mgrRender s = .error x t := by
  rw [mgrRender, op_bind_ok (getState_run s), if_pos hpending]
  exact op_bind_error h

theorem runStep_mgrRender_pending (hpending : s.pending ≠ none) (h : runStep s mgrReload = .next t) :
    runStep s mgrRender =
      .next (if t.pending ≠ none ∨ t.userPaused = true then t else { t with renderPos := some 0 }) := by
  obtain hok | hraised | ⟨r, u, hrefused, rfl⟩ := runStep_next h
  · exact runStep_ok (mgrRender_reloaded hpending hok)
  · have hends := mgrReload_ends s
    rw [hraised] at hends
    obtain ⟨-, hkept⟩ := hends
    rw [if_pos (.inl (by rw [hkept]; exact hpending))]
    exact runStep_raised (mgrRender_stopped hpending hraised)
  · rw [if_pos (.inl hpending)]
    exact runStep_refused (mgrRender_stopped hpending hrefused)

end pending

/-- Settles O42: the two halves of MGR_RENDER, and the sub-step as DRV_RENDER's cases followed by the move. A reload
that does not finish leaves the document pending, so the pass stays closed then too. -/
theorem renderPassVisitsSlotsInOrder : Obligations.RenderPassVisitsSlotsInOrder := by
  refine ⟨fun s hm hpending => ?opens, fun s t hm hpending h => ?reloads, fun s i hbegun hpos => ?busy,
    fun s hpos => ?closed, fun s i next hpos hnext => ⟨fun h => ?returns, fun e he hready hpaused h => ?drops,
      fun e he hready hpaused hts hdue hs hlatch => ?starts⟩⟩
  case opens => exact (runStep_mainLoop hm _ _).trans (runStep_ok (mgrRender_noPending hpending))
  case reloads =>
    have hreload : runStep s mgrReload = .next t :=
      (runStep_guardStep_true (Option.isSome_iff_ne_none.mpr hpending) _ _).symm.trans h
    exact (runStep_mainLoop hm _ _).trans (runStep_mgrRender_pending hpending hreload)
  case busy =>
    have hturn : admitTurn "MGR_RENDER" s = .error (.disabled "MGR_RENDER") s := by
      simp [admitTurn, hpos]
    exact (runStep_bind_ok (admitBegun_ok hbegun) _).trans (runStep_disabled (op_bind_error hturn))
  case closed =>
    refine runStep_disabled (t := s) ?_
    rw [renderSubstep, op_bind_ok (getState_run s), hpos]
    rfl
  case returns => exact renderSubstep_run hpos hnext (drvRender_returns h) rfl
  case drops => exact renderSubstep_run hpos hnext (drvRender_drops he hready hpaused h) rfl
  case starts =>
    obtain ⟨t, hrun, hstarted⟩ : ∃ t, startFrame i s = .ok () t ∧ RenderStarted s i t := by
      obtain ⟨q, l, hengine, hkind⟩ | ⟨q, l, hengine, hl, hkind⟩ := hlatch
      · exact startFrame_startsPulse hengine hs hkind
      · exact startFrame_startsSerial hengine hl hs hkind
    exact ⟨_, renderSubstep_run hpos hnext ((drvRender_starts he hready hpaused hts hdue).trans hrun) hstarted.board,
      rfl, hstarted.other, hstarted.byte, hstarted.frameCount, hstarted.draining⟩

end Sys2Proof.Machine
end

section
/-! SUPPORT. MGR_BEGIN (R290, R302, R372): the Ready Disabled drivers it starts from, the document it draws, and what
the default document leaves of them. -/

namespace Sys2Proof.Machine

/-- The driver MGR_BEGIN gives every slot before it applies a document (R290, R372). -/
def DriverState.readyDisabled : DriverState := { DriverState.powerOn with status := .ready }

theorem readyDisabled_atRest : DriverState.readyDisabled.AtRest := nofun

/-! ## The Disabled drivers -/

section starting

variable {s r t : State} {i : Nat}

theorem initSlot_run (hlegal : legalAt s.board i .disabled = true) (hslot : s.slot i = .powerOn)
    (hpause : s.pauseHeld = false) :
    ∃ t, initSlot i s = .ok () t ∧ SlotsOnly s t ∧ (∀ j, j ≠ i → t.slot j = s.slot j) ∧
      t.slot i = .readyDisabled := by
  have hconstruct := drvConstruct_ok (s := s) (i := i) (v := .disabled) (eng := none) (by rw [hslot]; rfl) hlegal nofun
    rfl
  have hbuilt := setSlot_slot_same s i (newDriver s.board .disabled s.pauseHeld none)
  rw [hpause] at hconstruct hbuilt
  have hother := fun j hj => setSlot_slot_other s i (j := j) (newDriver s.board .disabled false none) hj
  have hwrites : SlotsOnly s (s.setSlot i (newDriver s.board .disabled false none)) := rfl
  generalize s.setSlot i (newDriver s.board .disabled false none) = u at hconstruct hbuilt hother hwrites
  have hbegin := drvBegin_other (s := u) (i := i) (by rw [hbuilt]; rfl) (by rw [hbuilt]; nofun) (by rw [hbuilt]; rfl)
  refine ⟨_, (op_bind_ok hconstruct).trans hbegin, hwrites.trans rfl, fun j hj => ?_, ?_⟩
  · rw [setSlot_slot_other u i _ hj, hother j hj]
  · rw [setSlot_slot_same, hbuilt]
    rfl

theorem initLoop :
    SlotLoop SlotsOnly
      (fun s i => legalAt s.board i .disabled = true ∧ s.slot i = .powerOn ∧ s.pauseHeld = false)
      (fun _ _ d => d = .readyDisabled) initSlot where
  refl _ := rfl
  trans := SlotsOnly.trans
  good hframe hslot := fun ⟨hlegal, hpower, hpause⟩ =>
    ⟨by rw [hframe]; exact hlegal, hslot.trans hpower, hframe.pauseHeld.trans hpause⟩
  done _ _ := id
  run := fun ⟨hlegal, hpower, hpause⟩ => initSlot_run hlegal hpower hpause

/-! ## The document -/

theorem drawPersistLoad_frame {answer : Option ConfigDoc} (h : drawPersistLoad s = .ok answer r) :
    r = { s with loadAnswers := r.loadAnswers, drawCount := r.drawCount } := by
  unfold drawPersistLoad at h
  split at h <;> (cases h; rfl)

/-- The draw does not depend on the slots (R8). -/
theorem drawPersistLoad_slots {answer : Option ConfigDoc} (h : drawPersistLoad s = .ok answer r) (ht : SlotsOnly s t) :
    drawPersistLoad t = .ok answer { r with slots := t.slots } := by
  rw [ht]
  unfold drawPersistLoad at h ⊢
  cases hload : s.loadAnswers <;> (rw [hload] at h; cases h; rfl)

/-- The document a draw of PersistLoad gives MGR_BEGIN (R290). -/
def startDoc (b : Board) (answer : Option ConfigDoc) : ConfigDoc := answer.getD (defaultDoc b)

/-- What MGR_BEGIN persists after a draw of PersistLoad (R290). -/
def startPersisted (s : State) (answer : Option ConfigDoc) : Option ConfigDoc :=
  match answer with
  | some _ => s.persisted
  | none => some (defaultDoc s.board)

/-- What stands when MGR_BEGIN applies its document: Ready Disabled drivers, and the document persisted if it is the
default one (R290, R372). -/
structure ReadyToApply (s : State) (answer : Option ConfigDoc) (t : State) : Prop where
  writes : ManagerWrites s t
  diag : t.diag = s.diag
  persisted : t.persisted = startPersisted s answer
  slot : ∀ i, s.hasSlot i → t.slot i = .readyDisabled

theorem loadDoc_none (h : drawPersistLoad s = .ok none r) :
    loadDoc s = .ok (defaultDoc r.board) { r with persisted := some (defaultDoc r.board) } :=
  (op_bind_ok h).trans rfl

theorem loadDoc_run {answer : Option ConfigDoc} (hdraw : drawPersistLoad s = .ok answer r) (ht : SlotsOnly s t)
    (hready : ∀ i, s.hasSlot i → t.slot i = .readyDisabled) :
    ∃ u, loadDoc t = .ok (startDoc s.board answer) u ∧ ReadyToApply s answer u := by
  have hdraw' := drawPersistLoad_slots hdraw ht
  have hr := drawPersistLoad_frame hdraw
  have hboard : r.board = s.board := by rw [hr]
  have hdiag : r.diag = s.diag := by rw [hr]
  have hwrites : ManagerWrites s { r with slots := t.slots } := by rw [hr]; rfl
  cases answer with
  | some doc =>
    refine ⟨_, (op_bind_ok hdraw').trans rfl, hwrites, hdiag, ?_, hready⟩
    rw [hr]; rfl
  | none =>
    have hrun := loadDoc_none hdraw'
    rw [show ({ r with slots := t.slots } : State).board = s.board from hboard] at hrun
    exact ⟨_, hrun, ⟨by rw [hr]; rfl, hdiag, rfl, hready⟩⟩

end starting

/-- A block of Ready Disabled drivers meets what MGR_APPLY_CONFIG asks. -/
theorem ReadyToApply.configurable {s t : State} {answer : Option ConfigDoc} (h : ReadyToApply s answer t)
    (hparams : s.wellFormedParameters = true) (hrates : baudRatesOk s.board = true) : t.Configurable := by
  have hboard := h.writes.board
  have hslot : ∀ i, t.hasSlot i → t.slot i = .readyDisabled := fun i hi =>
    h.slot i (by rw [State.hasSlot, ← hboard]; exact hi)
  refine ⟨(wellFormedParameters_congr hboard).trans hparams, by rw [hboard]; exact hrates, fun i hi => ?_, ?_⟩
  · rw [hslot i hi]; rfl
  · exact anyTransmitting_eq_false.mpr fun i hi => by rw [hslot i hi]; rfl

/-! ## The default document (R302) -/

section defaultDocument

variable {s t : State} {i : Nat}

theorem mapGet_map_range {α : Type} (f : Nat → α) {n i : Nat} (hi : i < n) :
    mapGet ((List.range n).map fun i => (i, f i)) i = some (f i) := by
  have hmem : ∀ {xs : List Nat}, i ∈ xs → mapGet (xs.map fun i => (i, f i)) i = some (f i) := fun {xs} h => by
    induction xs with
    | nil => cases h
    | cons k rest ih =>
      rw [List.map_cons, mapGet_cons]
      by_cases hk : k = i
      · rw [if_pos hk, hk]
      · rw [if_neg hk, ih ((List.mem_cons.mp h).resolve_left (Ne.symm hk))]
  exact hmem (List.mem_range.mpr hi)

theorem variantOfCode_disabled (b : Board) : variantOfCode b (b.protocolCode.at .disabled) = some .disabled := by
  simp [variantOfCode, allVariants]

theorem resolve_defaultDoc (hi : s.hasSlot i) (hlegal : legalAt s.board i .disabled = true) :
    resolve s i (defaultDoc s.board) = .bind .disabled [] := by
  rw [resolve_entry rfl (mapGet_map_range _ hi),
    resolveEntry_known rfl (by rw [mapGet_cons, if_pos rfl]) (variantOfCode_disabled s.board)]
  have hparams : paramsOk s i .disabled [] = true := paramsOk_other rfl
  simp [hlegal, hparams]

/-- The default document changes no Disabled driver. -/
theorem applySlot_defaultDoc (hi : s.hasSlot i) (hlegal : legalAt s.board i .disabled = true)
    (hslot : s.slot i = .readyDisabled) : applySlot (defaultDoc s.board) i s = .ok () s := by
  have hres := resolve_defaultDoc hi hlegal
  rw [applySlot_run, State.resolveLogged, resolvedVariant, hres, hslot]
  exact drvSetConfig_disabled (by rw [hslot]; rfl) (by rw [hslot]; rfl)

theorem forEach_unchanged {f : Nat → Op Unit} : ∀ {xs : List Nat}, (∀ i ∈ xs, f i s = .ok () s) →
    forEach f xs s = .ok () s
  | [], _ => rfl
  | k :: _, h => (op_bind_ok (h k List.mem_cons_self)).trans (forEach_unchanged fun i hi =>
    h i (List.mem_cons_of_mem k hi))

theorem mgrApplyConfig_defaultDoc (hlegal : legalTableOk s = true)
    (hslot : ∀ i, s.hasSlot i → s.slot i = .readyDisabled) : mgrApplyConfig (defaultDoc s.board) s = .ok () s :=
  forEach_unchanged fun i hi =>
    have hi : s.hasSlot i := List.mem_range.mp hi
    applySlot_defaultDoc hi (legalTableOk_slot hlegal hi).1 (hslot i hi)

/-- A partition grants Disabled drivers nothing. -/
theorem PartitionOf.of_readyDisabled (h : PartitionOf s t) (hslot : ∀ i, s.hasSlot i → s.slot i = .readyDisabled) :
    t.totalUsed = 0 ∧ t.diag = s.diag ∧ ∀ i, s.hasSlot i → t.slot i = .readyDisabled := by
  have hneed : ∀ i, s.hasSlot i → drvNeededOf s i = 0 := fun i hi => by rw [drvNeededOf, hslot i hi]; rfl
  have htotal : s.neededTotal = 0 := by
    refine List.sum_eq_zero fun n hn => ?_
    obtain ⟨i, hi, rfl⟩ := List.mem_map.mp hn
    exact hneed i (List.mem_range.mp hi)
  have hused : t.totalUsed = 0 := by rw [h.total, htotal]; exact Nat.zero_min _
  refine ⟨hused, ?_, fun i hi => ?_⟩
  · rw [h.log, List.flatMap_eq_nil_iff.mpr fun i hi => ?_, List.append_nil]
    rw [shortfall, hneed i (List.mem_range.mp hi)]
    rfl
  · have hbelow : t.grantedBelow i = 0 := by
      have hle := grantedBelow_mono t (show i ≤ s.board.numSlots from Nat.le_of_lt hi)
      rw [← h.used, hused] at hle
      exact Nat.le_zero.mp hle
    rw [h.slot_of_hasSlot hi, hbelow, State.granted, hneed i hi, hslot i hi, Nat.zero_min]
    rfl

end defaultDocument

/-! ## MGR_BEGIN -/

/-- Every state before the document is applied, and the last one. -/
theorem mgrBegin_run {s r : State} {answer : Option ConfigDoc} (hbegun : s.begun = false)
    (hparams : s.wellFormedParameters = true) (hpower : ∀ i, s.hasSlot i → s.slot i = DriverState.powerOn)
    (hpause : s.pauseHeld = false) (hrates : baudRatesOk s.board = true) (hdraw : drawPersistLoad s = .ok answer r) :
    ∃ v a q, ReadyToApply s answer v ∧ mgrApplyConfig (startDoc s.board answer) v = .ok () a ∧ PartitionOf a q ∧
      Rebound v (startDoc s.board answer) q ∧ mgrBegin s = .ok () { q with begun := true } := by
  obtain ⟨hlegal, -, -⟩ := wellFormedParameters_parts hparams
  obtain ⟨u, hinit, hslots, hready, -⟩ := initLoop.allSlots_run fun i hi =>
    ⟨(legalTableOk_slot hlegal hi).1, hpower i hi, hpause⟩
  obtain ⟨v, hload, hv⟩ := loadDoc_run hdraw hslots hready
  obtain ⟨a, q, happly, -, hpartition, hgrants, hrebound⟩ :=
    applyPartition_run (hv.configurable hparams hrates) (startDoc s.board answer)
  refine ⟨v, a, q, hv, happly, hgrants, hrebound, ?_⟩
  rw [mgrBegin, op_bind_ok (getState_run s), hbegun, hparams]
  exact (op_bind_ok hinit).trans ((op_bind_ok hload).trans ((op_bind_ok happly).trans (op_bind_ok hpartition)))

/-- A driver bound from a Disabled one has an engine at rest, and is Ready or an encoder's. -/
theorem Applied.started {v : State} {doc : ConfigDoc} {i : Nat} {d : DriverState} (h : Applied v doc i d)
    (hv : v.slot i = .readyDisabled) :
    d.AtRest ∧ (d.status = .ready ∨ d.status = .failed ∧ isEncoder d.variant = true) := by
  by_cases hkeeps : resolvedVariant v i doc = (v.slot i).variant
  · have hkept := h.kept hkeeps
    rw [hv] at hkept
    exact ⟨hkept.toGoesOn.atRest readyDisabled_atRest, .inl hkept.status⟩
  · have hfresh := h.replaced hkeeps
    exact ⟨hfresh.atRest, hfresh.status⟩

theorem mgrBegin_refuses {s : State} (hbegun : s.begun = false) (h : s.wellFormedParameters = false) :
    mgrBegin s = .error (.refused .illFormedParameter) s := by
  rw [mgrBegin, op_bind_ok (getState_run s), hbegun, h]
  rfl

/-- Constants outside R150, R190 or R220 are ill-formed parameters (R290). -/
theorem wellFormedParameters_of_constants {s : State}
    (h : (∃ v pc, pulseConstantsOf s.board v = some pc ∧ pulseConstantsOk s.board.durationMax pc = false) ∨
      ∃ v pc, serialConstantsOf s.board v = some pc ∧
        (serialTimingOk pc.G pc.S pc.H0 pc.H1 = false ∨ pc.bitPeriodNs = 0)) :
    s.wellFormedParameters = false := by
  rw [← Bool.not_eq_true]
  intro hgood
  obtain ⟨-, hconstants, -⟩ := wellFormedParameters_parts hgood
  obtain ⟨v, pc, hpc, hbad⟩ | ⟨v, pc, hpc, hbad⟩ := h
  · obtain ⟨pc', hpc', hok⟩ := pulseConstants_good hconstants (engineKindOf_pulseConstants hpc)
    cases hpc.symm.trans hpc'
    cases hbad.symm.trans hok
  · have hok := serialConstants_legal hconstants hpc
    simp only [serialConstantsLegal, Bool.and_eq_true, decide_eq_true_eq] at hok
    obtain ⟨htiming, hperiod⟩ := hok
    obtain hbad | hbad := hbad
    · cases hbad.symm.trans htiming
    · omega

/-- Settles O41: Ready Disabled drivers, the drawn or default document, then the application and partition of
`applyPartition_run`. The default document resolves to Disabled for every slot, so nothing moves under it. -/
theorem beginBindsEverySlot : Obligations.BeginBindsEverySlot := by
  refine ⟨fun s r answer hbegun hpos hparams hrates hpower huser hreload hdraw => ?begins,
    fun s hbegun hpos => ?again, fun s hbegun hpos hbad => ?refused⟩
  case again =>
    refine (runStep_bind_ok (admitTurn_ok hpos) _).trans (runStep_ok ?_)
    rw [mgrBegin, op_bind_ok (getState_run s), hbegun]
    rfl
  case refused =>
    have hparams : s.wellFormedParameters = false := hbad.elim id wellFormedParameters_of_constants
    exact (runStep_bind_ok (admitTurn_ok hpos) _).trans (runStep_refused (mgrBegin_refuses hbegun hparams))
  case begins =>
    have hpause : s.pauseHeld = false := by rw [State.pauseHeld, huser, hreload]; rfl
    obtain ⟨v, a, q, hv, happly, hgrants, hrebound, hrun⟩ :=
      mgrBegin_run hbegun hparams hpower hpause hrates hdraw
    have hwrites := hv.writes.trans hrebound.writes
    have hslots : ∀ i, s.hasSlot i → v.hasSlot i := fun i hi => by rw [State.hasSlot, hv.writes.board]; exact hi
    have hstarted : ∀ i, s.hasSlot i → (q.slot i).AtRest ∧
        ((q.slot i).status = .ready ∨ (q.slot i).status = .failed ∧ isEncoder (q.slot i).variant = true) :=
      fun i hi => by
        obtain ⟨d, happlied, hsame⟩ := hrebound.slot i (hslots i hi)
        obtain ⟨hrest, hstatus⟩ := happlied.started (hv.slot i hi)
        rw [hsame.status, hsame.variant]
        exact ⟨hrest.congr hsame.tstate hsame.frameStart, hstatus⟩
    refine ⟨{ q with begun := true }, (runStep_bind_ok (admitTurn_ok hpos) _).trans (runStep_ok hrun), rfl,
      hwrites.board, hwrites.faults, hwrites.refused, ?partitioned, hwrites.byte, fun i e hi => (hstarted i hi).1 e,
      fun i hi henc => ?ready, fun i hi _ => (hstarted i hi).2.imp_right And.left, fun doc hdoc => ?loaded,
      fun hnone => ?failed⟩
    case partitioned =>
      obtain ⟨hlength, hoffset, hused, hcapacity⟩ := hrebound.partitioned
      exact ⟨hlength, hoffset, hused, hcapacity⟩
    case ready => exact (hstarted i hi).2.resolve_right fun h => by cases henc.symm.trans h.2
    case loaded =>
      subst hdoc
      refine ⟨hrebound.persisted.trans hv.persisted, fun i hi => (hrebound.variant (hslots i hi)).trans ?_⟩
      exact resolvedVariant_congr hv.writes.board (by rw [hv.slot i hi, hpower i hi]; rfl)
        (by rw [hv.slot i hi, hpower i hi]; rfl)
    case failed =>
      subst hnone
      have hready : ∀ i, v.hasSlot i → v.slot i = .readyDisabled := fun i hi =>
        hv.slot i (by rw [State.hasSlot, ← hv.writes.board]; exact hi)
      obtain ⟨hlegal, -, -⟩ := wellFormedParameters_parts ((wellFormedParameters_congr hv.writes.board).trans hparams)
      have hnothing := mgrApplyConfig_defaultDoc hlegal hready
      rw [hv.writes.board] at hnothing
      cases happly.symm.trans hnothing
      obtain ⟨hused, hdiag, hslot⟩ := hgrants.of_readyDisabled hready
      exact ⟨hrebound.persisted.trans hv.persisted, hused, hdiag.trans hv.diag, fun i hi => hslot i (hslots i hi)⟩

end Sys2Proof.Machine
end

section
/-! SUPPORT. The refusal mark: no write of a step touches it (R57), so a step that changes it was refused and leaves
everything else as it found it (R337). -/

namespace Sys2Proof.Machine

theorem Wrote.refused {s t : State} (h : Wrote s t) : t.refused = s.refused := by
  induction h with
  | refl s => rfl
  | trans _ _ ih ih' => exact ih'.trans ih
  | slot h => rw [h.frame]
  | record h => rw [h.frame]
  | pu s u p _ _ => exact setPu_refused s u p
  | su s u p _ _ => exact setSu_refused s u p

theorem stepWrite.refused {s t : State} (h : stepWrite s t) : t.refused = s.refused := by
  rcases h with h | ⟨i, h⟩
  · exact h.refused
  · rw [ownWrite_frame h]

/-- A step keeps the refusal mark, or is refused: then it sets the mark and takes its move off the schedule, and
writes nothing else (R337). -/
theorem step_keeps_refused_or_refuses {s t : State} (h : step s = .next t) :
    t.refused = s.refused ∨ ∃ moves r, t = { s with schedule := moves, refused := some r } := by
  obtain ⟨moves, ha⟩ := step_answers s
  rw [h] at ha
  rcases ha with ⟨u, hw, ht⟩ | ⟨r, ht⟩
  · have hu := stepWrite.refused hw
    rcases ht with rfl | ⟨f, rfl⟩
    · exact .inl hu
    · exact .inl ((addFault_refused u f).trans hu)
  · exact .inr ⟨moves, r, ht⟩

/-- Settles O56: a step that does not keep the mark is refused, and a refusal writes only the mark and the schedule. -/
theorem refusalChangesOnlyTheMark : Obligations.RefusalChangesOnlyTheMark := by
  intro s t h
  rcases step_keeps_refused_or_refuses h with hkept | ⟨moves, r, rfl⟩
  · exact ⟨fun hne => absurd hkept hne, fun hset => hkept ▸ hset⟩
  · exact ⟨fun _ => rfl, fun _ => Option.some_ne_none r⟩

end Sys2Proof.Machine
end

section
/-! SUPPORT. Power-on (R370): how its tables read, and that it meets every invariant whatever the board and the
draws. -/

namespace Sys2Proof.Machine

section powerOn

variable {b : Board} {d : PowerOnDraws}

@[simp] theorem powerOn_slot (i : Nat) : (State.powerOn b d).slot i = .powerOn := rfl

@[simp] theorem powerOn_pu (u : Nat) : (State.powerOn b d).pu u = .powerOn (decide (u ∈ d.pulseHigh)) := by
  refine ((tableOf_ids (PulseUnit.powerOn false) (.powerOn true) (by decide) d.pulseHigh).2 u).trans ?_
  split <;> simp [*]

@[simp] theorem powerOn_su (u : Nat) : (State.powerOn b d).su u = .powerOn (decide (u ∈ d.serialHigh)) := by
  refine ((tableOf_ids (SerialUnit.powerOn false) (.powerOn true) (by decide) d.serialHigh).2 u).trans ?_
  split <;> simp [*]

theorem powerOn_byte {a : Nat} (h : a < b.totalBufferSize) : (State.powerOn b d).byte a = d.buf.getD a 0 :=
  (tableGet_drawnCells _ _ a).trans (if_pos h)

theorem powerOn_now_lt : (State.powerOn b d).now < (State.powerOn b d).timeModulus :=
  Nat.mod_lt _ (Nat.two_pow_pos _)

theorem powerOn_canonical : (State.powerOn b d).canonical :=
  ⟨Memory.wf_drawnCells _ _, rfl, (tableOf_ids _ _ (by decide) d.pulseHigh).1,
    (tableOf_ids _ _ (by decide) d.serialHigh).1⟩

theorem powerOn_bounded : (State.powerOn b d).Bounded where
  ring u := by rw [powerOn_pu]; exact Nat.zero_le _
  fifo u := by rw [powerOn_su]; exact Nat.zero_le _
  now := powerOn_now_lt
  slice _ := Nat.zero_le _
  used := Nat.zero_le _
  faults := List.nodup_nil

theorem powerOn_bound : (State.powerOn b d).Bound where
  kind _ := rfl
  unit _ _ := nofun
  cfg _ := nofun
  latch _ _ _ _ := nofun
  render _ := nofun
  begun := nofun

theorem powerOn_pauseLaw : (State.powerOn b d).pauseLaw := fun _ _ => rfl

theorem powerOn_quiescent : (State.powerOn b d).Quiescent where
  pulse i u _ _ := by
    show ((State.powerOn b d).pu u).atRest
    rw [powerOn_pu]
    exact ⟨rfl, rfl, rfl, rfl⟩
  serial i u _ _ := by
    show ((State.powerOn b d).su u).atRest
    rw [powerOn_su]
    exact ⟨rfl, rfl, rfl, rfl⟩

theorem powerOn_fed : (State.powerOn b d).Fed := fun _ _ _ => nofun

end powerOn

/-- Settles O8: the plain fields are as `State.powerOn` writes them, and the tables read as they were drawn. -/
theorem powerOnSetsTheSpecValues : Obligations.PowerOnSetsTheSpecValues := by
  refine ⟨fun b d => ?values, fun b n xs hn => ?drawn⟩
  case values =>
    exact ⟨rfl, rfl, rfl, rfl, rfl, rfl, rfl, rfl, rfl, rfl, rfl, rfl, rfl, powerOn_now_lt, fun _ => powerOn_byte,
      powerOn_slot, powerOn_pu, powerOn_su⟩
  case drawn =>
    exact ⟨⟨n, xs, [], []⟩, Nat.mod_eq_of_lt hn, fun _ => powerOn_byte⟩

/-- The example board's parameters are well-formed (R7, R290). -/
theorem reset_wellFormedParameters : State.reset.wellFormedParameters = true := by decide +kernel

/-- Settles O9: at power-on no slot has an engine and every unit is at rest, and the reset state is the power-on state
of the example board. -/
theorem resetMeetsTheInvariants : Obligations.ResetMeetsTheInvariants :=
  ⟨fun _ _ => ⟨powerOn_canonical, powerOn_bounded, powerOn_bound, powerOn_pauseLaw, powerOn_quiescent, powerOn_fed⟩,
    powerOn_canonical, powerOn_bounded, powerOn_bound, powerOn_pauseLaw, powerOn_quiescent, powerOn_fed,
    reset_wellFormedParameters, by decide⟩

end Sys2Proof.Machine
end

section
/-! SUPPORT. The frame of a Draining engine (R380, R381, R382, R389): what is protected of the engine and its driver,
and the shared operations, the sequencers and the fills, under all of which a slot's frame sends on. -/

namespace Sys2Proof.Machine

variable {α β : Type} {i : Nat}

/-! ## What is protected -/

/-- The latched parameters, of either kind of engine (R45, R46). -/
def Engine.latches (e : Engine) : Option PulseLatch ⊕ Option SerialLatch :=
  match e.core with
  | .pulse _ l => .inl l
  | .serial _ l => .inr l

theorem sameLatch_iff {e e' : Engine} : e.sameLatch e' ↔ e.latches = e'.latches := by
  unfold Engine.sameLatch Engine.latches
  cases e.core <;> cases e'.core <;> simp

theorem latches_of_core {e e' : Engine} (h : e'.core = e.core) : e'.latches = e.latches := by
  rw [Engine.latches, h, Engine.latches]

theorem latches_withPulseSeq (e : Engine) (q : PulseSeq) : (e.withPulseSeq q).latches = e.latches := by
  cases hc : e.core <;> simp [Engine.withPulseSeq, Engine.latches, hc]

theorem latches_withSerialSeq (e : Engine) (q : SerialSeq) : (e.withSerialSeq q).latches = e.latches := by
  cases hc : e.core <;> simp [Engine.withSerialSeq, Engine.latches, hc]

/-- The engine sends the same frame: the latched parameters, the unit and the frame start are as before. -/
structure Engine.SameFrame (e e' : Engine) : Prop where
  latches : e'.latches = e.latches
  unit : e'.unit = e.unit
  frameStart : e'.frameStart = e.frameStart

/-- The engine sends the same frame, and is in the same transmission state. -/
structure Engine.SendsOn (e e' : Engine) : Prop extends e.SameFrame e' where
  tstate : e'.tstate = e.tstate

/-- The driver has the variant, the status, the configuration and the slice of `d`, and an engine as `R` says. -/
structure DriverState.KeptBy (R : Engine → Engine → Prop) (d d' : DriverState) : Prop where
  variant : d'.variant = d.variant
  status : d'.status = d.status
  cfg : d'.cfg = d.cfg
  offset : d'.offset = d.offset
  length : d'.length = d.length
  eng : ∀ e, d.eng = some e → ∃ e', d'.eng = some e' ∧ R e e'

/-- The driver's frame is the same. -/
abbrev DriverState.SameFrame (d d' : DriverState) : Prop := d.KeptBy Engine.SameFrame d'

/-- The driver's frame is the same, and the engine is in the same transmission state. -/
abbrev DriverState.SendsOn (d d' : DriverState) : Prop := d.KeptBy Engine.SendsOn d'

theorem Engine.SameFrame.trans {e e' e'' : Engine} (h : e.SameFrame e') (h' : e'.SameFrame e'') : e.SameFrame e'' where
  latches := h'.latches.trans h.latches
  unit := h'.unit.trans h.unit
  frameStart := h'.frameStart.trans h.frameStart

theorem Engine.SendsOn.trans {e e' e'' : Engine} (h : e.SendsOn e') (h' : e'.SendsOn e'') : e.SendsOn e'' :=
  ⟨h.toSameFrame.trans h'.toSameFrame, h'.tstate.trans h.tstate⟩

/-- An update of what a frame does not need of its engine. -/
theorem Engine.SendsOn.of_core {e e' : Engine} (hc : e'.core = e.core) (hu : e'.unit = e.unit)
    (hf : e'.frameStart = e.frameStart) (ht : e'.tstate = e.tstate) : e.SendsOn e' :=
  ⟨⟨latches_of_core hc, hu, hf⟩, ht⟩

theorem Engine.SendsOn.refl (e : Engine) : e.SendsOn e := .of_core rfl rfl rfl rfl

theorem withPulseSeq_sendsOn (e : Engine) (q : PulseSeq) : e.SendsOn (e.withPulseSeq q) := by
  refine ⟨⟨latches_withPulseSeq e q, ?_, ?_⟩, ?_⟩ <;> (unfold Engine.withPulseSeq; split <;> rfl)

theorem withSerialSeq_sendsOn (e : Engine) (q : SerialSeq) : e.SendsOn (e.withSerialSeq q) := by
  refine ⟨⟨latches_withSerialSeq e q, ?_, ?_⟩, ?_⟩ <;> (unfold Engine.withSerialSeq; split <;> rfl)

/-- The writes of a frame's end (R196, R228) are none to the frame. -/
theorem ended_sameFrame (e : Engine) : e.SameFrame e.ended := ⟨latches_of_core rfl, rfl, rfl⟩

theorem tstate_of_draining {d : DriverState} {e : Engine} (h : d.draining = true) (he : d.eng = some e) :
    e.tstate = .draining := by simpa [DriverState.draining, he] using h

theorem transmitting_of_draining {d : DriverState} (h : d.draining = true) : d.transmitting = true := by
  cases ht : d.transmitting with
  | true => rfl
  | false => rw [DriverState.draining_eq_false ht] at h; exact h

namespace DriverState.KeptBy

variable {R : Engine → Engine → Prop} {d d' d'' : DriverState}

theorem trans (hR : ∀ {e e' e''}, R e e' → R e' e'' → R e e'') (h : d.KeptBy R d') (h' : d'.KeptBy R d'') :
    d.KeptBy R d'' where
  variant := h'.variant.trans h.variant
  status := h'.status.trans h.status
  cfg := h'.cfg.trans h.cfg
  offset := h'.offset.trans h.offset
  length := h'.length.trans h.length
  eng e he := by
    obtain ⟨e', he', hee'⟩ := h.eng e he
    obtain ⟨e'', he'', hee''⟩ := h'.eng e' he'
    exact ⟨e'', he'', hR hee' hee''⟩

/-- An update of the engine, and of what a frame does not need of its driver. -/
theorem of_map {f : Engine → Engine} (hf : ∀ e, R e (f e)) (hv : d'.variant = d.variant) (hs : d'.status = d.status)
    (hc : d'.cfg = d.cfg) (ho : d'.offset = d.offset) (hl : d'.length = d.length) (he : d'.eng = d.eng.map f) :
    d.KeptBy R d' :=
  ⟨hv, hs, hc, ho, hl, fun e h => ⟨f e, by rw [he, h]; rfl, hf e⟩⟩

theorem mapEng {f : Engine → Engine} (hf : ∀ e, R e (f e)) (d : DriverState) : d.KeptBy R (d.mapEng f) :=
  of_map hf rfl rfl rfl rfl rfl rfl

end DriverState.KeptBy

/-- An update of a driver's own records. -/
theorem DriverState.SendsOn.of_records (d : DriverState) (paused : Bool) (dropped : Counter) :
    d.SendsOn { d with paused := paused, droppedCount := dropped } :=
  ⟨rfl, rfl, rfl, rfl, rfl, fun e he => ⟨e, he, .refl e⟩⟩

theorem DriverState.SendsOn.refl (d : DriverState) : d.SendsOn d := .of_records d d.paused d.droppedCount

theorem DriverState.SendsOn.trans {d d' d'' : DriverState} (h : d.SendsOn d') (h' : d'.SendsOn d'') : d.SendsOn d'' :=
  KeptBy.trans (fun h h' => h.trans h') h h'

theorem DriverState.SendsOn.sameFrame {d d' : DriverState} (h : d.SendsOn d') : d.SameFrame d' :=
  { h with eng := fun e he => let ⟨e', he', hR⟩ := h.eng e he; ⟨e', he', hR.toSameFrame⟩ }

theorem DriverState.SameFrame.refl (d : DriverState) : d.SameFrame d := DriverState.SendsOn.sameFrame (.refl d)

theorem DriverState.SameFrame.after {d d' d'' : DriverState} (h' : d'.SameFrame d'') (h : d.SendsOn d') :
    d.SameFrame d'' := h.sameFrame.trans (fun h h' => h.trans h') h'

theorem DriverState.SendsOn.draining {d d' : DriverState} (h : d.SendsOn d') (hd : d.draining = true) :
    d'.draining = true := by
  cases he : d.eng with
  | none => simp [DriverState.draining, he] at hd
  | some e =>
    obtain ⟨e', he', hsend⟩ := h.eng e he
    simp [DriverState.draining, he', hsend.tstate, tstate_of_draining hd he]

/-! ## Operations under which the frame sends on -/

/-- Where slot `i`'s engine is Draining, its frame sends on when the operation finishes, and is the same when it
faults. -/
def Op.SendsOn (i : Nat) (x : Op α) : Prop :=
  ∀ s, (s.slot i).draining = true →
    Ends (fun _ t => (s.slot i).SendsOn (t.slot i)) (fun t => (s.slot i).SameFrame (t.slot i)) True (x s)

theorem Op.SendsOn.bind {x : Op α} {f : α → Op β} (hx : x.SendsOn i) (hf : ∀ a, (f a).SendsOn i) :
    (x >>= f).SendsOn i := fun s hs => (hx s hs).bind fun a t ht =>
  (hf a t (ht.draining hs)).mono (fun _ _ h => DriverState.SendsOn.trans ht h) (fun _ h => h.after ht) id

theorem Op.SendsOn.ite {c : Prop} [Decidable c] {x y : Op α} (hx : x.SendsOn i) (hy : y.SendsOn i) :
    (if c then x else y).SendsOn i := by split <;> assumption

theorem Op.Reads.sendsOn {P : State → Prop} {x : Op α} (h : x.Reads P) : x.SendsOn i := fun s _ =>
  (h s).mono (fun _ _ ht => ht ▸ .refl _) (fun _ => False.elim) fun _ => trivial

/-- After an operation that only reads. -/
theorem Op.Reads.seqSendsOn {x : Op α} {f : α → Op β} (hx : x.Reads fun _ => True) (hf : ∀ a, (f a).SendsOn i) :
    (x >>= f).SendsOn i := hx.sendsOn.bind hf

theorem pure_sendsOn (a : α) : (pure a : Op α).SendsOn i := (pure_reads (P := fun _ => True) a).sendsOn

theorem raise_sendsOn (f : FaultRecord) : (raise f : Op α).SendsOn i := fun s _ => by
  simp only [raise_run, Ends, addFault_slot]
  exact .refl _

theorem raiseIf_sendsOn (c : Bool) (f : FaultRecord) : (raiseIf c f).SendsOn i :=
  .ite (raise_sendsOn f) (pure_sendsOn ())

theorem entryOf_sendsOn (xs : List α) (k : Nat) : (entryOf xs k).SendsOn i := fun s _ =>
  (entryOf_ends xs k s).mono (fun _ _ ht => ht ▸ .refl _) (fun _ => id) fun _ => trivial

theorem bufRead_sendsOn (a : Nat) : (bufRead a).SendsOn i := fun s hs => by
  rw [bufRead_run]
  split
  · exact raise_sendsOn (α := Byte) _ s hs
  · exact .refl _

/-- A write that no driver sees. -/
theorem modState_sendsOn {f : State → State} (h : ∀ s, (f s).slot i = s.slot i) : (modState f).SendsOn i := fun s _ =>
  show (s.slot i).SendsOn ((f s).slot i) from h s ▸ .refl _

theorem modSlot_sendsOn (j : Nat) {f : DriverState → DriverState} (h : ∀ d : DriverState, d.SendsOn (f d)) :
    (modSlot j f).SendsOn i := fun s _ => by
  show (s.slot i).SendsOn ((s.setSlot j _).slot i)
  rw [setSlot_slot]
  split
  · subst j; exact h _
  · exact .refl _

/-- Any write to the driver of another slot. -/
theorem setSlot_other_sendsOn {j : Nat} (hj : i ≠ j) (f : State → DriverState) :
    (modState fun s => s.setSlot j (f s)).SendsOn i := modState_sendsOn fun s => setSlot_slot_other s j _ hj

theorem modEngine_sendsOn (j : Nat) {f : Engine → Engine} (h : ∀ e : Engine, e.SendsOn (f e)) :
    (modEngine j f).SendsOn i := modSlot_sendsOn j fun d => .mapEng h d

theorem modPu_sendsOn (u : Nat) (f : PulseUnit → PulseUnit) : (modPu u f).SendsOn i := modState_sendsOn fun _ => rfl

theorem modSu_sendsOn (u : Nat) (f : SerialUnit → SerialUnit) : (modSu u f).SendsOn i := modState_sendsOn fun _ => rfl

theorem answer_sendsOn (r : Reply) : (answer r).SendsOn i := modState_sendsOn fun _ => rfl

theorem logDiag_sendsOn (j : Nat) (d : DiagDetail) : (logDiag j d).SendsOn i := modState_sendsOn fun _ => rfl

theorem drawPeriphInit_sendsOn (j : Nat) : (drawPeriphInit j).SendsOn i := fun s _ => by
  unfold drawPeriphInit
  split <;> exact .refl _

theorem drawPersistLoad_sendsOn : drawPersistLoad.SendsOn i := fun s _ => by
  unfold drawPersistLoad
  split <;> exact .refl _

theorem forEach_sendsOn {f : Nat → Op Unit} (hf : ∀ j, (f j).SendsOn i) : ∀ xs, (forEach f xs).SendsOn i
  | [] => pure_sendsOn ()
  | j :: rest => (hf j).bind fun _ => forEach_sendsOn hf rest

/-! ## The sequencers and the fills -/

theorem drvNextByte_sendsOn (j : Nat) : (drvNextByte j).SendsOn i :=
  (engineOf_reads j _).seqSendsOn fun _ => getState_reads.seqSendsOn fun s => by
    cases encoderCfg (s.slot j).cfg with
    | none => exact fun _ _ => trivial
    | some c =>
      have hsource : ∀ k n, (sourceIndex c k n).SendsOn i := fun k n =>
        .ite ((entryOf_sendsOn _ _).bind fun _ => pure_sendsOn _) (pure_sendsOn _)
      exact (hsource _ _).bind fun _ => (bufRead_sendsOn _).bind fun _ =>
        .bind (modEngine_sendsOn j fun _ => .of_core rfl rfl rfl rfl) fun _ => entryOf_sendsOn _ _

theorem setPulseSeq_sendsOn (j : Nat) (q : PulseSeq) : (setPulseSeq j q).SendsOn i :=
  modEngine_sendsOn j fun e => withPulseSeq_sendsOn e q

theorem setSerialSeq_sendsOn (j : Nat) (q : SerialSeq) : (setSerialSeq j q).SendsOn i :=
  modEngine_sendsOn j fun e => withSerialSeq_sendsOn e q

theorem peEmitBit_sendsOn (j : Nat) (l : PulseLatch) (q : PulseSeq) (b : Byte) : (peEmitBit j l q b).SendsOn i :=
  (xlatLookupPulse_reads j _).seqSendsOn fun _ =>
    have hset : ∀ q' (p : PulseDescriptor), (do setPulseSeq j q'; pure p).SendsOn i := fun q' _ =>
      (setPulseSeq_sendsOn j q').bind fun _ => pure_sendsOn _
    .ite ((drvMoreData_reads j).seqSendsOn fun _ => hset _ _) (hset _ _)

/-- A pass of PE_NEXT_ITEM (R194). -/
theorem pePass_sendsOn (j : Nat) : (pePass j).SendsOn i :=
  (pulseEngineOf_reads j).seqSendsOn fun ⟨_, q, l⟩ => (latched_reads l _).seqSendsOn fun l => by
    have hmove : ∀ q' (r : Option (Option PulseDescriptor)), (do setPulseSeq j q'; pure r).SendsOn i := fun q' r =>
      (setPulseSeq_sendsOn j q').bind fun _ => pure_sendsOn r
    have hitem : ∀ q' x, (do setPulseSeq j q'; let p ← xlatLookupPulse j x; pure (some (some p))).SendsOn i :=
      fun q' x => (setPulseSeq_sendsOn j q').bind fun _ => (xlatLookupPulse_reads j x).seqSendsOn fun _ =>
        pure_sendsOn _
    have hbit : ∀ q' b, (do let p ← peEmitBit j l q' b; pure (some (some p))).SendsOn i := fun q' b =>
      (peEmitBit_sendsOn j l q' b).bind fun _ => pure_sendsOn _
    cases q.phase with
    | preIdle => exact .ite (hitem _ _) (hmove _ _)
    | data =>
      cases q.curByte with
      | some b => exact hbit q b
      | none =>
        exact (drvMoreData_reads j).seqSendsOn fun _ =>
          .ite ((drvNextByte_sendsOn j).bind fun _ => hbit _ _) (hmove _ _)
    | gap => exact hitem _ _
    | postIdle => exact .ite (hitem _ _) (hmove _ _)
    | done => exact pure_sendsOn _

/-- A pass of SE_NEXT_ITEM (R226). -/
theorem sePass_sendsOn (j : Nat) : (sePass j).SendsOn i :=
  (serialEngineOf_reads j).seqSendsOn fun ⟨_, q, l⟩ => (latched_reads l _).seqSendsOn fun l => by
    have hmove : ∀ q' (r : Option (Option Byte)), (do setSerialSeq j q'; pure r).SendsOn i := fun q' r =>
      (setSerialSeq_sendsOn j q').bind fun _ => pure_sendsOn r
    have hfixed : ∀ xs next, (do seFixed j q xs next; pure none : Op (Option (Option Byte))).SendsOn i :=
      fun xs next => .bind (by unfold seFixed; split <;> exact setSerialSeq_sendsOn j _) fun _ => pure_sendsOn _
    cases q.curByte with
    | some b =>
      have hgroup : ∀ q' : SerialSeq, (do
          setSerialSeq j q'
          let x ← xlatLookupSerial j (group b q.groupIdx l.G)
          pure (some (some x))).SendsOn i := fun q' =>
        (setSerialSeq_sendsOn j q').bind fun _ => (xlatLookupSerial_reads j _).sendsOn.bind fun _ => pure_sendsOn _
      exact .ite (hgroup _) (hgroup _)
    | none =>
      cases q.sphase with
      | framePrefix => exact (drvMoreData_reads j).seqSendsOn fun _ => hfixed _ _
      | pixelPrefix => exact hfixed _ _
      | pixelData =>
        exact (drvMoreData_reads j).seqSendsOn fun _ => .ite
          ((drvNextByte_sendsOn j).bind fun _ => (serialEngineOf_reads j).seqSendsOn fun _ =>
            (drvMoreData_reads j).seqSendsOn fun _ => hmove _ _)
          (hmove _ _)
      | pixelSuffix => exact (drvMoreData_reads j).seqSendsOn fun _ => hfixed _ _
      | frameSuffix =>
        simp only
        split <;> exact hmove _ _
      | done => exact pure_sendsOn _

theorem passLoop_sendsOn {pass : Op (Option (Option α))} (h : pass.SendsOn i) : ∀ n, (passLoop pass n).SendsOn i
  | 0 => fun _ _ => trivial
  | n + 1 => h.bind fun r => by
    cases r with
    | some p => exact pure_sendsOn p
    | none => exact passLoop_sendsOn h n

theorem peNextItem_sendsOn (j : Nat) : (peNextItem j).SendsOn i := by
  rw [peNextItem, peLoop_eq]
  exact passLoop_sendsOn (pePass_sendsOn j) 3

theorem seNextItem_sendsOn (j : Nat) : (seNextItem j).SendsOn i := by
  rw [seNextItem, seLoop_eq]
  exact passLoop_sendsOn (sePass_sendsOn j) 5

theorem peFillLoop_sendsOn (j : Nat) : ∀ n, (peFillLoop j n).SendsOn i
  | 0 => pure_sendsOn ()
  | n + 1 =>
    (pulseEngineOf_reads j).seqSendsOn fun _ => getState_reads.seqSendsOn fun _ => .ite
      (.bind (peNextItem_sendsOn j) fun r => by
        cases r with
        | some p => exact (modPu_sendsOn _ _).bind fun _ => peFillLoop_sendsOn j n
        | none => exact peFillLoop_sendsOn j n)
      (pure_sendsOn ())

theorem seFillLoop_sendsOn (j : Nat) : ∀ n, (seFillLoop j n).SendsOn i
  | 0 => pure_sendsOn ()
  | n + 1 =>
    (serialEngineOf_reads j).seqSendsOn fun _ => getState_reads.seqSendsOn fun _ => .ite
      (.bind (seNextItem_sendsOn j) fun r => by
        cases r with
        | some x => exact (modSu_sendsOn _ _).bind fun _ => seFillLoop_sendsOn j n
        | none => exact seFillLoop_sendsOn j n)
      (pure_sendsOn ())

theorem peFill_sendsOn (j : Nat) : (peFill j).SendsOn i := getState_reads.seqSendsOn fun _ => peFillLoop_sendsOn j _

theorem seFill_sendsOn (j : Nat) : (seFill j).SendsOn i := getState_reads.seqSendsOn fun _ => seFillLoop_sendsOn j _

end Sys2Proof.Machine
end

section
/-! SUPPORT. The frame of a Draining engine (R380, R381, R382, R389): the engines' commands, the driver and the manager
keep off it, and only its end (R196, R228) changes the engine's transmission state. -/

namespace Sys2Proof.Machine

variable {α β : Type} {i j : Nat}

/-! ## Operations that keep off a Draining engine -/

/-- After the engine of slot `j` is read: where `j` is slot `i`, the engine is Draining. -/
theorem engine_seqSendsOn {x : Op (Engine × β)} {f : Engine × β → Op α}
    (hx : ∀ s, Ends (fun a t => t = s ∧ (s.slot j).eng = some a.1) (fun _ => False) True (x s))
    (hf : ∀ a, (i = j → a.1.tstate = .draining) → (f a).SendsOn i) : (x >>= f).SendsOn i := fun s hs =>
  Ends.bind ((hx s).mono (fun _ _ => id) (fun _ => False.elim) id) fun a _ ⟨ht, he⟩ =>
    ht ▸ hf a (fun hj => tstate_of_draining (hj ▸ hs) he) s hs

theorem pulseEngine_seqSendsOn {f : Engine × PulseSeq × Option PulseLatch → Op α}
    (hf : ∀ a, (i = j → a.1.tstate = .draining) → (f a).SendsOn i) : (pulseEngineOf j >>= f).SendsOn i :=
  engine_seqSendsOn (fun s => (pulseEngineOf_ends j s).mono (fun _ _ ⟨ht, he, _⟩ => ⟨ht, he⟩) (fun _ => id) id) hf

theorem serialEngine_seqSendsOn {f : Engine × SerialSeq × Option SerialLatch → Op α}
    (hf : ∀ a, (i = j → a.1.tstate = .draining) → (f a).SendsOn i) : (serialEngineOf j >>= f).SendsOn i :=
  engine_seqSendsOn (fun s => (serialEngineOf_ends j s).mono (fun _ _ ⟨ht, he, _⟩ => ⟨ht, he⟩) (fun _ => id) id) hf

/-- What follows a fault's guard runs only when the guard lets it pass. -/
theorem raiseIf_seqSendsOn {c : Bool} {f : FaultRecord} {g : Unit → Op α} (hg : c = false → (g ()).SendsOn i) :
    (raiseIf c f >>= g).SendsOn i := by
  cases c with
  | true => exact fun s hs => raise_sendsOn (α := α) f s hs
  | false => exact fun s hs => hg rfl s hs

/-- What follows a step's guard runs only when the guard lets it pass. -/
theorem guardStep_seqSendsOn {c : Bool} {m : String} {g : Unit → Op α} (hg : c = true → (g ()).SendsOn i) :
    (guardStep c m >>= g).SendsOn i := by
  cases c with
  | true => exact fun s hs => hg rfl s hs
  | false => exact fun _ _ => trivial

/-- An operation on slot `j` that first raises a fault where the slot's driver drains: past it, `j` is not slot `i`. -/
theorem drainGuard_sendsOn {c : DriverState → Bool} (hc : ∀ d : DriverState, d.draining = true → c d = true)
    {f : FaultRecord} {g : State → Op α} (hg : i ≠ j → ∀ s, (g s).SendsOn i) :
    (do let s ← getState; raiseIf (c (s.slot j)) f; g s).SendsOn i := fun s hs => by
  refine raiseIf_seqSendsOn (fun hpass => hg (fun hj => ?_) s) s hs
  rw [← hj, hc _ hs] at hpass
  cases hpass

theorem modSlot_other_sendsOn (hj : i ≠ j) (f : DriverState → DriverState) : (modSlot j f).SendsOn i :=
  setSlot_other_sendsOn hj _

theorem modEngine_other_sendsOn (hj : i ≠ j) (f : Engine → Engine) : (modEngine j f).SendsOn i :=
  modSlot_other_sendsOn hj _

/-! ## The engines -/

theorem peBegin_sendsOn (j : Nat) : (peBegin j).SendsOn i :=
  pulseEngine_seqSendsOn fun a ha => getState_reads.seqSendsOn fun s => raiseIf_seqSendsOn fun hpass => by
    have hj : i ≠ j := fun hj => of_decide_eq_false hpass (ha hj)
    cases pulseConstantsOf s.board (s.slot j).variant with
    | none => exact fun _ _ => trivial
    | some pc =>
      exact (refuseIf_reads _ _).seqSendsOn fun _ => (modEngine_other_sendsOn hj _).bind fun _ => modPu_sendsOn _ _

theorem seBegin_sendsOn (j : Nat) : (seBegin j).SendsOn i :=
  serialEngine_seqSendsOn fun a ha => getState_reads.seqSendsOn fun s => raiseIf_seqSendsOn fun hpass => by
    have hj : i ≠ j := fun hj => of_decide_eq_false hpass (ha hj)
    cases serialConstantsOf s.board (s.slot j).variant with
    | none => exact fun _ _ => trivial
    | some pc =>
      exact (xlatBuildSerial_reads _ _ _ _).seqSendsOn fun _ => (refuseIf_reads _ _).seqSendsOn fun _ =>
        (refuseIf_reads _ _).seqSendsOn fun _ => (modEngine_other_sendsOn hj _).bind fun _ => modSu_sendsOn _ _

/-- A frame's start in another slot (R193). -/
theorem peStartFrame_sendsOn (hj : i ≠ j) : (peStartFrame j).SendsOn i :=
  (pulseEngineOf_reads j).seqSendsOn fun _ => (setSlot_other_sendsOn hj _).bind fun _ =>
    (modPu_sendsOn _ _).bind fun _ => (peFill_sendsOn j).bind fun _ => (modEngine_other_sendsOn hj _).bind fun _ =>
      modPu_sendsOn _ _

/-- A frame's start in another slot (R225). -/
theorem seStartFrame_sendsOn (hj : i ≠ j) : (seStartFrame j).SendsOn i :=
  (serialEngineOf_reads j).seqSendsOn fun _ => (setSlot_other_sendsOn hj _).bind fun _ =>
    (modSu_sendsOn _ _).bind fun _ => (seFill_sendsOn j).bind fun _ => (modEngine_other_sendsOn hj _).bind fun _ =>
      modSu_sendsOn _ _

theorem not_transmitting_ne {e : Engine} (he : i = j → e.tstate = .draining) (h : (!e.tstate.transmitting) = true) :
    i ≠ j := fun hj => by rw [he hj] at h; cases h

theorem puEmit_sendsOn (j : Nat) : (puEmit j).SendsOn i :=
  (pulseEngineOf_reads j).seqSendsOn fun a => getState_reads.seqSendsOn fun s =>
    (guardStep_reads _ _).seqSendsOn fun _ => by
    cases (s.pu a.1.unit).ring with
    | nil => exact fun _ _ => trivial
    | cons d rest => exact modPu_sendsOn _ _

theorem suShift_sendsOn (j : Nat) : (suShift j).SendsOn i :=
  (serialEngineOf_reads j).seqSendsOn fun a => getState_reads.seqSendsOn fun s =>
    (guardStep_reads _ _).seqSendsOn fun _ => by
    cases (s.su a.1.unit).fifo with
    | nil => exact fun _ _ => trivial
    | cons x rest => exact modSu_sendsOn _ _

/-! ## The driver -/

theorem drvConstruct_sendsOn (j : Nat) (v : Variant) : (drvConstruct j v).SendsOn i :=
  drainGuard_sendsOn (c := DriverState.transmitting) (fun _ => transmitting_of_draining) fun hj s =>
    (refuseIf_reads _ _).seqSendsOn fun _ => (refuseIf_reads _ _).seqSendsOn fun _ => by
      cases engineFor v (s.periph j) with
      | none => exact fun _ _ => trivial
      | some eng => exact modSlot_other_sendsOn hj _

theorem quietUnit_sendsOn (e : Engine) : (quietUnit e).SendsOn i := by
  unfold quietUnit
  cases e.kind with
  | pulse => exact modPu_sendsOn _ _
  | serial => exact modSu_sendsOn _ _

theorem drvStop_sendsOn (j : Nat) : (drvStop j).SendsOn i :=
  getState_reads.seqSendsOn fun s => by
    cases (s.slot j).eng with
    | none => exact pure_sendsOn ()
    | some e =>
      exact (raiseIf_sendsOn _ _).bind fun _ => .bind (modEngine_sendsOn j fun _ => .of_core rfl rfl rfl rfl) fun _ =>
        quietUnit_sendsOn e

theorem engineBegin_sendsOn (j : Nat) : (engineBegin j).SendsOn i :=
  getState_reads.seqSendsOn fun s => by
    cases engineKindOf (s.slot j).variant with
    | none => exact pure_sendsOn ()
    | some k =>
      cases k with
      | pulse => exact peBegin_sendsOn j
      | serial => exact seBegin_sendsOn j

theorem startFrame_sendsOn (hj : i ≠ j) : (startFrame j).SendsOn i :=
  getState_reads.seqSendsOn fun s => by
    cases engineKindOf (s.slot j).variant with
    | none => exact pure_sendsOn ()
    | some k =>
      cases k with
      | pulse => exact peStartFrame_sendsOn hj
      | serial => exact seStartFrame_sendsOn hj

theorem drvBegin_sendsOn (j : Nat) : (drvBegin j).SendsOn i :=
  drainGuard_sendsOn (c := DriverState.draining) (fun _ => id) fun hj _ => .ite (pure_sendsOn ())
    (.ite
      ((drawPeriphInit_sendsOn j).bind fun _ =>
        .ite ((engineBegin_sendsOn j).bind fun _ => modSlot_other_sendsOn hj _)
          ((modSlot_other_sendsOn hj _).bind fun _ => logDiag_sendsOn j _))
      (modSlot_other_sendsOn hj _))

theorem drvSetConfig_sendsOn (j : Nat) (params : ParamObject) : (drvSetConfig j params).SendsOn i :=
  drainGuard_sendsOn (c := DriverState.draining) (fun _ => id) fun hj s => .ite (pure_sendsOn ())
    (.ite
      (by
        cases mergeDriverCfg (s.slot j).cfg params with
        | none => exact fun _ _ => trivial
        | some c =>
          exact (refuseIf_reads _ _).seqSendsOn fun _ => (modSlot_other_sendsOn hj _).bind fun _ =>
            .ite (engineBegin_sendsOn j) (pure_sendsOn ()))
      (modSlot_other_sendsOn hj _))

/-- A Render of a Draining engine only counts a drop (R258). -/
theorem drvRender_sendsOn (j : Nat) : (drvRender j).SendsOn i := fun s hs => by
  rw [drvRender, op_bind_ok (getState_run s)]
  cases he : (s.slot j).eng with
  | none => exact .refl _
  | some e =>
    have hdrop : (modSlot j fun d => { d with droppedCount := countUp d.droppedCount }).SendsOn i :=
      modSlot_sendsOn j fun d => .of_records d _ _
    by_cases hj : i = j
    · subst hj
      have htransmits : (e.tstate.transmitting || !s.frameDue (s.slot i) e) = true := by
        rw [tstate_of_draining hs he]; rfl
      simp only [htransmits, if_true]
      exact Op.SendsOn.ite (pure_sendsOn ()) hdrop s hs
    · exact Op.SendsOn.ite (pure_sendsOn ()) (.ite hdrop (startFrame_sendsOn hj)) s hs

theorem drvPause_sendsOn (j : Nat) : (drvPause j).SendsOn i := modSlot_sendsOn j fun d => .of_records d _ _

theorem drvResume_sendsOn (j : Nat) : (drvResume j).SendsOn i :=
  getState_reads.seqSendsOn fun _ => modSlot_sendsOn j fun d => .of_records d _ _

theorem drvSetBuffer_sendsOn (j offset length : Nat) : (drvSetBuffer j offset length).SendsOn i :=
  drainGuard_sendsOn (c := DriverState.transmitting) (fun _ => transmitting_of_draining) fun hj _ =>
    (refuseIf_reads _ _).seqSendsOn fun _ => modSlot_other_sendsOn hj _

/-! ## The manager -/

theorem mgrResolveEntry_sendsOn (j : Nat) (doc : ConfigDoc) : (mgrResolveEntry j doc).SendsOn i :=
  getState_reads.seqSendsOn fun s => by
    cases resolve s j doc with
    | bind v p => exact pure_sendsOn _
    | bad r => exact (logDiag_sendsOn j _).bind fun _ => pure_sendsOn _

theorem applySlot_sendsOn (doc : ConfigDoc) (j : Nat) : (applySlot doc j).SendsOn i :=
  (mgrResolveEntry_sendsOn j doc).bind fun _ => getState_reads.seqSendsOn fun _ =>
    .ite (drvSetConfig_sendsOn j _)
      ((drvStop_sendsOn j).bind fun _ => (drvConstruct_sendsOn j _).bind fun _ =>
        (drvSetConfig_sendsOn j _).bind fun _ => drvBegin_sendsOn j)

theorem mgrApplyConfig_sendsOn (doc : ConfigDoc) : (mgrApplyConfig doc).SendsOn i :=
  getState_reads.seqSendsOn fun _ => forEach_sendsOn (applySlot_sendsOn doc) _

theorem mgrNotifyCapacity_sendsOn : mgrNotifyCapacity.SendsOn i := modState_sendsOn fun _ => rfl

theorem partitionSlot_sendsOn (j off : Nat) : (partitionSlot j off).SendsOn i :=
  getState_reads.seqSendsOn fun _ =>
    have hslice : ∀ n m, (do drvSetBuffer j off n; pure m : Op Nat).SendsOn i := fun n _ =>
      (drvSetBuffer_sendsOn j off n).bind fun _ => pure_sendsOn _
    .ite ((logDiag_sendsOn j _).bind fun _ => hslice _ _) (hslice _ _)

theorem partitionFrom_sendsOn : ∀ (xs : List Nat) (off : Nat), (partitionFrom off xs).SendsOn i
  | [], _ => pure_sendsOn _
  | j :: rest, off => (partitionSlot_sendsOn j off).bind fun next => partitionFrom_sendsOn rest next

theorem mgrUpdatePartition_sendsOn : mgrUpdatePartition.SendsOn i :=
  getState_reads.seqSendsOn fun _ => (partitionFrom_sendsOn _ 0).bind fun _ =>
    .bind (modState_sendsOn fun _ => rfl) fun _ => mgrNotifyCapacity_sendsOn

theorem loadDoc_sendsOn : loadDoc.SendsOn i :=
  drawPersistLoad_sendsOn.bind fun r => getState_reads.seqSendsOn fun _ => by
    cases r with
    | some doc => exact pure_sendsOn doc
    | none => exact .bind (modState_sendsOn fun _ => rfl) fun _ => pure_sendsOn _

theorem mgrBegin_sendsOn : mgrBegin.SendsOn i :=
  have hinit : ∀ j, (initSlot j).SendsOn i := fun j => (drvConstruct_sendsOn j _).bind fun _ => drvBegin_sendsOn j
  getState_reads.seqSendsOn fun _ => .ite (pure_sendsOn ())
    ((refuseIf_reads _ _).seqSendsOn fun _ => (forEach_sendsOn hinit _).bind fun _ => loadDoc_sendsOn.bind fun doc =>
      (mgrApplyConfig_sendsOn doc).bind fun _ => mgrUpdatePartition_sendsOn.bind fun _ => modState_sendsOn fun _ => rfl)

theorem mgrReload_sendsOn : mgrReload.SendsOn i :=
  .bind (modState_sendsOn fun _ => rfl) fun _ => getState_reads.seqSendsOn fun s =>
    (forEach_sendsOn drvPause_sendsOn _).bind fun _ => .ite (pure_sendsOn ()) (by
      cases s.pending with
      | none => exact fun _ _ => trivial
      | some doc =>
        exact (mgrApplyConfig_sendsOn doc).bind fun _ => mgrUpdatePartition_sendsOn.bind fun _ =>
          .bind (modState_sendsOn fun _ => rfl) fun _ => forEach_sendsOn drvResume_sendsOn _)

theorem mgrRender_sendsOn : mgrRender.SendsOn i :=
  have hopen : (do
      let t ← getState
      if t.pending ≠ none ∨ t.userPaused = true then pure ()
      else modState fun s => { s with renderPos := some 0 }).SendsOn i :=
    getState_reads.seqSendsOn fun _ => .ite (pure_sendsOn ()) (modState_sendsOn fun _ => rfl)
  getState_reads.seqSendsOn fun _ => .ite (mgrReload_sendsOn.bind fun _ => hopen) hopen

theorem renderSubstep_sendsOn : renderSubstep.SendsOn i :=
  getState_reads.seqSendsOn fun s => by
    cases s.renderPos with
    | none => exact fun _ _ => trivial
    | some j => exact (drvRender_sendsOn j).bind fun _ => modState_sendsOn fun _ => rfl

theorem mgrPause_sendsOn : mgrPause.SendsOn i :=
  .bind (modState_sendsOn fun _ => rfl) fun _ => getState_reads.seqSendsOn fun _ => forEach_sendsOn drvPause_sendsOn _

theorem mgrResume_sendsOn : mgrResume.SendsOn i :=
  .bind (modState_sendsOn fun _ => rfl) fun _ => getState_reads.seqSendsOn fun _ => forEach_sendsOn drvResume_sendsOn _

theorem hostBufWrite_sendsOn (a : Nat) (v : Byte) : (hostBufWrite a v).SendsOn i :=
  getState_reads.seqSendsOn fun s => (raiseIf_sendsOn _ _).bind fun _ => by
    cases s.slotIndices.find? (fun k => (s.slot k).ownsDuringFrame a) with
    | none => exact modState_sendsOn fun _ => rfl
    | some j => exact raise_sendsOn _

/-! ## The end of a frame -/

/-- Where slot `i`'s engine is Draining, its frame is the same after the operation; the engine's transmission state may
differ. -/
def Op.KeepsFrame (i : Nat) (x : Op α) : Prop :=
  ∀ s, (s.slot i).draining = true →
    Ends (fun _ t => (s.slot i).SameFrame (t.slot i)) (fun t => (s.slot i).SameFrame (t.slot i)) True (x s)

theorem Op.SendsOn.keepsFrame {x : Op α} (h : x.SendsOn i) : x.KeepsFrame i := fun s hs =>
  (h s hs).mono (fun _ _ ht => ht.sameFrame) (fun _ => id) id

/-- While the frame sends on, another operation may follow. -/
theorem Op.SendsOn.seq {x : Op α} {f : α → Op β} (hx : x.SendsOn i) (hf : ∀ a, (f a).KeepsFrame i) :
    (x >>= f).KeepsFrame i := fun s hs => (hx s hs).bind fun a t ht =>
  (hf a t (ht.draining hs)).mono (fun _ _ h => h.after ht) (fun _ h => h.after ht) id

theorem Op.Reads.seqKeepsFrame {x : Op α} {f : α → Op β} (hx : x.Reads fun _ => True) (hf : ∀ a, (f a).KeepsFrame i) :
    (x >>= f).KeepsFrame i := hx.sendsOn.seq hf

theorem Op.KeepsFrame.ite {c : Prop} [Decidable c] {x y : Op α} (hx : x.KeepsFrame i) (hy : y.KeepsFrame i) :
    (if c then x else y).KeepsFrame i := by split <;> assumption

theorem setSlot_sameFrame {s : State} {d : DriverState} (h : (s.slot j).SameFrame d) :
    (s.slot i).SameFrame ((s.setSlot j d).slot i) := by
  rw [setSlot_slot]
  split
  · subst j; exact h
  · exact .refl _

theorem modEngine_keepsFrame (j : Nat) {f : Engine → Engine} (h : ∀ e : Engine, e.SameFrame (f e)) :
    (modEngine j f).KeepsFrame i := fun _ _ => setSlot_sameFrame (.mapEng h _)

/-- An underrun's last writes (R196, R228): the error counted, the engine as `f` leaves it, the unit cleared by a write
that no driver sees, and the fault. -/
theorem underrun_keepsFrame (j : Nat) {f : Engine → Engine} (h : ∀ e : Engine, e.SameFrame (f e))
    {clear : State → State} (hclear : ∀ s, (clear s).slot i = s.slot i) :
    (do
      modSlot j fun d => { d.mapEng f with hwErrorCount := countUp d.hwErrorCount }
      modState clear
      raise (.underrun j) : Op Unit).KeepsFrame i := fun s _ => by
  simp only [op_bind, modSlot_run, modState_run, raise_run, Ends, addFault_slot, hclear]
  exact setSlot_sameFrame (.of_map h rfl rfl rfl rfl rfl rfl)

theorem peIsr_keepsFrame (j : Nat) : (peIsr j).KeepsFrame i :=
  (pulseEngineOf_reads j).seqKeepsFrame fun _ => getState_reads.seqKeepsFrame fun _ => .ite
    ((modPu_sendsOn _ _).seq fun _ => .ite (modEngine_keepsFrame j ended_sameFrame)
      (underrun_keepsFrame j (fun e => (ended_sameFrame e).trans (withPulseSeq_sendsOn _ _).toSameFrame) fun _ => rfl))
    (.ite ((modPu_sendsOn _ _).bind fun _ => .ite (peFill_sendsOn j) (pure_sendsOn ())).keepsFrame
      (pure_sendsOn ()).keepsFrame)

theorem seIsr_keepsFrame (j : Nat) : (seIsr j).KeepsFrame i :=
  (serialEngineOf_reads j).seqKeepsFrame fun _ => getState_reads.seqKeepsFrame fun _ => .ite
    ((modSu_sendsOn _ _).seq fun _ => .ite (modEngine_keepsFrame j ended_sameFrame)
      (underrun_keepsFrame j (fun e => (ended_sameFrame e).trans (withSerialSeq_sendsOn _ _).toSameFrame) fun _ => rfl))
    (.ite ((modSu_sendsOn _ _).bind fun _ => .ite (seFill_sendsOn j) (pure_sendsOn ())).keepsFrame
      (pure_sendsOn ()).keepsFrame)

theorem irqEntry_keepsFrame (j : Nat) : (irqEntry j).KeepsFrame i :=
  getState_reads.seqKeepsFrame fun s => by
    cases (s.slot j).eng with
    | none => exact fun _ _ => trivial
    | some e =>
      refine (guardStep_reads _ _).seqKeepsFrame fun _ => ?_
      cases e.kind with
      | pulse => exact peIsr_keepsFrame j
      | serial => exact seIsr_keepsFrame j

theorem toIdle_sameFrame (e : Engine) : e.SameFrame { e with tstate := .idle } := ⟨latches_of_core rfl, rfl, rfl⟩

theorem peIdle_keepsFrame (j : Nat) : (peIdle j).KeepsFrame i :=
  (pulseEngineOf_reads j).seqKeepsFrame fun _ => getState_reads.seqKeepsFrame fun _ =>
    (guardStep_reads _ _).seqKeepsFrame fun _ => modEngine_keepsFrame j toIdle_sameFrame

theorem seIdle_keepsFrame (j : Nat) : (seIdle j).KeepsFrame i :=
  (serialEngineOf_reads j).seqKeepsFrame fun _ => getState_reads.seqKeepsFrame fun _ =>
    (guardStep_reads _ _).seqKeepsFrame fun _ => modEngine_keepsFrame j toIdle_sameFrame

end Sys2Proof.Machine
end

section
/-! SUPPORT. The frame of a Draining engine (R380, R381, R382, R389): what every instruction and every step keeps of it,
and of the bytes of its slice (R94, R97). -/

namespace Sys2Proof.Machine

section frames

variable {α β : Type} {i j : Nat} {s t : State}

/-! ## The instructions -/

/-- A refusal is no write to a frame. -/
theorem runStep_keepsFrame {x : Op Unit} (hs : (s.slot i).draining = true) (h : runStep s x = .next t)
    (hx : x.KeepsFrame i) : (s.slot i).SameFrame (t.slot i) := runStep_ends h (hx s hs) fun _ => .refl _

theorem runStep_sendsOn {x : Op Unit} (hs : (s.slot i).draining = true) (h : runStep s x = .next t)
    (hx : x.SendsOn i) : (s.slot i).SameFrame (t.slot i) := runStep_keepsFrame hs h hx.keepsFrame

theorem onSlot_sendsOn (j : Nat) {x : Op α} (hx : x.SendsOn i) : (do admitSlot j; x).SendsOn i :=
  (admitSlot_reads j).seqSendsOn fun _ => hx

theorem onSlot_keepsFrame (j : Nat) {x : Op α} (hx : x.KeepsFrame i) : (do admitSlot j; x).KeepsFrame i :=
  (admitSlot_reads j).seqKeepsFrame fun _ => hx

theorem mainLoop_sendsOn {m : String} {x : Op Unit} (hx : x.SendsOn i) : (do admitBegun; admitTurn m; x).SendsOn i :=
  admitBegun_reads.seqSendsOn fun _ => (admitTurn_reads m).seqSendsOn fun _ => hx

theorem onKind_sendsOn (j : Nat) (k : EngineKind) {x : Op α} (hx : x.SendsOn i) :
    (do admitSlot j; admitKind j k; x).SendsOn i :=
  onSlot_sendsOn j ((admitKind_reads j k).seqSendsOn fun _ => hx)

/-- An operation on the pulse engine of slot `j`, behind its guard. -/
theorem onPulseEngine_sendsOn {c : Engine × PulseSeq × Option PulseLatch → Bool} {m : String}
    {f : Engine × PulseSeq × Option PulseLatch → Op α} (hf : ∀ a, (f a).SendsOn i) :
    (do admitSlot j; let a ← pulseEngineOf j; guardStep (c a) m; f a).SendsOn i :=
  onSlot_sendsOn j ((pulseEngineOf_reads j).seqSendsOn fun a => (guardStep_reads _ _).seqSendsOn fun _ => hf a)

/-- An operation on the serial engine of slot `j`, behind its guard. -/
theorem onSerialEngine_sendsOn {c : Engine × SerialSeq × Option SerialLatch → Bool} {m : String}
    {f : Engine × SerialSeq × Option SerialLatch → Op α} (hf : ∀ a, (f a).SendsOn i) :
    (do admitSlot j; let a ← serialEngineOf j; guardStep (c a) m; f a).SendsOn i :=
  onSlot_sendsOn j ((serialEngineOf_reads j).seqSendsOn fun a => (guardStep_reads _ _).seqSendsOn fun _ => hf a)

/-- A value that was read is returned. -/
theorem Op.SendsOn.answered {x : Op α} (hx : x.SendsOn i) (r : α → Reply) :
    (do let a ← x; answer (r a)).SendsOn i := hx.bind fun _ => answer_sendsOn _

/-- No instruction changes the frame of a Draining engine. -/
theorem exec_sameFrame {ins : Instr} (hs : (s.slot i).draining = true) (h : exec ins s = .next t) :
    (s.slot i).SameFrame (t.slot i) := by
  cases ins with
  | peIsr j =>
    exact runStep_keepsFrame hs h (onSlot_keepsFrame j ((pulseEngineOf_reads j).seqKeepsFrame fun _ =>
      (guardStep_reads _ _).seqKeepsFrame fun _ => peIsr_keepsFrame j))
  | seIsr j =>
    exact runStep_keepsFrame hs h (onSlot_keepsFrame j ((serialEngineOf_reads j).seqKeepsFrame fun _ =>
      (guardStep_reads _ _).seqKeepsFrame fun _ => seIsr_keepsFrame j))
  | irqEntry j => exact runStep_keepsFrame hs h (onSlot_keepsFrame j (irqEntry_keepsFrame j))
  | peIdle j => exact runStep_keepsFrame hs h (onSlot_keepsFrame j (peIdle_keepsFrame j))
  | seIdle j => exact runStep_keepsFrame hs h (onSlot_keepsFrame j (seIdle_keepsFrame j))
  | peStartFrame j =>
    exact runStep_sendsOn hs h (onSlot_sendsOn j (pulseEngine_seqSendsOn fun _ ha => guardStep_seqSendsOn fun hpass =>
      peStartFrame_sendsOn (not_transmitting_ne ha hpass)))
  | seStartFrame j =>
    exact runStep_sendsOn hs h (onSlot_sendsOn j (serialEngine_seqSendsOn fun _ ha => guardStep_seqSendsOn fun hpass =>
      seStartFrame_sendsOn (not_transmitting_ne ha hpass)))
  | peBegin j => exact runStep_sendsOn hs h (onSlot_sendsOn j (peBegin_sendsOn j))
  | seBegin j => exact runStep_sendsOn hs h (onSlot_sendsOn j (seBegin_sendsOn j))
  | peNextItem j => exact runStep_sendsOn hs h (onPulseEngine_sendsOn fun _ => (peNextItem_sendsOn j).answered _)
  | seNextItem j => exact runStep_sendsOn hs h (onSerialEngine_sendsOn fun _ => (seNextItem_sendsOn j).answered _)
  | peFill j => exact runStep_sendsOn hs h (onPulseEngine_sendsOn fun _ => peFill_sendsOn j)
  | seFill j => exact runStep_sendsOn hs h (onSerialEngine_sendsOn fun _ => seFill_sendsOn j)
  | puStart j => exact runStep_sendsOn hs h (onPulseEngine_sendsOn fun _ => modPu_sendsOn _ _)
  | suStart j => exact runStep_sendsOn hs h (onSerialEngine_sendsOn fun _ => modSu_sendsOn _ _)
  | puEmit j => exact runStep_sendsOn hs h (onSlot_sendsOn j (puEmit_sendsOn j))
  | suShift j => exact runStep_sendsOn hs h (onSlot_sendsOn j (suShift_sendsOn j))
  | timerTick n =>
    exact runStep_sendsOn hs h ((admitOperands_reads _).seqSendsOn fun _ => modState_sendsOn fun _ => rfl)
  | hostBufWrite a v => exact runStep_sendsOn hs h (hostBufWrite_sendsOn a v)
  | mgrBegin => exact runStep_sendsOn hs h ((admitTurn_reads _).seqSendsOn fun _ => mgrBegin_sendsOn)
  | mgrSetConfig doc =>
    exact runStep_sendsOn hs h ((admitOperands_reads _).seqSendsOn fun _ =>
      mainLoop_sendsOn (modState_sendsOn fun _ => rfl))
  | mgrGetConfig => exact runStep_sendsOn hs h (mainLoop_sendsOn (answer_sendsOn _))
  | mgrGetStatus => exact runStep_sendsOn hs h (mainLoop_sendsOn (answer_sendsOn _))
  | mgrRender => exact runStep_sendsOn hs h (mainLoop_sendsOn mgrRender_sendsOn)
  | mgrPause => exact runStep_sendsOn hs h (mainLoop_sendsOn mgrPause_sendsOn)
  | mgrResume => exact runStep_sendsOn hs h (mainLoop_sendsOn mgrResume_sendsOn)
  | mgrReload => exact runStep_sendsOn hs h ((guardStep_reads _ _).seqSendsOn fun _ => mgrReload_sendsOn)
  | mgrApplyConfig doc =>
    exact runStep_sendsOn hs h ((admitOperands_reads _).seqSendsOn fun _ => (guardStep_reads _ _).seqSendsOn fun _ =>
      mgrApplyConfig_sendsOn doc)
  | mgrResolveEntry j doc =>
    exact runStep_sendsOn hs h (onSlot_sendsOn j ((admitOperands_reads _).seqSendsOn fun _ =>
      (mgrResolveEntry_sendsOn j doc).answered _))
  | mgrUpdatePartition =>
    exact runStep_sendsOn hs h ((guardStep_reads _ _).seqSendsOn fun _ => mgrUpdatePartition_sendsOn)
  | mgrNotifyCapacity => exact runStep_sendsOn (x := mgrNotifyCapacity) hs h mgrNotifyCapacity_sendsOn
  | drvConstruct j v => exact runStep_sendsOn hs h (onSlot_sendsOn j (drvConstruct_sendsOn j v))
  | drvStop j => exact runStep_sendsOn hs h (onSlot_sendsOn j (drvStop_sendsOn j))
  | drvBegin j => exact runStep_sendsOn hs h (onSlot_sendsOn j (mainLoop_sendsOn (drvBegin_sendsOn j)))
  | drvSetConfig j p =>
    exact runStep_sendsOn hs h (onSlot_sendsOn j ((admitOperands_reads _).seqSendsOn fun _ =>
      mainLoop_sendsOn (drvSetConfig_sendsOn j p)))
  | drvGetConfig j => exact runStep_sendsOn hs h (onSlot_sendsOn j (mainLoop_sendsOn (answer_sendsOn _)))
  | drvRender j => exact runStep_sendsOn hs h (onSlot_sendsOn j (mainLoop_sendsOn (drvRender_sendsOn j)))
  | drvGetStatus j => exact runStep_sendsOn hs h (onSlot_sendsOn j (mainLoop_sendsOn (answer_sendsOn _)))
  | drvPause j => exact runStep_sendsOn hs h (onSlot_sendsOn j (drvPause_sendsOn j))
  | drvResume j => exact runStep_sendsOn hs h (onSlot_sendsOn j (drvResume_sendsOn j))
  | drvSetBuffer j o n => exact runStep_sendsOn hs h (onSlot_sendsOn j (drvSetBuffer_sendsOn j o n))
  | drvMoreData j =>
    exact runStep_sendsOn hs h (onSlot_sendsOn j ((drvMoreData_reads j).seqSendsOn fun _ => answer_sendsOn _))
  | drvNextByte j =>
    exact runStep_sendsOn hs h (onSlot_sendsOn j ((drvMoreData_reads j).seqSendsOn fun _ =>
      (guardStep_reads _ _).seqSendsOn fun _ => (drvNextByte_sendsOn j).answered _))
  | drvNeeded j => exact runStep_sendsOn hs h (onSlot_sendsOn j (answer_sendsOn _))
  | xlatSplit b G => exact runStep_sendsOn hs h ((xlatSplit_reads b G).seqSendsOn fun _ => answer_sendsOn _)
  | xlatLookupPulse j c =>
    exact runStep_sendsOn hs h (onKind_sendsOn j _ ((xlatLookupPulseCode_reads j c).seqSendsOn fun _ =>
      answer_sendsOn _))
  | xlatLookupSerial j g =>
    exact runStep_sendsOn hs h (onKind_sendsOn j _ ((xlatLookupSerial_reads j g).sendsOn.answered _))
  | xlatBuildSerial G S H0 H1 =>
    exact runStep_sendsOn hs h ((xlatBuildSerial_reads G S H0 H1).seqSendsOn fun _ => answer_sendsOn _)
  | xlatEncodePulse j b =>
    exact runStep_sendsOn hs h (onKind_sendsOn j _ ((xlatEncodePulse_reads j b).seqSendsOn fun _ => answer_sendsOn _))
  | xlatEncodeSerial j b =>
    exact runStep_sendsOn hs h (onKind_sendsOn j _ ((xlatEncodeSerial_reads j b).sendsOn.answered _))

/-! ## The bytes of the slice -/

/-- A store into the slice of a Draining engine's driver does not happen: it raises a fault (R94, R97). -/
theorem exec_sliceByte {ins : Instr} (hi : s.hasSlot i) (hs : (s.slot i).draining = true) (h : exec ins s = .next t)
    {a : Nat} (hlo : (s.slot i).offset ≤ a) (hhi : a < (s.slot i).offset + (s.slot i).length) :
    t.byte a = s.byte a := by
  by_cases hins : ∃ b v, ins = .hostBufWrite b v
  · obtain ⟨b, v, rfl⟩ := hins
    refine runStep_ends h (P := fun t => t.byte a = s.byte a) ?_ fun _ => rfl
    by_cases hb : s.board.totalBufferSize ≤ b
    · rw [hostBufWrite_outside v hb]
      exact addFault_byte s _ a
    rw [hostBufWrite_inside v (Nat.lt_of_not_le hb)]
    cases howner : s.frameOwner b with
    | some k => exact addFault_byte s _ a
    | none =>
      have hne : a ≠ b := by
        rintro rfl
        have howns := (DriverState.ownsDuringFrame_iff _ a).mpr ⟨transmitting_of_draining hs, hlo, hhi⟩
        rw [frameOwner_eq_none.mp howner i hi] at howns
        cases howns
      exact (setByte_byte s b v a).trans (if_neg hne)
  · have hbuf : t.buf = s.buf := ((onlyTheirOwnersWrite.1 ins s t h).1 fun b v he => hins ⟨b, v, he⟩)
    rw [State.byte, hbuf]
    rfl

/-! ## The steps -/

/-- The driver of slot `i` keeps its frame from `s` to `t`, and so does every byte of its slice. -/
def FrameProtected (i : Nat) (s t : State) : Prop :=
  (s.slot i).SameFrame (t.slot i) ∧
    ∀ a, (s.slot i).offset ≤ a → a < (s.slot i).offset + (s.slot i).length → t.byte a = s.byte a

theorem FrameProtected.refl (i : Nat) (s : State) : FrameProtected i s s := ⟨.refl _, fun _ _ _ => rfl⟩

theorem runCommand_frameProtected {c : Command} (hi : s.hasSlot i) (hs : (s.slot i).draining = true)
    (h : runCommand c s = .next t) : FrameProtected i s t := by
  have hrefuse : ∀ {x : Op Unit}, (x.Reads fun _ => True) → runStep s x = .next t → FrameProtected i s t :=
    fun hx hrun => runStep_ends hrun ((hx s).mono (fun _ _ ht => ht ▸ .refl i s) (fun _ => False.elim) id)
      fun _ => FrameProtected.refl i s
  unfold runCommand at h
  cases hd : decode c with
  | instr ins => rw [hd] at h; exact ⟨exec_sameFrame hs h, fun _ => exec_sliceByte hi hs h⟩
  | unassigned => rw [hd] at h; exact hrefuse (refuse_reads _) h
  | badSlot => rw [hd] at h; exact hrefuse (refuse_reads _) h
  | illFormed op slot => rw [hd] at h; exact hrefuse (refuseRecord_reads op slot) h

theorem stepRenderSubstep_frameProtected (hs : (s.slot i).draining = true) (h : stepRenderSubstep s = .next t) :
    FrameProtected i s t := by
  obtain ⟨hbuf, -⟩ := onlyTheirOwnersWrite.2 s t h
  exact ⟨runStep_sendsOn hs h renderSubstep_sendsOn, fun a _ _ => by rw [State.byte, hbuf]; rfl⟩

theorem step_frameProtected (hi : s.hasSlot i) (hs : (s.slot i).draining = true) (h : step s = .next t) :
    FrameProtected i s t := by
  cases hsched : s.schedule with
  | nil =>
    rw [step_of_schedule_nil hsched] at h
    cases h
    exact .refl i _
  | cons m rest =>
    cases m with
    | command c =>
      rw [step_of_schedule_command hsched] at h
      exact runCommand_frameProtected (s := { s with schedule := rest }) hi hs h
    | renderSubstep =>
      rw [step_of_schedule_renderSubstep hsched] at h
      exact stepRenderSubstep_frameProtected (s := { s with schedule := rest }) hs h

end frames

/-- Settles O59: an operation on a Draining engine's slot either writes nothing of its frame, or stops at a fault or a
guard before it would; the end of the frame changes only the engine's transmission state and interrupts. -/
theorem drainingFramesAreProtected : Obligations.DrainingFramesAreProtected := by
  intro s t i e hi he hdraining h
  obtain ⟨hframe, hbytes⟩ := step_frameProtected hi (draining_of_tstate he hdraining) h
  obtain ⟨e', he', hlatches, hunit, hstart⟩ := hframe.eng e he
  exact ⟨e', he', sameLatch_iff.mpr hlatches, hunit, hstart, hframe.variant, hframe.status, hframe.cfg, hframe.offset,
    hframe.length, hbytes⟩

end Sys2Proof.Machine
end
